-- ==== Sys2Proof/Word.lean ====
section
/-! DEFINITION. The word types of the TM72 and a table built from a function of its index. -/

namespace Sys2Proof

/-- One octet: a bearer octet, an octet of a record, a field of a roll message. -/
abbrev Byte := BitVec 8

/-- A 16-bit field: a generation, a slip count, an update count. -/
abbrev Half := BitVec 16

/-- A value of the frame counter, and a deadline expressed as one (R149). -/
abbrev FrameNo := BitVec 32

/-- A host memory address (00: addresses are 64 bits wide). -/
abbrev Addr := BitVec 64

/-- The table of `n` values whose value at `i` is `f i`. -/
def tab {α : Type} (n : Nat) (f : Fin n → α) : Vector α n :=
  ⟨⟨(List.finRange n).map f⟩, by simp⟩

@[simp] theorem tab_getElem {α : Type} (n : Nat) (f : Fin n → α) (i : Nat) (h : i < n) :
    (tab n f)[i] = f ⟨i, h⟩ := by simp [tab]

end Sys2Proof
end

