-- ==== Sys2Proof/Config.lean ====
section
/-! DEFINITION. The constants the manual fixes for every TM72: the sizes of its tables and the lengths of its
timers, all in frames. The TM72 has no value that an implementation decides; what one site decides comes in
its configuration stream and is held in the state (R173). -/

namespace Sys2Proof.Config

/-- Family code of IDENT (13.5). -/
def familyCode : BitVec 16 := 0x3172#16
/-- Revision of IDENT (13.5). -/
def revision : BitVec 8 := 1#8

/-- Places of the admission queue (03 section 3.4). -/
def queuePlaces : Nat := 16
/-- Places of the idle watch list (03 section 3.3). -/
def watchPlaces : Nat := 16
/-- Messages a span's transmit queue holds (05 section 5.3). -/
def transmitPlaces : Nat := 32
/-- Writes the posted-write queue holds (R160). -/
def writePlaces : Nat := 8
/-- Notices the pending queue holds (R167). -/
def noticePlaces : Nat := 16
/-- Rows of the site status table (R168). -/
def statusRows : Nat := 276
/-- Greatest value of the lost count (R167). -/
def lostLimit : Nat := 65535

/-- Longest residual hold, and the greatest offset of the matcher (R9, R11). -/
def holdLimit : Nat := 15
/-- Run length at which an offset matches (R64). -/
def matchRun : Nat := 16
/-- Frames of history the matcher keeps of each path (R63). -/
def matchHistory : Nat := 31
/-- Match limit that an order value of 0 stands for (R62). -/
def defaultMatchLimit : Nat := 4000

/-- Release guard and unwind guard (R71, R74). -/
def guardFrames : Nat := 64
/-- OFFERING deadline (R47). -/
def offerFrames : Nat := 800
/-- Interval of re-sent OFFER and ROLLED (R90, R91). -/
def retryFrames : Nat := 80
/-- PEER_STALL deadline (R69). -/
def stallFrames : Nat := 16000
/-- Recheck of a PARKED runner (R28). -/
def recheckFrames : Nat := 800
/-- Recheck of the notice area (R166). -/
def noticeRecheckFrames : Nat := 64
/-- Timeout of a read (R157). -/
def readFrames : Nat := 16
/-- Quarantine of a read tag (R158). -/
def quarantineFrames : Nat := 64
/-- Timeout of a sent write (R160). -/
def writeFrames : Nat := 16
/-- NEXT records a runner follows before it faults (R29). -/
def streakLimit : Nat := 8

/-- Run count at which a span changes line state (R123, R125). -/
def lineRun : Nat := 4
/-- Good frames that end a hold-down (R126). -/
def holdDownFrames : Nat := 512
/-- Bad frame periods that make a port LOST (R137). -/
def lossRun : Nat := 3
/-- Good frame periods that make a port PRESENT (R137). -/
def recoveryRun : Nat := 16
/-- Frames between two SLIP notices of one input (R132, R141). -/
def slipNoticeFrames : Nat := 8000
/-- Report age at which an activity is no longer trusted (R144). -/
def reportAgeLimit : Nat := 8000
/-- Frames of health that qualify a timing source (R150). -/
def qualifyFrames : Nat := 8000

end Sys2Proof.Config
end

