-- ==== Sys2Proof/Syntax.lean ====
section
/-! DEFINITION. The commands of the TM72: one constructor of `Instr` for each row of spec/opcode_table.json,
and the types of their operands. The table gives its rows no operands; each operand here is what the row's rule
says the event is about (log 2). -/

namespace Sys2Proof

/-- A fibre span (00: span A and span B). -/
inductive Span where
  | a | b
  deriving DecidableEq, Repr

/-- A circuit, 0 to 255; circuit c is office port c div 32, slot c mod 32 (R1). -/
abbrev CircuitNo := Fin 256

/-- An index of the bridge table (R44). -/
abbrev BridgeNo := Fin 48

/-- A port: 0 to 7 are OP0 to OP7, 8 to 15 are LP0 to LP7 (R134). -/
abbrev PortNo := Fin 16

/-- The sense of a move (R37). -/
inductive Direction where
  | toFibre | toCopper
  deriving DecidableEq, Repr

/-- The reason of a DECLINE or an ABANDON message, in the order of R82. -/
inductive Reason where
  | notExpected | mismatch | busy | ordered | matchTimeout | noAnswer | peerStall | restart
  | groupUnwind | pathLost | concluded
  deriving DecidableEq, Repr

/-- What makes an own roll due at a frame boundary: a match (R64) or the QUICK condition (R67). -/
inductive RollCause where
  | matched | quick
  deriving DecidableEq, Repr

/-- The content of one span frame after its delimiter, as 13.4 lays it out. -/
structure SpanFrame where
  /-- octet 2: 1 TRAIN, 2 REPLY, 3 CARRY -/
  kind : Byte
  /-- octet 3: bit 0 marker, bit 1 inversion mark -/
  marks : Byte
  /-- octet 4 -/
  rank : Byte
  /-- octets 5 to 260, slot 0 first -/
  bearer : Vector Byte 256
  /-- octets 261 to 265 -/
  control : Vector Byte 5
  /-- octets 266 and 267, the first the more significant -/
  check : BitVec 16
  deriving DecidableEq, Repr

/-- What one frame period of a span's receive line brought (R121): no delimiter at all, a delimiter at the place
the previous frame's end puts it, or a delimiter at another place. -/
inductive SpanPeriod where
  | nothing
  | inPlace (f : SpanFrame)
  | elsewhere (f : SpanFrame)
  deriving DecidableEq, Repr

/-- What the internal loop of a span under PROVE returned in a frame (R129): the frame as it was sent, another
frame, or none. -/
inductive LoopReturn where
  | asSent
  | returned (f : SpanFrame)
  | nothing
  deriving DecidableEq, Repr

/-- One frame of 32 octets of a port, slot 0 first (R134). -/
abbrev PortFrame := Vector Byte 32

/-- A pulse on a FOLLOW port's sync line: the bit period in which it starts, numbered modulo 256 on the port's own
bit clock, and its length in bit periods (R135). -/
structure SyncPulse where
  place : Fin 256
  length : Nat
  deriving DecidableEq, Repr

/-- What one frame period of a port brought: the pulses of its sync line (of no concern to a DRIVE port) with the
octets received, or, for a FOLLOW port whose bit clock has stopped, nothing (R135, R136). -/
inductive PortPeriod where
  | clocked (pulses : List SyncPulse) (octets : PortFrame)
  | stopped
  deriving DecidableEq, Repr

/-- A timing source: an office port, a line port or a span (R150). -/
inductive Source where
  | office (k : Fin 8)
  | line (k : Fin 8)
  | span (s : Span)
  deriving DecidableEq, Repr

/-- The mark of a read response unit (R158). -/
inductive UnitMark where
  | more | last
  deriving DecidableEq, Repr

/-- The answer of host memory to a posted write (R160). -/
inductive WriteReply where
  | done | reject
  deriving DecidableEq, Repr

/-- The commands, one for each row of spec/opcode_table.json. -/
inductive Instr where
  /-- RESETN_RELEASE (R171). -/
  | resetnRelease
  /-- CONFIG_STREAM_END (R172): the 48 bits sampled, bit 1 of the stream the most significant. -/
  | configStreamEnd (stream : BitVec 48)
  /-- WARMN_PULSE (R174). -/
  | warmnPulse
  /-- NUDGE_START (R26). -/
  | nudgeStart (n : Fin 4)
  /-- NUDGE_STOP (R27). -/
  | nudgeStop (n : Fin 4)
  /-- NUDGE_WAKE (R28). -/
  | nudgeWake (n : Fin 4)
  /-- NUDGE_NOTICES (R166). -/
  | nudgeNotices
  /-- NUDGE_WARM (R174). -/
  | nudgeWarm
  /-- NUDGE_UNKNOWN_CODE (R25): the code written. -/
  | nudgeUnknownCode (code : BitVec 4)
  /-- BLOCK_BASE_WRITE (R36). -/
  | blockBaseWrite (value : BitVec 64)
  /-- ATTN_WRITE (R169). -/
  | attnWrite (value : BitVec 64)
  /-- ATTN_MASK_WRITE (R169). -/
  | attnMaskWrite (value : BitVec 64)
  /-- REGISTER_WRITE_DISCARD (R163): offset in the window, and the value. -/
  | registerWriteDiscard (offset value : BitVec 64)
  /-- FRAME_TICK (R148): what the internal loops of spans A and B return, read only of a span in PROVING. -/
  | frameTick (loopA loopB : LoopReturn)
  /-- OWN_ROLL (R68). -/
  | ownRoll (i : BridgeNo) (cause : RollCause)
  /-- SPAN_FRAME_RECEIVED (R120). -/
  | spanFrameReceived (sp : Span) (rx : SpanPeriod)
  /-- SPAN_TRAINED (R123). -/
  | spanTrained (sp : Span)
  /-- SPAN_ERRORS (R125). -/
  | spanErrors (sp : Span)
  /-- PEER_RESTART (R125). -/
  | peerRestart (sp : Span)
  /-- HOLD_DOWN_RECOVERED (R126). -/
  | holdDownRecovered (sp : Span)
  /-- PROVE_END (R130). -/
  | proveEnd (sp : Span)
  /-- PORT_FRAME_PERIOD (R135). -/
  | portFramePeriod (p : PortNo) (rx : PortPeriod)
  /-- PORT_LOST (R137). -/
  | portLost (p : PortNo)
  /-- PORT_RECOVERED (R137). -/
  | portRecovered (p : PortNo)
  /-- REPORT_AGE_EXPIRY (R144). -/
  | reportAgeExpiry (c : CircuitNo)
  /-- CANDIDATE_QUALIFIED (R153). -/
  | candidateQualified (src : Source)
  /-- READ_ISSUE (R157). -/
  | readIssue
  /-- READ_UNIT_ARRIVAL (R158). -/
  | readUnitArrival (tag : Fin 4) (mark : UnitMark) (error : Bool) (data : Vector Byte 32)
  /-- READ_TIMEOUT (R159). -/
  | readTimeout (tag : Fin 4)
  /-- QUARANTINE_END (R159). -/
  | quarantineEnd (tag : Fin 4)
  /-- RECHECK_EXPIRY (R28). -/
  | recheckExpiry (n : Fin 4)
  /-- WAITING_REOFFER (R39). -/
  | waitingReoffer (n : Fin 4)
  /-- FENCE_RETRY (R32). -/
  | fenceRetry (n : Fin 4)
  /-- ADMISSION_START (R42). -/
  | admissionStart
  /-- READY_ENTRY_ADMIT (R40). -/
  | readyEntryAdmit
  /-- WAIT_EXPIRY (R41): the circuit of the watch entry. -/
  | waitExpiry (c : CircuitNo)
  /-- EXPECT_WINDOW_EXPIRY (R48). -/
  | expectWindowExpiry (i : BridgeNo)
  /-- OFFER_RETRY (R90). -/
  | offerRetry (i : BridgeNo)
  /-- NO_ANSWER_EXPIRY (R90). -/
  | noAnswerExpiry (i : BridgeNo)
  /-- MATCH_DEADLINE_EXPIRY (R65). -/
  | matchDeadlineExpiry (i : BridgeNo)
  /-- PEER_STALL_EXPIRY (R92). -/
  | peerStallExpiry (i : BridgeNo)
  /-- ROLLED_RETRY (R91). -/
  | rolledRetry (i : BridgeNo)
  /-- RELEASE_GUARD_END (R71). -/
  | releaseGuardEnd (i : BridgeNo)
  /-- UNWIND_GUARD_END (R74). -/
  | unwindGuardEnd (i : BridgeNo)
  /-- OFFER_ARRIVAL (R95): span, bearer slot, txn, sender rank, direction, QUICK. -/
  | offerArrival (sp : Span) (slot : Fin 256) (txn rank : Byte) (dir : Direction) (quick : Bool)
  /-- ACCEPT_ARRIVAL (R98). -/
  | acceptArrival (sp : Span) (slot : Fin 256) (txn rank : Byte)
  /-- DECLINE_ARRIVAL (R99). -/
  | declineArrival (sp : Span) (slot : Fin 256) (txn rank : Byte) (reason : Reason)
  /-- ROLLED_ARRIVAL (R100). -/
  | rolledArrival (sp : Span) (slot : Fin 256) (txn rank : Byte)
  /-- RELEASE_ARRIVAL (R101). -/
  | releaseArrival (sp : Span) (slot : Fin 256) (txn rank : Byte)
  /-- ABANDON_ARRIVAL (R102). -/
  | abandonArrival (sp : Span) (slot : Fin 256) (txn rank : Byte) (reason : Reason)
  /-- WRITE_PLACE_GRANT (R161). -/
  | writePlaceGrant
  /-- SETTLED_WRITE (R34). -/
  | settledWrite
  /-- WRITE_ANSWER (R160). -/
  | writeAnswer (reply : WriteReply)
  /-- WRITE_TIMEOUT (R160). -/
  | writeTimeout
  /-- NOTICE_POST (R167). -/
  | noticePost
  /-- NOTICE_RECHECK (R166). -/
  | noticeRecheck
  /-- STATUS_ROW_WRITE (R168). -/
  | statusRowWrite
  /-- RESETN_HELD_LOW (R171). -/
  | resetnHeldLow
  deriving DecidableEq, Repr

end Sys2Proof
end

