-- ==== Sys2Proof/WellFormed.lean ====
section
/-! DEFINITION. Which commands the outside can send: the few ranges that the operand types do not already fix. -/

namespace Sys2Proof

/-- Codes 1 to 5 are START, STOP, WAKE, NOTICES and WARM (13.5); any other code is unknown (R25). -/
def unknownNudgeCode (code : BitVec 4) : Bool := code == 0#4 || 5#4 < code

/-- Offsets of the window whose writes are discarded: IDENT, RUNSTATE, and every offset that holds no register
(R35, R163); 0x08, 0x10, 0x20 and 0x28 are the registers that take writes (13.5). -/
def discardedOffset (offset : BitVec 64) : Bool :=
  offset != 0x08#64 && offset != 0x10#64 && offset != 0x20#64 && offset != 0x28#64

/-- A pulse lasts at least one bit period and at most one frame of 256 (R134, R135). -/
def pulseFits (p : SyncPulse) : Bool := 1 ≤ p.length && p.length ≤ 256

/-- The pulses of a frame period are pulses. -/
def periodFits : PortPeriod → Bool
  | .clocked pulses _ => pulses.all pulseFits
  | .stopped => true

/-- A command the outside can send. Every command not named here is well formed by the types of its operands. -/
def Instr.wellFormed (i : Instr) : Bool :=
  match i with
  | .nudgeUnknownCode code => unknownNudgeCode code
  | .registerWriteDiscard offset _ => discardedOffset offset
  | .portFramePeriod _ rx => periodFits rx
  | .resetnRelease | .configStreamEnd _ | .warmnPulse | .nudgeStart _ | .nudgeStop _ | .nudgeWake _
  | .nudgeNotices | .nudgeWarm | .blockBaseWrite _ | .attnWrite _ | .attnMaskWrite _ | .frameTick _ _
  | .ownRoll _ _ | .spanFrameReceived _ _ | .spanTrained _ | .spanErrors _ | .peerRestart _
  | .holdDownRecovered _ | .proveEnd _ | .portLost _ | .portRecovered _ | .reportAgeExpiry _
  | .candidateQualified _ | .readIssue | .readUnitArrival _ _ _ _ | .readTimeout _ | .quarantineEnd _
  | .recheckExpiry _ | .waitingReoffer _ | .fenceRetry _ | .admissionStart | .readyEntryAdmit
  | .waitExpiry _ | .expectWindowExpiry _ | .offerRetry _ | .noAnswerExpiry _ | .matchDeadlineExpiry _
  | .peerStallExpiry _ | .rolledRetry _ | .releaseGuardEnd _ | .unwindGuardEnd _
  | .offerArrival _ _ _ _ _ _ | .acceptArrival _ _ _ _ | .declineArrival _ _ _ _ _
  | .rolledArrival _ _ _ _ | .releaseArrival _ _ _ _ | .abandonArrival _ _ _ _ _
  | .writePlaceGrant | .settledWrite | .writeAnswer _ | .writeTimeout | .noticePost | .noticeRecheck
  | .statusRowWrite | .resetnHeldLow => true

end Sys2Proof
end

