-- ==== Sys2Proof/Machine/State.lean ====
section
/-! DEFINITION. Everything the TM72 holds, as plain data, and the part right after reset. Names are the manual's.
A field that is a number of frames ahead is held as the deadline itself, a value of the frame counter (R149). -/

namespace Sys2Proof.Machine

open Sys2Proof

/-! ### Names the manual gives to fixed sets -/

/-- The phase of the part (R35). -/
inductive Phase where
  | loading | ready | warming | configFault
  deriving DecidableEq, Repr

/-- The sync style of one side (R134). -/
inductive SyncStyle where
  | short | long
  deriving DecidableEq, Repr

/-- The clock role of a line port (R134). -/
inductive ClockRole where
  | follow | drive
  deriving DecidableEq, Repr

/-- The byte order of records in host memory (R163). -/
inductive ByteOrder where
  | little | big
  deriving DecidableEq, Repr

/-- Where a circuit runs (R2), in the order of the code table (R179). -/
inductive PathState where
  | copper | bridged | fibre | stranded | unequipped
  deriving DecidableEq, Repr

/-- The path the office-bound octet is taken from (R8). -/
inductive Receive where
  | line | span | none
  deriving DecidableEq, Repr

/-- Call activity of a circuit (R143). -/
inductive Activity where
  | idle | seized | answered | blocked | unknown
  deriving DecidableEq, Repr

/-- Role of a bridge entry; changed only by an offer collision (03 section 3.5). -/
inductive Role where
  | initiator | responder
  deriving DecidableEq, Repr

/-- Phase of a bridge entry (R45). -/
inductive BridgePhase where
  | awaitingOffer | offering | matching | rolled | releasing | unwinding
  deriving DecidableEq, Repr

/-- Result codes, in the order of their encoding from 1 to 26 (13.1). -/
inductive ResultCode where
  | done | doneForced | fallback | abandoned | forced | peerAbandoned | declined | noAnswer
  | matchTimeout | peerStall | waitExpired | expired | busy | stale | spanDown | slotTaken
  | badState | malformed | tooLate | nothing | restarted | held | unwoundByGroup | pathLost
  | spanBusy | absent
  deriving DecidableEq, Repr

/-- Line state of a span (R122). -/
inductive LineState where
  | disabled | seek | answer | inService | holdDown | proving
  deriving DecidableEq, Repr

/-- Cause name of a change of line state, in the order in which the table of R122 first names them. -/
inductive SpanCause where
  | order | trained | rankClash | errors | peerRestart | recovered | proveEnd
  deriving DecidableEq, Repr

/-- Hold-down cause (R122). -/
inductive HoldCause where
  | errors | rankClash
  deriving DecidableEq, Repr

/-- Alternation marker (R119). -/
inductive Marker where
  | even | odd
  deriving DecidableEq, Repr

/-- Frame alignment of a span's receiver (R121): held; lost and searching; or a first delimiter found, the next
one awaited one frame later. -/
inductive Alignment where
  | aligned | searching | trial
  deriving DecidableEq, Repr

/-- Kind of slip (R132, R141). -/
inductive SlipKind where
  | repeating | deleting
  deriving DecidableEq, Repr

/-- Presence of a port (R137). -/
inductive Presence where
  | present | lost
  deriving DecidableEq, Repr

/-- How a port judged a frame period (R135, R136). -/
inductive PeriodJudgement where
  | good | misplaced | missing
  deriving DecidableEq, Repr

/-- Cause of a change of presence (R139). -/
inductive PortCause where
  | missingSync | misplacedSync | noSignal | recovered
  deriving DecidableEq, Repr

/-- Cause of a change of the Frame Timing Unit (R155). -/
inductive TimingCause where
  | order | referenceLost | qualified | reverted
  deriving DecidableEq, Repr

/-- State of the Frame Timing Unit with its reference (09 section 9.4). -/
inductive FtuMode where
  | freeRun
  | locked (reference : Source)
  | holdover
  deriving DecidableEq, Repr

/-- State of a runner (R24). -/
inductive RunnerState where
  | stopped | fetching | parked | waiting | faulted
  deriving DecidableEq, Repr

/-- Fault cause of a runner (R24). -/
inductive RunnerFault where
  | none | fetchError | badAddress | nextLoop
  deriving DecidableEq, Repr

/-- State of a group entry (06 section 6.3). -/
inductive GroupState where
  | running | releasing | unwinding
  deriving DecidableEq, Repr

/-- Release gate of a group (06 section 6.3). -/
inductive Gate where
  | closed | opened
  deriving DecidableEq, Repr

/-- Form in which a freed bridge ended, as the last migration record names it (R19). -/
inductive MigrationEnd where
  | released | unwound
  deriving DecidableEq, Repr

/-- Kind of roll message, in the order of its codes 1 to 6 (13.1). -/
inductive MessageKind where
  | offer | accept | decline | rolled | release | abandon
  deriving DecidableEq, Repr

/-- Cause of a memory fault (R162). -/
inductive MemoryCause where
  | reject | timeout
  deriving DecidableEq, Repr

/-! ### Site configuration -/

/-- The fields of an accepted configuration stream (R173). -/
structure SiteConfig where
  rank : Byte
  signallingSlot : Fin 32
  signallingPresent : Bool
  officeSync : SyncStyle
  lineSync : SyncStyle
  clockRoles : Vector ClockRole 8
  byteOrder : ByteOrder
  idleCode : Byte
  spanAPresent : Bool
  spanBPresent : Bool
  deriving DecidableEq, Repr

/-- What stands in place of the stream's fields while none is applied: rank 0 (R35), little-endian (00), the rest
a choice (log 5). -/
def SiteConfig.unset : SiteConfig where
  rank := 0
  signallingSlot := 0
  signallingPresent := false
  officeSync := .short
  lineSync := .short
  clockRoles := tab 8 fun _ => .follow
  byteOrder := .little
  idleCode := 0
  spanAPresent := false
  spanBPresent := false

/-! ### Channel Map -/

/-- A line position (00): line port and slot. -/
structure LinePos where
  port : Fin 8
  slot : Fin 32
  deriving DecidableEq, Repr

/-- A bearer slot (00): span and slot. -/
structure BearerSlot where
  span : Span
  slot : Fin 256
  deriving DecidableEq, Repr

/-- The last migration record of a circuit (R19). -/
structure MigrationRecord where
  bearer : BearerSlot
  txn : Byte
  role : Role
  outcome : MigrationEnd
  deriving DecidableEq, Repr

/-- The circuit entry (01). Its kind is fixed by the configuration (R1) and its activity is the Activity
Monitor's (R20); both are views and are not stored twice. -/
structure Circuit where
  pathState : PathState
  linePos : Option LinePos
  vacated : Option LinePos
  bearer : Option BearerSlot
  receive : Receive
  lineFeed : Bool
  spanFeed : Bool
  /-- residual hold, 0 to 15 -/
  hold : Nat
  generation : Half
  bridgeIndex : Option BridgeNo
  groupIndex : Option (Fin 4)
  lastMigration : Option MigrationRecord
  deriving DecidableEq, Repr

/-- The alignment store of a circuit (R9): the octets of each path, the present frame's first, and what the seam
still owes (R11). An octet from before a path was held is absent and reads as the line-side idle code. -/
structure AlignStore where
  lineHistory : List Byte
  spanHistory : List Byte
  repeatsDue : Nat
  lastDelivered : Option Byte
  deriving DecidableEq, Repr

/-- An entry of the line occupancy table (R4). -/
inductive LineUse where
  | free
  | occupied (c : CircuitNo)
  | vacated (c : CircuitNo)
  deriving DecidableEq, Repr

/-- The use of a bearer slot (R5). -/
inductive SlotUse where
  | free
  | assigned (c : CircuitNo)
  | bridged (c : CircuitNo)
  deriving DecidableEq, Repr

/-- An entry of the span occupancy table (R5). -/
structure SlotEntry where
  use : SlotUse
  lastCircuit : Option CircuitNo
  deriving DecidableEq, Repr

/-! ### Orders -/

/-- The order reference an owner holds (R23): the runner and the record, with what settling the record needs of
it: the quiet flag, the order tag, and for a GROUP the member list as the runner fetched it (R179). -/
structure OrderRef where
  runner : Fin 4
  addr : Addr
  quiet : Bool
  tag : BitVec 32
  memberList : List Byte
  deriving DecidableEq, Repr

/-- The content of a MIGRATE, an EXPECT or a GROUP member (R37). The match limit is stored as 800 to 65,535. -/
structure MoveOrder where
  circuit : CircuitNo
  direction : Direction
  span : Span
  slot : Fin 256
  target : Option LinePos
  expectedGeneration : Option Half
  quick : Bool
  matchLimit : Nat
  deriving DecidableEq, Repr

/-- What an admission queue entry asks for (03 section 3.4). -/
inductive QueueBody where
  | migrate (m : MoveOrder)
  | expect (m : MoveOrder) (window : Nat)
  | group (members : List MoveOrder)
  deriving DecidableEq, Repr

/-- An entry of the admission queue (03 section 3.4). -/
structure QueueEntry where
  ref : OrderRef
  body : QueueBody
  deriving DecidableEq, Repr

/-- What a watch entry waits to do (03 section 3.3). -/
inductive WatchBody where
  | migrate (m : MoveOrder)
  | trim
  deriving DecidableEq, Repr

/-- An entry of the idle watch list (03 section 3.3). -/
structure WatchEntry where
  ref : OrderRef
  circuit : CircuitNo
  body : WatchBody
  deadline : Option FrameNo
  readyMark : Option FrameNo
  deriving DecidableEq, Repr

/-! ### Bridge table and group table -/

/-- The matcher of an entry in MATCHING (R63): the octets of each path since the window began, the present
frame's first, at most 31, and the run count of each offset from −15 to 15; offsets below `lowest` are not
admissible (R62). -/
structure Matcher where
  toHistory : List Byte
  fromHistory : List Byte
  runs : List Nat
  lowest : Int
  deriving DecidableEq, Repr

/-- A bridge entry in use (03 section 3.5). -/
structure Bridge where
  circuit : CircuitNo
  direction : Direction
  role : Role
  bearer : BearerSlot
  linePos : LinePos
  txn : Option Byte
  phase : BridgePhase
  quick : Bool
  peerRolled : Bool
  offset : Option Int
  forced : Bool
  matchLimit : Nat
  repeats : Nat
  skipped : Nat
  deadline : Option FrameNo
  retryDue : Option FrameNo
  pending : Bool
  ref : Option OrderRef
  /-- group index, and the member's number in the group -/
  group : Option (Fin 4 × Nat)
  outcome : Option ResultCode
  unwindReason : Option Reason
  /-- reason of the DECLINE or ABANDON received (R103) -/
  peerReason : Option Reason
  matcher : Option Matcher
  /-- frame in which a match was found whose roll is not yet made (R64) -/
  matchDue : Option FrameNo
  /-- frame in which the QUICK condition was met whose roll is not yet made (R67) -/
  quickDue : Option FrameNo
  /-- the receive has moved to the to-path (R73) -/
  rolled : Bool
  /-- the from-path counts as lost (R70) -/
  fromLost : Bool
  /-- the unwind's cause was a DECLINE, so no ABANDON is sent (R73) -/
  declined : Bool
  /-- the entry is freed as soon as its ABANDON is placed (R77) -/
  freeOnPlace : Bool
  /-- the target was the circuit's own vacated position, and is vacated again if the move unwinds (R3) -/
  ontoVacated : Bool
  deriving DecidableEq, Repr

/-- The result values of a freed entry (R50). -/
structure FreedValues where
  generation : Half
  pathState : PathState
  role : Role
  txn : Option Byte
  offset : Option Int
  repeats : Nat
  skipped : Nat
  hold : Nat
  peerReason : Option Reason
  deriving DecidableEq, Repr

/-- An item of a group's member list (06 section 6.3). -/
structure GroupMember where
  circuit : CircuitNo
  bridge : Option BridgeNo
  counted : Bool
  ended : Option (ResultCode × FreedValues)
  deriving DecidableEq, Repr

/-- A group entry in use (06 section 6.3). -/
structure Group where
  ref : OrderRef
  members : List GroupMember
  count : Nat
  gate : Gate
  state : GroupState
  cause : Option Nat
  deriving DecidableEq, Repr

/-! ### Roll protocol and spans -/

/-- A roll message (R82). `direction` and `quick` belong to OFFER, `reason` to DECLINE and ABANDON. -/
structure RollMessage where
  kind : MessageKind
  slot : Fin 256
  txn : Byte
  rank : Byte
  direction : Direction
  quick : Bool
  reason : Option Reason
  deriving DecidableEq, Repr

/-- Who placed a queued message (R86): the bridge entry that still stands, an entry since freed, or an answer. -/
inductive MessageOwner where
  | entry (i : BridgeNo)
  | freedEntry
  | answer
  deriving DecidableEq, Repr

/-- A message of a transmit queue (05 section 5.3). -/
structure QueuedMessage where
  message : RollMessage
  owner : MessageOwner
  deriving DecidableEq, Repr

/-- A PROVE test in progress (R129, R130): the order it will settle, the frames asked for and sent, and the
loop's own balance and markers. -/
structure ProveRun where
  ref : Option OrderRef
  asked : Nat
  sent : Nat
  balance : Int
  lastSent : Marker
  reference : Marker
  deriving DecidableEq, Repr

/-- One frame of bearer octets, as a span elastic store holds it (R131). -/
abbrev BearerFrame := Vector Byte 256

/-- The state of one span: its framer (07) and its part of the RPU (05). -/
structure SpanState where
  line : LineState
  cause : Option SpanCause
  holdCause : Option HoldCause
  peerRank : Option Byte
  good : Nat
  errored : Nat
  train : Nat
  holdDown : Nat
  balance : Int
  lastSent : Marker
  reference : Marker
  alignment : Alignment
  store : List BearerFrame
  lastRead : BearerFrame
  erroredFrames : Half
  slips : Half
  lastSlipNotice : Option FrameNo
  prove : Option ProveRun
  proveChecked : Half
  proveErrored : Half
  txQueue : List QueuedMessage
  txnCounter : Byte
  /-- roll messages taken from received frames and not yet decided, oldest first (R83) -/
  arrivals : List RollMessage
  /-- the frame sent in the present frame period (R116) -/
  sending : Option SpanFrame
  deriving DecidableEq, Repr

/-- One value for each span. -/
structure PerSpan (α : Type) where
  a : α
  b : α
  deriving DecidableEq, Repr

/-! ### Ports, activity, timing -/

/-- The state of one port (08). -/
structure Port where
  presence : Presence
  loss : Nat
  recovery : Nat
  frameTiming : Option (Fin 256)
  trialTiming : Option (Fin 256)
  /-- the judgement of the last bad frame period, the cause of a loss (R139) -/
  lastBad : PeriodJudgement
  cause : Option PortCause
  changeFrame : Option FrameNo
  rxStore : List PortFrame
  lastRead : PortFrame
  txStore : List PortFrame
  /-- the frame last sent or being sent by the port's transmitter -/
  sending : Option PortFrame
  slips : Half
  txSlips : Half
  invalidReports : Half
  lastSlipNotice : Option FrameNo
  deriving DecidableEq, Repr

/-- What the Activity Monitor holds for a circuit (08 section 8.5). -/
structure Monitor where
  activity : Activity
  candidate : Option Activity
  age : Nat
  deriving DecidableEq, Repr

/-- The Frame Timing Unit (09). Counts 0 to 7 are of the office ports, 8 to 15 of the line ports, 16 and 17 of
the spans. The rate held in HOLDOVER is named by the source it was learnt from (log 15). -/
structure Ftu where
  mode : FtuMode
  candidates : List Source
  revertive : Bool
  counts : Vector Nat 18
  lastCause : Option TimingCause
  lastChange : Option FrameNo
  heldRate : Option Source
  deriving DecidableEq, Repr

/-! ### Runners and the memory port -/

/-- Why a WAITING runner waits (R31, R32, R39): for a place in the admission queue, on the watch list or in the
posted-write queue (log 8), or, at a FENCE, for its open orders. -/
inductive WaitFor where
  | queuePlace | watchPlace | writePlace | fence
  deriving DecidableEq, Repr

/-- The record a WAITING runner holds: its units as they were fetched (R24). -/
structure HeldRecord where
  units : List Byte
  why : WaitFor
  deriving DecidableEq, Repr

/-- What a runner has asked the memory port to read (R26, R28); `discarded` is a read whose data STOP has given
up (R27). -/
inductive ReadUse where
  | controlBlock
  | firstUnit
  | remainder (first : List Byte)
  | discarded
  deriving DecidableEq, Repr

/-- A runner (R24). -/
structure Runner where
  state : RunnerState
  cursor : Addr
  openCount : Nat
  streak : Nat
  recheck : Option FrameNo
  fault : RunnerFault
  held : Option HeldRecord
  reading : Option ReadUse
  /-- an accepted START waits for the discarded read to end (R26) -/
  startPending : Bool
  /-- a take was made at this runner's cursor since its first-unit read was issued (R28) -/
  raced : Bool
  /-- it has been told of a released place and has not yet re-offered (R39) -/
  told : Bool
  deriving DecidableEq, Repr

/-- Who asks for a read (R157). -/
inductive Reader where
  | runner (n : Fin 4)
  | notices
  deriving DecidableEq, Repr

/-- A read request (R157): a multiple of 32 and a length in bytes. -/
structure ReadRequest where
  reader : Reader
  addr : Addr
  length : Nat
  deriving DecidableEq, Repr

/-- A read tag (R157 to R159). -/
inductive Tag where
  | free
  | outstanding (request : ReadRequest) (units : Nat) (data : List Byte) (deadline : FrameNo)
  | quarantined (deadline : FrameNo)
  deriving DecidableEq, Repr

/-- Whose write a posted write is (R160, R162). A result write and a SETTLED write name the settle they belong
to. -/
inductive Claimant where
  | taken (n : Fin 4)
  | result (settle : Nat)
  | settled (settle : Nat)
  | notice
  | row (r : Nat)
  deriving DecidableEq, Repr

/-- A posted write (R160). -/
structure PostedWrite where
  addr : Addr
  data : List Byte
  claimant : Claimant
  deriving DecidableEq, Repr

/-- A runner claim that waits for a place in the posted-write queue (R161): a take that cannot write its TAKEN
word yet, a result write, or the SETTLED word of a record whose result writes are all done. Each names the runner that
makes it. -/
inductive WriteClaim where
  | take (n : Fin 4)
  | result (n : Fin 4) (w : PostedWrite)
  | settled (n : Fin 4) (settle : Nat)
  deriving DecidableEq, Repr

/-- A record being settled (R34): its result writes that have not yet been answered done. -/
structure Settle where
  id : Nat
  ref : OrderRef
  code : ResultCode
  writesLeft : Nat
  deriving DecidableEq, Repr

/-- The System Memory Port (10). `sent` is the deadline of the head of the queue once it has been sent. `claims` are the
runner claims that wait, in the order in which they were made; `held` are, for each runner, the claims it has not made
yet because an earlier one of its own still waits, oldest first, those of one settle together (R161). -/
structure Smp where
  tags : Vector Tag 4
  waiting : List ReadRequest
  writes : List PostedWrite
  sent : Option FrameNo
  claims : List WriteClaim
  held : Vector (List (List WriteClaim)) 4
  deriving DecidableEq, Repr

/-! ### Notice Engine -/

/-- The fields of a notice, by kind (R165). -/
inductive NoticeBody where
  | orderSettled (runner : Fin 4) (addr : Addr) (tag : BitVec 32) (code : ResultCode)
  | stranded (c : CircuitNo)
  | heldConcluded (c : CircuitNo) (outcome : ResultCode) (values : FreedValues)
  | spanState (sp : Span) (left entered : LineState) (cause : SpanCause) (hold : Option HoldCause)
  | portState (port : PortNo) (entered : Presence) (cause : PortCause)
  | slip (input : Source) (kind : SlipKind) (count : Half)
  | timingState (left entered : FtuMode) (priority : Option Nat) (cause : TimingCause)
  | runnerFault (runner : Fin 4) (cause : RunnerFault) (cursor : Addr)
  | memoryFault (addr : Addr) (cause : MemoryCause) (byRow : Bool)
  | overflow (lost : Nat)
  deriving DecidableEq, Repr

/-- A notice with its frame stamp (R165). -/
structure Notice where
  stamp : FrameNo
  body : NoticeBody
  deriving DecidableEq, Repr

/-- The latched bases (R21). -/
structure Bases where
  noticeBase : Addr
  entries : Nat
  statusBase : Addr
  deriving DecidableEq, Repr

/-- The Notice Engine (11). `reading` is present while a read of notice entries is waiting or outstanding, and
says whether its first entry is to be disregarded (R166). -/
structure Nte where
  bases : Option Bases
  position : Nat
  credits : Nat
  reread : Bool
  recheck : Option FrameNo
  reading : Option Bool
  pending : List Notice
  lost : Nat
  dirty : List Nat
  updates : Vector Half 276
  deriving DecidableEq, Repr

/-! ### Why a command could stop -/

/-- Faults: none. Every row of the table has an effect in every state, so no command stops the machine; what the
manual calls a fault is state (a FAULTED runner, CONFIG_FAULT, the ATTN causes). Raised by no one; safe. -/
inductive Fault where
  deriving DecidableEq, Repr

/-- Refusals. -/
inductive Refusal where
  /-- Raised by `exec` for a row that has no meaning yet, naming it; safe. No arm raises it. -/
  | notModelled (mnemonic : String)
  deriving DecidableEq, Repr

end Sys2Proof.Machine

namespace Sys2Proof.Machine

open Sys2Proof

/-- Everything the TM72 holds, and the queue of the commands that are waiting, first in, first out. -/
structure State where
  phase : Phase
  resetLow : Bool
  counter : FrameNo
  cfg : SiteConfig
  blockBase : Addr
  attn : BitVec 6
  attnMask : BitVec 6
  circuits : Vector Circuit 256
  align : Vector AlignStore 256
  lineOcc : Vector LineUse 256
  spanOcc : PerSpan (Vector SlotEntry 256)
  /-- octets taken from the office slots, transmitted in the following frame (R7) -/
  officeIn : Vector Byte 256
  /-- octets on the office-bound slots in the present frame (R8) -/
  officeOut : Vector Byte 256
  /-- octets on the line positions in the present frame (R7) -/
  lineOut : Vector Byte 256
  queue : List QueueEntry
  watch : List WatchEntry
  bridges : Vector (Option Bridge) 48
  groups : Vector (Option Group) 4
  spans : PerSpan SpanState
  ports : Vector Port 16
  monitors : Vector Monitor 256
  ftu : Ftu
  runners : Vector Runner 4
  settles : List Settle
  nextSettle : Nat
  smp : Smp
  nte : Nte
  pending : List Instr
  deriving DecidableEq, Repr

/-- The office idle code: the line-side code with its bits of weight 64, 16, 4 and 1 inverted (R173). -/
def SiteConfig.officeIdle (cfg : SiteConfig) : Byte := cfg.idleCode ^^^ 0x55#8

/-- Circuit c's own line position LPk/s, with k its office port and s its slot (R4, R20). -/
def LinePos.ofIndex (i : Fin 256) : LinePos :=
  ⟨⟨i.val / 32, by omega⟩, ⟨i.val % 32, by omega⟩⟩

/-- A circuit after cold start (R20). -/
def Circuit.cold (c : CircuitNo) : Circuit where
  pathState := .copper
  linePos := some (LinePos.ofIndex c)
  vacated := none
  bearer := none
  receive := .line
  lineFeed := true
  spanFeed := false
  hold := 0
  generation := 0
  bridgeIndex := none
  groupIndex := none
  lastMigration := none

/-- A span after cold start, in the given line state (R133). -/
def SpanState.cold (line : LineState) (idle : Byte) : SpanState where
  line := line
  cause := none
  holdCause := none
  peerRank := none
  good := 0
  errored := 0
  train := 0
  holdDown := 0
  balance := 0
  lastSent := .even
  reference := .even
  alignment := .searching
  store := []
  lastRead := tab 256 fun _ => idle
  erroredFrames := 0
  slips := 0
  lastSlipNotice := none
  prove := none
  proveChecked := 0
  proveErrored := 0
  txQueue := []
  txnCounter := 0
  arrivals := []
  sending := none

/-- A port after cold start (R147). -/
def Port.cold (idle : Byte) : Port where
  presence := .lost
  loss := 0
  recovery := 0
  frameTiming := none
  trialTiming := none
  lastBad := .missing
  cause := none
  changeFrame := none
  rxStore := []
  lastRead := tab 32 fun _ => idle
  txStore := []
  sending := none
  slips := 0
  txSlips := 0
  invalidReports := 0
  lastSlipNotice := none

/-- A runner after cold start (R24). -/
def Runner.cold : Runner where
  state := .stopped
  cursor := 0
  openCount := 0
  streak := 0
  recheck := none
  fault := .none
  held := none
  reading := none
  startPending := false
  raced := false
  told := false

/-- The cold-start values of every block for a site configuration, in a given phase and at a given frame
(R171 to R173). -/
def State.cold (phase : Phase) (counter : FrameNo) (cfg : SiteConfig) (queue : List Instr) : State where
  phase := phase
  resetLow := false
  counter := counter
  cfg := cfg
  blockBase := 0
  attn := 0
  attnMask := 0
  circuits := tab 256 Circuit.cold
  align := tab 256 fun _ => ⟨[], [], 0, none⟩
  lineOcc := tab 256 fun c => .occupied c
  spanOcc := ⟨tab 256 fun _ => ⟨.free, none⟩, tab 256 fun _ => ⟨.free, none⟩⟩
  officeIn := tab 256 fun _ => cfg.officeIdle
  officeOut := tab 256 fun _ => cfg.officeIdle
  lineOut := tab 256 fun _ => cfg.idleCode
  queue := []
  watch := []
  bridges := tab 48 fun _ => none
  groups := tab 4 fun _ => none
  spans := ⟨SpanState.cold .disabled cfg.idleCode, SpanState.cold .disabled cfg.idleCode⟩
  ports := tab 16 fun p => Port.cold (if p.val < 8 then cfg.officeIdle else cfg.idleCode)
  monitors := tab 256 fun _ => ⟨.unknown, none, 0⟩
  ftu :=
    { mode := .freeRun, candidates := [], revertive := false, counts := tab 18 fun _ => 0,
      lastCause := none, lastChange := none, heldRate := none }
  runners := tab 4 fun _ => Runner.cold
  settles := []
  nextSettle := 0
  smp := { tags := tab 4 fun _ => .free, waiting := [], writes := [], sent := none, claims := [],
           held := tab 4 fun _ => [] }
  nte :=
    { bases := none, position := 0, credits := 0, reread := false, recheck := none, reading := none,
      pending := [], lost := 0, dirty := List.range 276, updates := tab 276 fun _ => 0 }
  pending := queue

/-- The part right after reset: RESETn has been released and LOADING has begun (R171). -/
def State.reset : State := State.cold .loading 0 SiteConfig.unset []

end Sys2Proof.Machine
end

