-- ==== Sys2Proof/Machine/Ops.lean ====
section
/-! DEFINITION. The named reads and writes of the state: every other file of the machine reads and changes the
state through these. The frame counter and its deadlines (R149) are here too. -/

namespace Sys2Proof.Machine

open Sys2Proof

/-! ### Positions -/

/-- The number of a line position, 32 × port + slot; also its octet in a record (13.1). -/
def LinePos.index (p : LinePos) : Fin 256 := ⟨32 * p.port.val + p.slot.val, by omega⟩

/-- The number of the line port that carries a line position. -/
def linePort (k : Fin 8) : PortNo := ⟨8 + k.val, by omega⟩

/-- The number of an office port. -/
def officePort (k : Fin 8) : PortNo := ⟨k.val, by omega⟩

/-- The office port of a circuit, c div 32 (R1). -/
def officePortOf (c : CircuitNo) : Fin 8 := ⟨c.val / 32, by omega⟩

/-- The slot of a circuit, c mod 32 (R1). -/
def officeSlotOf (c : CircuitNo) : Fin 32 := ⟨c.val % 32, by omega⟩

/-- The circuit of slot s of office port k, 32k + s (R1, R142). -/
def circuitAt (k : Fin 8) (slot : Fin 32) : CircuitNo := ⟨32 * k.val + slot.val, by omega⟩

/-- The side of a port: an office port, or a line port with its number. -/
def lineNumber (p : PortNo) : Option (Fin 8) :=
  if h : 8 ≤ p.val then some ⟨p.val - 8, by omega⟩ else none

/-- The number of an office port, or none for a line port. -/
def officeNumber (p : PortNo) : Option (Fin 8) :=
  if h : p.val < 8 then some ⟨p.val, h⟩ else none

/-- The source that a port is, whether or not it can be a timing source (13.3). -/
def portSource (p : PortNo) : Source :=
  if h : p.val < 8 then .office ⟨p.val, h⟩ else .line ⟨p.val - 8, by omega⟩

/-! ### One value per span -/

def PerSpan.get {α : Type} (p : PerSpan α) : Span → α
  | .a => p.a
  | .b => p.b

def PerSpan.set {α : Type} (p : PerSpan α) (sp : Span) (x : α) : PerSpan α :=
  match sp with
  | .a => { p with a := x }
  | .b => { p with b := x }

/-! ### Reads -/

namespace State

def circuit (s : State) (c : CircuitNo) : Circuit := s.circuits[c.val]
def alignOf (s : State) (c : CircuitNo) : AlignStore := s.align[c.val]
def lineUse (s : State) (p : LinePos) : LineUse := s.lineOcc[p.index.val]
def slotEntry (s : State) (b : BearerSlot) : SlotEntry := (s.spanOcc.get b.span)[b.slot.val]
def bridge (s : State) (i : BridgeNo) : Option Bridge := s.bridges[i.val]
def group (s : State) (g : Fin 4) : Option Group := s.groups[g.val]
def span (s : State) (sp : Span) : SpanState := s.spans.get sp
def port (s : State) (p : PortNo) : Port := s.ports[p.val]
def monitor (s : State) (c : CircuitNo) : Monitor := s.monitors[c.val]
def runner (s : State) (n : Fin 4) : Runner := s.runners[n.val]
def tag (s : State) (t : Fin 4) : Tag := s.smp.tags[t.val]

/-- The activity field of the circuit entry, the Activity Monitor's own (R20). -/
def activity (s : State) (c : CircuitNo) : Activity := (s.monitor c).activity

/-- A circuit is SIGNALLING when its slot is the configured signalling slot and that slot is present (R1). -/
def signalling (s : State) (c : CircuitNo) : Bool :=
  s.cfg.signallingPresent && officeSlotOf c == s.cfg.signallingSlot

/-- The configuration marks the span present (R173). -/
def spanPresent (s : State) : Span → Bool
  | .a => s.cfg.spanAPresent
  | .b => s.cfg.spanBPresent

/-- The span is IN_SERVICE (R122). -/
def inService (s : State) (sp : Span) : Bool := (s.span sp).line == .inService

/-- The clock role of a port; office ports are always FOLLOW (R134). -/
def clockRole (s : State) (p : PortNo) : ClockRole :=
  match lineNumber p with
  | some k => s.cfg.clockRoles[k.val]
  | none => .follow

/-- The sync style of a port's side (R134). -/
def syncStyle (s : State) (p : PortNo) : SyncStyle :=
  match lineNumber p with
  | some _ => s.cfg.lineSync
  | none => s.cfg.officeSync

/-- The idle code of a port's side (R138). -/
def idleOf (s : State) (p : PortNo) : Byte :=
  match lineNumber p with
  | some _ => s.cfg.idleCode
  | none => s.cfg.officeIdle

/-- The line port of a line position is PRESENT (R137). -/
def linePresent (s : State) (p : LinePos) : Bool := (s.port (linePort p.port)).presence == .present

/-- The part is in READY or WARMING: ports judge, spans run and CMAP switches (R147, R148). -/
def running (s : State) : Bool := s.phase == .ready || s.phase == .warming

/-! ### Writes -/

def setPhase (s : State) (x : Phase) : State := { s with phase := x }
def setCounter (s : State) (x : FrameNo) : State := { s with counter := x }
def setAttn (s : State) (x : BitVec 6) : State := { s with attn := x }
def setAttnMask (s : State) (x : BitVec 6) : State := { s with attnMask := x }
def setBlockBase (s : State) (x : Addr) : State := { s with blockBase := x }
def setCircuit (s : State) (c : CircuitNo) (x : Circuit) : State :=
  { s with circuits := s.circuits.set c.val x c.isLt }
def setAlign (s : State) (c : CircuitNo) (x : AlignStore) : State :=
  { s with align := s.align.set c.val x c.isLt }
def setLineUse (s : State) (p : LinePos) (x : LineUse) : State :=
  { s with lineOcc := s.lineOcc.set p.index.val x p.index.isLt }
def setSlotEntry (s : State) (b : BearerSlot) (x : SlotEntry) : State :=
  { s with spanOcc := s.spanOcc.set b.span ((s.spanOcc.get b.span).set b.slot.val x b.slot.isLt) }
def setQueue (s : State) (x : List QueueEntry) : State := { s with queue := x }
def setWatch (s : State) (x : List WatchEntry) : State := { s with watch := x }
def setBridge (s : State) (i : BridgeNo) (x : Option Bridge) : State :=
  { s with bridges := s.bridges.set i.val x i.isLt }
def setGroup (s : State) (g : Fin 4) (x : Option Group) : State :=
  { s with groups := s.groups.set g.val x g.isLt }
def setSpan (s : State) (sp : Span) (x : SpanState) : State := { s with spans := s.spans.set sp x }
def setPort (s : State) (p : PortNo) (x : Port) : State :=
  { s with ports := s.ports.set p.val x p.isLt }
def setMonitor (s : State) (c : CircuitNo) (x : Monitor) : State :=
  { s with monitors := s.monitors.set c.val x c.isLt }
def setFtu (s : State) (x : Ftu) : State := { s with ftu := x }
def setRunner (s : State) (n : Fin 4) (x : Runner) : State :=
  { s with runners := s.runners.set n.val x n.isLt }
def setSettles (s : State) (x : List Settle) : State := { s with settles := x }
def setNextSettle (s : State) (x : Nat) : State := { s with nextSettle := x }
def setSmp (s : State) (x : Smp) : State := { s with smp := x }
def setNte (s : State) (x : Nte) : State := { s with nte := x }
def setPending (s : State) (x : List Instr) : State := { s with pending := x }

def setTag (s : State) (t : Fin 4) (x : Tag) : State :=
  s.setSmp { s.smp with tags := s.smp.tags.set t.val x t.isLt }

def modCircuit (s : State) (c : CircuitNo) (f : Circuit → Circuit) : State := s.setCircuit c (f (s.circuit c))
def modAlign (s : State) (c : CircuitNo) (f : AlignStore → AlignStore) : State := s.setAlign c (f (s.alignOf c))
def modSpan (s : State) (sp : Span) (f : SpanState → SpanState) : State := s.setSpan sp (f (s.span sp))
def modPort (s : State) (p : PortNo) (f : Port → Port) : State := s.setPort p (f (s.port p))
def modRunner (s : State) (n : Fin 4) (f : Runner → Runner) : State := s.setRunner n (f (s.runner n))

/-- Change the entry at a group index, if it is in use. -/
def modGroup (s : State) (g : Fin 4) (f : Group → Group) : State :=
  match s.group g with
  | none => s
  | some x => s.setGroup g (some (f x))

/-- Change the entry at a bridge index, if it is in use. -/
def modBridge (s : State) (i : BridgeNo) (f : Bridge → Bridge) : State :=
  match s.bridge i with
  | none => s
  | some e => s.setBridge i (some (f e))

/-- Act on the entry at a bridge index, if it is in use. -/
def withBridge (s : State) (i : BridgeNo) (f : Bridge → State) : State :=
  match s.bridge i with
  | none => s
  | some e => f e

/-! ### Time (R149) -/

/-- The deadline n frames ahead. -/
def after (s : State) (n : Nat) : FrameNo := s.counter + BitVec.ofNat 32 n

/-- A deadline has passed when (counter − d) mod 2^32 lies in the lower half. -/
def passed (s : State) (d : FrameNo) : Bool := !(s.counter - d).msb

/-- An optional deadline that is present and has passed. -/
def due (s : State) : Option FrameNo → Bool
  | none => false
  | some d => s.passed d

/-- A stored counter value lies within the last n frames. -/
def within (s : State) (n : Nat) (v : FrameNo) : Bool := (s.counter - v).toNat < n

end State

/-- Apply a change for each of a list of things, first to last. -/
def each {α : Type} (l : List α) (f : α → State → State) (s : State) : State :=
  l.foldl (fun t x => f x t) s

end Sys2Proof.Machine
end

