-- ==== Sys2Proof/Machine/Flags.lean ====
section
/-! DEFINITION. The attention causes and the pin they drive (R169), and the pending queue of notices (R167). -/

namespace Sys2Proof.Machine

open Sys2Proof

/-- The six attention causes, in the order of their bits (13.5). -/
inductive Cause where
  | notice | runnerFault | memoryFault | stray | refused | lost
  deriving DecidableEq, Repr

/-- The ATTN bit of a cause (13.5). -/
def Cause.bit : Cause → BitVec 6
  | .notice => 0b000001#6
  | .runnerFault => 0b000010#6
  | .memoryFault => 0b000100#6
  | .stray => 0b001000#6
  | .refused => 0b010000#6
  | .lost => 0b100000#6

namespace State

/-- Set an attention cause. -/
def raise (s : State) (c : Cause) : State := s.setAttn (s.attn ||| c.bit)

/-- ATTNn is asserted while a cause is both set and enabled (R169). -/
def attnAsserted (s : State) : Bool := s.attn &&& s.attnMask != 0#6

/-- Hand a notice to the Notice Engine: it joins the tail of the pending queue with the present frame as its
stamp, or is lost and counted (R167). -/
def handNotice (s : State) (body : NoticeBody) : State :=
  if s.nte.pending.length < Config.noticePlaces then
    s.setNte { s.nte with pending := s.nte.pending ++ [⟨s.counter, body⟩] }
  else
    (s.setNte { s.nte with lost := min (s.nte.lost + 1) Config.lostLimit }).raise .lost

end State

end Sys2Proof.Machine
end

