-- ==== Sys2Proof/Machine/Formats.lean ====
section
/-! DEFINITION. The formats of chapter 13: the code of every enumerated value, the byte order of records, and the
layouts of result values, notice entries and status rows. A field that is absent is written 0 (R179, log 16). -/

namespace Sys2Proof.Machine

open Sys2Proof

/-! ### Codes (13.1) -/

def Direction.code : Direction → Byte
  | .toFibre => 0 | .toCopper => 1
def Span.code : Span → Byte
  | .a => 0 | .b => 1
def Role.code : Role → Byte
  | .initiator => 0 | .responder => 1
def PathState.code : PathState → Byte
  | .copper => 0 | .bridged => 1 | .fibre => 2 | .stranded => 3 | .unequipped => 4
def BridgePhase.code : BridgePhase → Byte
  | .awaitingOffer => 0 | .offering => 1 | .matching => 2 | .rolled => 3 | .releasing => 4 | .unwinding => 5
def Receive.code : Receive → Byte
  | .line => 0 | .span => 1 | .none => 2
def Activity.code : Activity → Byte
  | .idle => 0 | .seized => 1 | .answered => 2 | .blocked => 3 | .unknown => 4
def LineState.code : LineState → Byte
  | .disabled => 0 | .seek => 1 | .answer => 2 | .inService => 3 | .holdDown => 4 | .proving => 5
def RunnerState.code : RunnerState → Byte
  | .stopped => 0 | .fetching => 1 | .parked => 2 | .waiting => 3 | .faulted => 4
def RunnerFault.code : RunnerFault → Byte
  | .none => 0 | .fetchError => 1 | .badAddress => 2 | .nextLoop => 3
def FtuMode.code : FtuMode → Byte
  | .freeRun => 0 | .locked _ => 1 | .holdover => 2
def MessageKind.code : MessageKind → Byte
  | .offer => 1 | .accept => 2 | .decline => 3 | .rolled => 4 | .release => 5 | .abandon => 6
def Reason.code : Reason → Byte
  | .notExpected => 1 | .mismatch => 2 | .busy => 3 | .ordered => 4 | .matchTimeout => 5 | .noAnswer => 6
  | .peerStall => 7 | .restart => 8 | .groupUnwind => 9 | .pathLost => 10 | .concluded => 11
def ResultCode.code : ResultCode → Byte
  | .done => 1 | .doneForced => 2 | .fallback => 3 | .abandoned => 4 | .forced => 5 | .peerAbandoned => 6
  | .declined => 7 | .noAnswer => 8 | .matchTimeout => 9 | .peerStall => 10 | .waitExpired => 11
  | .expired => 12 | .busy => 13 | .stale => 14 | .spanDown => 15 | .slotTaken => 16 | .badState => 17
  | .malformed => 18 | .tooLate => 19 | .nothing => 20 | .restarted => 21 | .held => 22
  | .unwoundByGroup => 23 | .pathLost => 24 | .spanBusy => 25 | .absent => 26
def SpanCause.code : SpanCause → Byte
  | .order => 0 | .trained => 1 | .rankClash => 2 | .errors => 3 | .peerRestart => 4 | .recovered => 5
  | .proveEnd => 6
def HoldCause.code : HoldCause → Byte
  | .errors => 0 | .rankClash => 1
def SlipKind.code : SlipKind → Byte
  | .repeating => 0 | .deleting => 1
def Presence.code : Presence → Byte
  | .present => 0 | .lost => 1
def PortCause.code : PortCause → Byte
  | .missingSync => 0 | .misplacedSync => 1 | .noSignal => 2 | .recovered => 3
def TimingCause.code : TimingCause → Byte
  | .order => 0 | .referenceLost => 1 | .qualified => 2 | .reverted => 3
def MemoryCause.code : MemoryCause → Byte
  | .reject => 0 | .timeout => 1
def ClockRole.code : ClockRole → Byte
  | .follow => 0 | .drive => 1
def SyncStyle.code : SyncStyle → Byte
  | .short => 0 | .long => 1
def Phase.code : Phase → Byte
  | .loading => 0 | .ready => 1 | .warming => 2 | .configFault => 3

/-- The source octet: bits 7–6 the kind, bits 2–0 the number (13.1). -/
def Source.code : Source → Byte
  | .office k => BitVec.ofNat 8 k.val
  | .line k => BitVec.ofNat 8 (64 + k.val)
  | .span .a => 128
  | .span .b => 129

/-- The line position octet (13.1). -/
def LinePos.code (p : LinePos) : Byte := BitVec.ofNat 8 p.index.val

/-- One octet with a count or an index in it. -/
def octet (n : Nat) : Byte := BitVec.ofNat 8 n

/-- A presence or flag bit at place n of its byte. -/
def bitAt (n : Nat) (b : Bool) : Byte := if b then BitVec.ofNat 8 (2 ^ n) else 0

/-- An optional octet, written 0 when absent (R179). -/
def optOctet {α : Type} (f : α → Byte) : Option α → Byte
  | none => 0
  | some x => f x

/-- A signed offset as an octet (13.2). -/
def offsetOctet (d : Int) : Byte := BitVec.ofInt 8 d

/-! ### Byte order (R163) -/

/-- The n octets of a number, least significant first. -/
def littleBytes : Nat → Nat → List Byte
  | 0, _ => []
  | n + 1, x => BitVec.ofNat 8 x :: littleBytes n (x / 256)

/-- The number that octets spell, least significant first. -/
def littleNumber : List Byte → Nat
  | [] => 0
  | b :: rest => b.toNat + 256 * littleNumber rest

/-- A field of n octets in the record byte order. -/
def fieldBytes (o : ByteOrder) (n x : Nat) : List Byte :=
  match o with
  | .little => littleBytes n x
  | .big => (littleBytes n x).reverse

/-- The number a field of n octets at an offset holds, in the record byte order. -/
def fieldAt (o : ByteOrder) (bytes : List Byte) (offset n : Nat) : Nat :=
  let f := (bytes.drop offset).take n
  match o with
  | .little => littleNumber f
  | .big => littleNumber f.reverse

/-- The octet at an offset; 0 past the end. -/
def byteAt (bytes : List Byte) (offset : Nat) : Byte := bytes.getD offset 0

/-! ### Result values (13.2, offsets 0x30 to 0x3F) -/

/-- The result values of a MIGRATE, EXPECT, GROUP, ABANDON or TRIM; a value that a result does not carry keeps
its default and is written 0. -/
structure MoveValues where
  generation : Half := 0
  pathState : Option PathState := none
  role : Option Role := none
  phase : Option BridgePhase := none
  txn : Option Byte := none
  offset : Option Int := none
  repeats : Nat := 0
  skipped : Nat := 0
  hold : Nat := 0
  peerReason : Option Reason := none
  dropped : Nat := 0
  member : Option Nat := none
  group : Nat := 0
  membersDone : Nat := 0
  deriving DecidableEq, Repr

def MoveValues.bytes (o : ByteOrder) (v : MoveValues) : List Byte :=
  fieldBytes o 2 v.generation.toNat ++
  [optOctet PathState.code v.pathState, optOctet Role.code v.role, optOctet BridgePhase.code v.phase,
   v.txn.getD 0, optOctet offsetOctet v.offset, octet v.repeats, octet v.skipped, octet v.hold,
   optOctet Reason.code v.peerReason, octet v.dropped, optOctet octet v.member, octet v.group,
   octet v.membersDone,
   bitAt 0 v.txn.isSome ||| bitAt 1 v.offset.isSome ||| bitAt 2 v.phase.isSome ||| bitAt 3 v.member.isSome]

/-- The result values of a freed entry as those of its order (R50). -/
def FreedValues.toMove (v : FreedValues) : MoveValues :=
  { generation := v.generation, pathState := some v.pathState, role := some v.role, txn := v.txn,
    offset := v.offset, repeats := v.repeats, skipped := v.skipped, hold := v.hold,
    peerReason := v.peerReason }

/-- The result values of a MAP or RECOVER (R14). -/
def mapValues (o : ByteOrder) (c : Circuit) (dropped : Nat) : List Byte :=
  fieldBytes o 2 c.generation.toNat ++
  [c.pathState.code, optOctet LinePos.code c.linePos, optOctet LinePos.code c.vacated, 0, 0, 0, 0,
   octet c.hold, 0, octet dropped, 0, 0, 0, bitAt 0 c.linePos.isSome ||| bitAt 1 c.vacated.isSome]

/-- The result values of a SPAN order (R128, R130). -/
def spanValues (o : ByteOrder) (checked errored : Half) (line : LineState) : List Byte :=
  fieldBytes o 2 checked.toNat ++ fieldBytes o 2 errored.toNat ++ [line.code] ++ List.replicate 11 0

/-! ### Notice entries (13.3) -/

/-- Kind code of a notice (13.1). -/
def NoticeBody.kind : NoticeBody → Byte
  | .orderSettled .. => 1
  | .stranded .. | .heldConcluded .. => 2
  | .spanState .. => 3
  | .portState .. => 4
  | .slip .. => 5
  | .timingState .. => 6
  | .runnerFault .. => 7
  | .memoryFault .. => 8
  | .overflow .. => 9

/-- The reference of a Frame Timing Unit state as an octet; 0xFF when absent (13.3). -/
def FtuMode.referenceOctet : FtuMode → Byte
  | .locked src => Source.code src
  | .freeRun | .holdover => 0xFF

/-- Octets 0x0C to 0x1F of a notice entry. -/
def NoticeBody.fields (o : ByteOrder) : NoticeBody → List Byte
  | .orderSettled r addr tag code =>
    [octet r.val, code.code, 0, 0] ++ fieldBytes o 8 addr.toNat ++ fieldBytes o 4 tag.toNat ++ [0, 0, 0, 0]
  | .stranded c => [octet c.val, 0, 0, 0] ++ List.replicate 16 0
  | .heldConcluded c outcome v =>
    [octet c.val, 1, outcome.code, optOctet Reason.code v.peerReason] ++
    [v.role.code, v.txn.getD 0, bitAt 0 v.txn.isSome ||| bitAt 1 v.offset.isSome, 0, 0, 0, 0, 0] ++
    fieldBytes o 2 v.generation.toNat ++
    [v.pathState.code, optOctet offsetOctet v.offset, octet v.repeats, octet v.skipped, octet v.hold, 0]
  | .spanState sp left entered cause hold =>
    [Span.code sp, left.code, entered.code, cause.code, optOctet HoldCause.code hold] ++ List.replicate 15 0
  | .portState p entered cause =>
    [Source.code (portSource p), entered.code, cause.code, 0] ++ List.replicate 16 0
  | .slip input kind count =>
    [Source.code input, kind.code, 0, 0] ++ List.replicate 8 0 ++ fieldBytes o 2 count.toNat ++
    List.replicate 6 0
  | .timingState left entered priority cause =>
    [left.code, left.referenceOctet, entered.code, entered.referenceOctet,
     priority.elim 0xFF octet, cause.code] ++ List.replicate 14 0
  | .runnerFault r cause cursor =>
    [octet r.val, cause.code, 0, 0] ++ fieldBytes o 8 cursor.toNat ++ List.replicate 8 0
  | .memoryFault addr cause byRow =>
    [cause.code, bitAt 0 byRow, 0, 0] ++ fieldBytes o 8 addr.toNat ++ List.replicate 8 0
  | .overflow lost => List.replicate 12 0 ++ fieldBytes o 2 lost ++ List.replicate 6 0

/-- The 32 octets of a notice entry, its hand-over word POSTED (R165). -/
def Notice.bytes (o : ByteOrder) (n : Notice) : List Byte :=
  fieldBytes o 4 1 ++ fieldBytes o 4 n.stamp.toNat ++ [n.body.kind, 0, 0, 0] ++ n.body.fields o

/-! ### Status rows (13.3) -/

/-- A row's octets from 0x02 on; the update count stands before them. -/
abbrev RowBody := List Byte

/-- The row of a circuit (R20, R44). -/
def circuitRow (s : State) (c : CircuitNo) : RowBody :=
  let k := s.circuit c
  let e := k.bridgeIndex.bind s.bridge
  let o := s.cfg.byteOrder
  [bitAt 0 (s.signalling c), k.pathState.code, k.receive.code, bitAt 0 k.lineFeed ||| bitAt 1 k.spanFeed,
   optOctet LinePos.code k.linePos, optOctet LinePos.code k.vacated,
   optOctet (fun b => Span.code b.span) k.bearer, optOctet (fun b => octet b.slot.val) k.bearer,
   octet k.hold, 0] ++
  fieldBytes o 2 k.generation.toNat ++
  [(s.activity c).code, optOctet (fun i => octet i.val) k.bridgeIndex,
   optOctet (fun g => octet g.val) k.groupIndex, optOctet (fun e => e.phase.code) e,
   optOctet (fun e => e.role.code) e, (e.bind Bridge.txn).getD 0, optOctet offsetOctet (e.bind Bridge.offset),
   optOctet Reason.code (e.bind Bridge.peerReason),
   e.elim 0 fun e => bitAt 0 e.quick ||| bitAt 1 e.peerRolled ||| bitAt 2 e.forced ||| bitAt 3 e.pending, 0] ++
  fieldBytes o 2 (bitAt 0 k.linePos.isSome ||| bitAt 1 k.vacated.isSome ||| bitAt 2 k.bearer.isSome |||
    bitAt 3 e.isSome ||| bitAt 4 k.groupIndex.isSome ||| bitAt 5 (e.bind Bridge.txn).isSome |||
    bitAt 6 (e.bind Bridge.offset).isSome ||| bitAt 7 (e.bind Bridge.peerReason).isSome).toNat ++
  List.replicate 6 0

/-- The row of a port (R146). -/
def portRow (s : State) (p : PortNo) : RowBody :=
  let k := s.port p
  let o := s.cfg.byteOrder
  [octet (if p.val < 8 then p.val else 128 + (p.val - 8)),
   (s.clockRole p).code ||| bitAt 1 (s.syncStyle p == .long), k.presence.code,
   optOctet PortCause.code k.cause, 0, 0] ++
  fieldBytes o 4 (k.changeFrame.getD 0).toNat ++ fieldBytes o 2 k.slips.toNat ++
  fieldBytes o 2 k.txSlips.toNat ++ fieldBytes o 2 k.invalidReports.toNat ++ List.replicate 14 0

/-- The row of a span (R133). -/
def spanRow (s : State) (sp : Span) : RowBody :=
  let k := s.span sp
  let o := s.cfg.byteOrder
  [bitAt 0 (s.spanPresent sp), k.line.code, optOctet SpanCause.code k.cause,
   optOctet HoldCause.code k.holdCause, k.peerRank.getD 0, bitAt 0 k.peerRank.isSome] ++
  fieldBytes o 2 k.erroredFrames.toNat ++ fieldBytes o 2 k.slips.toNat ++
  [octet k.txQueue.length, k.txnCounter] ++
  fieldBytes o 2 k.proveChecked.toNat ++ fieldBytes o 2 k.proveErrored.toNat ++ List.replicate 14 0

/-- Place of a source among the qualification counts. -/
def Source.index : Source → Fin 18
  | .office k => ⟨k.val, by omega⟩
  | .line k => ⟨8 + k.val, by omega⟩
  | .span .a => 16
  | .span .b => 17

/-- A source is healthy while it is PRESENT, for a port, or IN_SERVICE, for a span; a DRIVE line port is no source
(R150). -/
def State.healthy (s : State) : Source → Bool
  | .office k => (s.port (officePort k)).presence == .present
  | .line k => (s.port (linePort k)).presence == .present && s.clockRole (linePort k) == .follow
  | .span sp => s.inService sp

/-- A source whose count stands at 8,000 is qualified (R150). -/
def State.qualified (s : State) (src : Source) : Bool :=
  s.ftu.counts[(Source.index src).val] == Config.qualifyFrames

/-- The priority of a source in the candidate list: its place, 0 the most preferred (09 section 9.3). -/
def Ftu.priority (f : Ftu) (src : Source) : Option Nat := f.candidates.findIdx? (· == src)

/-- The priority of the reference of a LOCKED unit. -/
def Ftu.modePriority (f : Ftu) (m : FtuMode) : Option Nat :=
  match m with
  | .locked src => f.priority src
  | .freeRun | .holdover => none

/-- Health and qualification of a listed candidate (13.2). -/
def State.candidateOctet (s : State) (src : Source) : Byte :=
  bitAt 0 (s.healthy src) ||| bitAt 1 (s.qualified src)

/-- A list cut or filled with zeros to four octets. -/
def four (l : List Byte) : List Byte := (l ++ [0, 0, 0, 0]).take 4

/-- The timing row less the frame counter that is written at 0x18 (R156). -/
def timingRow (s : State) : RowBody :=
  let f := s.ftu
  let o := s.cfg.byteOrder
  [f.mode.code, f.mode.referenceOctet, (f.modePriority f.mode).elim 0xFF octet,
   optOctet TimingCause.code f.lastCause, 0, 0] ++
  fieldBytes o 4 (f.lastChange.getD 0).toNat ++ [bitAt 0 f.revertive, octet f.candidates.length] ++
  four (f.candidates.map Source.code) ++ four (f.candidates.map s.candidateOctet) ++ [0, 0]

/-- The result values of a TIMING order (R151). -/
def timingValues (s : State) : List Byte :=
  let f := s.ftu
  [f.mode.code, f.mode.referenceOctet, (f.modePriority f.mode).elim 0xFF octet] ++
  four (f.candidates.map s.candidateOctet) ++ List.replicate 9 0

/-- The part row (R168). Runner 0 has the lowest bits of octet 0x03 and of the field at 0x04, the first of the open counts
at 0x0A and the first of the cursors at 0x10: the model's choice (log 43). -/
def partRow (s : State) : RowBody :=
  let o := s.cfg.byteOrder
  let r := fun n : Fin 4 => s.runner n
  let faults := (r 0).fault.code ||| (r 1).fault.code <<< 2 ||| (r 2).fault.code <<< 4 ||| (r 3).fault.code <<< 6
  let states := (r 0).state.code.toNat + 8 * (r 1).state.code.toNat + 64 * (r 2).state.code.toNat +
    512 * (r 3).state.code.toNat
  [s.phase.code, faults] ++ fieldBytes o 2 states ++ fieldBytes o 2 s.nte.position ++
  fieldBytes o 2 s.nte.lost ++
  [octet (r 0).openCount, octet (r 1).openCount, octet (r 2).openCount, octet (r 3).openCount, 0, 0] ++
  fieldBytes o 4 (r 0).cursor.toNat ++ fieldBytes o 4 (r 1).cursor.toNat ++
  fieldBytes o 4 (r 2).cursor.toNat ++ fieldBytes o 4 (r 3).cursor.toNat

/-- The content of row r that makes it dirty when it changes (R168): all of it but the update count and, of the
timing row, the frame counter (R156). -/
def rowBody (s : State) (r : Nat) : RowBody :=
  if h : r < 256 then circuitRow s ⟨r, h⟩
  else if h : r < 272 then portRow s ⟨r - 256, by omega⟩
  else if r = 272 then spanRow s .a
  else if r = 273 then spanRow s .b
  else if r = 274 then timingRow s
  else partRow s

/-- The 32 octets of row r as it is written, with the update count it is written with (R168). -/
def rowBytes (s : State) (r : Nat) (count : Half) : List Byte :=
  let o := s.cfg.byteOrder
  fieldBytes o 2 count.toNat ++
  (if r = 274 then timingRow s ++ fieldBytes o 4 s.counter.toNat ++ [0, 0, 0, 0] else rowBody s r)

end Sys2Proof.Machine
end

