-- ==== Sys2Proof/Machine/Operands.lean ====
section
/-! DEFINITION. What the TM72 reads from outside: the configuration stream (R172, R173), the Control Block (R21),
the order records with their validation (R22, R23, R28 to R30, and the ranges of R37, R51, R57, R14, R104, R128 and
R151), and the roll message of a control field (R82, R83). -/

namespace Sys2Proof.Machine

open Sys2Proof

/-! ### Configuration stream (12 section 12.1) -/

/-- Bits `first` to `first + n - 1` of the stream, as a number sent most significant bit first. -/
def streamField (stream : BitVec 48) (first n : Nat) : BitVec n := stream.extractLsb' (49 - first - n) n

/-- Bit `n` of the stream. -/
def streamBit (stream : BitVec 48) (n : Nat) : Bool := stream.getLsbD (48 - n)

/-- The number of one-bits in bits 1 to n of the stream. -/
def streamOnes (stream : BitVec 48) (n : Nat) : Nat :=
  ((List.range n).filter fun k => streamBit stream (k + 1)).length

/-- The stream passes both tests (R172). -/
def streamAccepted (stream : BitVec 48) : Bool :=
  streamField stream 36 5 == 0#5 && (streamField stream 41 8).toNat == streamOnes stream 40

/-- The site configuration that an accepted stream gives (R173). -/
def SiteConfig.ofStream (stream : BitVec 48) : SiteConfig where
  rank := streamField stream 1 8
  signallingSlot := (streamField stream 9 5).toFin
  signallingPresent := streamBit stream 14
  officeSync := if streamBit stream 15 then .long else .short
  lineSync := if streamBit stream 16 then .long else .short
  clockRoles := tab 8 fun k => if streamBit stream (17 + k.val) then .drive else .follow
  byteOrder := if streamBit stream 25 then .big else .little
  idleCode := streamField stream 26 8
  spanAPresent := streamBit stream 34
  spanBPresent := streamBit stream 35

/-! ### Control Block (13.2) -/

/-- Chain head n. -/
def chainHead (o : ByteOrder) (block : List Byte) (n : Fin 4) : Addr :=
  BitVec.ofNat 64 (fieldAt o block (8 * n.val) 8)

/-- The bases of a Control Block, when they pass the checks of the latch (R21). -/
def blockBases (o : ByteOrder) (block : List Byte) : Option Bases :=
  let noticeBase := fieldAt o block 0x20 8
  let entries := fieldAt o block 0x28 2
  let statusBase := fieldAt o block 0x30 8
  if noticeBase % 32 == 0 && 16 ≤ entries && entries ≤ 1024 && statusBase % 32 == 0 then
    some ⟨BitVec.ofNat 64 noticeBase, entries, BitVec.ofNat 64 statusBase⟩
  else none

/-! ### Order records -/

/-- Action of a MAP record (R14). -/
inductive MapAction where
  | setLine | unequip | equip | forget
  deriving DecidableEq, Repr

/-- Force of an ABANDON record (03 section 3.9). -/
inductive Force where
  | none | back | forward
  deriving DecidableEq, Repr

/-- Action of a SPAN record (07 section 7.6). -/
inductive SpanAction where
  | enable | disable | prove
  deriving DecidableEq, Repr

/-- A valid order, as it is passed to its owner (R23). -/
inductive Order where
  | migrate (m : MoveOrder) (waitIdle : Bool) (waitLimit : Nat)
  | expect (m : MoveOrder) (window : Nat)
  | group (members : List MoveOrder)
  | abandon (c : CircuitNo) (force : Force)
  | trim (c : CircuitNo) (waitLimit : Nat)
  | map (action : MapAction) (c : CircuitNo) (target : Option LinePos) (expected : Option Half)
  | recover (c : CircuitNo) (target : Option LinePos) (expected : Option Half)
  | span (sp : Span) (action : SpanAction) (frames : Nat)
  | timing (candidates : List Source) (revertive : Bool)
  deriving DecidableEq, Repr

/-- What an ARMED record other than NEXT is found to be by validation; `units` is how far the cursor advances
(R30, R31). -/
inductive Record where
  | malformed (units : Nat)
  | fence
  | order (o : Order) (units : Nat)
  deriving DecidableEq, Repr

/-- What the runner does on a first unit (R28). -/
inductive FirstUnit where
  | notArmed
  | next (target : Addr)
  | more (units : Nat)
  | complete
  deriving DecidableEq, Repr

/-- The hand-over word ARMED (13.1). -/
def armedWord : Nat := 1
/-- The hand-over word TAKEN (13.1). -/
def takenWord : Nat := 2
/-- The hand-over word SETTLED (13.1). -/
def settledWord : Nat := 3

/-- Kind octet of a record. -/
def recordKind (rec : List Byte) : Nat := (byteAt rec 0x04).toNat
/-- Unit count of a record. -/
def recordUnits (rec : List Byte) : Nat := (byteAt rec 0x05).toNat
/-- Flag n of a record. -/
def recordFlag (rec : List Byte) (n : Nat) : Bool := (byteAt rec 0x06).getLsbD n
/-- The circuit a record names. -/
def recordCircuit (rec : List Byte) : CircuitNo := (byteAt rec 0x10).toFin

/-- The unit count agrees with the kind (R23). -/
def unitsAgree (rec : List Byte) : Bool :=
  let kind := recordKind rec
  if kind == 3 then
    let n := (byteAt rec 0x10).toNat
    1 ≤ n && n ≤ 32 && recordUnits rec == 1 + (n + 7) / 8
  else 1 ≤ kind && kind ≤ 11 && recordUnits rec == 1

/-- What the runner does on a first unit of 64 octets (R22, R28, R29). -/
def firstUnit (o : ByteOrder) (rec : List Byte) : FirstUnit :=
  if fieldAt o rec 0 4 != armedWord then .notArmed
  else if recordKind rec == 11 && unitsAgree rec then .next (BitVec.ofNat 64 (fieldAt o rec 0x10 8))
  else if unitsAgree rec && 2 ≤ recordUnits rec then .more (recordUnits rec - 1)
  else .complete

/-- A line position octet (13.1). -/
def LinePos.ofOctet (b : Byte) : LinePos := LinePos.ofIndex b.toFin

/-- A direction octet (13.1). -/
def Direction.ofOctet (b : Byte) : Option Direction :=
  if b == 0#8 then some .toFibre else if b == 1#8 then some .toCopper else none

/-- A span octet (13.1). -/
def Span.ofOctet (b : Byte) : Option Span :=
  if b == 0#8 then some .a else if b == 1#8 then some .b else none

/-- A match limit as it is stored (R62); none when it is out of range (R37). -/
def matchLimitOf (x : Nat) : Option Nat :=
  if x == 0 then some Config.defaultMatchLimit else if 800 ≤ x && x ≤ 65535 then some x else none

/-- The greatest wait limit and expect window, also the longest timer (R37, R149). -/
def longestWait : Nat := 1048575

/-- The expected generation, when its flag is set (R12). -/
def expectedOf (o : ByteOrder) (rec : List Byte) : Option Half :=
  if recordFlag rec 1 then some (BitVec.ofNat 16 (fieldAt o rec 0x0C 2)) else none

/-- The target line position, when its flag is set. -/
def targetOf (rec : List Byte) : Option LinePos :=
  if recordFlag rec 2 then some (.ofOctet (byteAt rec 0x14)) else none

/-- The fields that MIGRATE and EXPECT share (R37). For TO_FIBRE the target is ignored, for TO_COPPER the span and
the slot are. -/
def moveOf (o : ByteOrder) (rec : List Byte) : Option MoveOrder := do
  let direction ← Direction.ofOctet (byteAt rec 0x11)
  let matchLimit ← matchLimitOf (fieldAt o rec 0x18 2)
  let span ← match direction with
    | .toFibre => Span.ofOctet (byteAt rec 0x12)
    | .toCopper => some .a
  return {
    circuit := recordCircuit rec
    direction := direction
    span := span
    slot := match direction with
      | .toFibre => (byteAt rec 0x13).toFin
      | .toCopper => 0
    target := match direction with
      | .toFibre => none
      | .toCopper => targetOf rec
    expectedGeneration := expectedOf o rec
    quick := recordFlag rec 4
    matchLimit := matchLimit }

/-- Member i of a GROUP record, from its 8 octets (13.2), with the group's options (R107). -/
def memberOf (o : ByteOrder) (quick : Bool) (matchLimit : Nat) (m : List Byte) : MoveOrder :=
  let flag := fun n => (byteAt m 1).getLsbD n
  let direction : Direction := if flag 0 then .toCopper else .toFibre
  { circuit := (byteAt m 0).toFin
    direction := direction
    span := match direction with
      | .toFibre => if flag 1 then .b else .a
      | .toCopper => .a
    slot := match direction with
      | .toFibre => (byteAt m 2).toFin
      | .toCopper => 0
    target := match direction with
      | .toFibre => none
      | .toCopper => if flag 2 then some (.ofOctet (byteAt m 2)) else none
    expectedGeneration := if flag 3 then some (BitVec.ofNat 16 (fieldAt o m 3 2)) else none
    quick := quick
    matchLimit := matchLimit }

/-- Two members that make a GROUP record MALFORMED: the same circuit, the same bearer slot of two TO_FIBRE members
or the same named target of two TO_COPPER members (R104). -/
def membersClash (x y : MoveOrder) : Bool :=
  x.circuit == y.circuit ||
  (x.direction == .toFibre && y.direction == .toFibre && x.span == y.span && x.slot == y.slot) ||
  (x.direction == .toCopper && y.direction == .toCopper && x.target.isSome && x.target == y.target)

/-- No two members of a list clash. -/
def membersApart : List MoveOrder → Bool
  | [] => true
  | x :: rest => rest.all (fun y => !membersClash x y) && membersApart rest

/-- The members of a GROUP record whose unit count agrees (R104). -/
def groupOf (o : ByteOrder) (rec : List Byte) : Option (List MoveOrder) := do
  let matchLimit ← matchLimitOf (fieldAt o rec 0x18 2)
  let members := (List.range (byteAt rec 0x10).toNat).map fun i =>
    memberOf o (recordFlag rec 4) matchLimit ((rec.drop (64 + 8 * i)).take 8)
  if membersApart members then return members else none

/-- A source octet: bits 7 and 6 the kind, bits 2 to 0 the number (13.1); none for an unknown kind or span. -/
def Source.ofOctet (b : Byte) : Option Source :=
  let number := b.extractLsb' 0 3
  match (b.extractLsb' 6 2).toNat with
  | 0 => some (.office number.toFin)
  | 1 => some (.line number.toFin)
  | 2 => if number == 0#3 then some (.span .a) else if number == 1#3 then some (.span .b) else none
  | _ => none

/-- The input is a timing source of the site (R150). -/
def SiteConfig.isSource (cfg : SiteConfig) : Source → Bool
  | .office _ => true
  | .line k => cfg.clockRoles[k.val] == .follow
  | .span .a => cfg.spanAPresent
  | .span .b => cfg.spanBPresent

/-- No source stands twice in a list. -/
def sourcesApart : List Source → Bool
  | [] => true
  | x :: rest => !rest.contains x && sourcesApart rest

/-- The candidates of a TIMING record (R151). -/
def candidatesOf (cfg : SiteConfig) (rec : List Byte) : Option (List Source) := do
  let n := (byteAt rec 0x10).toNat
  let list ← ((rec.drop 0x12).take n).mapM Source.ofOctet
  if 1 ≤ n && n ≤ 4 && list.all cfg.isSource && sourcesApart list then return list else none

/-- A wait limit: 0 or up to the longest wait (R37, R57). -/
def waitLimitOf (o : ByteOrder) (rec : List Byte) : Option Nat :=
  let x := fieldAt o rec 0x1C 4
  if x ≤ longestWait then some x else none

/-- The action octet of a MAP record (R14, R179). -/
def MapAction.ofOctet (b : Byte) : Option MapAction :=
  match b.toNat with
  | 0 => some .setLine
  | 1 => some .unequip
  | 2 => some .equip
  | 3 => some .forget
  | _ => none

/-- The force octet of an ABANDON record (R51, R179). -/
def Force.ofOctet (b : Byte) : Option Force :=
  match b.toNat with
  | 0 => some .none
  | 1 => some .back
  | 2 => some .forward
  | _ => Option.none

/-- The action octet of a SPAN record (R128, R179). -/
def SpanAction.ofOctet (b : Byte) : Option SpanAction :=
  match b.toNat with
  | 0 => some .enable
  | 1 => some .disable
  | 2 => some .prove
  | _ => none

/-- The order a record spells, its unit count agreeing with its kind; none when a field is out of range or a field
the kind requires is absent (R30). -/
def orderOf (cfg : SiteConfig) (rec : List Byte) : Option Order :=
  let o := cfg.byteOrder
  match recordKind rec with
  | 1 => do
    let m ← moveOf o rec
    let limit ← waitLimitOf o rec
    return .migrate m (recordFlag rec 3) limit
  | 2 => do
    let m ← moveOf o rec
    let window ← waitLimitOf o rec
    if window == 0 then none else return .expect { m with quick := false } window
  | 3 => (groupOf o rec).map .group
  | 4 => (Force.ofOctet (byteAt rec 0x11)).map (.abandon (recordCircuit rec))
  | 5 => (waitLimitOf o rec).map (.trim (recordCircuit rec))
  | 6 => do
    let action ← MapAction.ofOctet (byteAt rec 0x11)
    if (action == .setLine || action == .equip) && (targetOf rec).isNone then none
    else return .map action (recordCircuit rec) (targetOf rec) (expectedOf o rec)
  | 7 => some (.recover (recordCircuit rec) (targetOf rec) (expectedOf o rec))
  | 8 => do
    let sp ← Span.ofOctet (byteAt rec 0x10)
    let action ← SpanAction.ofOctet (byteAt rec 0x11)
    let frames := fieldAt o rec 0x18 2
    if action == .prove && frames == 0 then none else return .span sp action frames
  | 9 => do
    let list ← candidatesOf cfg rec
    let revertive ← match (byteAt rec 0x11).toNat with
      | 0 => some false
      | 1 => some true
      | _ => none
    return .timing list revertive
  | _ => none

/-- Validation of an ARMED record, all of whose units have arrived (R30). -/
def recordOf (cfg : SiteConfig) (rec : List Byte) : Record :=
  if !unitsAgree rec then .malformed 1
  else if recordKind rec == 10 then .fence
  else match orderOf cfg rec with
    | none => .malformed (recordUnits rec)
    | some order => .order order (recordUnits rec)

/-- The order tag of a record. -/
def recordTag (o : ByteOrder) (rec : List Byte) : BitVec 32 := BitVec.ofNat 32 (fieldAt o rec 0x08 4)

/-! ### Roll messages (R82, 13.4) -/

/-- Kind code of a control field (13.1). -/
def MessageKind.ofOctet (b : Byte) : Option MessageKind :=
  match b.toNat with
  | 1 => some .offer
  | 2 => some .accept
  | 3 => some .decline
  | 4 => some .rolled
  | 5 => some .release
  | 6 => some .abandon
  | _ => none

/-- Reason code (13.1); none for code 0 and for a value without a code. -/
def Reason.ofCode (n : Nat) : Option Reason :=
  match n with
  | 1 => some .notExpected
  | 2 => some .mismatch
  | 3 => some .busy
  | 4 => some .ordered
  | 5 => some .matchTimeout
  | 6 => some .noAnswer
  | 7 => some .peerStall
  | 8 => some .restart
  | 9 => some .groupUnwind
  | 10 => some .pathLost
  | 11 => some .concluded
  | _ => none

/-- Kinds that carry a reason (R82). -/
def MessageKind.hasReason : MessageKind → Bool
  | .decline | .abandon => true
  | .offer | .accept | .rolled | .release => false

/-- The roll message a control field carries; none for the empty field, an unknown kind and a reason out of range
(R82, R83). Fields that do not belong to the kind are ignored. -/
def RollMessage.ofControl (f : Vector Byte 5) : Option RollMessage :=
  match MessageKind.ofOctet f[0] with
  | none => none
  | some kind =>
    let reason := Reason.ofCode (f[4].toNat / 16)
    if kind.hasReason && reason.isNone then none
    else some {
      kind := kind
      slot := f[1].toFin
      txn := f[2]
      rank := f[3]
      direction := if kind == .offer && f[4].getLsbD 0 then .toCopper else .toFibre
      quick := kind == .offer && f[4].getLsbD 1
      reason := if kind.hasReason then reason else none }

/-- The control field of a roll message (13.4). -/
def RollMessage.control (m : RollMessage) : Vector Byte 5 :=
  #v[m.kind.code, octet m.slot.val, m.txn, m.rank,
     (if m.kind == .offer then Direction.code m.direction ||| bitAt 1 m.quick else 0) |||
     (if m.kind.hasReason then optOctet Reason.code m.reason <<< 4 else 0)]

/-- The empty control field (R82). -/
def emptyControl : Vector Byte 5 := tab 5 fun _ => 0

end Sys2Proof.Machine
end

