-- ==== Sys2Proof/Machine/Smp.lean ====
section
/-! DEFINITION. The System Memory Port as the rest of the part uses it (10): read requests, runner writes with
their claims to places in the posted-write queue, and the settling of a record (R34). -/

namespace Sys2Proof.Machine

open Sys2Proof

/-- The runner that makes a claim. -/
def WriteClaim.runner : WriteClaim → Fin 4
  | .take n | .result n _ | .settled n _ => n

namespace State

/-! ### Reads (R157) -/

/-- A request joins the waiting list. -/
def requestRead (s : State) (reader : Reader) (addr : Addr) (length : Nat) : State :=
  s.setSmp { s.smp with waiting := s.smp.waiting ++ [⟨reader, addr, length⟩] }

/-- A request that has not been issued is taken from the waiting list. -/
def withdrawRead (s : State) (reader : Reader) : State :=
  s.setSmp { s.smp with waiting := s.smp.waiting.filter fun r => r.reader != reader }

/-- The reader has a request that has not been issued. -/
def readWaits (s : State) (reader : Reader) : Bool := s.smp.waiting.any fun r => r.reader == reader

/-! ### Writes (R160, R161) -/

/-- The posted-write queue has room. -/
def writeRoom (s : State) : Bool := s.smp.writes.length < Config.writePlaces

/-- A write that has been granted a place joins the tail of the queue; without room nothing joins. -/
def queueWrite (s : State) (w : PostedWrite) : State :=
  if s.writeRoom then s.setSmp { s.smp with writes := s.smp.writes ++ [w] } else s

def setClaims (s : State) (x : List WriteClaim) : State := s.setSmp { s.smp with claims := x }

/-- A claim joins those that wait for a place. -/
def addClaim (s : State) (c : WriteClaim) : State := s.setClaims (s.smp.claims ++ [c])

/-- The claims that a runner has not made yet (R161). -/
def heldClaims (s : State) (n : Fin 4) : List (List WriteClaim) := s.smp.held[n.val]

def setHeld (s : State) (n : Fin 4) (x : List (List WriteClaim)) : State :=
  s.setSmp { s.smp with held := s.smp.held.set n.val x }

/-- A runner makes no further claim: an earlier claim of its own still waits, or has yet to be made (R161). -/
def claimsHeld (s : State) (n : Fin 4) : Bool := s.smp.claims.any (fun c => c.runner == n) || !(s.heldClaims n).isEmpty

/-- Claims that a runner makes together are kept until its earlier ones have their places (R161). -/
def holdClaims (s : State) (n : Fin 4) (l : List WriteClaim) : State := s.setHeld n (s.heldClaims n ++ [l])

/-- A runner claims a place in the posted-write queue, or keeps the claim until it may make it (R161). -/
def makeClaim (s : State) (c : WriteClaim) : State :=
  if s.claimsHeld c.runner then s.holdClaims c.runner [c] else s.addClaim c

/-- A runner none of whose claims waits any more makes those that it has kept longest (R161). -/
def makeHeld (s : State) (n : Fin 4) : State :=
  match s.heldClaims n with
  | [] => s
  | l :: rest =>
    if s.smp.claims.any fun c => c.runner == n then s else (s.setClaims (s.smp.claims ++ l)).setHeld n rest

/-- A runner's claim to take its record is withdrawn, made or not (R27, R175). -/
def withdrawTake (s : State) (n : Fin 4) : State :=
  ((s.setClaims (s.smp.claims.filter fun c => c != .take n)).setHeld n
    ((s.heldClaims n).filter fun l => l != [.take n])).makeHeld n

/-- A runner write can join at once: there is room and no earlier runner claim waits. A claim that has been made waits for
WRITE_PLACE_GRANT or SETTLED_WRITE also when the queue has room, a SETTLED word always, and a take or a result write that
comes meanwhile waits behind it: the model's choice (log 51). -/
def runnerPlace (s : State) : Bool := s.smp.claims.isEmpty && s.writeRoom

/-- A result write of a runner takes a place, or claims one. -/
def resultWrite (s : State) (n : Fin 4) (w : PostedWrite) : State :=
  if s.runnerPlace then s.queueWrite w else s.addClaim (.result n w)

/-- The result writes of a record take or claim their places together; while an earlier claim of the runner waits, it
settles no further record, and keeps these (R161). -/
def claimResults (s : State) (n : Fin 4) (l : List PostedWrite) : State :=
  if s.claimsHeld n then s.holdClaims n (l.map fun w => .result n w) else each l (fun w u => u.resultWrite n w) s

/-- The head of the queue is sent as soon as no other write awaits its answer (R160). -/
def sendHead (s : State) : State :=
  match s.smp.sent, s.smp.writes with
  | none, _ :: _ => s.setSmp { s.smp with sent := some (s.after Config.writeFrames) }
  | _, _ => s

/-! ### Settling (R34) -/

/-- The result area of a first unit, 0x28 to 0x3F (13.2). -/
def resultArea (s : State) (code : ResultCode) (values : List Byte) : List Byte :=
  [code.code, 0, 0, 0] ++ fieldBytes s.cfg.byteOrder 4 s.counter.toNat ++ values

/-- Part j of a member list with its member results filled (R34, R179): four members of 8 octets, the result at
octet 5 and the peer reason at octet 6 of each, the other octets as the runner fetched them. -/
def memberPart (list : List Byte) (results : List (Byte × Byte)) (j : Nat) : List Byte :=
  (List.range 32).map fun b =>
    match results[4 * j + b / 8]? with
    | some (code, reason) =>
      if b % 8 == 5 then code else if b % 8 == 6 then reason else byteAt list (32 * j + b)
    | none => byteAt list (32 * j + b)

/-- The result writes of a record: its result area, and the parts of the member list that hold member results. They
claim their places in this order, the result area first and the parts ascending: R161 allows either order (log 4). -/
def resultWrites (s : State) (id : Nat) (ref : OrderRef) (code : ResultCode) (values : List Byte)
    (members : List (Byte × Byte)) : List PostedWrite :=
  ⟨ref.addr + 0x28, s.resultArea code values, .result id⟩ ::
  (List.range ((members.length + 3) / 4)).map fun j =>
    ⟨ref.addr + BitVec.ofNat 64 (64 + 32 * j), memberPart ref.memberList members j, .result id⟩

/-- An order has ended: its record begins to settle with this code, these values and, for a GROUP, these member
results. -/
def settleOrder (s : State) (ref : OrderRef) (code : ResultCode) (values : List Byte)
    (members : List (Byte × Byte) := []) : State :=
  let id := s.nextSettle
  let writes := s.resultWrites id ref code values members
  ((s.setNextSettle (id + 1)).setSettles (s.settles ++ [⟨id, ref, code, writes.length⟩])).claimResults ref.runner writes

/-- The record being settled under a number. -/
def findSettle (s : State) (id : Nat) : Option Settle := s.settles.find? fun x => x.id == id

/-- The order of a record has settled: it is no longer open (R24, R34). -/
def closeSettle (s : State) (x : Settle) : State :=
  (s.setSettles (s.settles.filter fun y => y.id != x.id)).modRunner x.ref.runner fun r =>
    { r with openCount := r.openCount - 1 }

/-- A result write of a record is done; after the last of them the record claims its SETTLED write (R34). The write itself
is queued at SETTLED_WRITE, and any other command may come in between: the model's choice (log 50). -/
def resultDone (s : State) (id : Nat) : State :=
  match s.findSettle id with
  | none => s
  | some x =>
    let t := s.setSettles (s.settles.map fun y => if y.id == id then { y with writesLeft := y.writesLeft - 1 } else y)
    if x.writesLeft == 1 then t.makeClaim (.settled x.ref.runner id) else t

/-- A hand-over word as a posted write. -/
def wordWrite (s : State) (addr : Addr) (word : Nat) (claimant : Claimant) : PostedWrite :=
  ⟨addr, fieldBytes s.cfg.byteOrder 4 word, claimant⟩

/-- The SETTLED word of a record is queued, and its order has settled (R34). -/
def queueSettled (s : State) (x : Settle) : State :=
  let t := (s.queueWrite (s.wordWrite x.ref.addr settledWord (.settled x.id))).closeSettle x
  if x.ref.quiet then t else t.handNotice (.orderSettled x.ref.runner x.ref.addr x.ref.tag x.code)

/-! ### The end of a sent write (R160, R162) -/

/-- A write has been answered done; its claimant is told. -/
def writeDone (s : State) (w : PostedWrite) : State :=
  match w.claimant with
  | .result id => s.resultDone id
  | .notice => s.raise .notice
  | .taken _ | .settled _ | .row _ => s

/-- A write has been rejected or has timed out; it is reported according to its claimant (R162, R34). -/
def writeFailed (s : State) (w : PostedWrite) (cause : MemoryCause) : State :=
  match w.claimant with
  | .notice => s.raise .memoryFault
  | .row _ => (s.handNotice (.memoryFault w.addr cause true)).raise .memoryFault
  | .taken _ | .settled _ => (s.handNotice (.memoryFault w.addr cause false)).raise .memoryFault
  | .result id =>
    let t := (s.handNotice (.memoryFault w.addr cause false)).raise .memoryFault
    match t.findSettle id with
    | none => t
    | some x => t.closeSettle x

/-- The head of the queue leaves it, its sent mark with it. -/
def dropHead (s : State) : State := s.setSmp { s.smp with writes := s.smp.writes.tail, sent := none }

end State

end Sys2Proof.Machine
end

