-- ==== Sys2Proof/Machine/Nte.lean ====
section
/-! DEFINITION. The Notice Engine (11): its reads of notice entries and the credits they give, posting, and the
site status table's dirty set. -/

namespace Sys2Proof.Machine

open Sys2Proof

namespace State

/-- A notice or a non-zero lost count waits to be posted (R166, R167). -/
def noticeWaits (s : State) : Bool := !s.nte.pending.isEmpty || s.nte.lost != 0

/-- The read of notice entries (R166): k entries lie from the position to the end of the ring, at most 8; an even
number of them is read, one entry too many in front of the position when k is 1. The flag says that the first entry
read is to be disregarded. -/
def noticeReadSpan (b : Bases) (position : Nat) : Nat × Nat × Bool :=
  let k := min 8 (b.entries - position)
  if k % 2 == 0 then (position, k, false)
  else if 3 ≤ k then (position, k - 1, false)
  else (position - 1, 2, true)

/-- The engine asks for a read of notice entries; the recheck deadline no longer stands. -/
def readNotices (s : State) : State :=
  match s.nte.bases with
  | none => s
  | some b =>
    let (first, n, skip) := noticeReadSpan b s.nte.position
    (s.setNte { s.nte with reading := some skip, recheck := none }).requestRead .notices
      (b.noticeBase + BitVec.ofNat 64 (32 * first)) (32 * n)

/-- With no credits, something to post and no read or recheck to wait for, the engine reads (R166). -/
def pollNotices (s : State) : State :=
  if s.nte.bases.isSome && s.nte.credits == 0 && s.noticeWaits && s.nte.reading.isNone && s.nte.recheck.isNone then
    s.readNotices
  else s

/-- The number of entries from the front whose hand-over word reads FREE (R166). -/
def freeRun (o : ByteOrder) : Nat → List Byte → Nat
  | 0, _ => 0
  | n + 1, bytes => if fieldAt o bytes 0 4 == 0 then freeRun o n (bytes.drop 32) + 1 else 0

/-- The recheck deadline, which stands only while something waits to be posted (R166). -/
def noticeRecheckDue (s : State) : Option FrameNo :=
  if s.noticeWaits then some (s.after Config.noticeRecheckFrames) else none

/-- A read of notice entries has completed (R166). -/
def noticeReadDone (s : State) (data : List Byte) : State :=
  let entries := if s.nte.reading == some true then data.drop 32 else data
  let credits := freeRun s.cfg.byteOrder (entries.length / 32) entries
  let t := s.setNte { s.nte with credits := credits, reading := none }
  if credits != 0 then t.setNte { t.nte with reread := false, recheck := none }
  else if t.nte.reread then (t.setNte { t.nte with reread := false }).readNotices
  else t.setNte { t.nte with recheck := t.noticeRecheckDue }

/-- A read of notice entries has failed: the credits stay as they are, and the engine reads at its recheck (R158,
R166). -/
def noticeReadFailed (s : State) : State :=
  s.setNte { s.nte with reading := none, recheck := s.noticeRecheckDue }

/-- The engine posts: bases, a credit and something to post (R167). -/
def postingDue (s : State) : Bool := s.nte.bases.isSome && s.nte.credits != 0 && s.noticeWaits

/-- The notice that is posted next, and the engine without it: OVERFLOW with the lost count before the head of the
pending queue (R167). -/
def nextNotice (s : State) : Option (Notice × Nte) :=
  if s.nte.lost != 0 then some (⟨s.counter, .overflow s.nte.lost⟩, { s.nte with lost := 0 })
  else match s.nte.pending with
    | [] => none
    | n :: rest => some (n, { s.nte with pending := rest })

/-- The entry at the notice position is written (R165, R167). -/
def postNotice (s : State) : State :=
  match s.nte.bases, s.nextNotice with
  | some b, some (n, x) =>
    (s.setNte { x with credits := x.credits - 1, position := (x.position + 1) % b.entries }).queueWrite
      ⟨b.noticeBase + BitVec.ofNat 64 (32 * s.nte.position), n.bytes s.cfg.byteOrder, .notice⟩
  | _, _ => s

/-- The update count of row r. -/
def updateCount (s : State) (r : Nat) : Half := if h : r < 276 then s.nte.updates[r] else 0

/-- The row that joined the dirty set first is written and leaves the set (R168). -/
def writeRow (s : State) : State :=
  match s.nte.bases, s.nte.dirty with
  | some b, r :: rest =>
    let count := s.updateCount r + 1
    let updates := if h : r < 276 then s.nte.updates.set r count h else s.nte.updates
    (s.setNte { s.nte with dirty := rest, updates := updates }).queueWrite
      ⟨b.statusBase + BitVec.ofNat 64 (32 * r), rowBytes s r count, .row r⟩
  | _, _ => s

/-- The rows whose content a step has changed join the dirty set in row order (R168). -/
def markRows (before : State) (s : State) : State :=
  let changed := (List.range Config.statusRows).filter fun r =>
    !s.nte.dirty.contains r && rowBody before r != rowBody s r
  s.setNte { s.nte with dirty := s.nte.dirty ++ changed }

/-- Every row joins the dirty set, in row order behind the rows already in it (R170). -/
def markAllRows (s : State) : State :=
  s.setNte { s.nte with
    dirty := s.nte.dirty ++ (List.range Config.statusRows).filter fun r => !s.nte.dirty.contains r }

end State

end Sys2Proof.Machine
end

