-- ==== Sys2Proof/Machine/Ftu.lean ====
section
/-! DEFINITION. The Frame Timing Unit (09): qualification, the choice of a reference, and what a change of state
or reference reports. -/

namespace Sys2Proof.Machine

open Sys2Proof

/-- The sources by number, office ports first, then line ports, then spans. -/
def Source.ofIndex (i : Fin 18) : Source :=
  if h : i.val < 8 then .office ⟨i.val, h⟩
  else if h' : i.val < 16 then .line ⟨i.val - 8, by omega⟩
  else if i.val = 16 then .span .a else .span .b

namespace State

/-- The highest-priority listed candidate that is qualified (R151, R152). -/
def bestCandidate (s : State) : Option Source := s.ftu.candidates.find? s.qualified

/-- The unit enters a state or changes its reference: the change is noted and reported (R155). A state that is the
present one is no change. -/
def changeTiming (s : State) (entered : FtuMode) (cause : TimingCause) : State :=
  let left := s.ftu.mode
  if left == entered then s
  else
    let held := match entered, left with
      | .holdover, .locked src => some src
      | .holdover, _ => s.ftu.heldRate
      | _, _ => none
    (s.setFtu { s.ftu with mode := entered, lastCause := some cause, lastChange := some s.counter,
                           heldRate := held }).handNotice
      (.timingState left entered (s.ftu.modePriority entered) cause)

/-- The unit follows the best qualified candidate, or goes into HOLDOVER when there is none (R151, R152). -/
def lockOrHold (s : State) (cause : TimingCause) : State :=
  match s.bestCandidate with
  | some src => s.changeTiming (.locked src) cause
  | none => s.changeTiming .holdover cause

/-- A source has become unhealthy: its qualification is lost, and the unit moves if it was the reference (R150,
R152). -/
def sourceUnhealthy (s : State) (src : Source) : State :=
  let i := Source.index src
  let t := s.setFtu { s.ftu with counts := s.ftu.counts.set i.val 0 i.isLt }
  if t.ftu.mode == .locked src then t.lockOrHold .referenceLost else t

/-- Priority x is higher than priority y: it stands earlier in the list. -/
def higher : Option Nat → Option Nat → Bool
  | some x, some y => x < y
  | _, _ => false

/-- Re-evaluation against a new list (R151). -/
def evaluateTiming (s : State) (cause : TimingCause) : State :=
  match s.ftu.mode with
  | .locked ref =>
    if s.ftu.candidates.contains ref then
      match s.bestCandidate with
      | some best =>
        if s.ftu.revertive && higher (s.ftu.priority best) (s.ftu.priority ref) then
          s.changeTiming (.locked best) cause
        else s
      | none => s
    else s.lockOrHold cause
  | .freeRun | .holdover =>
    match s.bestCandidate with
    | some best => s.changeTiming (.locked best) cause
    | none => s

/-- A TIMING order (R151). -/
def timingOrder (s : State) (candidates : List Source) (revertive : Bool) : State :=
  (s.setFtu { s.ftu with candidates := candidates, revertive := revertive }).evaluateTiming .order

/-- A listed candidate has become qualified (R153, R154); a source that is not listed or not qualified changes
nothing. -/
def candidateQualified (s : State) (src : Source) : State :=
  if s.ftu.candidates.contains src && s.qualified src then
    match s.ftu.mode with
    | .freeRun | .holdover => s.changeTiming (.locked src) .qualified
    | .locked ref =>
      if s.ftu.revertive && higher (s.ftu.priority src) (s.ftu.priority ref) then
        s.changeTiming (.locked src) .reverted
      else s
  else s

/-- One frame of qualification: the count of each healthy source below 8,000 rises by one (R150). A candidate whose
count this brings to 8,000 is acted on at CANDIDATE_QUALIFIED; that other commands may come before it is the model's
choice (log 41). -/
def countQualification (s : State) : State :=
  let risen := fun i : Fin 18 =>
    let n := s.ftu.counts[i.val]
    if s.healthy (Source.ofIndex i) && n < Config.qualifyFrames then n + 1 else n
  s.setFtu { s.ftu with counts := tab 18 risen }

end State

end Sys2Proof.Machine
end

