-- ==== Sys2Proof/Machine/Cmap.lean ====
section
/-! DEFINITION. The Channel Map (01): the seam, the feeds, what the start and the freeing of a bridge do to a
circuit and to the occupancy tables, stranding, the MAP and RECOVER orders, and the dropping of a hold. -/

namespace Sys2Proof.Machine

open Sys2Proof

/-! ### Feeds (R61) -/

/-- Turn the feed toward the to-path of a move on or off. -/
def Circuit.feedTo (k : Circuit) (d : Direction) (on : Bool) : Circuit :=
  match d with
  | .toFibre => { k with spanFeed := on }
  | .toCopper => { k with lineFeed := on }

/-- Turn the feed toward the from-path of a move on or off. -/
def Circuit.feedFrom (k : Circuit) (d : Direction) (on : Bool) : Circuit :=
  match d with
  | .toFibre => { k with lineFeed := on }
  | .toCopper => { k with spanFeed := on }

/-- The feed toward the to-path is on. -/
def Circuit.feedsTo (k : Circuit) : Direction → Bool
  | .toFibre => k.spanFeed
  | .toCopper => k.lineFeed

/-- The receive selection that names the to-path of a move (R8, R68). -/
def toReceive : Direction → Receive
  | .toFibre => .span
  | .toCopper => .line

/-- The receive selection that names the from-path of a move. -/
def fromReceive : Direction → Receive
  | .toFibre => .line
  | .toCopper => .span

/-- The settings of a circuit that receives nothing: no receive, no feed, no hold (R2, R13, R16). -/
def Circuit.silent (k : Circuit) : Circuit :=
  { k with receive := .none, lineFeed := false, spanFeed := false, hold := 0 }

/-- A circuit on copper: its settings in COPPER (R2). -/
def Circuit.endCopper (k : Circuit) : Circuit :=
  { k with pathState := .copper, receive := .line, lineFeed := true, spanFeed := false }

/-! ### The seam (R11) -/

/-- What a seam switch with offset d from hold hx does: the repeats, the new hold and the octets skipped. -/
structure SeamResult where
  repeats : Nat
  hold : Nat
  skipped : Nat
  deriving DecidableEq, Repr

/-- The numbers of a seam switch (R11). -/
def seamNumbers (hx : Nat) (d : Int) : SeamResult where
  repeats := (d - hx).toNat
  hold := min Config.holdLimit (hx - d).toNat
  skipped := (hx - d).toNat - Config.holdLimit

namespace State

/-- Switch a circuit's receive to another path through the seam (R11). Repeats that an earlier switch still owes are
replaced by this one's: the model's choice (log 40). -/
def seamSwitch (s : State) (c : CircuitNo) (receive : Receive) (d : Int) : State :=
  let r := seamNumbers (s.circuit c).hold d
  (s.modCircuit c fun k => { k with receive := receive, hold := r.hold }).modAlign c fun a =>
    { a with repeatsDue := r.repeats }

/-- The held octets of a circuit are discarded, with any repeats the seam still owed. -/
def discardHeld (s : State) (c : CircuitNo) : State :=
  s.modAlign c fun a => { a with lineHistory := [], spanHistory := [], repeatsDue := 0 }

/-- A path newly held has brought nothing yet: its frames from before read as the idle code (R9). -/
def freshPath (s : State) (c : CircuitNo) (d : Direction) : State :=
  s.modAlign c fun a =>
    match d with
    | .toFibre => { a with spanHistory := [] }
    | .toCopper => { a with lineHistory := [] }

/-- A bearer slot changes its use and keeps its last circuit (R5). -/
def useSlot (s : State) (b : BearerSlot) (use : SlotUse) : State :=
  s.setSlotEntry b { s.slotEntry b with use := use }

/-- A bearer slot that was circuit c's becomes FREE (R5). -/
def freeSlot (s : State) (b : BearerSlot) (c : CircuitNo) : State := s.setSlotEntry b ⟨.free, some c⟩

/-- Free a line position, if there is one. -/
def freeLine (s : State) : Option LinePos → State
  | none => s
  | some p => s.setLineUse p .free

/-- Some bearer slot of a span is ASSIGNED or BRIDGED (R128, R129). -/
def slotsInUse (s : State) (sp : Span) : Bool :=
  (List.finRange 256).any fun n => (s.slotEntry ⟨sp, n⟩).use != .free

/-! ### Start and freeing of a bridge (R3) -/

/-- A bridge starts in an entry: the entry is filled, and the Channel Map does its part (R3). A target that was the
circuit's own vacated position is its vacated position no more (R6). -/
def bridgeStart (s : State) (i : BridgeNo) (e : Bridge) : State :=
  let c := e.circuit
  let t := match e.direction with
    | .toFibre => s.useSlot e.bearer (.bridged c)
    | .toCopper => s.setLineUse e.linePos (.occupied c)
  ((t.freshPath c e.direction).modCircuit c fun k =>
    let k := if k.pathState == .stranded then { k with receive := .span, spanFeed := true, hold := 0 } else k
    { k with pathState := .bridged, bridgeIndex := some i, groupIndex := e.group.map Prod.fst,
             generation := k.generation + 1, vacated := if e.ontoVacated then none else k.vacated }).setBridge i (some e)

/-- A circuit that would end FIBRE on a bearer slot ends STRANDED when the span is not IN_SERVICE (R72). -/
def endFibre (s : State) (k : Circuit) (b : BearerSlot) : Circuit :=
  if s.inService b.span then
    { k with pathState := .fibre, bearer := some b, receive := .span, lineFeed := false, spanFeed := true }
  else Circuit.silent { k with pathState := .stranded, bearer := some b }

/-- The form of an outcome: RELEASED for DONE and DONE_FORCED, UNWOUND for every other code (R49). -/
def releasedForm (outcome : ResultCode) : Bool := outcome == .done || outcome == .doneForced

/-- The occupancy entries of a freed bridge (R3). -/
def freeOccupancy (s : State) (e : Bridge) (released : Bool) : State :=
  let c := e.circuit
  match e.direction, released with
  | .toFibre, true =>
    (((s.freeLine (s.circuit c).vacated).setLineUse e.linePos (.vacated c)).useSlot e.bearer (.assigned c))
  | .toCopper, true => s.freeSlot e.bearer c
  | .toFibre, false => s.freeSlot e.bearer c
  | .toCopper, false =>
    s.setLineUse e.linePos (if e.ontoVacated then .vacated c else .free)

/-- The circuit of a freed bridge, less its indices, record and generation (R3, R72). -/
def freedCircuit (s : State) (e : Bridge) (released : Bool) : Circuit :=
  let k := s.circuit e.circuit
  match e.direction, released with
  | .toFibre, true => s.endFibre { k with linePos := none, vacated := some e.linePos } e.bearer
  | .toCopper, true =>
    Circuit.endCopper { k with linePos := some e.linePos, bearer := none }
  | .toFibre, false => Circuit.endCopper k
  | .toCopper, false =>
    s.endFibre { k with vacated := if e.ontoVacated then some e.linePos else k.vacated } e.bearer

/-- The last migration record that a freed bridge leaves: unchanged when it has no txn (R19). -/
def freedRecord (old : Option MigrationRecord) (e : Bridge) (released : Bool) : Option MigrationRecord :=
  match e.txn with
  | none => old
  | some t => some ⟨e.bearer, t, e.role, if released then .released else .unwound⟩

/-- A bridge entry becomes free, and the Channel Map does its part of the freeing (R3, R19, R50, R72). -/
def bridgeFreed (s : State) (i : BridgeNo) (e : Bridge) (outcome : ResultCode) : State :=
  let c := e.circuit
  let released := releasedForm outcome
  let k := s.freedCircuit e released
  let t := ((s.freeOccupancy e released).setCircuit c
    { k with bridgeIndex := none, groupIndex := none, generation := k.generation + 1,
             lastMigration := freedRecord k.lastMigration e released }).setBridge i none
  if k.pathState == .stranded then (t.discardHeld c).handNotice (.stranded c) else t

/-! ### Stranding (R13) -/

/-- One FIBRE circuit on the lost span is stranded. -/
def strand (s : State) (sp : Span) (c : CircuitNo) : State :=
  let k := s.circuit c
  if k.pathState == .fibre && (k.bearer.map BearerSlot.span) == some sp then
    ((s.setCircuit c (Circuit.silent { k with pathState := .stranded, generation := k.generation + 1 })).discardHeld
      c).handNotice (.stranded c)
  else s

/-- Every FIBRE circuit on a lost span is stranded (R13); lowest circuit first is the model's choice (log 4). -/
def strandAll (s : State) (sp : Span) : State := each (List.finRange 256) (fun c t => t.strand sp c) s

/-! ### MAP and RECOVER (R14 to R18) -/

/-- A line position is FREE, or VACATED by the circuit (R4). -/
def targetOpen (s : State) (c : CircuitNo) (p : LinePos) : Bool :=
  s.lineUse p == .free || s.lineUse p == .vacated c

/-- The expected generation is absent or is the circuit's (R12). -/
def generationMatches (s : State) (c : CircuitNo) (expected : Option Half) : Bool :=
  match expected with
  | none => true
  | some g => g == (s.circuit c).generation

/-- The circuit becomes COPPER on a line position with hold 0: the position is its own, a vacated position that it
was is cleared, and the generation advances (R15, R16, R18). -/
def placeOnLine (s : State) (c : CircuitNo) (p : LinePos) : State :=
  ((s.setLineUse p (.occupied c)).modCircuit c fun k =>
    Circuit.endCopper { k with linePos := some p, hold := 0, generation := k.generation + 1,
                               vacated := if k.vacated == some p then none else k.vacated }).discardHeld c

/-- The outcome of a MAP or RECOVER: its code and the number of held octets it discarded. -/
abbrev MapOutcome := State × ResultCode × Nat

/-- MAP SET_LINE (R15). -/
def mapSetLine (s : State) (c : CircuitNo) (p : LinePos) : MapOutcome :=
  let k := s.circuit c
  if k.pathState != .copper then (s, .badState, 0)
  else if k.linePos == some p then (s, .done, 0)
  else if !s.targetOpen c p then (s, .slotTaken, 0)
  else ((s.freeLine k.linePos).placeOnLine c p, .done, k.hold)

/-- MAP UNEQUIP (R16). -/
def mapUnequip (s : State) (c : CircuitNo) : MapOutcome :=
  let k := s.circuit c
  if k.pathState != .copper then (s, .badState, 0)
  else
    ((((s.freeLine k.linePos).freeLine k.vacated).setCircuit c (Circuit.silent
      { k with pathState := .unequipped, linePos := none, vacated := none,
               generation := k.generation + 1 })).discardHeld c, .done, k.hold)

/-- MAP EQUIP (R16). -/
def mapEquip (s : State) (c : CircuitNo) (p : LinePos) : MapOutcome :=
  if (s.circuit c).pathState != .unequipped then (s, .badState, 0)
  else if s.lineUse p != .free then (s, .slotTaken, 0)
  else (s.placeOnLine c p, .done, 0)

/-- MAP FORGET (R17). -/
def mapForget (s : State) (c : CircuitNo) : MapOutcome :=
  let k := s.circuit c
  let fits := k.pathState == .copper || k.pathState == .fibre || k.pathState == .stranded
  if !fits || k.vacated.isNone then (s, .badState, 0)
  else ((s.freeLine k.vacated).setCircuit c { k with vacated := none, generation := k.generation + 1 }, .done, 0)

/-- RECOVER (R18). -/
def recover (s : State) (c : CircuitNo) (target : Option LinePos) : MapOutcome :=
  let k := s.circuit c
  if k.pathState != .stranded then (s, .badState, 0)
  else match target <|> k.vacated with
    | none => (s, .badState, 0)
    | some p =>
      if !s.targetOpen c p then (s, .slotTaken, 0)
      else
        let t := match k.bearer with
          | none => s
          | some b => s.freeSlot b c
        ((t.modCircuit c fun k => { k with bearer := none }).placeOnLine c p, .done, 0)

/-- A MAP order (R14): the expected generation comes before every other check. -/
def mapOrder (s : State) (action : MapAction) (c : CircuitNo) (target : Option LinePos) (expected : Option Half) :
    MapOutcome :=
  if !s.generationMatches c expected then (s, .stale, 0)
  else match action, target with
    | .setLine, some p => s.mapSetLine c p
    | .equip, some p => s.mapEquip c p
    | .unequip, _ => s.mapUnequip c
    | .forget, _ => s.mapForget c
    | _, none => (s, .malformed, 0)

/-- A RECOVER order (R14, R18). -/
def recoverOrder (s : State) (c : CircuitNo) (target : Option LinePos) (expected : Option Half) : MapOutcome :=
  if !s.generationMatches c expected then (s, .stale, 0) else s.recover c target

/-! ### Dropping a hold (R58) -/

/-- The hold of a circuit becomes 0, and the octets that had been held are never delivered. A hold that is 0 already
has nothing to drop, and the repeats that a seam still owes are made (R11). -/
def dropHold (s : State) (c : CircuitNo) : State :=
  if (s.circuit c).hold == 0 then s
  else (s.modCircuit c fun k => { k with hold := 0 }).modAlign c fun a => { a with repeatsDue := 0 }

end State

end Sys2Proof.Machine
end

