-- ==== Sys2Proof/Machine/Rpu.lean ====
section
/-! DEFINITION. The Roll Protocol Unit (05): the message an entry's phase calls for, its place in a transmit queue,
the pending flags and answers; and, because a placed message may free its entry (R77), the freeing of a bridge
entry (R50). -/

namespace Sys2Proof.Machine

open Sys2Proof

/-- The kind of message an entry's role and phase call for (R86). -/
def Bridge.calledFor (e : Bridge) : Option MessageKind :=
  match e.phase, e.role with
  | .offering, .initiator => some .offer
  | .releasing, .initiator => some .release
  | .matching, .responder => some .accept
  | .rolled, .responder => some .rolled
  | .unwinding, _ => if e.declined then none else some .abandon
  | _, _ => none

/-- The place a message of entry i takes in a queue: that of the slot's queued message if it is the entry's or an
answer, else the tail if there is room; none where the entry must wait (R86). -/
def placeMessage (q : List QueuedMessage) (i : BridgeNo) (m : RollMessage) : Option (List QueuedMessage) :=
  match q.find? fun x => x.message.slot == m.slot with
  | some old =>
    if old.owner == .freedEntry then none
    else some (q.map fun x => if x.message.slot == m.slot then ⟨m, .entry i⟩ else x)
  | none => if q.length < Config.transmitPlaces then some (q ++ [⟨m, .entry i⟩]) else none

namespace State

/-- The message an entry's phase calls for (R82, R86). -/
def entryMessage (s : State) (e : Bridge) : Option RollMessage :=
  e.calledFor.map fun kind =>
    { kind := kind
      slot := e.bearer.slot
      txn := e.txn.getD 0
      rank := s.cfg.rank
      direction := if kind == .offer then e.direction else .toFibre
      quick := kind == .offer && e.quick
      reason := if kind == .abandon then e.unwindReason else none }

def setTxQueue (s : State) (sp : Span) (q : List QueuedMessage) : State :=
  s.modSpan sp fun k => { k with txQueue := q }

/-! ### The freeing of an entry (R50) -/

/-- The result values of a freed entry, gathered after the Channel Map has applied its outcome (R50). -/
def freedValues (s : State) (e : Bridge) : FreedValues :=
  let k := s.circuit e.circuit
  { generation := k.generation, pathState := k.pathState, role := e.role, txn := e.txn, offset := e.offset,
    repeats := e.repeats, skipped := e.skipped, hold := k.hold, peerReason := e.peerReason }

/-- A member's end is kept in its group's member list (R114). -/
def memberEnded (s : State) (g : Fin 4) (n : Nat) (outcome : ResultCode) (v : FreedValues) : State :=
  s.modGroup g fun x => { x with members := x.members.modify n fun m =>
    { m with bridge := none, ended := some (outcome, v) } }

/-- The outcome and values of a freed entry go to the owner of its end (R50): the group table, the runner, or, for a
detached entry, the Notice Engine. -/
def handEnd (s : State) (e : Bridge) (outcome : ResultCode) (v : FreedValues) : State :=
  match e.group, e.ref with
  | some (g, n), _ => s.memberEnded g n outcome v
  | none, some ref => s.settleOrder ref outcome (v.toMove.bytes s.cfg.byteOrder)
  | none, none => s.handNotice (.heldConcluded e.circuit outcome v)

/-- The queued messages of an entry stay when it is freed (R85), as those of an entry since freed (R86). -/
def leaveMessages (s : State) (i : BridgeNo) (sp : Span) : State :=
  s.setTxQueue sp ((s.span sp).txQueue.map fun x => if x.owner == .entry i then { x with owner := .freedEntry } else x)

/-- An entry is freed with an outcome (R50). -/
def freeAs (s : State) (i : BridgeNo) (outcome : ResultCode) : State :=
  s.withBridge i fun e =>
    let t := s.bridgeFreed i e outcome
    (t.handEnd e outcome (t.freedValues e)).leaveMessages i e.bearer.span

/-- An entry is freed with the outcome fixed for it (R49). -/
def freeEntry (s : State) (i : BridgeNo) : State :=
  s.withBridge i fun e => s.freeAs i (e.outcome.getD .done)

/-! ### Handing and placing (R86) -/

/-- The guard of an entry begins, if it has not begun (R71, R74). -/
def beginGuard (s : State) (i : BridgeNo) : State :=
  s.modBridge i fun e => { e with deadline := e.deadline <|> some (s.after Config.guardFrames) }

/-- What the placing of an entry's message brings about in the same step: the start of a guard, or the freeing of
an entry that waited only for it (R71, R74, R77). -/
def afterPlaced (s : State) (i : BridgeNo) : State :=
  s.withBridge i fun e =>
    match e.phase with
    | .releasing => s.beginGuard i
    | .unwinding => if e.freeOnPlace then s.freeEntry i else s.beginGuard i
    | .awaitingOffer | .offering | .matching | .rolled => s

/-- An entry hands its span the message its phase calls for (R86). Nothing is handed on a span that is not
IN_SERVICE (R89). -/
def handMessage (s : State) (i : BridgeNo) : State :=
  s.withBridge i fun e =>
    let sp := e.bearer.span
    match s.entryMessage e with
    | none => s
    | some m =>
      if !s.inService sp || e.pending then s
      else match placeMessage (s.span sp).txQueue i m with
        | some q => (s.setTxQueue sp q).afterPlaced i
        | none => s.setBridge i (some { e with pending := true })

/-- A span's transmit queue has room. -/
def transmitRoom (s : State) (sp : Span) : Bool := (s.span sp).txQueue.length < Config.transmitPlaces

/-- One waiting entry is served while there is room (R87): it places the message its phase then calls for, or gives up
its flag when none is called for; an entry that finds no place keeps its flag. -/
def serveEntry (s : State) (sp : Span) (i : BridgeNo) : State :=
  s.withBridge i fun e =>
    if e.pending && e.bearer.span == sp && s.transmitRoom sp then
      match s.entryMessage e with
      | none => s.setBridge i (some { e with pending := false })
      | some m =>
        match placeMessage (s.span sp).txQueue i m with
        | some q => ((s.setTxQueue sp q).setBridge i (some { e with pending := false })).afterPlaced i
        | none => s
    else s

/-- Room in a transmit queue is given to the waiting entries, lowest bridge index first, until it is used (R87). -/
def servePending (s : State) (sp : Span) : State := each (List.finRange 48) (fun i t => t.serveEntry sp i) s

/-- An answer joins the tail when there is room and the slot holds no message, and is dropped otherwise (R88). -/
def answer (s : State) (sp : Span) (kind : MessageKind) (slot : Fin 256) (txn : Byte) (reason : Option Reason) :
    State :=
  let q := (s.span sp).txQueue
  if s.transmitRoom sp && !(q.any fun x => x.message.slot == slot) then
    s.setTxQueue sp (q ++ [⟨⟨kind, slot, txn, s.cfg.rank, .toFibre, false, reason⟩, .answer⟩])
  else s

/-- The pending flags of a span's entries are cleared (R89, R176). -/
def clearPending (s : State) (sp : Span) : State :=
  each (List.finRange 48) (fun i t => t.modBridge i fun e =>
    if e.bearer.span == sp then { e with pending := false } else e) s

/-- A span's transmit queue is emptied and its entries' pending flags are cleared (R89, R176). -/
def emptyTransmit (s : State) (sp : Span) : State := (s.setTxQueue sp []).clearPending sp

end State

end Sys2Proof.Machine
end

