-- ==== Sys2Proof/Machine/Migration.lean ====
section
/-! DEFINITION. Matching, roll, release and unwinding of a bridge entry, and the resolution of path losses (04). -/

namespace Sys2Proof.Machine

open Sys2Proof

/-- A matcher whose window begins: no history, every run 0, and the admissible offsets those from
max(−15, h − 15) on (R62, R63). -/
def Matcher.fresh (hold : Nat) : Matcher where
  toHistory := []
  fromHistory := []
  runs := List.replicate 31 0
  lowest := max (-15) ((hold : Int) - 15)

/-- The window of a matcher restarts (R66). -/
def Matcher.restart (m : Matcher) : Matcher :=
  { m with toHistory := [], fromHistory := [], runs := List.replicate 31 0 }

/-- The second condition of the release decision, also that of a member counted as both-rolled (R70, R108). -/
def Bridge.bothRolled (e : Bridge) : Bool := e.peerRolled || (e.forced && e.fromLost)

namespace State

/-- The from-path of an entry is lost now: the line port of a TO_FIBRE move, the span of a TO_COPPER move (R76). -/
def fromPathLost (s : State) (e : Bridge) : Bool :=
  match e.direction with
  | .toFibre => !s.linePresent e.linePos
  | .toCopper => !s.inService e.bearer.span

/-- The group of an entry lets it release: it has none, or the gate is OPEN (R70). -/
def gatePermits (s : State) (e : Bridge) : Bool :=
  match e.group with
  | none => true
  | some (g, _) => (s.group g).any fun x => x.gate == .opened

/-- Turn an entry's to-path feed off. -/
def stopToFeed (s : State) (e : Bridge) : State := s.modCircuit e.circuit fun k => k.feedTo e.direction false

/-- Turn an entry's from-path feed off. -/
def stopFromFeed (s : State) (e : Bridge) : State := s.modCircuit e.circuit fun k => k.feedFrom e.direction false

/-! ### The own roll and what follows it (R68 to R70) -/

/-- An entry's receive moves to its to-path through the seam (R68). -/
def roll (s : State) (i : BridgeNo) (d : Int) (forced : Bool) : State :=
  s.withBridge i fun e =>
    let r := seamNumbers (s.circuit e.circuit).hold d
    (s.seamSwitch e.circuit (toReceive e.direction) d).setBridge i (some
      { e with offset := some d, forced := e.forced || forced, repeats := e.repeats + r.repeats,
               skipped := e.skipped + r.skipped, rolled := true, matcher := none, matchDue := none,
               quickDue := none })

/-- An initiator enters RELEASING (R70): its outcome is fixed and RELEASE is handed. An entry whose from-path is lost
has no guard and is freed in the same step (R71); one whose RELEASE cannot be handed begins its guard at once. -/
def enterReleasing (s : State) (i : BridgeNo) : State :=
  s.withBridge i fun e =>
    let t := (s.setBridge i (some
      { e with phase := .releasing, deadline := none, retryDue := none,
               outcome := some (if e.forced then .doneForced else .done) })).handMessage i
    if e.fromLost then t.freeEntry i
    else if s.inService e.bearer.span then t else t.beginGuard i

/-- The release decision (R70). -/
def releaseDecision (s : State) (i : BridgeNo) : State :=
  s.withBridge i fun e =>
    if e.role == .initiator && e.phase == .rolled && e.bothRolled && s.gatePermits e then s.enterReleasing i
    else s

/-- What follows an own roll (R69): a responder enters ROLLED and hands ROLLED; an initiator enters ROLLED with its
PEER_STALL deadline and the release decision is taken. -/
def enterRolled (s : State) (i : BridgeNo) : State :=
  s.withBridge i fun e =>
    match e.role with
    | .responder =>
      (s.setBridge i (some { e with phase := .rolled, deadline := none,
                                    retryDue := some (s.after Config.retryFrames) })).handMessage i
    | .initiator =>
      (s.setBridge i (some { e with phase := .rolled, retryDue := none,
                                    deadline := if e.peerRolled then none
                                      else some (s.after Config.stallFrames) })).releaseDecision i

/-- A forced roll on the loss of a from-path (R68, R79). -/
def forcedRoll (s : State) (i : BridgeNo) : State := s.roll i 0 true

/-! ### Loss of the from-path line port of a TO_FIBRE entry (R79, R80) -/

/-- The loss of a TO_FIBRE entry's from-path, by phase. -/
def fromLineLost (s : State) (i : BridgeNo) : State :=
  s.withBridge i fun e =>
    let t := (s.stopFromFeed e).setBridge i (some { e with fromLost := true })
    match e.phase with
    | .awaitingOffer | .unwinding => t
    | .offering => if e.rolled then t else t.forcedRoll i
    | .matching => (t.forcedRoll i).enterRolled i
    | .rolled => (t.modBridge i fun e => { e with forced := true }).releaseDecision i
    | .releasing => t.freeEntry i

/-! ### Entering MATCHING (R62) -/

/-- An entry enters MATCHING. One that was forced-rolled in OFFERING enters ROLLED instead (R79); one whose from-path
is lost takes that loss in the same step, in place of its ACCEPT; one with QUICK set on an idle circuit is due to roll
(R67). -/
def enterMatching (s : State) (i : BridgeNo) : State :=
  s.withBridge i fun e =>
    if e.rolled then s.enterRolled i
    else
      let idle := s.activity e.circuit == .idle
      let t := s.setBridge i (some
        { e with phase := .matching, deadline := some (s.after e.matchLimit), retryDue := none,
                 matcher := some (Matcher.fresh (s.circuit e.circuit).hold), matchDue := none,
                 quickDue := if e.quick && idle then some s.counter else none })
      if e.direction == .toFibre && (e.fromLost || s.fromPathLost e) then t.fromLineLost i
      else t.handMessage i

/-! ### Unwinding (R73, R74) -/

/-- A rolled entry's receive returns to its from-path through the seam with the offset reversed (R11, R73). -/
def seamBack (s : State) (i : BridgeNo) : State :=
  s.withBridge i fun e =>
    if e.rolled then
      let d := -(e.offset.getD 0)
      let r := seamNumbers (s.circuit e.circuit).hold d
      (s.seamSwitch e.circuit (fromReceive e.direction) d).setBridge i (some
        { e with rolled := false, repeats := e.repeats + r.repeats, skipped := e.skipped + r.skipped })
    else s

/-- The from-path feed is on, or is turned on again, unless the path is lost (R73). -/
def refeedFrom (s : State) (i : BridgeNo) : State :=
  s.withBridge i fun e =>
    let lost := s.fromPathLost e
    (s.modCircuit e.circuit fun k => k.feedFrom e.direction (!lost)).setBridge i (some { e with fromLost := lost })

/-- An entry goes back to its from-path: the receive by the seam, and the feed (R73, R75). -/
def goBack (s : State) (i : BridgeNo) : State := (s.seamBack i).refeedFrom i

/-- An entry enters UNWINDING with the outcome and reason of its cause, and goes back (R73, steps 1 to 3). `declined`
says that the cause was a DECLINE, `toLost` that the to-path is lost, so that its feed stops (R77). -/
def enterUnwinding (s : State) (i : BridgeNo) (outcome : ResultCode) (reason : Option Reason)
    (declined toLost : Bool) : State :=
  s.withBridge i fun e =>
    let t := s.goBack i
    let t := if toLost then t.stopToFeed e else t
    t.modBridge i fun e =>
      { e with phase := .unwinding, deadline := none, retryDue := none, outcome := some outcome,
               unwindReason := reason, declined := declined, freeOnPlace := toLost, matcher := none,
               matchDue := none, quickDue := none }

/-- What an entry that has entered UNWINDING does next (R73 step 4, R74, R77): it hands its ABANDON; or, none being
sent, it is freed when its to-path is lost, and else begins its guard. -/
def sendAbandon (s : State) (i : BridgeNo) : State :=
  s.withBridge i fun e =>
    if s.inService e.bearer.span && !e.declined then s.handMessage i
    else if e.freeOnPlace then s.freeEntry i
    else s.beginGuard i

/-- An entry unwinds (R73). An entry already in UNWINDING does not begin a second unwind. -/
def unwind (s : State) (i : BridgeNo) (outcome : ResultCode) (reason : Option Reason) (declined : Bool := false)
    (toLost : Bool := false) : State :=
  s.withBridge i fun e =>
    if e.phase == .unwinding then s
    else (s.enterUnwinding i outcome reason declined toLost).sendAbandon i

/-! ### Loss of the to-path, and of the span of a TO_COPPER entry (R77, R78, R81) -/

/-- The loss of an entry's to-path, by phase (R77, R78). -/
def toPathLost (s : State) (i : BridgeNo) : State :=
  s.withBridge i fun e =>
    match e.phase with
    | .awaitingOffer => s.freeAs i .pathLost
    | .offering | .matching | .rolled => s.unwind i .pathLost (some .pathLost) false true
    | .releasing => (s.stopToFeed e).beginGuard i
    | .unwinding => (s.stopToFeed e).freeEntry i

/-- An entry completes forward locally (R81): its receive is on the to-path, and only the to-path is fed. -/
def completeForward (s : State) (i : BridgeNo) : State :=
  s.withBridge i fun e =>
    let t := if e.rolled then s else s.roll i 0 true
    let t := t.modCircuit e.circuit fun k => (k.feedFrom e.direction false).feedTo e.direction true
    (t.modBridge i fun e => { e with forced := true, fromLost := true, outcome := some .doneForced }).freeEntry i

/-- The loss of the span of a TO_COPPER entry, its from-path and its message path together, by phase (R81). An
UNWINDING entry whose ABANDON was pending begins its guard at this event (R74). -/
def fromSpanLost (s : State) (i : BridgeNo) : State :=
  s.withBridge i fun e =>
    match e.phase with
    | .awaitingOffer | .offering | .matching | .rolled => s.completeForward i
    | .releasing => (s.stopFromFeed e).freeEntry i
    | .unwinding =>
      let t := (s.stopFromFeed e).setBridge i (some { e with fromLost := true })
      if (s.circuit e.circuit).feedsTo e.direction then t.beginGuard i else t.freeEntry i

/-- The loss of a span, for the entry at an index (R76). -/
def spanLossEntry (s : State) (sp : Span) (i : BridgeNo) : State :=
  s.withBridge i fun e =>
    if e.bearer.span == sp then
      match e.direction with
      | .toFibre => s.toPathLost i
      | .toCopper => s.fromSpanLost i
    else s

/-- The loss of a line port, for the entry at an index (R76). -/
def lineLossEntry (s : State) (k : Fin 8) (i : BridgeNo) : State :=
  s.withBridge i fun e =>
    if e.linePos.port == k then
      match e.direction with
      | .toFibre => s.fromLineLost i
      | .toCopper => s.toPathLost i
    else s

/-- A span's loss is resolved for every entry it concerns (R76). R76 fixes no order among them: lowest index first is
the model's choice (log 4). -/
def resolveSpanLoss (s : State) (sp : Span) : State :=
  each (List.finRange 48) (fun i t => t.spanLossEntry sp i) s

/-- A line port's loss is resolved for every entry it concerns (R76). R76 fixes no order among them: lowest index first
is the model's choice (log 4). -/
def resolveLineLoss (s : State) (k : Fin 8) : State :=
  each (List.finRange 48) (fun i t => t.lineLossEntry k i) s

/-! ### The peer's ABANDON (R75) -/

/-- A matching ABANDON from the peer, by phase. -/
def peerAbandon (s : State) (i : BridgeNo) (reason : Reason) : State :=
  s.withBridge i fun e =>
    let t := s.setBridge i (some { e with peerReason := some reason })
    match e.phase with
    | .awaitingOffer => s
    | .offering | .matching | .rolled => ((t.goBack i).stopToFeed e).freeAs i .peerAbandoned
    | .unwinding => (t.stopToFeed e).freeEntry i
    | .releasing => t.stopToFeed e

/-! ### Slips and activity (R66, R67) -/

/-- The windows of the matchers in MATCHING that a test selects restart (R66). -/
def restartMatchers (s : State) (concerns : Bridge → Bool) : State :=
  each (List.finRange 48) (fun i t => t.modBridge i fun e =>
    if e.phase == .matching && concerns e then { e with matcher := e.matcher.map Matcher.restart } else e) s

/-- A circuit's activity has become IDLE: its entry in MATCHING with QUICK set is due to roll (R67). -/
def quickOnIdle (s : State) (c : CircuitNo) : State :=
  match (s.circuit c).bridgeIndex with
  | none => s
  | some i => s.modBridge i fun e =>
    if e.phase == .matching && e.quick && e.quickDue.isNone then { e with quickDue := some s.counter } else e

end State

end Sys2Proof.Machine
end

