-- ==== Sys2Proof/Machine/Groups.lean ====
section
/-! DEFINITION. Roll groups (06): the count of both-rolled members, the gate, the group's unwind and its
settling. `advanceGroups` is taken at the end of every step, so that whatever a step did to members reaches their
group in that step. -/

namespace Sys2Proof.Machine

open Sys2Proof

namespace State

/-- The bridge entry of a member, while it is in use. -/
def memberEntry (s : State) (m : GroupMember) : Option Bridge := m.bridge.bind s.bridge

/-- The outcome of a member: that of its freed entry, or the one fixed for its entry (R49, R178). -/
def memberOutcome (s : State) (m : GroupMember) : Option ResultCode :=
  match m.ended with
  | some (code, _) => some code
  | none => (s.memberEntry m).bind Bridge.outcome

/-- The peer reason of a member (R103, R114). -/
def memberReason (s : State) (m : GroupMember) : Option Reason :=
  match m.ended with
  | some (_, v) => v.peerReason
  | none => (s.memberEntry m).bind Bridge.peerReason

/-- A decided outcome other than DONE and DONE_FORCED (R110). -/
def memberFailed (s : State) (m : GroupMember) : Bool :=
  (s.memberOutcome m).any fun code => !releasedForm code

/-- A member's result and peer reason as they are written into its member entry (R114). -/
def memberResult (s : State) (m : GroupMember) : Byte × Byte :=
  (optOctet ResultCode.code (s.memberOutcome m), optOctet Reason.code (s.memberReason m))

/-- A group settles with the outcomes its members have, and its entry becomes free (R114). -/
def settleGroup (s : State) (g : Fin 4) (x : Group) : State :=
  let bad := x.members.find? s.memberFailed
  let done := (x.members.filter fun m => (s.memberOutcome m).any releasedForm).length
  let values : MoveValues := { member := x.cause, group := g.val, membersDone := done }
  (s.settleOrder x.ref ((bad.bind s.memberOutcome).getD .done) (values.bytes s.cfg.byteOrder)
    (x.members.map s.memberResult)).setGroup g none

/-- Act on each member of a group whose entry is in use, in member order. -/
def eachMember (s : State) (x : Group) (f : BridgeNo → State → State) : State :=
  each x.members (fun m t =>
    match m.bridge with
    | none => t
    | some i => f i t) s

/-- A RUNNING group one of whose members has failed unwinds (R110, R111): the first such member in member order is the
cause, and every other member in use that is not yet in UNWINDING unwinds. That a TO_FIBRE member whose from-path the
same loss has taken unwinds too follows R110 against the narrower words of R111 (log 39). -/
def unwindGroup (s : State) (g : Fin 4) (x : Group) : State :=
  (s.setGroup g (some { x with state := .unwinding, cause := x.members.findIdx? s.memberFailed })).eachMember x
    fun i t => t.unwind i .unwoundByGroup (some .groupUnwind)

/-- A member counts as both-rolled (R108): its entry is in ROLLED and meets the second condition of the release
decision, or it was freed DONE_FORCED. -/
def memberCounts (s : State) (m : GroupMember) : Bool :=
  match m.ended with
  | some (code, _) => code == .doneForced
  | none => (s.memberEntry m).any fun e => e.phase == .rolled && e.bothRolled

/-- The members that count for the first time are counted; a counted member's PEER_STALL deadline is cleared
(R108). -/
def countMembers (s : State) (g : Fin 4) (x : Group) : State :=
  let counts := fun m : GroupMember => !m.counted && s.memberCounts m
  let n := (x.members.filter counts).length
  let marked := x.members.map fun m => if counts m then { m with counted := true } else m
  let t := s.setGroup g (some { x with members := marked, count := x.count - n })
  each (x.members.filter counts) (fun m u =>
    match m.bridge with
    | none => u
    | some i => u.modBridge i fun e => { e with deadline := none }) t

/-- The gate of a RUNNING group whose count is 0 opens, and every member in ROLLED enters RELEASING in member order
(R109). -/
def openGate (s : State) (g : Fin 4) (x : Group) : State :=
  (s.setGroup g (some { x with state := .releasing, gate := .opened })).eachMember x
    fun i t => t.releaseDecision i

/-- A RUNNING group unwinds, or counts its members and opens its gate. -/
def runGroup (s : State) (g : Fin 4) : State :=
  match s.group g with
  | none => s
  | some x =>
    if x.state != .running then s
    else if x.members.any s.memberFailed then s.unwindGroup g x
    else
      let t := s.countMembers g x
      match t.group g with
      | none => t
      | some y => if y.count == 0 then t.openGate g y else t

/-- A group whose last member's entry has been freed settles (R114). -/
def endGroup (s : State) (g : Fin 4) : State :=
  match s.group g with
  | none => s
  | some x => if x.members.all fun m => m.ended.isSome then s.settleGroup g x else s

/-- No group entry is in use. -/
def noGroups (s : State) : Bool := (List.finRange 4).all fun g => (s.group g).isNone

/-- A step has changed no bridge entry and no group entry. -/
def sameMoves (before s : State) : Bool := decide (before.bridges = s.bridges) && decide (before.groups = s.groups)

/-- Every group takes what a step that began in `before` has done to its members; a step that has changed no bridge
entry and no group entry gives the groups nothing to take. -/
def advanceGroups (before s : State) : State :=
  if s.noGroups || sameMoves before s then s
  else each (List.finRange 4) (fun g t => (t.runGroup g).endGroup g) s

end State

end Sys2Proof.Machine
end

