-- ==== Sys2Proof/Machine/Admission.lean ====
section
/-! DEFINITION. Admission (03): the busy check, the watch list and its places, the start checks, the start of
entries and of groups, and the ABANDON and TRIM orders. -/

namespace Sys2Proof.Machine

open Sys2Proof

/-- The circuits a queue entry names (03 section 3.4). -/
def QueueEntry.circuits (q : QueueEntry) : List CircuitNo :=
  match q.body with
  | .migrate m => [m.circuit]
  | .expect m _ => [m.circuit]
  | .group members => members.map MoveOrder.circuit

/-- The number of bridge entries a queue entry needs (03 section 3.4). -/
def QueueEntry.needs (q : QueueEntry) : Nat := q.circuits.length

namespace State

/-! ### Places (R38, R39) -/

/-- The circuit has a bridge entry, an admission queue entry or a watch entry (R38). -/
def busy (s : State) (c : CircuitNo) : Bool :=
  (s.circuit c).bridgeIndex.isSome || (s.queue.any fun q => q.circuits.contains c) ||
  s.watch.any fun w => w.circuit == c

/-- The number of ready watch entries: a place released goes to them first (R39). -/
def readyCount (s : State) : Nat := (s.watch.filter fun w => w.readyMark.isSome).length

/-- A queue place is free and no ready watch entry has the first claim to it (R39). -/
def queueRoom (s : State) : Bool := s.queue.length + s.readyCount < Config.queuePlaces

/-- A watch list place is free. -/
def watchRoom (s : State) : Bool := s.watch.length < Config.watchPlaces

/-- An entry joins the tail of the admission queue. -/
def enqueue (s : State) (q : QueueEntry) : State := s.setQueue (s.queue ++ [q])

/-- The watch entry of a circuit. -/
def watchOf (s : State) (c : CircuitNo) : Option WatchEntry := s.watch.find? fun w => w.circuit == c

/-- The watch entry of a circuit is removed. -/
def unwatch (s : State) (c : CircuitNo) : State := s.setWatch (s.watch.filter fun w => w.circuit != c)

/-- The deadline of a wait limit: none for 0 (R40, R57). -/
def waitDeadline (s : State) (limit : Nat) : Option FrameNo := if limit == 0 then none else some (s.after limit)

/-! ### Result values by place (03 section 3.8) -/

/-- Present generation and path state. -/
def placeValues (s : State) (c : CircuitNo) : MoveValues :=
  { generation := (s.circuit c).generation, pathState := some (s.circuit c).pathState }

/-- Present generation, path state and residual hold. -/
def watchValues (s : State) (c : CircuitNo) : MoveValues :=
  { s.placeValues c with hold := (s.circuit c).hold }

/-- Settle an order with migration values. -/
def settleMove (s : State) (ref : OrderRef) (code : ResultCode) (v : MoveValues)
    (members : List (Byte × Byte) := []) : State :=
  s.settleOrder ref code (v.bytes s.cfg.byteOrder) members

/-- The member results of a GROUP of n members that never started: one member's code, every other empty (R105,
R106). -/
def loneResult (n k : Nat) (code : ResultCode) : List (Byte × Byte) :=
  (List.range n).map fun i => if i == k then (code.code, 0) else (0, 0)

/-- A GROUP that has not started settles with the code of member k (R105, R106). -/
def settleLone (s : State) (ref : OrderRef) (members : List MoveOrder) (k : Nat) (code : ResultCode) : State :=
  let values : MoveValues := match members[k]? with
    | none => {}
    | some m => s.placeValues m.circuit
  s.settleMove ref code { values with member := some k } (loneResult members.length k code)

/-! ### Start checks (R43) -/

/-- The bearer slot of a move: the slot named, or the circuit's own (R37). -/
def moveBearer (s : State) (m : MoveOrder) : Option BearerSlot :=
  match m.direction with
  | .toFibre => some ⟨m.span, m.slot⟩
  | .toCopper => (s.circuit m.circuit).bearer

/-- The line position of a move: the circuit's own, or the target, which is the vacated position when none is
named (R37). -/
def moveLine (s : State) (m : MoveOrder) : Option LinePos :=
  match m.direction with
  | .toFibre => (s.circuit m.circuit).linePos
  | .toCopper => m.target <|> (s.circuit m.circuit).vacated

/-- The path state and the paths a move needs are there (R43, BAD_STATE). -/
def moveState (s : State) (m : MoveOrder) : Bool :=
  let p := (s.circuit m.circuit).pathState
  match m.direction with
  | .toFibre => p == .copper
  | .toCopper => p == .fibre || p == .stranded

/-- The start checks of one circuit, in their order; the code of the first that fails (R43). -/
def startCheck (s : State) (m : MoveOrder) : Option ResultCode :=
  if !s.generationMatches m.circuit m.expectedGeneration then some .stale
  else if !s.moveState m then some .badState
  else match s.moveBearer m, s.moveLine m with
    | some b, some p =>
      if !s.inService b.span then some .spanDown
      else match m.direction with
        | .toFibre => if (s.slotEntry b).use == .free then none else some .slotTaken
        | .toCopper =>
          if !s.targetOpen m.circuit p then some .slotTaken
          else if !s.linePresent p then some .pathLost
          else none
    | _, _ => some .badState

/-! ### Starting entries (R46, R47, R107) -/

/-- The free bridge entries, lowest first (R42). -/
def freeBridges (s : State) : List BridgeNo := (List.finRange 48).filter fun i => (s.bridge i).isNone

/-- The lowest-numbered free group entry (R107). -/
def freeGroup (s : State) : Option (Fin 4) := (List.finRange 4).find? fun g => (s.group g).isNone

/-- The entry of a move as it is filled at its start (R46, R47). -/
def newBridge (m : MoveOrder) (b : BearerSlot) (p : LinePos) (role : Role)
    (ref : Option OrderRef) (group : Option (Fin 4 × Nat)) : Bridge where
  circuit := m.circuit
  direction := m.direction
  role := role
  bearer := b
  linePos := p
  txn := none
  phase := match role with
    | .initiator => .offering
    | .responder => .awaitingOffer
  quick := role == .initiator && m.quick
  peerRolled := false
  offset := none
  forced := false
  matchLimit := m.matchLimit
  repeats := 0
  skipped := 0
  deadline := none
  retryDue := none
  pending := false
  ref := ref
  group := group
  outcome := none
  unwindReason := none
  peerReason := none
  matcher := none
  matchDue := none
  quickDue := none
  rolled := false
  fromLost := false
  declined := false
  freeOnPlace := false
  ontoVacated := false

/-- A move TO_COPPER onto the vacated position of its own circuit (R3). -/
def ontoVacated (s : State) (m : MoveOrder) (p : LinePos) : Bool :=
  m.direction == .toCopper && (s.circuit m.circuit).vacated == some p

/-- The loss of a from-path line port that is LOST already is applied as an entry starts (R43, R76). -/
def lossAtStart (s : State) (i : BridgeNo) : State :=
  s.withBridge i fun e =>
    if e.direction == .toFibre && s.fromPathLost e then s.fromLineLost i else s

/-- An EXPECT starts in an entry (R46). -/
def startExpect (s : State) (i : BridgeNo) (m : MoveOrder) (window : Nat) (ref : OrderRef) : State :=
  match s.moveBearer m, s.moveLine m with
  | some b, some p =>
    let e := { newBridge m b p .responder (some ref) none with
      deadline := some (s.after window)
      ontoVacated := s.ontoVacated m p }
    (s.bridgeStart i e).lossAtStart i
  | _, _ => s

/-- The entry that a MIGRATE or a group member fills (R47, R84, R107). -/
def migrateEntry (s : State) (m : MoveOrder) (b : BearerSlot) (p : LinePos) (ref : Option OrderRef)
    (group : Option (Fin 4 × Nat)) : Bridge :=
  { newBridge m b p .initiator ref group with
    txn := some (s.span b.span).txnCounter
    ontoVacated := s.ontoVacated m p
    deadline := some (s.after Config.offerFrames)
    retryDue := some (s.after Config.retryFrames) }

/-- A MIGRATE or a group member starts in an entry (R47, R107): the to-path is fed, a txn is taken from the span's
counter (R84), and OFFER is handed. -/
def startMigrate (s : State) (i : BridgeNo) (m : MoveOrder) (ref : Option OrderRef)
    (group : Option (Fin 4 × Nat)) : State :=
  match s.moveBearer m, s.moveLine m with
  | some b, some p =>
    let t := (s.bridgeStart i (s.migrateEntry m b p ref group)).modCircuit m.circuit fun k => k.feedTo m.direction true
    let t := t.modSpan b.span fun k => { k with txnCounter := k.txnCounter + 1 }
    (t.handMessage i).lossAtStart i
  | _, _ => s

/-- A GROUP that has passed every check starts (R107). The group entry alone holds the order reference, and the members'
bridge entries hold none: the model's choice (log 44). -/
def startGroup (s : State) (g : Fin 4) (members : List MoveOrder) (ref : OrderRef) : State :=
  let granted := (members.zip s.freeBridges).zipIdx
  let items := granted.map fun x => ⟨x.1.1.circuit, some x.1.2, false, none⟩
  let t := s.setGroup g (some
    { ref := ref, members := items, count := members.length, gate := .closed, state := .running, cause := none })
  each granted (fun x u => u.startMigrate x.1.2 x.1.1 none (some (g, x.2))) t

/-- The head of the queue has room to start (R42). -/
def headFits (s : State) (q : QueueEntry) : Bool :=
  q.needs ≤ s.freeBridges.length &&
  match q.body with
  | .group _ => s.freeGroup.isSome
  | .migrate _ | .expect _ _ => true

/-- A head that has left the queue starts, or is refused at start (R43, R106). -/
def startHead (s : State) (q : QueueEntry) : State :=
  match q.body with
  | .migrate m =>
    match s.startCheck m, s.freeBridges with
    | some code, _ => s.settleMove q.ref code (s.placeValues m.circuit)
    | none, i :: _ => s.startMigrate i m (some q.ref) none
    | none, [] => s
  | .expect m window =>
    match s.startCheck m, s.freeBridges with
    | some code, _ => s.settleMove q.ref code (s.placeValues m.circuit)
    | none, i :: _ => s.startExpect i m window q.ref
    | none, [] => s
  | .group members =>
    match members.findIdx? fun m => (s.startCheck m).isSome with
    | some k => s.settleLone q.ref members k (((members[k]?).bind s.startCheck).getD .badState)
    | none =>
      match s.freeGroup with
      | some g => s.startGroup g members q.ref
      | none => s

/-- Heads start one after another for as long as the head fits (R42); `n` bounds their number. -/
def startHeads (s : State) : Nat → State
  | 0 => s
  | n + 1 =>
    match s.queue with
    | [] => s
    | q :: rest => if s.headFits q then startHeads ((s.setQueue rest).startHead q) n else s

/-! ### The watch list (R40, R41) -/

/-- Remove the watch entry of a circuit and drop the circuit's hold: a TRIM executes (R58, R59). -/
def executeTrim (s : State) (w : WatchEntry) : State :=
  let c := w.circuit
  let dropped := (s.circuit c).hold
  let t := (s.unwatch c).dropHold c
  t.settleMove w.ref .done { t.placeValues c with dropped := dropped }

/-- A MIGRATE leaves the watch list for the tail of the queue (R40). -/
def moveToQueue (s : State) (w : WatchEntry) : State :=
  match w.body with
  | .migrate m => (s.unwatch w.circuit).enqueue ⟨w.ref, .migrate m⟩
  | .trim => s

/-- A circuit's activity has become IDLE: its watch entry executes, moves to the queue or gains its ready mark
(R40). -/
def watchIdle (s : State) (c : CircuitNo) : State :=
  match s.watchOf c with
  | none => s
  | some w =>
    match w.body with
    | .trim => s.executeTrim w
    | .migrate _ =>
      if s.queueRoom then s.moveToQueue w
      else s.setWatch (s.watch.map fun x =>
        if x.circuit == c then { x with readyMark := some s.counter } else x)

/-- A circuit's activity has left IDLE: its watch entry loses its ready mark (R40). -/
def watchBusy (s : State) (c : CircuitNo) : State :=
  s.setWatch (s.watch.map fun x => if x.circuit == c then { x with readyMark := none } else x)

/-- How long ago a ready mark was made. -/
def readyAge (s : State) (w : WatchEntry) : Nat := (w.readyMark.map fun m => (s.counter - m).toNat).getD 0

/-- Watch entry x comes before y for a released queue place: it became ready earlier, or in the same frame with the
lower circuit (R40). -/
def readyBefore (s : State) (x y : WatchEntry) : Bool :=
  s.readyAge y < s.readyAge x || (s.readyAge x == s.readyAge y && x.circuit ≤ y.circuit)

/-- The ready watch entry that became ready earliest (R39, R40). -/
def firstReady (s : State) : Option WatchEntry :=
  let ready := s.watch.filter fun w => w.readyMark.isSome
  ready.find? fun x => ready.all fun y => s.readyBefore x y

/-! ### ABANDON (R51 to R56) -/

/-- The queued order that names circuit c is withdrawn, a GROUP whole (R51, R105). -/
def withdrawQueued (s : State) (q : QueueEntry) (c : CircuitNo) : State :=
  let t := s.setQueue (s.queue.filter fun x => !x.circuits.contains c)
  match q.body with
  | .migrate _ | .expect _ _ => t.settleMove q.ref .abandoned (s.placeValues c)
  | .group members => t.settleLone q.ref members (q.circuits.findIdx (· == c)) .abandoned

/-- An ABANDON on a circuit's running entry: the state it leaves, and the code the ABANDON settles with (R51 to
R56). -/
def abandonEntry (s : State) (i : BridgeNo) (e : Bridge) (force : Force) : State × ResultCode :=
  match e.phase, e.role, force with
  | .awaitingOffer, _, .forward => (s, .badState)
  | .awaitingOffer, _, _ => (s.freeAs i .abandoned, .done)
  | .unwinding, _, .forward => (s, .badState)
  | .unwinding, _, _ => (s, .done)
  | .releasing, _, .none => (s, .tooLate)
  | .releasing, _, .forward => (s, .done)
  | .releasing, _, .back => (s.unwind i .fallback (some .ordered), .forced)
  | .rolled, .responder, .none => (s, .tooLate)
  | .rolled, .responder, .back => (s.unwind i .fallback (some .ordered), .forced)
  | .rolled, .responder, .forward =>
    let t := s.setBridge i (some
      { e with forced := true, phase := .releasing, retryDue := none, outcome := some .doneForced })
    (if e.fromLost then t.freeEntry i else t.beginGuard i, .forced)
  | _, _, .forward => (s, .badState)
  | _, _, _ => (s.unwind i .abandoned (some .ordered), .done)

/-- An ABANDON order acts on whatever the circuit has pending (R51 to R56). -/
def abandonPending (s : State) (c : CircuitNo) (force : Force) : State × ResultCode :=
  match s.queue.find? (fun q => q.circuits.contains c), s.watchOf c, (s.circuit c).bridgeIndex with
  | some q, _, _ => if force == .forward then (s, .badState) else (s.withdrawQueued q c, .done)
  | none, some w, _ =>
    if force == .forward then (s, .badState)
    else ((s.unwatch c).settleMove w.ref .abandoned (s.watchValues c), .done)
  | none, none, some i =>
    match s.bridge i with
    | some e => s.abandonEntry i e force
    | none => (s, .nothing)
  | none, none, none => (s, .nothing)

/-- The result values of an ABANDON: generation, path state and phase after it has acted (R56). -/
def abandonValues (s : State) (c : CircuitNo) : MoveValues :=
  { s.placeValues c with phase := ((s.circuit c).bridgeIndex.bind s.bridge).map Bridge.phase }

/-- An ABANDON order (03 section 3.9). The order that it withdraws, or whose entry it frees, begins to settle before the
ABANDON does: the model's choice (log 4). -/
def abandonOrder (s : State) (ref : OrderRef) (c : CircuitNo) (force : Force) : State :=
  let (t, code) := s.abandonPending c force
  t.settleMove ref code (t.abandonValues c)

/-! ### TRIM (R57, R58) -/

/-- A TRIM needs a watch list place (R57). -/
def trimWaits (s : State) (c : CircuitNo) : Bool :=
  !s.busy c && (s.circuit c).hold != 0 && s.activity c != .idle

/-- A TRIM order at its take (R57). -/
def trimOrder (s : State) (ref : OrderRef) (c : CircuitNo) (limit : Nat) : State :=
  if s.busy c then s.settleMove ref .busy (s.placeValues c)
  else if s.trimWaits c then
    s.setWatch (s.watch ++ [⟨ref, c, .trim, s.waitDeadline limit, none⟩])
  else
    let t := s.dropHold c
    t.settleMove ref .done { t.placeValues c with dropped := (s.circuit c).hold }

end State

end Sys2Proof.Machine
end

