-- ==== Sys2Proof/Machine/Spans.lean ====
section
/-! DEFINITION. The span framers (07): the frame and its check, the judgement of a received frame, the line states
with what leaving and entering service does, the elastic store and the SPAN order. -/

namespace Sys2Proof.Machine

open Sys2Proof

/-! ### Frame check (R117) -/

/-- One bit of the cyclic check with generator x^16 + x^12 + x^5 + 1. -/
def checkBit (r : BitVec 16) (bit : Bool) : BitVec 16 :=
  let shifted := r <<< 1
  if r.msb != bit then shifted ^^^ 0x1021#16 else shifted

/-- One octet of the check, most significant bit first. -/
def checkOctet (r : BitVec 16) (b : Byte) : BitVec 16 :=
  (List.range 8).foldl (fun r n => checkBit r (b.getLsbD (7 - n))) r

/-- The octets a frame's check covers: those after the delimiter and before the check. -/
def frameCovered (f : SpanFrame) : List Byte :=
  [f.kind, f.marks, f.rank] ++ f.bearer.toList ++ f.control.toList

/-- The check of a frame: the register starts at all ones (R117). -/
def frameCheck (f : SpanFrame) : BitVec 16 := (frameCovered f).foldl checkOctet 0xFFFF#16

/-- A frame with its check in place. -/
def closeFrame (f : SpanFrame) : SpanFrame := { f with check := frameCheck f }

/-! ### Judgement of a received frame (R119, R120) -/

/-- What a received frame is found to be; the fields of a CARRY are restored (R118). -/
inductive Verdict where
  | errored
  | train (rank : Byte)
  | reply (rank : Byte)
  | carry (bearer : Vector Byte 256) (control : Vector Byte 5)
  deriving DecidableEq, Repr

/-- The marker of a frame (13.4). -/
def frameMarker (f : SpanFrame) : Marker := if f.marks.getLsbD 0 then .odd else .even

/-- The inversion mark of a frame (13.4). -/
def frameInverted (f : SpanFrame) : Bool := f.marks.getLsbD 1

/-- A table of octets with every bit inverted, or as it is (R118). -/
def invertIf {n : Nat} (on : Bool) (v : Vector Byte n) : Vector Byte n :=
  if on then tab n fun i => ~~~v[i.val] else v

/-- A frame is judged against the reference marker, which it moves when it passes its check (R119, R120). -/
def judgeFrame (reference : Marker) (f : SpanFrame) : Verdict × Marker :=
  if f.check != frameCheck f then (.errored, reference)
  else match f.kind.toNat with
    | 1 => (.train f.rank, .even)
    | 2 => (.reply f.rank, .even)
    | 3 =>
      (if frameMarker f == reference then .errored
       else .carry (invertIf (frameInverted f) f.bearer) (invertIf (frameInverted f) f.control), frameMarker f)
    | _ => (.errored, reference)

/-- What a frame period brings to the receiver's alignment, and the frame to judge, if any (R121). -/
def alignPeriod (a : Alignment) (rx : SpanPeriod) : Alignment × Option SpanFrame :=
  match a, rx with
  | .aligned, .inPlace f => (.aligned, some f)
  | .trial, .inPlace f => (.aligned, some f)
  | .searching, .inPlace _ => (.trial, none)
  | _, .elsewhere _ => (.trial, none)
  | _, .nothing => (.searching, none)

/-! ### Elastic stores (R131, R140) -/

/-- A frame is written: the older of two frames held is discarded, a deleting slip. -/
def storeWrite {α : Type} (store : List α) (x : α) : List α × Bool :=
  if 2 ≤ store.length then (store.tail ++ [x], true) else (store ++ [x], false)

/-- The oldest frame is read: with none in the store the frame read last comes again, a repeating slip. -/
def storeRead {α : Type} (store : List α) (last : α) : List α × α × Bool :=
  match store with
  | [] => ([], last, true)
  | x :: rest => (rest, x, false)

/-- A frame of the line-side idle code in every bearer slot. -/
def idleBearer (cfg : SiteConfig) : BearerFrame := tab 256 fun _ => cfg.idleCode

namespace State

/-- No SLIP notice of the same input has been posted within the last 8,000 frames (R132, R141). -/
def slipNoticeFree (s : State) (last : Option FrameNo) : Bool :=
  !(last.any fun v => s.within Config.slipNoticeFrames v)

/-- A slip of a span's store: counted, told to the matchers on the span, and reported (R132). -/
def spanSlip (s : State) (sp : Span) (kind : SlipKind) : State :=
  let t := (s.modSpan sp fun k => { k with slips := k.slips + 1 }).restartMatchers fun e => e.bearer.span == sp
  if s.slipNoticeFree (s.span sp).lastSlipNotice then
    (t.modSpan sp fun k => { k with lastSlipNotice := some s.counter }).handNotice
      (.slip (.span sp) kind ((s.span sp).slips + 1))
  else t

/-- A received frame's bearer octets enter the span's store (R131). -/
def writeSpanStore (s : State) (sp : Span) (f : BearerFrame) : State :=
  let (store, slipped) := storeWrite (s.span sp).store f
  let t := s.modSpan sp fun k => { k with store := store }
  if slipped then t.spanSlip sp .deleting else t

/-! ### Line states (R122, R127) -/

/-- The span-lost event: the transmit queue is emptied, FIBRE circuits are stranded, bridge entries are resolved and
the Frame Timing Unit is told (R127, R13, R76, R89, R152). -/
def spanLost (s : State) (sp : Span) : State :=
  let t := (s.emptyTransmit sp).modSpan sp fun k => { k with store := [], arrivals := [] }
  ((t.strandAll sp).resolveSpanLoss sp).sourceUnhealthy (.span sp)

/-- Entry into IN_SERVICE: balance, marker and store are set (R127). -/
def spanEntered (s : State) (sp : Span) : State :=
  s.modSpan sp fun k =>
    { k with balance := 0, lastSent := .even, store := [idleBearer s.cfg], lastRead := idleBearer s.cfg,
             arrivals := [] }

/-- A change of line state (R122, R127). `hold` is the hold-down cause of an entry into HOLD_DOWN. -/
def changeLine (s : State) (sp : Span) (entered : LineState) (cause : SpanCause)
    (hold : Option HoldCause := none) : State :=
  let left := (s.span sp).line
  let t := s.modSpan sp fun k =>
    { k with line := entered, cause := some cause, holdCause := hold <|> k.holdCause, good := 0, errored := 0,
             train := 0, holdDown := if entered == .holdDown then 0 else k.holdDown }
  let t := if left == .inService then t.spanLost sp else t
  let t := if entered == .inService then t.spanEntered sp else t
  t.handNotice (.spanState sp left entered cause hold)

/-- SEEK to ANSWER, or ANSWER to IN_SERVICE, at a good count of 4 (R123). -/
def spanTrained (s : State) (sp : Span) : State :=
  let k := s.span sp
  if k.good == Config.lineRun then
    match k.line with
    | .seek => s.changeLine sp .answer .trained
    | .answer => s.changeLine sp .inService .trained
    | .disabled | .inService | .holdDown | .proving => s
  else s

/-- ANSWER or IN_SERVICE to HOLD_DOWN at an errored count of 4 (R123, R125). -/
def spanErrors (s : State) (sp : Span) : State :=
  let k := s.span sp
  if (k.line == .answer || k.line == .inService) && k.errored == Config.lineRun then
    s.changeLine sp .holdDown .errors (some .errors)
  else s

/-- IN_SERVICE to SEEK at a TRAIN count of 4 (R125). -/
def peerRestart (s : State) (sp : Span) : State :=
  let k := s.span sp
  if k.line == .inService && k.train == Config.lineRun then s.changeLine sp .seek .peerRestart else s

/-- HOLD_DOWN to SEEK at a hold-down count of 512 (R126). -/
def holdDownRecovered (s : State) (sp : Span) : State :=
  let k := s.span sp
  if k.line == .holdDown && k.holdDown == Config.holdDownFrames then s.changeLine sp .seek .recovered else s

/-- The passage that a span's counts make due. The next frame period takes it when its own command has not come (log
26); FRAME_TICK, a SPAN order or a roll arrival in between acts in the old line state: the model's choice (log 45). The end
of a PROVE is not such a passage: the span stands in PROVING until PROVE_END, and a frame period before it is left unjudged
(log 45). -/
def duePassage (s : State) (sp : Span) : State :=
  match (s.span sp).line with
  | .seek => s.spanTrained sp
  | .answer => if (s.span sp).good == Config.lineRun then s.spanTrained sp else s.spanErrors sp
  | .inService => if (s.span sp).errored == Config.lineRun then s.spanErrors sp else s.peerRestart sp
  | .holdDown => s.holdDownRecovered sp
  | .disabled | .proving => s

/-- One more of a run that stops at 4. -/
def runUp (n : Nat) : Nat := min (n + 1) Config.lineRun

/-- The run counts of a span after a frame period, by line state (R123, R125, R126). A clashing rank in SEEK or
ANSWER has its own rule (R124). -/
def countFrame (k : SpanState) (rank : Byte) (v : Verdict) : SpanState :=
  match k.line, v with
  | .seek, .train r | .seek, .reply r => { k with good := runUp k.good, peerRank := some r }
  | .seek, .carry .. | .seek, .errored => { k with good := 0 }
  | .answer, .train r => { k with good := 0, errored := 0, peerRank := some r }
  | .answer, .reply r => { k with good := runUp k.good, errored := 0, peerRank := some r }
  | .answer, .carry .. => { k with good := runUp k.good, errored := 0 }
  | .answer, .errored => { k with good := 0, errored := runUp k.errored }
  | .inService, .errored => { k with errored := runUp k.errored, train := 0 }
  | .inService, .train _ => { k with errored := 0, train := runUp k.train }
  | .inService, .carry .. => { k with errored := 0, train := 0 }
  | .inService, .reply _ => k
  | .holdDown, .errored => { k with holdDown := 0 }
  | .holdDown, .train r | .holdDown, .reply r =>
    if r == rank then { k with holdDown := 0 } else { k with holdDown := min (k.holdDown + 1) Config.holdDownFrames }
  | .holdDown, .carry .. => { k with holdDown := min (k.holdDown + 1) Config.holdDownFrames }
  | .disabled, _ | .proving, _ => k

/-- A good TRAIN or REPLY in SEEK or ANSWER that carries the own rank (R124). -/
def rankClash (k : SpanState) (rank : Byte) : Verdict → Bool
  | .train r | .reply r => (k.line == .seek || k.line == .answer) && r == rank
  | .errored | .carry .. => false

/-- The roll message of a good CARRY frame joins the arrivals unless its sender rank is the own (R83). -/
def takeMessage (s : State) (sp : Span) (control : Vector Byte 5) : State :=
  match RollMessage.ofControl control with
  | none => s
  | some m =>
    if m.rank == s.cfg.rank then s else s.modSpan sp fun k => { k with arrivals := k.arrivals ++ [m] }

/-- A judged frame period of a span that is neither DISABLED nor PROVING (R120, R122 to R126, R131). -/
def actOnVerdict (s : State) (sp : Span) (v : Verdict) : State :=
  let k := s.span sp
  let s := if v == .errored then s.modSpan sp fun k => { k with erroredFrames := k.erroredFrames + 1 } else s
  if rankClash k s.cfg.rank v then s.changeLine sp .holdDown .rankClash (some .rankClash)
  else
    let t := s.modSpan sp fun k => countFrame k s.cfg.rank v
    if k.line == .inService then
      match v with
      | .carry bearer control => (t.takeMessage sp control).writeSpanStore sp bearer
      | .errored | .train _ | .reply _ => t.writeSpanStore sp (idleBearer s.cfg)
    else t

/-- One frame period of a span's receive line (R119 to R121). In DISABLED nothing is counted; in PROVING the line
input is not judged (R129). A passage that the counts before it have made due is taken first. -/
def spanPeriod (s : State) (sp : Span) (rx : SpanPeriod) : State :=
  let s := s.duePassage sp
  let k := s.span sp
  let (alignment, frame) := alignPeriod k.alignment rx
  let (v, reference) := match frame with
    | none => (Verdict.errored, k.reference)
    | some f => judgeFrame k.reference f
  match k.line with
  | .proving => s.modSpan sp fun k => { k with alignment := alignment }
  | .disabled => s.modSpan sp fun k => { k with alignment := alignment, reference := reference }
  | .seek | .answer | .inService | .holdDown =>
    (s.modSpan sp fun k => { k with alignment := alignment, reference := reference }).actOnVerdict sp v

/-! ### The SPAN order (R128 to R130) -/

/-- The result values of a SPAN order on a span as it stands, with the counts of a PROVE (R128). -/
def spanResult (s : State) (sp : Span) (checked errored : Half) : List Byte :=
  spanValues s.cfg.byteOrder checked errored (s.span sp).line

/-- The PROVE in progress settles with a code and its counts so far (R130). -/
def settleProve (s : State) (sp : Span) (code : ResultCode) : State :=
  let k := s.span sp
  match k.prove.bind ProveRun.ref with
  | none => s
  | some ref => s.settleOrder ref code (s.spanResult sp k.proveChecked k.proveErrored)

/-- The test in progress is over. -/
def endProve (s : State) (sp : Span) : State := s.modSpan sp fun k => { k with prove := none }

/-- A SPAN order settles at take (R128). -/
def settleSpan (s : State) (ref : OrderRef) (sp : Span) (code : ResultCode) : State :=
  s.settleOrder ref code (s.spanResult sp 0 0)

/-- SPAN DISABLE on a present span with no slot in use (R128, R130). A test that it cuts short settles before the
DISABLE does: the model's choice (log 4). -/
def disableSpan (s : State) (sp : Span) : State :=
  if (s.span sp).line == .disabled then s
  else ((s.changeLine sp .disabled .order).settleProve sp .done).endProve sp

/-- An accepted SPAN PROVE (R129). -/
def startProve (s : State) (ref : OrderRef) (sp : Span) (frames : Nat) : State :=
  (s.changeLine sp .proving .order).modSpan sp fun k =>
    { k with prove := some ⟨some ref, frames, 0, 0, .even, .even⟩, proveChecked := 0, proveErrored := 0 }

/-- PROVE is accepted in these line states (R129). -/
def LineState.mayProve : LineState → Bool
  | .disabled | .seek | .answer | .holdDown => true
  | .inService | .proving => false

/-- A SPAN order (R128, R129). It acts in the line state that stands, also when a count has reached its limit and the
passage's own command has not come: the model's choice (log 45). -/
def spanOrder (s : State) (ref : OrderRef) (sp : Span) (action : SpanAction) (frames : Nat) : State :=
  if !s.spanPresent sp then s.settleSpan ref sp .absent
  else match action with
    | .enable =>
      (if (s.span sp).line == .disabled then s.changeLine sp .seek .order else s).settleSpan ref sp .done
    | .disable =>
      if s.slotsInUse sp then s.settleSpan ref sp .spanBusy else (s.disableSpan sp).settleSpan ref sp .done
    | .prove =>
      if s.slotsInUse sp || !LineState.mayProve (s.span sp).line then s.settleSpan ref sp .spanBusy
      else s.startProve ref sp frames

/-- The end of a PROVE after its n frames (R130). -/
def proveEnd (s : State) (sp : Span) : State :=
  let k := s.span sp
  if k.line == .proving && k.prove.any fun p => p.sent == p.asked then
    ((s.changeLine sp .seek .proveEnd).settleProve sp .done).endProve sp
  else s

end State

end Sys2Proof.Machine
end

