-- ==== Sys2Proof/Machine/Ports.lean ====
section
/-! DEFINITION. The copper ports and the Activity Monitor (08): the judgement of a frame period, presence, the
elastic stores, signalling reports and activity. -/

namespace Sys2Proof.Machine

open Sys2Proof

/-! ### Judgement of a frame period (R135, R136) -/

/-- The length of a sync pulse of a style, in bit periods (R135). -/
def SyncStyle.pulseLength : SyncStyle → Nat
  | .short => 1
  | .long => 8

/-- The bit period of its frame in which a sync pulse of a style starts, bit period 0 being the first of slot 0: a SHORT
pulse lies in the last bit period of the frame before (R135). -/
def SyncStyle.pulsePlace : SyncStyle → Fin 256
  | .short => 255
  | .long => 0

/-- A pulse of the configured style. -/
def styled (style : SyncStyle) (p : SyncPulse) : Bool := p.length == style.pulseLength

/-- A FOLLOW port's judgement of its sync line at an expected place (R135). -/
def judgeSync (style : SyncStyle) (expected : Option (Fin 256)) (pulses : List SyncPulse) : PeriodJudgement :=
  if pulses.any fun p => styled style p && expected == some p.place then .good
  else if pulses.isEmpty then .missing
  else .misplaced

/-- The line changed level during the 256 bit periods of a frame (R136). -/
def levelChanged (f : PortFrame) : Bool := !(f.toList.all (· == 0#8) || f.toList.all (· == 0xFF#8))

/-- A port's judgement of a frame period (R135, R136): a stopped bit clock finds the sync missing. -/
def judgePeriod (role : ClockRole) (style : SyncStyle) (expected : Option (Fin 256)) (rx : PortPeriod) :
    PeriodJudgement :=
  match rx, role with
  | .stopped, _ => .missing
  | .clocked pulses _, .follow => judgeSync style expected pulses
  | .clocked _ octets, .drive => if levelChanged octets then .good else .missing

/-- A LOST FOLLOW port without a trial timing takes the first pulse of its style as one (R137). -/
def findTrial (style : SyncStyle) (rx : PortPeriod) : Option (Fin 256) :=
  match rx with
  | .stopped => none
  | .clocked pulses _ => (pulses.find? (styled style)).map SyncPulse.place

/-- The presence counts and trial timing of a port after a frame period (R137). -/
def countPeriod (k : Port) (role : ClockRole) (style : SyncStyle) (rx : PortPeriod) : Port :=
  match k.presence, role with
  | .present, _ =>
    match judgePeriod role style k.frameTiming rx with
    | .good => { k with loss := 0 }
    | bad => { k with loss := min (k.loss + 1) Config.lossRun, lastBad := bad }
  | .lost, .drive =>
    match judgePeriod role style none rx with
    | .good => { k with recovery := min (k.recovery + 1) Config.recoveryRun }
    | .misplaced | .missing => { k with recovery := 0 }
  | .lost, .follow =>
    match k.trialTiming with
    | none =>
      match findTrial style rx with
      | none => k
      | some t => { k with trialTiming := some t, recovery := 1 }
    | some t =>
      match judgePeriod role style (some t) rx with
      | .good => { k with recovery := min (k.recovery + 1) Config.recoveryRun }
      | .misplaced | .missing => { k with recovery := 0, trialTiming := none }

namespace State

/-! ### Activity (R142 to R145) -/

/-- A change of a circuit's activity reaches the Migration Engine (R145, R40, R67). -/
def activityChanged (s : State) (c : CircuitNo) (left entered : Activity) : State :=
  if entered == .idle then (s.watchIdle c).quickOnIdle c
  else if left == .idle then s.watchBusy c
  else s

/-- A report age of 8,000 clears the candidate and makes the activity UNKNOWN (R144). -/
def reportAgeExpiry (s : State) (c : CircuitNo) : State :=
  let m := s.monitor c
  if m.age == Config.reportAgeLimit then
    let t := s.setMonitor c { m with activity := .unknown, candidate := none }
    if m.activity == .unknown then t else t.activityChanged c m.activity .unknown
  else s

/-- A valid report about a circuit (R143). -/
def validReport (s : State) (c : CircuitNo) (x : Activity) : State :=
  let m := s.monitor c
  let agreed := m.candidate == some x && m.activity != x
  let t := s.setMonitor c { activity := if agreed then x else m.activity, candidate := some x, age := 0 }
  if agreed then t.activityChanged c m.activity x else t

/-- The condition of a signalling report (13.4). -/
def reportCondition (b : Byte) : Activity :=
  match (b.extractLsb' 1 2).toNat with
  | 0 => .idle
  | 1 => .seized
  | 2 => .answered
  | _ => .blocked

/-- The octet holds an odd number of one-bits (R142). -/
def oddOnes (b : Byte) : Bool := ((List.range 8).filter fun n => b.getLsbD n).length % 2 == 1

/-- The signalling report of a frame received on an office port (R142). -/
def takeReport (s : State) (k : Fin 8) (octets : PortFrame) : State :=
  if !s.cfg.signallingPresent then s
  else
    let b := octets[s.cfg.signallingSlot.val]
    let slot := (b.extractLsb' 3 5).toFin
    if !oddOnes b || slot == s.cfg.signallingSlot then
      s.modPort (officePort k) fun p => { p with invalidReports := p.invalidReports + 1 }
    else
      let c := circuitAt k slot
      (s.reportAgeExpiry c).validReport c (reportCondition b)

/-! ### Presence (R137 to R139) -/

/-- The cause of a loss: the condition of the third bad frame period (R139). -/
def lossCause (s : State) (p : PortNo) : PortCause :=
  match s.clockRole p, (s.port p).lastBad with
  | .drive, _ => .noSignal
  | .follow, .misplaced => .misplacedSync
  | .follow, _ => .missingSync

/-- A PRESENT port whose loss count is 3 becomes LOST (R137, R139). -/
def portLost (s : State) (p : PortNo) : State :=
  let k := s.port p
  if k.presence == .present && k.loss == Config.lossRun then
    let cause := s.lossCause p
    let t := s.setPort p
      { k with presence := .lost, loss := 0, recovery := 0, trialTiming := none, rxStore := [],
               cause := some cause, changeFrame := some s.counter }
    let t := match lineNumber p with
      | some n => t.resolveLineLoss n
      | none => t
    (t.sourceUnhealthy (portSource p)).handNotice (.portState p .lost cause)
  else s

/-- The frame of the Channel Map's output for a port (R134). -/
def portOutput (s : State) (p : PortNo) : PortFrame :=
  tab 32 fun n =>
    match officeNumber p, lineNumber p with
    | some k, _ => s.officeOut[(circuitAt k n).val]
    | none, some k => s.lineOut[(LinePos.index ⟨k, n⟩).val]
    | none, none => 0

/-- The frame sync that a DRIVE line port drives in each frame, with its bit clock: a pulse of the line style at the
place where that style marks the frame's start, whenever the part is in READY or WARMING, whether the port is PRESENT or
LOST (R135, R136, R138). `none`
says that the port drives neither: a FOLLOW port, a part in LOADING or CONFIG_FAULT, or one held by RESETn (R147,
R171). -/
def drivenSync (s : State) (p : PortNo) : Option SyncPulse :=
  if s.running && !s.resetLow && s.clockRole p == .drive then
    some ⟨(s.syncStyle p).pulsePlace, (s.syncStyle p).pulseLength⟩
  else none

/-- A frame of the idle code of a port's side (R138). -/
def idlePortFrame (s : State) (p : PortNo) : PortFrame := tab 32 fun _ => s.idleOf p

/-- A LOST port whose recovery count is 16 becomes PRESENT (R137, R139, R140). -/
def portRecovered (s : State) (p : PortNo) : State :=
  let k := s.port p
  if k.presence == .lost && k.recovery == Config.recoveryRun then
    let follows := s.clockRole p == .follow
    (s.setPort p
      { k with presence := .present, loss := 0, recovery := 0,
               frameTiming := if follows then k.trialTiming else k.frameTiming, trialTiming := none,
               rxStore := [s.idlePortFrame p], lastRead := s.idlePortFrame p,
               txStore := if follows then [s.portOutput p] else k.txStore,
               cause := some .recovered, changeFrame := some s.counter }).handNotice
      (.portState p .present .recovered)
  else s

/-! ### Frame periods and slips (R135, R140, R141) -/

/-- A receive slip of a port: counted, on a line port told to the matchers, and reported (R141). -/
def portSlip (s : State) (p : PortNo) (kind : SlipKind) : State :=
  let t := s.modPort p fun k => { k with slips := k.slips + 1 }
  let t := match lineNumber p with
    | some n => t.restartMatchers fun e => e.linePos.port == n
    | none => t
  if s.slipNoticeFree (s.port p).lastSlipNotice then
    (t.modPort p fun k => { k with lastSlipNotice := some s.counter }).handNotice
      (.slip (portSource p) kind ((s.port p).slips + 1))
  else t

/-- A received frame enters a port's store: a DRIVE port's store keeps a fill of one frame and never slips (R140). -/
def writePortStore (s : State) (p : PortNo) (octets : PortFrame) : State :=
  match s.clockRole p with
  | .drive => s.modPort p fun k => { k with rxStore := [octets] }
  | .follow =>
    let (store, slipped) := storeWrite (s.port p).rxStore octets
    let t := s.modPort p fun k => { k with rxStore := store }
    if slipped then t.portSlip p .deleting else t

/-- A FOLLOW port starts a frame of its own: it reads its transmit store, or sends again the frame it sent last, a
transmit slip (R140). Without frame timing it reads nothing. -/
def readTransmit (s : State) (p : PortNo) : State :=
  let k := s.port p
  if s.clockRole p == .follow && k.frameTiming.isSome then
    match k.txStore with
    | [] => s.setPort p { k with txSlips := k.txSlips + 1 }
    | f :: rest => s.setPort p { k with txStore := rest, sending := some f }
  else s

/-- What a PRESENT port does with the octets of a frame period: an office port's report is taken before the frame
enters the store (R142, R140). -/
def receivePort (s : State) (p : PortNo) (octets : PortFrame) : State :=
  if (s.port p).presence == .present then
    let t := match officeNumber p with
      | some k => s.takeReport k octets
      | none => s
    t.writePortStore p octets
  else s

/-- The passage that a port's counts make due. -/
def duePresence (s : State) (p : PortNo) : State :=
  match (s.port p).presence with
  | .present => s.portLost p
  | .lost => s.portRecovered p

/-- One frame period of a port (R135 to R137). A passage that the counts before it have made due is taken first. -/
def portPeriod (s : State) (p : PortNo) (rx : PortPeriod) : State :=
  let s := s.duePresence p
  let t := s.modPort p fun k => countPeriod k (s.clockRole p) (s.syncStyle p) rx
  match rx with
  | .stopped => t
  | .clocked _ octets => (t.receivePort p octets).readTransmit p

end State

end Sys2Proof.Machine
end

