-- ==== Sys2Proof/Machine/Frame.lean ====
section
/-! DEFINITION. One frame of the frame clock (R148): the reads of the elastic stores, the Channel Map's switching,
the frames the spans and ports send, the report ages, the qualification counts and the matchers. -/

namespace Sys2Proof.Machine

open Sys2Proof

namespace State

/-! ### Reads of the elastic stores (R131, R138, R140) -/

/-- The frame boundary's read of a port's store. A LOST port's is not read; a DRIVE port's never slips. -/
def readPort (s : State) (p : PortNo) : State :=
  let k := s.port p
  match k.presence with
  | .lost => s
  | .present =>
    let (store, frame, slipped) := storeRead k.rxStore k.lastRead
    let t := s.setPort p { k with rxStore := store, lastRead := frame }
    if slipped && s.clockRole p == .follow then t.portSlip p .repeating else t

/-- The frame boundary's read of a span's store, which is in use only while the span is IN_SERVICE. -/
def readSpan (s : State) (sp : Span) : State :=
  if s.inService sp then
    let k := s.span sp
    let (store, frame, slipped) := storeRead k.store k.lastRead
    let t := s.setSpan sp { k with store := store, lastRead := frame }
    if slipped then t.spanSlip sp .repeating else t
  else s

/-- Every elastic store is read. The slips of several stores at one boundary are reported ports first, lowest number
first, then span A, then span B: the rules fix no order of them (log 4). -/
def readStores (s : State) : State :=
  (each (List.finRange 16) (fun p t => t.readPort p) s).readSpan .a |>.readSpan .b

/-- The octets a port offers the Channel Map in this frame (R138). -/
def portOffer (s : State) (p : PortNo) : PortFrame :=
  match (s.port p).presence with
  | .present => (s.port p).lastRead
  | .lost => s.idlePortFrame p

/-- The octet at a line position in this frame. -/
def lineOctet (s : State) (p : LinePos) : Byte := (s.portOffer (linePort p.port))[p.slot.val]

/-- The octet in a bearer slot in this frame (R131). -/
def bearerOctet (s : State) (b : BearerSlot) : Byte :=
  if s.inService b.span then (s.span b.span).lastRead[b.slot.val] else s.cfg.idleCode

/-- The octet of a circuit's office slot in this frame. -/
def officeOctet (s : State) (c : CircuitNo) : Byte :=
  (s.portOffer (officePort (officePortOf c)))[(officeSlotOf c).val]

/-! ### Switching (R7 to R9, R11) -/

/-- The bridge entry that moves a circuit. -/
def bridgeOf (s : State) (c : CircuitNo) : Option Bridge := (s.circuit c).bridgeIndex.bind s.bridge

/-- The line position that LINE selects: the bridge's, or the circuit's own (R8). -/
def linePath (s : State) (c : CircuitNo) : Option LinePos :=
  match s.bridgeOf c with
  | some e => some e.linePos
  | none => (s.circuit c).linePos

/-- The bearer slot that SPAN selects: the bridge's, or the circuit's own (R8). -/
def spanPath (s : State) (c : CircuitNo) : Option BearerSlot :=
  match s.bridgeOf c with
  | some e => some e.bearer
  | none => (s.circuit c).bearer

end State

/-- A path's history with this frame's octet in front: the present frame and the 15 before it (R9). A path on which
the circuit holds no position has none. -/
def extend (history : List Byte) : Option Byte → List Byte
  | none => []
  | some b => (b :: history).take (Config.holdLimit + 1)

namespace State

/-- A circuit's alignment store takes this frame's octets and delivers one (R8, R9, R11): the last octet again while
the seam owes repeats, else the octet the selected path brought `hold` frames earlier. -/
def deliver (s : State) (c : CircuitNo) : AlignStore :=
  let k := s.circuit c
  let a := s.alignOf c
  let line := extend a.lineHistory ((s.linePath c).map s.lineOctet)
  let span := extend a.spanHistory ((s.spanPath c).map s.bearerOctet)
  let selected := match k.receive with
    | .line => line.getD k.hold s.cfg.idleCode
    | .span => span.getD k.hold s.cfg.idleCode
    | .none => s.cfg.officeIdle
  let octet := if a.repeatsDue != 0 && k.receive != .none then a.lastDelivered.getD s.cfg.idleCode else selected
  { lineHistory := line, spanHistory := span, repeatsDue := a.repeatsDue - 1, lastDelivered := some octet }

/-- The octet a line position carries in this frame (R7): that of the circuit that occupies it with its line feed on,
taken from its office slot in the frame before. -/
def lineCarries (s : State) (p : Fin 256) : Byte :=
  match s.lineOcc[p.val] with
  | .occupied c => if (s.circuit c).lineFeed then s.officeIn[c.val] else s.cfg.idleCode
  | .free | .vacated _ => s.cfg.idleCode

/-- The octet a bearer slot carries in this frame (R7). -/
def slotCarries (s : State) (b : BearerSlot) : Byte :=
  match (s.slotEntry b).use with
  | .assigned c | .bridged c => if (s.circuit c).spanFeed then s.officeIn[c.val] else s.cfg.idleCode
  | .free => s.cfg.idleCode

/-- The bearer field of the frame a span sends in this frame (R116). -/
def bearerField (s : State) (sp : Span) : BearerFrame := tab 256 fun n => s.slotCarries ⟨sp, n⟩

/-- The Channel Map's switching of one frame, less the bearer slots. -/
def switchFrame (s : State) : State :=
  let stores := tab 256 s.deliver
  { s with
    align := stores
    officeOut := tab 256 fun c => stores[c.val].lastDelivered.getD s.cfg.officeIdle
    lineOut := tab 256 s.lineCarries }

/-- The octets that the switch sent in this frame, to be transmitted in the next (R7). -/
def takeOffice (s : State) : State := { s with officeIn := tab 256 s.officeOctet }

/-! ### Spans (R116 to R119, R85, R129) -/

end State

/-- The number of one-bits of an octet. -/
def ones (b : Byte) : Nat := ((List.range 8).filter fun n => b.getLsbD n).length

/-- The disparity of bearer and control fields: one-bits less zero-bits (R118). -/
def disparity (bearer : Vector Byte 256) (control : Vector Byte 5) : Int :=
  2 * ((bearer.toList ++ control.toList).map ones).sum - (2088 : Int)

/-- The other marker (R119). -/
def Marker.flip : Marker → Marker
  | .even => .odd
  | .odd => .even

/-- A CARRY frame with its marker, its inversion by the running balance, and its check; and the balance after it
(R117 to R119). -/
def carryFrame (balance : Int) (marker : Marker) (bearer : Vector Byte 256) (control : Vector Byte 5) :
    SpanFrame × Int :=
  let d := disparity bearer control
  let inverted := (0 < balance && 0 < d) || (balance < 0 && d < 0)
  (closeFrame
    { kind := 3, marks := bitAt 0 (marker == .odd) ||| bitAt 1 inverted, rank := 0,
      bearer := invertIf inverted bearer, control := invertIf inverted control, check := 0 },
   if inverted then balance - d else balance + d)

/-- A TRAIN or REPLY frame (R116, 13.4). -/
def plainFrame (cfg : SiteConfig) (kind : Byte) : SpanFrame :=
  closeFrame { kind := kind, marks := 0, rank := cfg.rank, bearer := idleBearer cfg, control := emptyControl, check := 0 }

namespace State

/-- A span in service sends a CARRY with the head of its transmit queue, and the room is given to the waiting entries
(R85, R87). -/
def sendCarry (s : State) (sp : Span) : State :=
  let k := s.span sp
  let control := match k.txQueue with
    | [] => emptyControl
    | x :: _ => x.message.control
  let (frame, balance) := carryFrame k.balance (Marker.flip k.lastSent) (s.bearerField sp) control
  (s.setSpan sp { k with balance := balance, lastSent := Marker.flip k.lastSent, sending := some frame,
                         txQueue := k.txQueue.tail }).servePending sp

end State

/-- Prove frame k: the bearer octet of slot s is (k + s) mod 256 (R129). -/
def proveBearer (k : Nat) : Vector Byte 256 := tab 256 fun n => BitVec.ofNat 8 (k + n.val)

/-- A looped frame is errored when it is errored by R120 or brings back another bearer octet (R129). -/
def proveErrored (reference : Marker) (sent : Vector Byte 256) (looped : SpanFrame) : Bool × Marker :=
  match judgeFrame reference looped with
  | (.carry bearer _, m) => (bearer != sent, m)
  | (_, m) => (true, m)

namespace State

/-- One prove frame over the internal loop of a span in PROVING, until the test's frames are sent (R129). The loop's
receiver judges every returned frame at once, with no search for alignment (R121) at the start of a test or after a frame
period in which nothing came back: the model's choice (log 14). An errored looped frame raises the errored count of the
PROVE and not the span's own errored-frame count (R120): the model's choice (log 46). -/
def proveFrame (s : State) (sp : Span) (loop : LoopReturn) : State :=
  let k := s.span sp
  match k.prove with
  | none => s
  | some p =>
    if p.sent < p.asked then
      let bearer := proveBearer p.sent
      let (frame, balance) := carryFrame p.balance (Marker.flip p.lastSent) bearer emptyControl
      let (bad, reference) := match loop with
        | .asSent => proveErrored p.reference bearer frame
        | .returned f => proveErrored p.reference bearer f
        | .nothing => (true, p.reference)
      s.setSpan sp
        { k with
          prove := some { p with sent := p.sent + 1, balance := balance, lastSent := Marker.flip p.lastSent,
                                 reference := reference }
          proveChecked := k.proveChecked + 1
          proveErrored := if bad then k.proveErrored + 1 else k.proveErrored }
    else s

/-- The frame a span sends in this frame, by line state (R122): by the one that stands, also when a count has reached its
limit and the passage's own command has not come, the model's choice (log 45). -/
def sendSpan (s : State) (sp : Span) (loop : LoopReturn) : State :=
  match (s.span sp).line with
  | .disabled => s.modSpan sp fun k => { k with sending := none }
  | .seek | .holdDown => s.modSpan sp fun k => { k with sending := some (plainFrame s.cfg 1) }
  | .answer => s.modSpan sp fun k => { k with sending := some (plainFrame s.cfg 2) }
  | .inService => s.sendCarry sp
  | .proving => (s.modSpan sp fun k => { k with sending := some (plainFrame s.cfg 1) }).proveFrame sp loop

/-! ### Ports (R136, R140) -/

/-- The Channel Map's frame for a port: a DRIVE port sends it, a FOLLOW port's transmit store takes it, a transmit
slip when it already holds two. -/
def sendPort (s : State) (p : PortNo) : State :=
  match s.clockRole p with
  | .drive => s.modPort p fun k => { k with sending := some (s.portOutput p) }
  | .follow =>
    let (store, slipped) := storeWrite (s.port p).txStore (s.portOutput p)
    s.modPort p fun k => { k with txStore := store, txSlips := if slipped then k.txSlips + 1 else k.txSlips }

/-! ### Report ages (R144) -/

/-- The report age of each VOICE circuit rises while the signalling slot is present (R144, R145). An age that reaches 8,000
here acts at REPORT_AGE_EXPIRY or at the next valid report, and a command that comes in between reads the activity as it
was: the model's choice (log 54). -/
def ageReports (s : State) : State :=
  let aged := fun c : CircuitNo =>
    let m := s.monitor c
    if s.cfg.signallingPresent && !s.signalling c && m.age < Config.reportAgeLimit then { m with age := m.age + 1 }
    else m
  { s with monitors := tab 256 aged }

/-! ### Matchers (R63, R64) -/

end State

/-- The offsets a matcher keeps a run of, −15 to 15. -/
def offsets : List Int := (List.range 31).map fun n : Nat => (n : Int) - 15

/-- The pair of octets that offset d completes in this frame, the to-path's first; none while an octet of it is from
before the window (R63). -/
def pairAt (toHistory fromHistory : List Byte) (d : Int) : Option (Byte × Byte) :=
  match toHistory[(-d).toNat]?, fromHistory[d.toNat]? with
  | some x, some y => some (x, y)
  | _, _ => none

/-- The run count of an offset after this frame (R63). -/
def runAfter (toHistory fromHistory : List Byte) (d : Int) (run : Nat) : Nat :=
  match pairAt toHistory fromHistory d with
  | none => run
  | some (x, y) => if x == y then min (run + 1) Config.matchRun else 0

/-- A matcher takes one frame's octets and compares every pair they complete (R63). -/
def compareFrame (m : Matcher) (toOctet fromOctet : Byte) : Matcher :=
  let toHistory := (toOctet :: m.toHistory).take Config.matchHistory
  let fromHistory := (fromOctet :: m.fromHistory).take Config.matchHistory
  { m with toHistory := toHistory, fromHistory := fromHistory,
           runs := (offsets.zip m.runs).map fun x => runAfter toHistory fromHistory x.1 x.2 }

/-- The 16 to-path octets of an offset's run hold at least two values (R64). -/
def variedRun (toHistory : List Byte) (d : Int) : Bool :=
  match (toHistory.drop (-d).toNat).take Config.matchRun with
  | [] => false
  | x :: rest => rest.any (· != x)

/-- The one admissible offset that meets both conditions of a match (R64). -/
def matchFound (m : Matcher) : Option Int :=
  let hits := (offsets.zip m.runs).filter fun x =>
    m.lowest ≤ x.1 && x.2 == Config.matchRun && variedRun m.toHistory x.1
  match hits with
  | [x] => some x.1
  | _ => none

namespace State

/-- The matcher of the entry at an index takes this frame's raw octets; a match found is recorded, to be rolled at
the next frame boundary (R63, R64). -/
def matchEntry (s : State) (i : BridgeNo) : State :=
  s.withBridge i fun e =>
    match e.phase, e.matcher with
    | .matching, some m =>
      let line := s.lineOctet e.linePos
      let span := s.bearerOctet e.bearer
      let m := match e.direction with
        | .toFibre => compareFrame m span line
        | .toCopper => compareFrame m line span
      match e.matchDue, matchFound m with
      | none, some d =>
        s.setBridge i (some { e with matcher := some m, offset := some d, matchDue := some s.counter })
      | _, _ => s.setBridge i (some { e with matcher := some m })
    | _, _ => s

/-- Every matcher takes this frame. -/
def matchAll (s : State) : State := each (List.finRange 48) (fun i t => t.matchEntry i) s

/-! ### The frame -/

/-- The frame counter advances by one, in every phase (R149). -/
def advanceCounter (s : State) : State := s.setCounter (s.counter + 1)

/-- One frame of the frame clock in READY or WARMING (R148). Span A sends, and gives its room to its waiting entries,
before span B: R87 fixes no order of the two (log 4). -/
def runFrame (s : State) (loopA loopB : LoopReturn) : State :=
  let s := s.advanceCounter.readStores
  let s := s.switchFrame
  let s := (s.sendSpan .a loopA).sendSpan .b loopB
  let s := each (List.finRange 16) (fun p t => t.sendPort p) s
  s.takeOffice.matchAll.ageReports.countQualification

end State

end Sys2Proof.Machine
end

