-- ==== Sys2Proof/Machine/Runners.lean ====
section
/-! DEFINITION. The order runners (02): fetching, parking, faults, the offer of a record to its owner, the take, and
what the memory port hands a runner. -/

namespace Sys2Proof.Machine

open Sys2Proof

/-- The order reference of the record a runner takes (R23). -/
def recordRef (o : ByteOrder) (n : Fin 4) (addr : Addr) (rec : List Byte) : OrderRef where
  runner := n
  addr := addr
  quiet := recordFlag rec 0
  tag := recordTag o rec
  memberList := if recordKind rec == 3 then rec.drop 64 else []

/-- Result values of an order that has none (R30, R32). -/
def noValues : List Byte := List.replicate 16 0

namespace State

/-! ### Faults and fetches (R28, R33) -/

/-- A runner goes FAULTED (R33): its cursor is kept, its recheck and units are given up, and the fault is reported. -/
def faultRunner (s : State) (n : Fin 4) (cause : RunnerFault) : State :=
  ((s.modRunner n fun r =>
    { r with state := .faulted, fault := cause, recheck := none, held := none, reading := none, told := false }).handNotice
      (.runnerFault n cause (s.runner n).cursor)).raise .runnerFault

/-- A runner fetches the first unit at its cursor (R28). -/
def fetch (s : State) (n : Fin 4) : State :=
  let r := s.runner n
  if r.cursor.toNat % 64 != 0 then s.faultRunner n .badAddress
  else
    (s.setRunner n { r with state := .fetching, recheck := none, held := none, told := false, raced := false,
                            reading := some .firstUnit }).requestRead (.runner n) r.cursor 64

/-- A runner reads the Control Block (R21, R26). -/
def readBlock (s : State) (n : Fin 4) : State :=
  (s.modRunner n fun r => { r with reading := some .controlBlock }).requestRead (.runner n) s.blockBase 128

/-- A runner parks at its cursor (R28). -/
def park (s : State) (n : Fin 4) : State :=
  s.modRunner n fun r =>
    { r with state := .parked, recheck := some (s.after Config.recheckFrames), held := none, reading := none }

/-- A runner waits on the record whose units it holds (R31, R32). -/
def waitOn (s : State) (n : Fin 4) (rec : List Byte) (why : WaitFor) : State :=
  s.modRunner n fun r => { r with state := .waiting, held := some ⟨rec, why⟩, reading := none, told := false }

/-! ### Dispatch to the owners (R23, R31) -/

/-- A MIGRATE at its take (R38). -/
def migrateOrder (s : State) (ref : OrderRef) (m : MoveOrder) (waitIdle : Bool) (limit : Nat) : State :=
  if s.busy m.circuit then s.settleMove ref .busy (s.placeValues m.circuit)
  else if waitIdle && s.activity m.circuit != .idle then
    s.setWatch (s.watch ++ [⟨ref, m.circuit, .migrate m, s.waitDeadline limit, none⟩])
  else s.enqueue ⟨ref, .migrate m⟩

/-- An EXPECT at its take (R38). -/
def expectOrder (s : State) (ref : OrderRef) (m : MoveOrder) (window : Nat) : State :=
  if s.busy m.circuit then s.settleMove ref .busy (s.placeValues m.circuit)
  else s.enqueue ⟨ref, .expect m window⟩

/-- A GROUP at its take (R105). -/
def groupOrder (s : State) (ref : OrderRef) (members : List MoveOrder) : State :=
  match members.findIdx? fun m => s.busy m.circuit with
  | some k => s.settleLone ref members k .busy
  | none => s.enqueue ⟨ref, .group members⟩

/-- The outcome of a MAP or RECOVER settles with the circuit's values after the order (R14). An order that a check
refuses carries the circuit's present values too, with dropped count 0: R14 and R18 give values only for an order that
passes, STALE apart, and the rest is the model's choice (log 21). -/
def settleMap (ref : OrderRef) (c : CircuitNo) (x : MapOutcome) : State :=
  let (t, code, dropped) := x
  t.settleOrder ref code (mapValues t.cfg.byteOrder (t.circuit c) dropped)

/-- A TIMING order settles DONE with the unit's values after it (R151). -/
def settleTiming (s : State) (ref : OrderRef) : State := s.settleOrder ref .done (timingValues s)

/-- A valid order acts at its owner (R23). -/
def dispatch (s : State) (ref : OrderRef) (order : Order) : State :=
  match order with
  | .migrate m waitIdle limit => s.migrateOrder ref m waitIdle limit
  | .expect m window => s.expectOrder ref m window
  | .group members => s.groupOrder ref members
  | .abandon c force => s.abandonOrder ref c force
  | .trim c limit => s.trimOrder ref c limit
  | .map action c target expected => settleMap ref c (s.mapOrder action c target expected)
  | .recover c target expected => settleMap ref c (s.recoverOrder c target expected)
  | .span sp action frames => s.spanOrder ref sp action frames
  | .timing candidates revertive => (s.timingOrder candidates revertive).settleTiming ref

/-- The place an order needs and does not find (R38, R39, R57). -/
def orderWaits (s : State) (order : Order) : Option WaitFor :=
  let queue := if s.queueRoom then none else some WaitFor.queuePlace
  let watch := if s.watchRoom then none else some WaitFor.watchPlace
  match order with
  | .migrate m waitIdle _ =>
    if s.busy m.circuit then none
    else if waitIdle && s.activity m.circuit != .idle then watch
    else queue
  | .expect m _ => if s.busy m.circuit then none else queue
  | .group members => if members.any fun m => s.busy m.circuit then none else queue
  | .trim c _ => if s.trimWaits c then watch else none
  | .abandon .. | .map .. | .recover .. | .span .. | .timing .. => none

/-- Why a record cannot be taken now (R31, R32). -/
def recordWaits (s : State) (n : Fin 4) (x : Record) : Option WaitFor :=
  match x with
  | .malformed _ => none
  | .fence => if (s.runner n).openCount == 0 then none else some .fence
  | .order order _ => s.orderWaits order

/-! ### The take (R30 to R32) -/

/-- The other runners at a record's address have lost it to this take (R28). -/
def markTake (s : State) (n : Fin 4) (addr : Addr) : State :=
  each (List.finRange 4) (fun m t =>
    if m != n && (t.runner m).cursor == addr then t.modRunner m fun r => { r with raced := true } else t) s

/-- How far the cursor advances over a taken record (R30, R31, R32). -/
def Record.units : Record → Nat
  | .malformed u => u
  | .fence => 1
  | .order _ u => u

/-- What a taken record does at once: a malformed record settles MALFORMED, never quiet, a FENCE settles DONE, and an
order acts at its owner (R30, R31, R32). -/
def actOnRecord (s : State) (ref : OrderRef) (x : Record) : State :=
  match x with
  | .malformed _ => s.settleOrder { ref with quiet := false } .malformed noValues
  | .fence => s.settleOrder ref .done noValues
  | .order order _ => s.dispatch ref order

/-- A runner takes the record at its cursor (R31): TAKEN is written, the order acts, the open count rises, the streak
returns to 0, the cursor advances and the next first unit is fetched. -/
def takeRecord (s : State) (n : Fin 4) (rec : List Byte) (x : Record) : State :=
  let r := s.runner n
  let t := (s.queueWrite (s.wordWrite r.cursor takenWord (.taken n))).markTake n r.cursor
  let t := t.setRunner n
    { r with state := .fetching, openCount := r.openCount + 1, streak := 0, held := none, told := false,
             reading := none, cursor := r.cursor + BitVec.ofNat 64 (64 * Record.units x) }
  (t.actOnRecord (recordRef s.cfg.byteOrder n r.cursor rec) x).fetch n

/-- A record whose units are all there is offered (R31): it waits for what it needs, or is taken. The take needs a
place in the posted-write queue for its TAKEN word; `granted` says that the arbiter has just given one (R161). -/
def offer (s : State) (n : Fin 4) (rec : List Byte) (granted : Bool) : State :=
  let x := recordOf s.cfg rec
  match s.recordWaits n x with
  | some why => s.waitOn n rec why
  | none =>
    if granted || s.runnerPlace then s.takeRecord n rec x
    else (s.waitOn n rec .writePlace).makeClaim (.take n)

/-- A WAITING runner offers its held units again, unless a take at its address has made them worthless (R31). -/
def reoffer (s : State) (n : Fin 4) (granted : Bool) : State :=
  match (s.runner n).held with
  | none => s
  | some h => if (s.runner n).raced then s.fetch n else s.offer n h.units granted

/-! ### Data handed by the memory port (R21, R26 to R29) -/

/-- The read of the Control Block has completed: the latch, then the cursor and the first fetch (R21, R26). -/
def blockArrived (s : State) (n : Fin 4) (data : List Byte) : State :=
  let o := s.cfg.byteOrder
  let head := chainHead o data n
  let go := fun t : State =>
    if head.toNat % 64 != 0 then t.faultRunner n .badAddress
    else (t.modRunner n fun r => { r with cursor := head }).fetch n
  match s.nte.bases, blockBases o data with
  | some _, _ => go s
  | none, some b => go (s.setNte { s.nte with bases := some b, position := 0 })
  | none, none => s.faultRunner n .badAddress

/-- An ARMED NEXT record is followed (R29). -/
def followNext (s : State) (n : Fin 4) (target : Addr) : State :=
  if (s.runner n).streak == Config.streakLimit then s.faultRunner n .nextLoop
  else (s.modRunner n fun r => { r with cursor := target, streak := r.streak + 1 }).fetch n

/-- The remaining units of a record are read (R28). -/
def readRemainder (s : State) (n : Fin 4) (first : List Byte) (units : Nat) : State :=
  (s.modRunner n fun r => { r with reading := some (.remainder first) }).requestRead (.runner n)
    ((s.runner n).cursor + 64) (64 * units)

/-- A first unit has arrived (R28): a runner that has lost an ARMED record to another runner's take reads it again. -/
def firstArrived (s : State) (n : Fin 4) (rec : List Byte) : State :=
  match firstUnit s.cfg.byteOrder rec with
  | .notArmed => s.park n
  | x =>
    if (s.runner n).raced then s.fetch n
    else match x with
      | .notArmed => s.park n
      | .next target => s.followNext n target
      | .more units => s.readRemainder n rec units
      | .complete => s.offer n rec false

/-- A discarded read is over: a START that waited for it reads the Control Block (R26, R27). -/
def discardedOver (s : State) (n : Fin 4) : State :=
  let t := s.modRunner n fun r => { r with reading := none, startPending := false }
  if (s.runner n).startPending then t.readBlock n else t

/-- A completed read's data reaches a runner. -/
def runnerRead (s : State) (n : Fin 4) (data : List Byte) : State :=
  match (s.runner n).reading with
  | none => s
  | some .discarded => s.discardedOver n
  | some .controlBlock => s.blockArrived n data
  | some .firstUnit => s.firstArrived n data
  | some (.remainder first) =>
    if (s.runner n).raced then s.fetch n else s.offer n (first ++ data) false

/-- A failed read reaches a runner: FETCH_ERROR, unless STOP had discarded it (R27, R33). -/
def runnerReadFailed (s : State) (n : Fin 4) : State :=
  match (s.runner n).reading with
  | none => s
  | some .discarded => s.discardedOver n
  | some _ => s.faultRunner n .fetchError

/-- A completed read's data is handed to its reader (R158). -/
def readDone (s : State) (reader : Reader) (data : List Byte) : State :=
  match reader with
  | .runner n => s.runnerRead n data
  | .notices => s.noticeReadDone data

/-- A read fails: its tag is quarantined and its reader is told (R158, R159). -/
def readFailed (s : State) (tag : Fin 4) (reader : Reader) : State :=
  let t := s.setTag tag (.quarantined (s.after Config.quarantineFrames))
  match reader with
  | .runner n => t.runnerReadFailed n
  | .notices => t.noticeReadFailed

/-! ### Commands (R26 to R28) -/

/-- An accepted START (R26). -/
def startRunner (s : State) (n : Fin 4) : State :=
  let t := s.modRunner n fun r => { r with fault := .none, streak := 0, state := .fetching }
  if (s.runner n).reading == some .discarded then t.modRunner n fun r => { r with startPending := true }
  else t.readBlock n

/-- What becomes of a read at a STOP (R27): one not yet issued is withdrawn, one in flight is discarded. -/
def stopReading (s : State) (n : Fin 4) : State :=
  if s.readWaits (.runner n) then
    (s.withdrawRead (.runner n)).modRunner n fun r => { r with reading := none }
  else s.modRunner n fun r => { r with reading := r.reading.map fun _ => .discarded }

/-- STOP (R27). -/
def stopRunner (s : State) (n : Fin 4) : State :=
  ((s.stopReading n).withdrawTake n).modRunner n fun r =>
    { r with state := .stopped, recheck := none, held := none, startPending := false, told := false }

end State

end Sys2Proof.Machine
end

