-- ==== Sys2Proof/Machine/Restart.lean ====
section
/-! DEFINITION. Cold start and the end of the configuration stream, and the warm restart (12). -/

namespace Sys2Proof.Machine

open Sys2Proof

namespace State

/-! ### Configuration (R172, R173, R133) -/

/-- A present span enters SEEK when the part enters READY (R133). -/
def seekIfPresent (s : State) (sp : Span) : State :=
  if s.spanPresent sp then s.changeLine sp .seek .order else s

/-- An accepted stream is applied: every block takes its cold-start values and the phase becomes READY (R173). -/
def applyStream (s : State) (stream : BitVec 48) : State :=
  ((State.cold .ready s.counter (.ofStream stream) s.pending).seekIfPresent .a).seekIfPresent .b

/-- The 48th bit has been sampled and the stream is tested (R172). -/
def endStream (s : State) (stream : BitVec 48) : State :=
  if streamAccepted stream then s.applyStream stream else s.setPhase .configFault

/-! ### Warm restart: runners, queues and tests (R175) -/

/-- A runner at a warm restart (R24, R175): STOPPED, its cursor, fault cause and open count kept. -/
def restartRunner (s : State) (n : Fin 4) : State :=
  s.modRunner n fun r =>
    { r with state := .stopped, streak := 0, recheck := none, held := none, reading := none, startPending := false,
             told := false, raced := false }

/-- The runners stop, their claims to take a record end, and the memory port abandons their reads (R164, R175). -/
def restartMemory (s : State) : State :=
  let t := each (List.finRange 4) (fun n t => t.restartRunner n) s
  let quarantine := fun k : Fin 4 =>
    match s.tag k with
    | .outstanding .. => Tag.quarantined (s.after Config.quarantineFrames)
    | .free => .free
    | .quarantined d => .quarantined d
  each (List.finRange 4) (fun n t => t.withdrawTake n) (t.setSmp { t.smp with
    tags := tab 4 quarantine
    waiting := [] })

/-- A queued order settles RESTARTED (R175); a GROUP writes every member result empty. -/
def restartQueued (s : State) (q : QueueEntry) : State :=
  match q.body with
  | .migrate m => s.settleMove q.ref .restarted (s.placeValues m.circuit)
  | .expect m _ => s.settleMove q.ref .restarted (s.placeValues m.circuit)
  | .group members => s.settleMove q.ref .restarted {} (members.map fun _ => (0, 0))

/-- The queue, the watch list and the tests in progress settle RESTARTED (R175, R130). The entries of the watch list, an
unordered set, settle in the order in which they joined it: the model's choice (log 4). -/
def restartOrders (s : State) : State :=
  let t := each s.queue (fun q t => t.restartQueued q) (s.setQueue [])
  let t := each s.watch (fun w t => t.settleMove w.ref .restarted (t.watchValues w.circuit)) (t.setWatch [])
  each [Span.a, Span.b] (fun sp t => (t.settleProve sp .restarted).modSpan sp fun k =>
    { k with prove := k.prove.map fun p => { p with ref := none } }) t

/-! ### Warm restart: bridges and groups (R176 to R178) -/

/-- An entry kept in use loses its order reference and its group index (R177). -/
def detach (s : State) (i : BridgeNo) : State :=
  s.withBridge i fun e =>
    (s.setBridge i (some { e with ref := none, group := none })).modCircuit e.circuit fun k =>
      { k with groupIndex := none }

/-- An entry kept in use settles its order with generation, phase and txn, and is detached (R176). -/
def holdEntry (s : State) (i : BridgeNo) (code : ResultCode) : State :=
  s.withBridge i fun e =>
    let t := match e.ref with
      | none => s
      | some ref =>
        s.settleMove ref code
          { generation := (s.circuit e.circuit).generation, phase := some e.phase, txn := e.txn }
    t.detach i

/-- An entry in RELEASING completes at once (R176). -/
def completeRelease (s : State) (i : BridgeNo) : State :=
  s.withBridge i fun e => (s.stopFromFeed e).freeEntry i

/-- The resolution of an entry that is in no group (R176). -/
def restartEntry (s : State) (i : BridgeNo) : State :=
  s.withBridge i fun e =>
    if e.group.isSome then s
    else match e.phase, e.role with
      | .awaitingOffer, _ => s.freeAs i .restarted
      | .releasing, _ => s.completeRelease i
      | .unwinding, _ => s.holdEntry i (e.outcome.getD .restarted)
      | .rolled, .responder => s.holdEntry i .held
      | _, _ => (s.enterUnwinding i .restarted (some .restart) false false).holdEntry i .restarted

/-- The resolution of a group member's entry, by its phase and its group's gate (R178). A member that a forced BACK has
taken into UNWINDING after the gate opened (R112) keeps its FALLBACK and its guard, and the group ends FALLBACK, against
the words of R178 on a group whose gate is OPEN: the model's choice (log 57). -/
def restartMember (s : State) (i : BridgeNo) : State :=
  s.withBridge i fun e =>
    match e.phase with
    | .releasing => s.completeRelease i
    | .unwinding => s
    | .awaitingOffer | .offering | .matching | .rolled => s.enterUnwinding i .restarted (some .restart) false false

/-- A group is resolved: its members, its settling, and the detaching of the members still in use (R178). -/
def restartGroup (s : State) (g : Fin 4) : State :=
  match s.group g with
  | none => s
  | some x =>
    let t := s.eachMember x fun i u => u.restartMember i
    match t.group g with
    | none => t
    | some y => (t.settleGroup g y).eachMember y fun i u => u.detach i

/-- An entry still in use whose phase calls for a message hands it, once every entry is resolved; a held responder is
not served (R176). -/
def restartMessage (s : State) (i : BridgeNo) : State :=
  s.withBridge i fun e => if e.phase == .unwinding then s.sendAbandon i else s

/-- The bridge table and the group table are resolved (R176 to R178). -/
def restartBridges (s : State) : State :=
  let t := (s.emptyTransmit .a).emptyTransmit .b
  let t := each (List.finRange 48) (fun i u => u.restartEntry i) t
  let t := each (List.finRange 4) (fun g u => u.restartGroup g) t
  each (List.finRange 48) (fun i u => u.restartMessage i) t

/-! ### Warm restart: the Notice Engine, and the whole (R170, R174) -/

/-- The Notice Engine gives up its bases and credits, and every row is dirty (R170). -/
def restartNotices (s : State) : State :=
  (s.setNte { s.nte with bases := none, credits := 0, reread := false, recheck := none, reading := none }).markAllRows

/-- A request for a warm restart, acted on only in READY (R174). -/
def warmRestart (s : State) : State :=
  if s.phase == .ready then (s.setPhase .warming).restartMemory.restartOrders.restartBridges.restartNotices else s

end State

end Sys2Proof.Machine
end

