-- ==== Sys2Proof/Machine/Registers.lean ====
section
/-! DEFINITION. The six registers (02 section 2.9, 11 section 11.5, 13.5): the command that a register write is, what a
read returns, and what a write to BLOCK_BASE, ATTN and ATTN_MASK does. -/

namespace Sys2Proof.Machine

open Sys2Proof

/-- The command that a write to NUDGE is: code 1 START, 2 STOP, 3 WAKE, each with the runner in bits 9 and 8, 4 NOTICES,
5 WARM; any other code is unknown (R25, R179, 13.5). -/
def nudgeCommand (value : BitVec 64) : Instr :=
  let n := (value.extractLsb' 8 2).toFin
  match (value.extractLsb' 0 4).toNat with
  | 1 => .nudgeStart n
  | 2 => .nudgeStop n
  | 3 => .nudgeWake n
  | 4 => .nudgeNotices
  | 5 => .nudgeWarm
  | _ => .nudgeUnknownCode (value.extractLsb' 0 4)

/-- The command that a register write is, by its offset in the window (R163, 13.5). -/
def registerCommand (offset value : BitVec 64) : Instr :=
  match offset.toNat with
  | 0x08 => .blockBaseWrite value
  | 0x10 => nudgeCommand value
  | 0x20 => .attnWrite value
  | 0x28 => .attnMaskWrite value
  | _ => .registerWriteDiscard offset value

namespace State

/-- IDENT (R35, 13.5). A bit that 13.5 gives to no field reads 0, the model's choice (log 52). -/
def ident (s : State) : BitVec 64 :=
  Config.familyCode.zeroExtend 64 ||| (Config.revision.zeroExtend 64 <<< 16) |||
  ((Phase.code s.phase).zeroExtend 64 <<< 24) ||| (s.cfg.rank.zeroExtend 64 <<< 32)

/-- RUNSTATE (R35, 13.5). A bit that 13.5 gives to no field reads 0, the model's choice (log 52). -/
def runState (s : State) : BitVec 64 :=
  let field := fun n : Fin 4 => ((s.runner n).state.code.zeroExtend 64) <<< (4 * n.val)
  field 0 ||| field 1 ||| field 2 ||| field 3 ||| ((Phase.code s.phase).zeroExtend 64 <<< 16)

/-- What a read of an offset of the window returns (R25, R35, R163, R169); 0 where no register is. -/
def readRegister (s : State) (offset : BitVec 64) : BitVec 64 :=
  match offset.toNat with
  | 0x00 => s.ident
  | 0x08 => s.blockBase
  | 0x18 => s.runState
  | 0x20 => s.attn.zeroExtend 64
  | 0x28 => s.attnMask.zeroExtend 64
  | _ => 0

/-- A runner that is STOPPED or FAULTED. -/
def runnerHalted (s : State) (n : Fin 4) : Bool :=
  (s.runner n).state == .stopped || (s.runner n).state == .faulted

/-- A write to BLOCK_BASE (R36). -/
def writeBlockBase (s : State) (value : BitVec 64) : State :=
  if (List.finRange 4).all s.runnerHalted && value.toNat % 128 == 0 then s.setBlockBase value else s.raise .refused

/-- A write to ATTN clears each cause whose bit is written 1 (R169). -/
def writeAttn (s : State) (value : BitVec 64) : State := s.setAttn (s.attn &&& ~~~(value.truncate 6))

/-- A write to ATTN_MASK replaces all six enables (R169). -/
def writeAttnMask (s : State) (value : BitVec 64) : State := s.setAttnMask (value.truncate 6)

end State

end Sys2Proof.Machine
end

