-- ==== Sys2Proof/Machine/Finish.lean ====
section
/-! DEFINITION. What every step of the part ends with, and the form of every command's meaning. -/

namespace Sys2Proof.Machine

open Sys2Proof

namespace State

/-- WARMING ends once the settle of every order open at the restart is complete (R174). With no order open that is the
step of the request itself, so a second request that comes together with it finds READY and restarts again, where R174
also says that it finds WARMING: the choice between the two sentences is the model's (log 49). -/
def endWarming (s : State) : State :=
  if s.phase == .warming && s.settles.isEmpty then s.setPhase .ready else s

/-- Some bridge entry or group entry that was in use in `before` has become free. -/
def freedSince (before s : State) : Bool :=
  ((List.finRange 48).any fun i => (before.bridge i).isSome && (s.bridge i).isNone) ||
  (List.finRange 4).any fun g => (before.group g).isSome && (s.group g).isNone

/-- The head that the admission queue had in `before` has left it. -/
def headLeft (before s : State) : Bool :=
  match before.queue with
  | [] => false
  | q :: _ => s.queue.head? != some q

/-- The head of the admission queue is examined in the step in which a bridge entry or a group entry becomes free or a
head is withdrawn (R42, R50, R51, R114). A head that comes forward by a take or from the watch list is examined at
ADMISSION_START (log 38). -/
def examineHead (before s : State) : State :=
  if freedSince before s || headLeft before s then s.startHeads s.queue.length else s

/-- A place a WAITING runner waits for is free (R39). -/
def placeFor (s : State) (why : WaitFor) : Bool :=
  match why with
  | .queuePlace => s.queueRoom
  | .watchPlace => s.watchRoom
  | .writePlace | .fence => false

/-- The runners that wait for a place that is free are told (R39). -/
def tellRunners (s : State) : State :=
  each (List.finRange 4) (fun n t => t.modRunner n fun r =>
    if r.state == .waiting && r.held.any fun h => s.placeFor h.why then { r with told := true } else r) s

/-- What every step ends with, whatever it did: groups take what became of their members (R108 to R114), the head of
the admission queue may start (R42), WARMING may end, the Notice Engine may ask for a read (R166), waiting runners are
told of room (R39), the head of the posted-write queue is sent (R160), and the rows whose content changed since `before`
are dirty (R168). The order of these parts is the model's (log 4): a read that the engine asks for joins the waiting list
behind one that a runner has asked for in the same step (R157 allows either order). -/
def finish (before s : State) : State :=
  markRows before (examineHead before (advanceGroups before s)).endWarming.pollNotices.tellRunners.sendHead

end State

/-- The answer of a command: its effect and what every step ends with. While RESETn is held low the part is held and
does nothing (R171). -/
def act (s : State) (effect : State → State) : Host.Outcome State Fault Refusal :=
  .next (if s.resetLow then s else State.finish s (effect s))

end Sys2Proof.Machine
end

