-- ==== Sys2Proof/Machine/Arrivals.lean ====
section
/-! DEFINITION. The meanings of the arrivals of roll messages (05 section 5.6). -/

namespace Sys2Proof.Machine

open Sys2Proof

namespace State

/-- The entry on a bearer slot (R94). -/
def entryOn (s : State) (b : BearerSlot) : Option (BridgeNo × Bridge) :=
  (List.finRange 48).findSome? fun i =>
    match s.bridge i with
    | some e => if e.bearer == b then some (i, e) else none
    | none => none

/-- The circuit whose last migration record may answer for a bearer slot (R5, R94). -/
def recordCircuitOf (s : State) (b : BearerSlot) : Option CircuitNo :=
  let x := s.slotEntry b
  match x.use with
  | .assigned c => some c
  | .free => x.lastCircuit
  | .bridged _ => none

/-- The last migration record that an arrival matches (R94). -/
def recordFor (s : State) (b : BearerSlot) (txn : Byte) : Option MigrationRecord :=
  match (s.recordCircuitOf b).bind fun c => (s.circuit c).lastMigration with
  | some r => if r.bearer == b && r.txn == txn then some r else none
  | none => none

/-- An arrival on a slot without an entry (R94, R97). -/
def answerFromRecord (s : State) (b : BearerSlot) (kind : MessageKind) (txn : Byte) : State :=
  match s.recordFor b txn with
  | some r =>
    match r.outcome, kind with
    | _, .abandon => s
    | .released, .rolled =>
      if r.role == .initiator then s.answer b.span .release b.slot txn none else s
    | .released, _ => s
    | .unwound, _ => s.answer b.span .abandon b.slot txn (some .concluded)
  | none =>
    if kind == .offer then s.answer b.span .decline b.slot txn (some .notExpected) else s

/-- The messages that a span's frames have brought are decided in the order in which the frames arrived (R83): while
any is kept, the oldest is the one to come. With none kept, an arrival stands for its own frame (log 10). -/
def arrivalDue (s : State) (sp : Span) (m : RollMessage) : Bool :=
  match (s.span sp).arrivals with
  | [] => true
  | x :: _ => x == m

/-- The message that comes to be decided leaves the arrivals (R83). -/
def popArrival (s : State) (sp : Span) : State := s.modSpan sp fun k => { k with arrivals := k.arrivals.tail }

/-- An arrival on a span in service from a part of another rank, whose turn it is, is decided at its slot: against the
entry there, or else from the slot's record (R83, R94). -/
def arrive (s : State) (sp : Span) (m : RollMessage) (atEntry : State → BridgeNo → Bridge → State) : State :=
  if s.inService sp && m.rank != s.cfg.rank && s.arrivalDue sp m then
    let t := s.popArrival sp
    match t.entryOn ⟨sp, m.slot⟩ with
    | some (i, e) => atEntry t i e
    | none => t.answerFromRecord ⟨sp, m.slot⟩ m.kind m.txn
  else s

/-- DECLINE as the answer to an OFFER (R95, R96). -/
def declineOffer (s : State) (sp : Span) (m : RollMessage) (reason : Reason) : State :=
  s.answer sp .decline m.slot m.txn (some reason)

/-- An OFFER joins a waiting responder (R95, R61). -/
def joinOffer (s : State) (i : BridgeNo) (e : Bridge) (m : RollMessage) : State :=
  ((s.setBridge i (some { e with txn := some m.txn, quick := m.quick, deadline := none })).modCircuit e.circuit
    fun k => k.feedTo e.direction true).enterMatching i

/-- An OFFER that reaches a responder (R95). -/
def offerAtResponder (s : State) (sp : Span) (i : BridgeNo) (e : Bridge) (m : RollMessage) : State :=
  if e.phase == .awaitingOffer then
    if m.direction == e.direction then s.joinOffer i e m else s.declineOffer sp m .mismatch
  else if e.txn != some m.txn then s.declineOffer sp m .busy
  else match e.phase with
    | .matching | .rolled | .unwinding => s.handMessage i
    | .awaitingOffer | .offering | .releasing => s

/-- The local entry yields in an offer collision (R96). -/
def yieldOffer (s : State) (i : BridgeNo) (e : Bridge) (m : RollMessage) : State :=
  (s.setBridge i (some
    { e with role := .responder, txn := some m.txn, quick := m.quick, peerRolled := false, retryDue := none,
             deadline := none })).enterMatching i

/-- An OFFER that reaches an initiator (R96). -/
def offerAtInitiator (s : State) (sp : Span) (i : BridgeNo) (e : Bridge) (m : RollMessage) : State :=
  if e.phase != .offering then s.declineOffer sp m .busy
  else if m.rank < s.cfg.rank then s
  else if m.direction != e.direction then s.declineOffer sp m .mismatch
  else if e.group.isSome then s.declineOffer sp m .busy
  else s.yieldOffer i e m

/-- An OFFER at the entry on its slot (R95, R96). -/
def offerAt (sp : Span) (m : RollMessage) (s : State) (i : BridgeNo) (e : Bridge) : State :=
  match e.role with
  | .responder => s.offerAtResponder sp i e m
  | .initiator => s.offerAtInitiator sp i e m

/-- The entry is an initiator with this txn. -/
def initiatorOf (e : Bridge) (txn : Byte) : Bool := e.role == .initiator && e.txn == some txn

/-- An ACCEPT at the entry on its slot (R98). -/
def acceptAt (txn : Byte) (s : State) (i : BridgeNo) (e : Bridge) : State :=
  if initiatorOf e txn && e.phase == .offering then
    (s.setBridge i (some { e with retryDue := none, deadline := none })).enterMatching i
  else s

/-- A DECLINE at the entry on its slot (R99, R103). -/
def declineAt (txn : Byte) (reason : Reason) (s : State) (i : BridgeNo) (e : Bridge) : State :=
  if initiatorOf e txn && e.phase == .offering then
    (s.setBridge i (some { e with peerReason := some reason })).unwind i .declined none true
  else s

/-- A ROLLED at the entry on its slot (R100). -/
def rolledAt (txn : Byte) (s : State) (i : BridgeNo) (e : Bridge) : State :=
  if initiatorOf e txn then
    match e.phase with
    | .offering =>
      (s.setBridge i (some { e with peerRolled := true, retryDue := none, deadline := none })).enterMatching i
    | .matching => s.setBridge i (some { e with peerRolled := true })
    | .rolled => (s.setBridge i (some { e with peerRolled := true, deadline := none })).releaseDecision i
    | .releasing | .unwinding => s.handMessage i
    | .awaitingOffer => s
  else s

/-- A RELEASE at the entry on its slot (R101, R71, R80). -/
def releaseAt (txn : Byte) (s : State) (i : BridgeNo) (e : Bridge) : State :=
  if e.role == .responder && e.phase == .rolled && e.txn == some txn then
    let t := s.setBridge i (some
      { e with phase := .releasing, retryDue := none, deadline := none,
               outcome := some (if e.forced then .doneForced else .done) })
    if e.fromLost then t.freeEntry i else t.beginGuard i
  else s

/-- An ABANDON at the entry on its slot (R102, R75). -/
def abandonAt (txn : Byte) (reason : Reason) (s : State) (i : BridgeNo) (e : Bridge) : State :=
  if e.txn == some txn then s.peerAbandon i reason else s

end State

/-- OFFER_ARRIVAL (R95, R96, R97). -/
def execOfferArrival (sp : Span) (slot : Fin 256) (txn rank : Byte) (dir : Direction) (quick : Bool) (s : State) :
    Host.Outcome State Fault Refusal :=
  let m : RollMessage := ⟨.offer, slot, txn, rank, dir, quick, none⟩
  act s fun s => s.arrive sp m (State.offerAt sp m)

/-- ACCEPT_ARRIVAL (R98). -/
def execAcceptArrival (sp : Span) (slot : Fin 256) (txn rank : Byte) (s : State) :
    Host.Outcome State Fault Refusal :=
  act s fun s => s.arrive sp ⟨.accept, slot, txn, rank, .toFibre, false, none⟩ (State.acceptAt txn)

/-- DECLINE_ARRIVAL (R99). -/
def execDeclineArrival (sp : Span) (slot : Fin 256) (txn rank : Byte) (reason : Reason) (s : State) :
    Host.Outcome State Fault Refusal :=
  act s fun s => s.arrive sp ⟨.decline, slot, txn, rank, .toFibre, false, some reason⟩ (State.declineAt txn reason)

/-- ROLLED_ARRIVAL (R100). -/
def execRolledArrival (sp : Span) (slot : Fin 256) (txn rank : Byte) (s : State) :
    Host.Outcome State Fault Refusal :=
  act s fun s => s.arrive sp ⟨.rolled, slot, txn, rank, .toFibre, false, none⟩ (State.rolledAt txn)

/-- RELEASE_ARRIVAL (R101). -/
def execReleaseArrival (sp : Span) (slot : Fin 256) (txn rank : Byte) (s : State) :
    Host.Outcome State Fault Refusal :=
  act s fun s => s.arrive sp ⟨.release, slot, txn, rank, .toFibre, false, none⟩ (State.releaseAt txn)

/-- ABANDON_ARRIVAL (R102). -/
def execAbandonArrival (sp : Span) (slot : Fin 256) (txn rank : Byte) (reason : Reason) (s : State) :
    Host.Outcome State Fault Refusal :=
  act s fun s => s.arrive sp ⟨.abandon, slot, txn, rank, .toFibre, false, some reason⟩ (State.abandonAt txn reason)

end Sys2Proof.Machine
end

