-- ==== Sys2Proof/Machine/Clock.lean ====
section
/-! DEFINITION. The meanings of the frame clock and of what its counts make due. -/

namespace Sys2Proof.Machine

open Sys2Proof

/-- FRAME_TICK: the counter advances in every phase; in READY and WARMING a frame is switched, sent and counted
(R148, R149). It acts on no deadline that passes in this frame: the row of that expiry does, and further frames and other
commands may come before it, the model's choice (log 47). -/
def execFrameTick (loopA loopB : LoopReturn) (s : State) : Host.Outcome State Fault Refusal :=
  act s fun s => if s.running then s.runFrame loopA loopB else s.advanceCounter

/-- REPORT_AGE_EXPIRY: a report age of 8,000 (R144). -/
def execReportAgeExpiry (c : CircuitNo) (s : State) : Host.Outcome State Fault Refusal :=
  act s fun s => s.reportAgeExpiry c

/-- CANDIDATE_QUALIFIED: a listed candidate has become qualified (R153, R154). The table gives this its own row, and other
commands may come between the frame that qualifies the candidate and it (log 41). -/
def execCandidateQualified (src : Source) (s : State) : Host.Outcome State Fault Refusal :=
  act s fun s => s.candidateQualified src

end Sys2Proof.Machine
end

