-- ==== Sys2Proof/Machine/HostCommands.lean ====
section
/-! DEFINITION. The meanings of the pins and of the host's register writes. -/

namespace Sys2Proof.Machine

open Sys2Proof

/-- RESETN_RELEASE: a new cold start, in any phase: LOADING, the counter at 0, everything before abandoned (R171). -/
def execResetnRelease (s : State) : Host.Outcome State Fault Refusal :=
  .next (State.cold .loading 0 SiteConfig.unset s.pending)

/-- RESETN_HELD_LOW: the part is held and does nothing until RESETn is released (R171). -/
def execResetnHeldLow (s : State) : Host.Outcome State Fault Refusal := .next { s with resetLow := true }

/-- CONFIG_STREAM_END: in LOADING the stream is tested, and applied or refused (R172, R173). -/
def execConfigStreamEnd (stream : BitVec 48) (s : State) : Host.Outcome State Fault Refusal :=
  act s fun s => if s.phase == .loading then s.endStream stream else s

/-- WARMN_PULSE: a warm restart, acted on in READY (R174). -/
def execWarmnPulse (s : State) : Host.Outcome State Fault Refusal := act s State.warmRestart

/-- NUDGE_START: accepted for a STOPPED or FAULTED runner in READY, else refused (R26). -/
def execNudgeStart (n : Fin 4) (s : State) : Host.Outcome State Fault Refusal :=
  act s fun s => if s.phase == .ready && s.runnerHalted n then s.startRunner n else s.raise .refused

/-- NUDGE_STOP: the runner is STOPPED, from any state (R27). -/
def execNudgeStop (n : Fin 4) (s : State) : Host.Outcome State Fault Refusal := act s fun s => s.stopRunner n

/-- NUDGE_WAKE: a PARKED runner fetches its cursor again; in any other state it is ignored (R28). -/
def execNudgeWake (n : Fin 4) (s : State) : Host.Outcome State Fault Refusal :=
  act s fun s => if (s.runner n).state == .parked then s.fetch n else s

/-- NUDGE_NOTICES: with bases and no credits, a read of notice entries, or the re-read mark while one is waiting or
outstanding (R166). -/
def execNudgeNotices (s : State) : Host.Outcome State Fault Refusal :=
  act s fun s =>
    if s.nte.bases.isSome && s.nte.credits == 0 then
      if s.nte.reading.isSome then s.setNte { s.nte with reread := true } else s.readNotices
    else s

/-- NUDGE_WARM: a warm restart, acted on in READY (R25, R174). -/
def execNudgeWarm (s : State) : Host.Outcome State Fault Refusal := act s State.warmRestart

/-- NUDGE_UNKNOWN_CODE: discarded, with the cause REFUSED (R25). -/
def execNudgeUnknownCode (code : BitVec 4) (s : State) : Host.Outcome State Fault Refusal :=
  act s fun s => if unknownNudgeCode code then s.raise .refused else s

/-- BLOCK_BASE_WRITE (R36). -/
def execBlockBaseWrite (value : BitVec 64) (s : State) : Host.Outcome State Fault Refusal :=
  act s fun s => s.writeBlockBase value

/-- ATTN_WRITE (R169). -/
def execAttnWrite (value : BitVec 64) (s : State) : Host.Outcome State Fault Refusal :=
  act s fun s => s.writeAttn value

/-- ATTN_MASK_WRITE (R169). -/
def execAttnMaskWrite (value : BitVec 64) (s : State) : Host.Outcome State Fault Refusal :=
  act s fun s => s.writeAttnMask value

/-- REGISTER_WRITE_DISCARD: discarded without effect (R35, R163). -/
def execRegisterWriteDiscard (_offset _value : BitVec 64) (s : State) : Host.Outcome State Fault Refusal :=
  act s fun s => s

end Sys2Proof.Machine
end

