-- ==== Sys2Proof/Machine/MemoryEvents.lean ====
section
/-! DEFINITION. The meanings of the System Memory Port's events (10, R34). -/

namespace Sys2Proof.Machine

open Sys2Proof

namespace State

/-- The lowest-numbered FREE tag (R157). -/
def freeTag (s : State) : Option (Fin 4) := (List.finRange 4).find? fun k => s.tag k == .free

/-- The takes made at a runner's cursor before its first-unit read is issued do not concern that read (R28). -/
def readIssued (s : State) (reader : Reader) : State :=
  match reader with
  | .notices => s
  | .runner n => s.modRunner n fun r => if r.reading == some .firstUnit then { r with raced := false } else r

/-- The oldest waiting request is issued on the lowest FREE tag when the posted-write queue is empty (R157). One READ_ISSUE
issues one request, and another command may come before the next: the model's choice (log 55). -/
def issueRead (s : State) : State :=
  match s.smp.writes, s.smp.waiting, s.freeTag with
  | [], r :: rest, some k =>
    ((s.setSmp { s.smp with waiting := rest }).setTag k
      (.outstanding r 0 [] (s.after Config.readFrames))).readIssued r.reader
  | _, _, _ => s

/-- A unit for an OUTSTANDING tag (R158). -/
def unitArrived (s : State) (k : Fin 4) (r : ReadRequest) (units : Nat) (data : List Byte) (deadline : FrameNo)
    (mark : UnitMark) (error : Bool) (unit : Vector Byte 32) : State :=
  if units == 0 && error then s.readFailed k r.reader
  else if (units + 1 == r.length / 32) != (mark == .last) then s.readFailed k r.reader
  else
    let all := data ++ unit.toList
    match mark with
    | .last => (s.setTag k .free).readDone r.reader all
    | .more => s.setTag k (.outstanding r (units + 1) all deadline)

/-- The tag of a read whose deadline has passed fails it with TIMEOUT (R159). -/
def timeOutRead (s : State) (k : Fin 4) : State :=
  match s.tag k with
  | .outstanding r _ _ deadline => if s.passed deadline then s.readFailed k r.reader else s
  | .free | .quarantined _ => s

/-- A quarantined tag whose deadline has passed is FREE (R159). -/
def endQuarantine (s : State) (k : Fin 4) : State :=
  match s.tag k with
  | .quarantined deadline => if s.passed deadline then s.setTag k .free else s
  | .free | .outstanding .. => s

/-- The first waiting runner claim, a take or a result write, is granted a place, and its runner may go on to the claims
it has kept (R161). -/
def grantPlace (s : State) : State :=
  if s.writeRoom then
    match s.smp.claims with
    | .result n w :: rest => ((s.setClaims rest).queueWrite w).makeHeld n
    | .take n :: rest => ((s.setClaims rest).reoffer n true).makeHeld n
    | .settled _ _ :: _ | [] => s
  else s

/-- The first waiting runner claim, a SETTLED word, is granted a place, and the order settles (R34, R161). -/
def grantSettled (s : State) : State :=
  if s.writeRoom then
    match s.smp.claims with
    | .settled n id :: rest =>
      match s.findSettle id with
      | some x => ((s.setClaims rest).queueSettled x).makeHeld n
      | none => (s.setClaims rest).makeHeld n
    | .result _ _ :: _ | .take _ :: _ | [] => s
  else s

/-- The answer to the sent write; one for no sent write is a stray (R160, R162). An answer has no name of its write, so a
late one to a write that its timeout has removed counts as that of the write now sent: the model's choice (log 48). -/
def writeAnswered (s : State) (reply : WriteReply) : State :=
  match s.smp.sent, s.smp.writes with
  | some _, w :: _ =>
    match reply with
    | .done => s.dropHead.writeDone w
    | .reject => s.dropHead.writeFailed w .reject
  | _, _ => s.raise .stray

/-- A sent write not answered within 16 frames is reported as a reject with cause TIMEOUT (R160). -/
def timeOutWrite (s : State) : State :=
  match s.smp.sent, s.smp.writes with
  | some d, w :: _ => if s.passed d then s.dropHead.writeFailed w .timeout else s
  | _, _ => s

end State

/-- READ_ISSUE (R157). -/
def execReadIssue (s : State) : Host.Outcome State Fault Refusal := act s State.issueRead

/-- READ_UNIT_ARRIVAL: a unit of a read; one whose tag is QUARANTINED is discarded, one whose tag is FREE is a stray
(R158, R159). -/
def execReadUnitArrival (tag : Fin 4) (mark : UnitMark) (error : Bool) (data : Vector Byte 32) (s : State) :
    Host.Outcome State Fault Refusal :=
  act s fun s =>
    match s.tag tag with
    | .free => s.raise .stray
    | .quarantined _ => s
    | .outstanding r units got deadline => s.unitArrived tag r units got deadline mark error data

/-- READ_TIMEOUT (R159). -/
def execReadTimeout (tag : Fin 4) (s : State) : Host.Outcome State Fault Refusal := act s fun s => s.timeOutRead tag

/-- QUARANTINE_END (R159). -/
def execQuarantineEnd (tag : Fin 4) (s : State) : Host.Outcome State Fault Refusal :=
  act s fun s => s.endQuarantine tag

/-- WRITE_PLACE_GRANT (R161). -/
def execWritePlaceGrant (s : State) : Host.Outcome State Fault Refusal := act s State.grantPlace

/-- SETTLED_WRITE (R34). -/
def execSettledWrite (s : State) : Host.Outcome State Fault Refusal := act s State.grantSettled

/-- WRITE_ANSWER (R160, R162). -/
def execWriteAnswer (reply : WriteReply) (s : State) : Host.Outcome State Fault Refusal :=
  act s fun s => s.writeAnswered reply

/-- WRITE_TIMEOUT (R160, R162). -/
def execWriteTimeout (s : State) : Host.Outcome State Fault Refusal := act s State.timeOutWrite

end Sys2Proof.Machine
end

