-- ==== Sys2Proof/Machine/MigrationEvents.lean ====
section
/-! DEFINITION. The meanings of the Migration Engine's own events: admission, the deadlines and guards of entries,
and the own roll. -/

namespace Sys2Proof.Machine

open Sys2Proof

namespace State

/-- The earliest ready watch entry takes a free queue place (R39, R40). Other commands may come between the release of the
place and this event of the table: the model's choice (log 53). -/
def moveReady (s : State) : State :=
  if s.queue.length < Config.queuePlaces then
    match s.firstReady with
    | none => s
    | some w => s.moveToQueue w
  else s

/-- A watch entry whose wait deadline has passed is removed (R41). -/
def waitExpiry (s : State) (c : CircuitNo) : State :=
  match s.watchOf c with
  | none => s
  | some w =>
    if s.due w.deadline then (s.unwatch c).settleMove w.ref .waitExpired (s.watchValues c) else s

/-- Act on the entry at an index when it is in a phase, and nothing else. -/
def inPhase (s : State) (i : BridgeNo) (phase : BridgePhase) (f : Bridge → State) : State :=
  s.withBridge i fun e => if e.phase == phase then f e else s

/-- The expect window has passed (R48). -/
def expectWindowExpiry (s : State) (i : BridgeNo) : State :=
  s.inPhase i .awaitingOffer fun e => if s.due e.deadline then s.freeAs i .expired else s

/-- An entry's retry due has passed: its message is handed again, and the next retry is due 80 frames ahead (R90,
R91). -/
def retry (s : State) (i : BridgeNo) (e : Bridge) : State :=
  if s.due e.retryDue then
    (s.setBridge i (some { e with retryDue := some (s.after Config.retryFrames) })).handMessage i
  else s

/-- An initiator in OFFERING re-sends its OFFER (R90). -/
def offerRetry (s : State) (i : BridgeNo) : State := s.inPhase i .offering fun e => s.retry i e

/-- A responder in ROLLED re-sends ROLLED (R91). -/
def rolledRetry (s : State) (i : BridgeNo) : State :=
  s.inPhase i .rolled fun e => if e.role == .responder then s.retry i e else s

/-- The OFFERING deadline has passed (R90). -/
def noAnswerExpiry (s : State) (i : BridgeNo) : State :=
  s.inPhase i .offering fun e => if s.due e.deadline then s.unwind i .noAnswer (some .noAnswer) else s

/-- An own roll is due from a frame before the one in which a deadline passes, so that the roll comes first (R65). -/
def rollFirst (rollDue : Option FrameNo) (deadline : Option FrameNo) : Bool :=
  match rollDue, deadline with
  | some f, some d => (f - d).msb
  | _, _ => false

/-- The match limit has passed before the entry rolled (R65). A match found in the very frame in which the deadline
passed is not acted on. -/
def matchDeadlineExpiry (s : State) (i : BridgeNo) : State :=
  s.inPhase i .matching fun e =>
    if s.due e.deadline && !rollFirst e.matchDue e.deadline && !rollFirst e.quickDue e.deadline then
      (s.setBridge i (some { e with offset := none })).unwind i .matchTimeout (some .matchTimeout)
    else s

/-- The PEER_STALL deadline has passed (R92). -/
def peerStallExpiry (s : State) (i : BridgeNo) : State :=
  s.inPhase i .rolled fun e => if s.due e.deadline then s.unwind i .peerStall (some .peerStall) else s

/-- The release guard has ended (R71). -/
def releaseGuardEnd (s : State) (i : BridgeNo) : State :=
  s.inPhase i .releasing fun e => if s.due e.deadline then (s.stopFromFeed e).freeEntry i else s

/-- The unwind guard has ended (R74). -/
def unwindGuardEnd (s : State) (i : BridgeNo) : State :=
  s.inPhase i .unwinding fun e => if s.due e.deadline then (s.stopToFeed e).freeEntry i else s

/-- The own roll of an entry in MATCHING: with the matched offset after a match, with offset 0 after the QUICK
condition (R64, R67, R68, R69). -/
def ownRoll (s : State) (i : BridgeNo) (cause : RollCause) : State :=
  s.inPhase i .matching fun e =>
    match cause, e.matchDue, e.offset, e.quickDue with
    | .matched, some _, some d, _ => (s.roll i d false).enterRolled i
    | .quick, _, _, some _ => (s.roll i 0 false).enterRolled i
    | _, _, _, _ => s

end State

/-- ADMISSION_START (R42, R43, R46, R47, R106, R107): the event of the table at which a head that has come forward by a
take or from the watch list is examined. That other commands may come before it is the model's choice (log 38); a
freeing or a withdrawal examines the head in its own step (`State.examineHead`). -/
def execAdmissionStart (s : State) : Host.Outcome State Fault Refusal :=
  act s fun s => s.startHeads s.queue.length

/-- READY_ENTRY_ADMIT (R39, R40). -/
def execReadyEntryAdmit (s : State) : Host.Outcome State Fault Refusal := act s State.moveReady

/-- WAIT_EXPIRY (R41, R59). -/
def execWaitExpiry (c : CircuitNo) (s : State) : Host.Outcome State Fault Refusal := act s fun s => s.waitExpiry c

/-- EXPECT_WINDOW_EXPIRY (R48). -/
def execExpectWindowExpiry (i : BridgeNo) (s : State) : Host.Outcome State Fault Refusal :=
  act s fun s => s.expectWindowExpiry i

/-- OFFER_RETRY (R90). -/
def execOfferRetry (i : BridgeNo) (s : State) : Host.Outcome State Fault Refusal := act s fun s => s.offerRetry i

/-- NO_ANSWER_EXPIRY (R90). -/
def execNoAnswerExpiry (i : BridgeNo) (s : State) : Host.Outcome State Fault Refusal :=
  act s fun s => s.noAnswerExpiry i

/-- MATCH_DEADLINE_EXPIRY (R65). -/
def execMatchDeadlineExpiry (i : BridgeNo) (s : State) : Host.Outcome State Fault Refusal :=
  act s fun s => s.matchDeadlineExpiry i

/-- PEER_STALL_EXPIRY (R92). -/
def execPeerStallExpiry (i : BridgeNo) (s : State) : Host.Outcome State Fault Refusal :=
  act s fun s => s.peerStallExpiry i

/-- ROLLED_RETRY (R91). -/
def execRolledRetry (i : BridgeNo) (s : State) : Host.Outcome State Fault Refusal := act s fun s => s.rolledRetry i

/-- RELEASE_GUARD_END (R71). -/
def execReleaseGuardEnd (i : BridgeNo) (s : State) : Host.Outcome State Fault Refusal :=
  act s fun s => s.releaseGuardEnd i

/-- UNWIND_GUARD_END (R74). -/
def execUnwindGuardEnd (i : BridgeNo) (s : State) : Host.Outcome State Fault Refusal :=
  act s fun s => s.unwindGuardEnd i

/-- OWN_ROLL (R68, R69). -/
def execOwnRoll (i : BridgeNo) (cause : RollCause) (s : State) : Host.Outcome State Fault Refusal :=
  act s fun s => s.ownRoll i cause

end Sys2Proof.Machine
end

