-- ==== Sys2Proof/Machine/NoticeEvents.lean ====
section
/-! DEFINITION. The meanings of the Notice Engine's events (11). -/

namespace Sys2Proof.Machine

open Sys2Proof

namespace State

/-- A notice entry write can take a place: there is room, and no runner claim waits (R161). -/
def noticePlace (s : State) : Bool := s.runnerPlace

/-- A status row write can take a place: there is room, no runner claim waits, no posting is due and no read request
waits (R161). -/
def rowPlace (s : State) : Bool := s.runnerPlace && !s.postingDue && s.smp.waiting.isEmpty

end State

/-- NOTICE_POST: a posting that is due takes its place in the posted-write queue (R167). With the queue full nothing
happens, so that OVERFLOW or the head is chosen, and leaves the engine, in the step in which the entry gets its place: the
model's choice (log 56). -/
def execNoticePost (s : State) : Host.Outcome State Fault Refusal :=
  act s fun s => if s.postingDue && s.noticePlace then s.postNotice else s

/-- NOTICE_RECHECK: the recheck deadline has passed, and the engine reads again (R166). -/
def execNoticeRecheck (s : State) : Host.Outcome State Fault Refusal :=
  act s fun s => if s.due s.nte.recheck then s.readNotices else s

/-- STATUS_ROW_WRITE: the first dirty row takes its place in the posted-write queue (R168). -/
def execStatusRowWrite (s : State) : Host.Outcome State Fault Refusal :=
  act s fun s => if s.rowPlace then s.writeRow else s

end Sys2Proof.Machine
end

