-- ==== Sys2Proof/Machine/PortEvents.lean ====
section
/-! DEFINITION. The meanings of the copper ports' events. -/

namespace Sys2Proof.Machine

open Sys2Proof

/-- PORT_FRAME_PERIOD: in READY and WARMING a frame period is judged and a received frame written (R135 to R142,
R147). -/
def execPortFramePeriod (p : PortNo) (rx : PortPeriod) (s : State) : Host.Outcome State Fault Refusal :=
  act s fun s => if s.running then s.portPeriod p rx else s

/-- PORT_LOST (R137, R139). -/
def execPortLost (p : PortNo) (s : State) : Host.Outcome State Fault Refusal := act s fun s => s.portLost p

/-- PORT_RECOVERED (R137, R139). -/
def execPortRecovered (p : PortNo) (s : State) : Host.Outcome State Fault Refusal := act s fun s => s.portRecovered p

end Sys2Proof.Machine
end

