-- ==== Sys2Proof/Machine/RunnerEvents.lean ====
section
/-! DEFINITION. The meanings of the runners' own events. -/

namespace Sys2Proof.Machine

open Sys2Proof

/-- RECHECK_EXPIRY: a PARKED runner's recheck deadline has passed, and it fetches its cursor again (R28). -/
def execRecheckExpiry (n : Fin 4) (s : State) : Host.Outcome State Fault Refusal :=
  act s fun s => if (s.runner n).state == .parked && s.due (s.runner n).recheck then s.fetch n else s

/-- WAITING_REOFFER: a WAITING runner that has been told of a released place offers its units again (R31, R39). -/
def execWaitingReoffer (n : Fin 4) (s : State) : Host.Outcome State Fault Refusal :=
  act s fun s => if (s.runner n).state == .waiting && (s.runner n).told then s.reoffer n false else s

/-- FENCE_RETRY: a runner WAITING on a FENCE retries the take when its open count is 0 (R32). -/
def execFenceRetry (n : Fin 4) (s : State) : Host.Outcome State Fault Refusal :=
  act s fun s =>
    let r := s.runner n
    if r.state == .waiting && r.held.any (fun h => h.why == .fence) && r.openCount == 0 then s.reoffer n false else s

end Sys2Proof.Machine
end

