-- ==== Sys2Proof/Machine/SpanEvents.lean ====
section
/-! DEFINITION. The meanings of the span framers' events. -/

namespace Sys2Proof.Machine

open Sys2Proof

/-- SPAN_FRAME_RECEIVED: in READY and WARMING a frame period is judged and its content delivered (R120, R121). -/
def execSpanFrameReceived (sp : Span) (rx : SpanPeriod) (s : State) : Host.Outcome State Fault Refusal :=
  act s fun s => if s.running then s.spanPeriod sp rx else s

/-- SPAN_TRAINED (R123). -/
def execSpanTrained (sp : Span) (s : State) : Host.Outcome State Fault Refusal := act s fun s => s.spanTrained sp

/-- SPAN_ERRORS (R123, R125). -/
def execSpanErrors (sp : Span) (s : State) : Host.Outcome State Fault Refusal := act s fun s => s.spanErrors sp

/-- PEER_RESTART (R125). -/
def execPeerRestart (sp : Span) (s : State) : Host.Outcome State Fault Refusal := act s fun s => s.peerRestart sp

/-- HOLD_DOWN_RECOVERED (R126). -/
def execHoldDownRecovered (sp : Span) (s : State) : Host.Outcome State Fault Refusal :=
  act s fun s => s.holdDownRecovered sp

/-- PROVE_END (R130). -/
def execProveEnd (sp : Span) (s : State) : Host.Outcome State Fault Refusal := act s fun s => s.proveEnd sp

end Sys2Proof.Machine
end

