-- ==== Sys2Proof/Machine/Dispatch.lean ====
section
/-! DEFINITION. The meaning of each command, one arm for each row of spec/opcode_table.json. -/

namespace Sys2Proof.Machine

open Sys2Proof

/-- The effect of a command on everything but the queue of waiting commands. -/
def exec (i : Instr) (s : State) : Host.Outcome State Fault Refusal :=
  match i with
  | .resetnRelease => Sys2Proof.Machine.execResetnRelease s
  | .configStreamEnd stream => Sys2Proof.Machine.execConfigStreamEnd stream s
  | .warmnPulse => Sys2Proof.Machine.execWarmnPulse s
  | .nudgeStart n => Sys2Proof.Machine.execNudgeStart n s
  | .nudgeStop n => Sys2Proof.Machine.execNudgeStop n s
  | .nudgeWake n => Sys2Proof.Machine.execNudgeWake n s
  | .nudgeNotices => Sys2Proof.Machine.execNudgeNotices s
  | .nudgeWarm => Sys2Proof.Machine.execNudgeWarm s
  | .nudgeUnknownCode code => Sys2Proof.Machine.execNudgeUnknownCode code s
  | .blockBaseWrite value => Sys2Proof.Machine.execBlockBaseWrite value s
  | .attnWrite value => Sys2Proof.Machine.execAttnWrite value s
  | .attnMaskWrite value => Sys2Proof.Machine.execAttnMaskWrite value s
  | .registerWriteDiscard offset value => Sys2Proof.Machine.execRegisterWriteDiscard offset value s
  | .frameTick loopA loopB => Sys2Proof.Machine.execFrameTick loopA loopB s
  | .ownRoll k cause => Sys2Proof.Machine.execOwnRoll k cause s
  | .spanFrameReceived sp rx => Sys2Proof.Machine.execSpanFrameReceived sp rx s
  | .spanTrained sp => Sys2Proof.Machine.execSpanTrained sp s
  | .spanErrors sp => Sys2Proof.Machine.execSpanErrors sp s
  | .peerRestart sp => Sys2Proof.Machine.execPeerRestart sp s
  | .holdDownRecovered sp => Sys2Proof.Machine.execHoldDownRecovered sp s
  | .proveEnd sp => Sys2Proof.Machine.execProveEnd sp s
  | .portFramePeriod p rx => Sys2Proof.Machine.execPortFramePeriod p rx s
  | .portLost p => Sys2Proof.Machine.execPortLost p s
  | .portRecovered p => Sys2Proof.Machine.execPortRecovered p s
  | .reportAgeExpiry c => Sys2Proof.Machine.execReportAgeExpiry c s
  | .candidateQualified src => Sys2Proof.Machine.execCandidateQualified src s
  | .readIssue => Sys2Proof.Machine.execReadIssue s
  | .readUnitArrival tag mark error data => Sys2Proof.Machine.execReadUnitArrival tag mark error data s
  | .readTimeout tag => Sys2Proof.Machine.execReadTimeout tag s
  | .quarantineEnd tag => Sys2Proof.Machine.execQuarantineEnd tag s
  | .recheckExpiry n => Sys2Proof.Machine.execRecheckExpiry n s
  | .waitingReoffer n => Sys2Proof.Machine.execWaitingReoffer n s
  | .fenceRetry n => Sys2Proof.Machine.execFenceRetry n s
  | .admissionStart => Sys2Proof.Machine.execAdmissionStart s
  | .readyEntryAdmit => Sys2Proof.Machine.execReadyEntryAdmit s
  | .waitExpiry c => Sys2Proof.Machine.execWaitExpiry c s
  | .expectWindowExpiry k => Sys2Proof.Machine.execExpectWindowExpiry k s
  | .offerRetry k => Sys2Proof.Machine.execOfferRetry k s
  | .noAnswerExpiry k => Sys2Proof.Machine.execNoAnswerExpiry k s
  | .matchDeadlineExpiry k => Sys2Proof.Machine.execMatchDeadlineExpiry k s
  | .peerStallExpiry k => Sys2Proof.Machine.execPeerStallExpiry k s
  | .rolledRetry k => Sys2Proof.Machine.execRolledRetry k s
  | .releaseGuardEnd k => Sys2Proof.Machine.execReleaseGuardEnd k s
  | .unwindGuardEnd k => Sys2Proof.Machine.execUnwindGuardEnd k s
  | .offerArrival sp slot txn rank dir quick => Sys2Proof.Machine.execOfferArrival sp slot txn rank dir quick s
  | .acceptArrival sp slot txn rank => Sys2Proof.Machine.execAcceptArrival sp slot txn rank s
  | .declineArrival sp slot txn rank reason => Sys2Proof.Machine.execDeclineArrival sp slot txn rank reason s
  | .rolledArrival sp slot txn rank => Sys2Proof.Machine.execRolledArrival sp slot txn rank s
  | .releaseArrival sp slot txn rank => Sys2Proof.Machine.execReleaseArrival sp slot txn rank s
  | .abandonArrival sp slot txn rank reason => Sys2Proof.Machine.execAbandonArrival sp slot txn rank reason s
  | .writePlaceGrant => Sys2Proof.Machine.execWritePlaceGrant s
  | .settledWrite => Sys2Proof.Machine.execSettledWrite s
  | .writeAnswer reply => Sys2Proof.Machine.execWriteAnswer reply s
  | .writeTimeout => Sys2Proof.Machine.execWriteTimeout s
  | .noticePost => Sys2Proof.Machine.execNoticePost s
  | .noticeRecheck => Sys2Proof.Machine.execNoticeRecheck s
  | .statusRowWrite => Sys2Proof.Machine.execStatusRowWrite s
  | .resetnHeldLow => Sys2Proof.Machine.execResetnHeldLow s

end Sys2Proof.Machine
end

