-- ==== Sys2Proof/Safety.lean ====
section
/-! DEFINITION. The words the statements are made of: what a change leaves alone, what every step ends with, and the
invariants that every step keeps. -/

namespace Sys2Proof.Machine

open Sys2Proof

/-! ### What a change leaves alone -/

/-- The state less everything that the moving of circuits may change: the circuits with their alignment stores and
positions, the bridge and group tables, the transmit queues, and what reports of them leave behind (settles, posted
writes with their claims, made or kept, pending notices with the lost count, and the attention causes). Two states with the same
`still` agree on all the rest: the phase, the counter, the configuration, the registers BLOCK_BASE and ATTN_MASK, the
queue and the watch list, the runners, the ports, the spans but for their transmit queues, the activities, the Frame
Timing Unit, the reads, the rest of the Notice Engine, and the waiting commands. -/
def State.still (s : State) : State :=
  { s with
    attn := 0
    circuits := State.reset.circuits
    align := State.reset.align
    lineOcc := State.reset.lineOcc
    spanOcc := State.reset.spanOcc
    bridges := State.reset.bridges
    groups := State.reset.groups
    spans := ⟨{ s.spans.a with txQueue := [] }, { s.spans.b with txQueue := [] }⟩
    settles := []
    nextSettle := 0
    smp := { s.smp with writes := [], claims := [], held := State.reset.smp.held }
    nte := { s.nte with pending := [], lost := 0 } }

/-- The state less everything that the end of a step may change when no bridge entry and no group entry has moved:
the phase (WARMING may end), the told marks of the runners, the waiting reads and the sent mark of the memory port, and
the dirty set, the read and the recheck deadline of the Notice Engine. -/
def State.settledPart (s : State) : State :=
  { s with
    phase := .ready
    runners := tab 4 fun n => { s.runner n with told := false }
    smp := { s.smp with waiting := [], sent := none }
    nte := { s.nte with dirty := [], reading := none, recheck := none } }

/-- The state less everything that the end of any step may change besides what `settledPart` leaves out: what the
moving of circuits may change, and what the start of a queue head takes, the queue and the transaction counters (R42,
R84). -/
def State.steady (s : State) : State :=
  { s.still with
    queue := []
    spans := ⟨{ s.still.spans.a with txnCounter := 0 }, { s.still.spans.b with txnCounter := 0 }⟩ }

/-! ### Invariants -/

/-- The head of a posted-write queue that holds a write has been sent (R160). -/
def State.headSent (s : State) : Prop := s.smp.writes ≠ [] → s.smp.sent.isSome

/-- WARMING stands only while the settle of some order is not complete (R174). -/
def State.warmingOpen (s : State) : Prop := s.phase = .warming → s.settles ≠ []

/-- A read of notice entries has at most 8 of them, of 32 octets each (R166). -/
def ReadRequest.fits (r : ReadRequest) : Prop := r.reader = .notices → r.length ≤ 256

/-- An OUTSTANDING tag holds 32 octets for each unit that its read has brought (R158). -/
def Tag.fits : Tag → Prop
  | .outstanding request units data _ => request.fits ∧ data.length = 32 * units
  | .free | .quarantined _ => True

/-- The waiting reads and the tags fit. -/
def Smp.readsFit (m : Smp) : Prop := (∀ r ∈ m.waiting, r.fits) ∧ ∀ k : Fin 4, m.tags[k.val].fits

/-- A matcher has at most 31 octets of each path and runs of at most 16 (R63, R64). -/
structure Matcher.InRange (m : Matcher) : Prop where
  toHistory : m.toHistory.length ≤ 31
  fromHistory : m.fromHistory.length ≤ 31
  runs : ∀ n ∈ m.runs, n ≤ 16

/-- The matcher of an entry, if it has one, is in its range. -/
def Bridge.matcherInRange (e : Bridge) : Prop := ∀ m, e.matcher = some m → m.InRange

/-- The count of a group is the number of its members that are not yet counted (R108, 06 section 6.3). -/
def Group.countsRest (x : Group) : Prop := x.count = (x.members.filter fun m => !m.counted).length

/-- The bounded quantities are in their ranges: 8 posted writes (R160), 16 pending notices and a lost count of at most
65,535 (R167), the run counts, the elastic store and the transmit queue of a span (R122, R126, R131, 05 section 5.3), the
presence counts and elastic stores of a port (R137, R140), a residual hold of at most 15 (R9), a report age of at most
8,000 (R144), a qualification count of at most 8,000 (R150), a NEXT streak of at most 8 (R29), 16 places in the admission
queue and 16 on the watch list (03 sections 3.3 and 3.4), a notice position within the ring (R166), credits of at most the
8 entries of one read, with the reads that give them (R158, R166), the runs and octets of the matchers (R63, R64), and the
counts of the groups (R108). -/
structure State.InRange (s : State) : Prop where
  writes : s.smp.writes.length ≤ 8
  notices : s.nte.pending.length ≤ 16
  lost : s.nte.lost ≤ 65535
  spans : ∀ sp, (s.span sp).good ≤ 4 ∧ (s.span sp).errored ≤ 4 ∧ (s.span sp).train ≤ 4 ∧ (s.span sp).holdDown ≤ 512 ∧
    (s.span sp).store.length ≤ 2 ∧ (s.span sp).txQueue.length ≤ 32
  ports : ∀ p, (s.port p).loss ≤ 3 ∧ (s.port p).recovery ≤ 16 ∧ (s.port p).rxStore.length ≤ 2 ∧
    (s.port p).txStore.length ≤ 2
  holds : ∀ c, (s.circuit c).hold ≤ 15
  ages : ∀ c, (s.monitor c).age ≤ 8000
  counts : ∀ i : Fin 18, s.ftu.counts[i.val] ≤ 8000
  streaks : ∀ n, (s.runner n).streak ≤ 8
  queue : s.queue.length ≤ 16
  watch : s.watch.length ≤ 16
  position : ∀ b, s.nte.bases = some b → s.nte.position < b.entries
  credits : s.nte.credits ≤ 8
  reads : s.smp.readsFit
  matchers : ∀ i e, s.bridge i = some e → e.matcherInRange
  groups : ∀ g x, s.group g = some x → x.countsRest

/-- Line position p is the to-path of a bridge of circuit c (R6). -/
def State.movesOnto (s : State) (c : CircuitNo) (p : LinePos) : Prop :=
  ∃ i e, s.bridge i = some e ∧ e.circuit = c ∧ e.direction = .toCopper ∧ e.linePos = p

/-- The positions that each path state gives a circuit (R2); those of a BRIDGED circuit follow its bridge entry. -/
def Circuit.positioned (k : Circuit) : Prop :=
  (k.pathState = .copper → k.linePos ≠ none ∧ k.bearer = none) ∧
  (k.pathState = .fibre ∨ k.pathState = .stranded → k.linePos = none ∧ k.bearer ≠ none) ∧
  (k.pathState = .unequipped → k.linePos = none ∧ k.vacated = none ∧ k.bearer = none) ∧
  (k.pathState = .bridged → k.bridgeIndex ≠ none)

/-- The members of a queued GROUP name different circuits and claim different places (R37, R104). -/
def QueueEntry.apart (q : QueueEntry) : Prop := ∀ members, q.body = .group members → membersApart members = true

/-- The circuits' recorded positions, the occupancy tables and the bridge table agree: the clauses of R6, with the
positions that R2 gives each path state and the links between a circuit and its bridge entry (R3, R44). -/
structure State.PositionsAgree (s : State) : Prop where
  line : ∀ c p, (s.circuit c).linePos = some p ↔ s.lineUse p = .occupied c ∧ ¬s.movesOnto c p
  vacated : ∀ c p, (s.circuit c).vacated = some p ↔ s.lineUse p = .vacated c
  bearer : ∀ c b, (s.circuit c).bearer = some b ↔ (s.slotEntry b).use = .assigned c
  toFibre : ∀ i e, s.bridge i = some e → e.direction = .toFibre → (s.slotEntry e.bearer).use = .bridged e.circuit ∧
    (s.circuit e.circuit).linePos = some e.linePos ∧ (s.circuit e.circuit).bearer = none ∧ e.ontoVacated = false
  toCopper : ∀ i e, s.bridge i = some e → e.direction = .toCopper → s.lineUse e.linePos = .occupied e.circuit ∧
    (s.circuit e.circuit).bearer = some e.bearer ∧ (s.circuit e.circuit).linePos = none ∧
    (e.ontoVacated = true → (s.circuit e.circuit).vacated = none)
  reserved : ∀ b c, (s.slotEntry b).use = .bridged c →
    ∃ i e, s.bridge i = some e ∧ e.circuit = c ∧ e.direction = .toFibre ∧ e.bearer = b
  entry : ∀ i e, s.bridge i = some e →
    (s.circuit e.circuit).bridgeIndex = some i ∧ (s.circuit e.circuit).pathState = .bridged
  index : ∀ c i, (s.circuit c).bridgeIndex = some i → ∃ e, s.bridge i = some e ∧ e.circuit = c
  positioned : ∀ c, (s.circuit c).positioned
  queue : ∀ q ∈ s.queue, q.apart

/-- A span that is not IN_SERVICE has an empty transmit queue (R85, R89). -/
def State.queuesInService (s : State) : Prop := ∀ sp, s.inService sp = false → (s.span sp).txQueue = []

end Sys2Proof.Machine
end

