-- ==== Sys2Proof/Certificates/Slice0/Obligations.lean ====
section
/-! DEFINITION. The statements about the model, for the provers. `State.finish s e` is the state that a step from `s`
ends in when its own effect has led to `e`; `StepEnd` says what that end does. Where a statement
is about a command, it says for which states the command answers a next state, and which. -/

open Sys2Proof Sys2Proof.Machine

/-! ### The machine and its step -/

/-- Step takes the command at the front of the queue and runs it on the state with the queue's rest. -/
def Obligations.StepRunsFront : Prop :=
  ∀ (c : Instr) (rest : List Instr) (s : State), s.pending = c :: rest → step s = exec c (s.setPending rest)

/-- With no command waiting the part idles (log 1: the model's choice), and no command stops the part: every row of
the table answers a next state in every state. -/
def Obligations.NoCommandStopsThePart : Prop :=
  (∀ s : State, s.pending = [] → step s = .next s) ∧
  ∀ (c : Instr) (s : State), ∃ t, exec c s = .next t

/-- While RESETn is held low the part does nothing, whatever comes but the release of RESETn (R171).
RESETN_HELD_LOW holds the part and changes nothing else; RESETN_RELEASE begins a cold start in any phase, with
whatever the part held before abandoned (R171).
What reset leaves, by the values the spec gives (R4, R5, R20, R24, R36, R60, R147, R149, R156, R164, R170,
R171). -/
def Obligations.ResetValues : Prop :=
  ((∀ (c : Instr) (s : State), s.resetLow = true → c ≠ .resetnRelease → exec c s = .next s) ∧
   ∀ s : State, exec .resetnHeldLow s = .next { s with resetLow := true } ∧
     exec .resetnRelease s = .next { State.reset with pending := s.pending }) ∧
  let s := State.reset
  s.phase = .loading ∧ s.counter = 0 ∧ s.blockBase = 0 ∧ s.attn = 0 ∧ s.attnMask = 0 ∧
  (∀ c : CircuitNo, s.circuit c =
    { pathState := .copper, linePos := some ⟨officePortOf c, officeSlotOf c⟩, vacated := none, bearer := none,
      receive := .line, lineFeed := true, spanFeed := false, hold := 0, generation := 0, bridgeIndex := none,
      groupIndex := none, lastMigration := none }) ∧
  (∀ c : CircuitNo, s.lineUse ⟨officePortOf c, officeSlotOf c⟩ = .occupied c) ∧
  (∀ b : BearerSlot, s.slotEntry b = ⟨.free, none⟩) ∧
  s.queue = [] ∧ s.watch = [] ∧ (∀ i, s.bridge i = none) ∧ (∀ g, s.group g = none) ∧
  (∀ sp, (s.span sp).line = .disabled ∧ (s.span sp).txQueue = [] ∧ (s.span sp).txnCounter = 0) ∧
  (∀ p, (s.port p).presence = .lost ∧ (s.port p).loss = 0 ∧ (s.port p).recovery = 0) ∧
  (∀ c, s.monitor c = ⟨.unknown, none, 0⟩) ∧
  s.ftu.mode = .freeRun ∧ s.ftu.candidates = [] ∧ s.ftu.revertive = false ∧
  (∀ n, (s.runner n).state = .stopped ∧ (s.runner n).cursor = 0 ∧ (s.runner n).openCount = 0 ∧
    (s.runner n).streak = 0 ∧ (s.runner n).recheck = none ∧ (s.runner n).fault = .none ∧ (s.runner n).held = none) ∧
  (∀ t, s.tag t = .free) ∧ s.smp.waiting = [] ∧ s.smp.writes = [] ∧ s.smp.sent = none ∧
  s.nte.bases = none ∧ s.nte.position = 0 ∧ s.nte.credits = 0 ∧ s.nte.pending = [] ∧ s.nte.lost = 0 ∧
  s.nte.reread = false ∧ s.nte.recheck = none ∧ s.nte.dirty = List.range 276

/-! ### The end of a step, and what every step keeps -/

/-- The end of a step. The groups take what the step has done to their members (R108 to R114), when it has moved a
bridge entry or a group entry and some group entry is in use. Then, when the step has freed a bridge entry or a group
entry or the head has left the admission queue, the head is examined as ADMISSION_START examines it (R42, R50, R51,
R114). Besides, the end changes only what `settledPart` leaves out: WARMING ends when no settle is left (R174), a row
whose content has changed is dirty (R168), and the head of the posted-write queue is sent, to be answered within 16
frames (R160); and whatever it does, it changes only what `steady` and `settledPart` leave out. The order of these
parts is log 4, and which steps examine the head is log 38. -/
def Obligations.StepEnd : Prop :=
  (∀ s e : State, let t := State.finish s e; let u := State.advanceGroups s e
     let examined := (∃ i, s.bridge i ≠ none ∧ u.bridge i = none) ∨ (∃ g, s.group g ≠ none ∧ u.group g = none) ∨
       ∃ q rest, s.queue = q :: rest ∧ u.queue.head? ≠ some q
     (examined → t.settledPart = (u.startHeads u.queue.length).settledPart) ∧
     (¬examined → t.settledPart = u.settledPart) ∧
     ((e.bridges = s.bridges ∧ e.groups = s.groups) ∨ (∀ g, e.group g = none) → u = e) ∧
     (e.bridges ≠ s.bridges ∨ e.groups ≠ s.groups → (∃ g, e.group g ≠ none) →
       u = each (List.finRange 4) (fun g v => (v.runGroup g).endGroup g) e) ∧
     t.steady.settledPart = e.steady.settledPart ∧
     (∀ r, r < 276 → rowBody s r ≠ rowBody t r → r ∈ t.nte.dirty)) ∧
  (∀ s e : State, let t := State.finish s e
     e.bridges = s.bridges → e.groups = s.groups → s.queue = [] ∨ e.queue.head? = s.queue.head? →
     t.settledPart = e.settledPart ∧
     t.phase = (if e.phase = .warming ∧ e.settles = [] then .ready else e.phase) ∧
     t.smp.sent = (if e.smp.sent = none ∧ e.smp.writes ≠ [] then some (e.counter + 16) else e.smp.sent)) ∧
  ∀ s : State, s.resetLow = false →
    exec .admissionStart s = .next (State.finish s (s.startHeads s.queue.length))

/-- The site status table misses no change: whatever command a step runs, each of the 276 rows whose content differs
after it is in the dirty set (R20, R168). -/
def Obligations.EveryChangedRowIsDirty : Prop :=
  ∀ s t : State, step s = .next t → ∀ r, r < 276 → rowBody s r ≠ rowBody t r → r ∈ t.nte.dirty

/-- Every step keeps that the head of a posted-write queue that holds a write has been sent (R160), that WARMING
stands only while an order's settle is not complete (R174), and that a span that is not IN_SERVICE has an empty
transmit queue (R85, R89). -/
def Obligations.StepKeepsWorkMoving : Prop :=
  (∀ s t : State, s.headSent → s.warmingOpen → step s = .next t → t.headSent ∧ t.warmingOpen) ∧
  ∀ s t : State, s.queuesInService → step s = .next t → t.queuesInService

/-- Every step keeps the quantities that `State.InRange` lists in their ranges: the places of the posted-write queue, the
pending notices, the admission queue, the watch list, the transmit queues and the elastic stores; the lost count, the run,
presence, report age, qualification and NEXT counts, and the holds; the notice position and the credits, with the reads
that give them; the runs and octets of the matchers; and the count of a group, which is the number of its members not yet
counted (R9, R29, R63, R64, R108, R122, R126, R131, R137, R140, R144, R150, R158, R160, R166, R167, 03 sections 3.3 and
3.4). -/
def Obligations.StepKeepsRanges : Prop := ∀ s t : State, s.InRange → step s = .next t → t.InRange

/-- Every step keeps the circuits' recorded positions, the occupancy tables and the bridge table in agreement: a
position is a circuit's line position exactly when it is OCCUPIED by it and is not the to-path of a bridge of it, its
vacated position exactly when it is VACATED by it, its bearer slot exactly when it is ASSIGNED to it, and a slot
BRIDGED for a circuit is the to-path of its bridge (R6); with it the positions that each path state gives a circuit
(R2), the links between a circuit and its bridge entry (R3), and that the members of a queued GROUP are apart
(R104). -/
def Obligations.StepKeepsPositions : Prop :=
  ∀ s t : State, s.PositionsAgree → step s = .next t → t.PositionsAgree

/-- Reset has what the invariants ask. -/
def Obligations.ResetMeetsInvariants : Prop :=
  State.reset.headSent ∧ State.reset.warmingOpen ∧ State.reset.InRange ∧ State.reset.queuesInService ∧
  State.reset.PositionsAgree

/-- Some things only their own commands change: the waiting commands none; the configuration RESETN_RELEASE and
CONFIG_STREAM_END (R173); the frame counter RESETN_RELEASE and FRAME_TICK (R149); BLOCK_BASE and ATTN_MASK their own
writes, a cold start and the step that applies the stream (R36, R169). -/
def Obligations.OnlyTheirOwnCommandsChange : Prop :=
  ∀ (c : Instr) (s t : State), exec c s = .next t →
    t.pending = s.pending ∧
    (c ≠ .resetnRelease → (∀ b, c ≠ .configStreamEnd b) → t.cfg = s.cfg) ∧
    (c ≠ .resetnRelease → (∀ a b, c ≠ .frameTick a b) → t.counter = s.counter) ∧
    (c ≠ .resetnRelease → (∀ b, c ≠ .configStreamEnd b) → (∀ v, c ≠ .blockBaseWrite v) → t.blockBase = s.blockBase) ∧
    (c ≠ .resetnRelease → (∀ b, c ≠ .configStreamEnd b) → (∀ v, c ≠ .attnMaskWrite v) → t.attnMask = s.attnMask)

/-! ### Cold start and warm restart -/

/-- The two tests of the configuration stream, and the two streams the spec works out (R172).
What each field of an accepted stream gives, bit 1 of the stream first (12 section 12.1, R173). -/
def Obligations.ConfigurationStream : Prop :=
  ((∀ b : BitVec 48, streamAccepted b = true ↔
     (∀ n, 36 ≤ n → n ≤ 40 → streamBit b n = false) ∧
     ((List.range 8).map fun k => if streamBit b (41 + k) then 2 ^ (7 - k) else 0).sum =
       ((List.range 40).filter fun k => streamBit b (k + 1)).length) ∧
   streamAccepted 0 = true ∧ streamAccepted (BitVec.allOnes 48) = false) ∧
  ∀ b : BitVec 48, let c := SiteConfig.ofStream b
    (∀ k : Fin 8, c.rank.getLsbD (7 - k.val) = streamBit b (1 + k.val)) ∧
    (∀ k : Fin 5, c.signallingSlot.val.testBit (4 - k.val) = streamBit b (9 + k.val)) ∧
    c.signallingPresent = streamBit b 14 ∧
    (c.officeSync = .long ↔ streamBit b 15 = true) ∧ (c.lineSync = .long ↔ streamBit b 16 = true) ∧
    (∀ k : Fin 8, c.clockRoles[k.val] = .drive ↔ streamBit b (17 + k.val) = true) ∧
    (c.byteOrder = .big ↔ streamBit b 25 = true) ∧
    (∀ k : Fin 8, c.idleCode.getLsbD (7 - k.val) = streamBit b (26 + k.val)) ∧
    (∀ k : Fin 8, c.officeIdle.getLsbD k.val = if k.val % 2 = 0 then !c.idleCode.getLsbD k.val
      else c.idleCode.getLsbD k.val) ∧
    c.spanAPresent = streamBit b 34 ∧ c.spanBPresent = streamBit b 35

/-- CONFIG_STREAM_END in LOADING: a stream that fails takes the part into CONFIG_FAULT and changes nothing else; an
accepted one gives every block its cold-start values under the site's codes and the phase READY, the frame counter
going on, and each present span enters SEEK and posts its notice. In another phase nothing happens (R20, R24, R60,
R133, R147, R156, R172, R173). That BLOCK_BASE, ATTN and ATTN_MASK written in LOADING are among the values reset is
log 7, that span A's notice comes before span B's is log 4, the octets in flight and the frames read last are log 6, and
that a stream that ends outside LOADING changes nothing is log 3. -/
def Obligations.ConfigStreamEnds : Prop :=
  ∀ (b : BitVec 48) (s : State), s.resetLow = false →
    (s.phase ≠ .loading → exec (.configStreamEnd b) s = .next (State.finish s s)) ∧
    (s.phase = .loading → streamAccepted b = false →
      exec (.configStreamEnd b) s = .next (State.finish s (s.setPhase .configFault))) ∧
    (s.phase = .loading → streamAccepted b = true → ∃ t, exec (.configStreamEnd b) s = .next t ∧
      t.phase = .ready ∧ t.cfg = SiteConfig.ofStream b ∧ t.counter = s.counter ∧ t.pending = s.pending ∧
      t.circuits = State.reset.circuits ∧ t.align = State.reset.align ∧ t.lineOcc = State.reset.lineOcc ∧
      t.spanOcc = State.reset.spanOcc ∧ t.bridges = State.reset.bridges ∧ t.groups = State.reset.groups ∧
      t.queue = [] ∧ t.watch = [] ∧ t.monitors = State.reset.monitors ∧ t.ftu = State.reset.ftu ∧
      t.runners = State.reset.runners ∧ t.settles = [] ∧ t.smp = State.reset.smp ∧
      t.attn = 0 ∧ t.attnMask = 0 ∧ t.blockBase = 0 ∧
      (∀ c : Fin 256, t.officeIn[c.val] = t.cfg.officeIdle ∧ t.officeOut[c.val] = t.cfg.officeIdle ∧
        t.lineOut[c.val] = t.cfg.idleCode) ∧
      (∀ p, t.port p = { State.reset.port p with lastRead := tab 32 fun _ => t.idleOf p }) ∧
      (∀ sp, t.span sp = { State.reset.span sp with
        line := if t.spanPresent sp then .seek else .disabled
        cause := if t.spanPresent sp then some .order else none
        lastRead := tab 256 fun _ => t.cfg.idleCode }) ∧
      t.nte = { State.reset.nte with
        pending := ([Span.a, Span.b].filter t.spanPresent).map fun sp =>
          ⟨s.counter, .spanState sp .disabled .seek .order none⟩ })

/-- A request for a warm restart, by WARMn or by NUDGE WARM, changes nothing in LOADING, CONFIG_FAULT and WARMING
(R174).
An accepted request, by WARMn or by NUDGE WARM: every runner is STOPPED with its cursor, fault cause and open count
kept, the admission queue and the watch list are empty, every read in flight is quarantined and every waiting one is
gone, the Notice Engine holds no bases and no credits, and CMAP's inputs, the ports, the activities, the Frame Timing
Unit, the line states and the counters go on as they were (R24, R164, R170, R174, R175). That WARMING with no order open
ends in the step of the request, so that a second request that comes with it is acted on, is the model's choice (log
49). -/
def Obligations.WarmRestartRequests : Prop :=
  (∀ s : State, s.resetLow = false → s.phase ≠ .ready →
     exec .warmnPulse s = .next (State.finish s s) ∧ exec .nudgeWarm s = .next (State.finish s s)) ∧
  ∀ s : State, s.resetLow = false → s.phase = .ready → ∃ t,
    exec .warmnPulse s = .next t ∧ exec .nudgeWarm s = .next t ∧
    (t.phase = .warming ∨ t.phase = .ready ∧ t.settles = []) ∧
    (∀ n, (t.runner n).state = .stopped ∧ (t.runner n).cursor = (s.runner n).cursor ∧
      (t.runner n).fault = (s.runner n).fault ∧ (t.runner n).openCount = (s.runner n).openCount ∧
      (t.runner n).streak = 0 ∧ (t.runner n).recheck = none ∧ (t.runner n).held = none) ∧
    t.queue = [] ∧ t.watch = [] ∧ t.smp.waiting = [] ∧
    (∀ k, t.tag k = match s.tag k with
      | .free => .free
      | .outstanding .. => .quarantined (s.counter + 64)
      | .quarantined d => .quarantined d) ∧
    t.nte.bases = none ∧ t.nte.credits = 0 ∧ t.nte.reread = false ∧ t.nte.recheck = none ∧
    (∀ r, r < 276 → r ∈ t.nte.dirty) ∧
    t.counter = s.counter ∧ t.cfg = s.cfg ∧ t.blockBase = s.blockBase ∧ t.attnMask = s.attnMask ∧
    t.ports = s.ports ∧ t.monitors = s.monitors ∧ t.ftu = s.ftu ∧ t.officeIn = s.officeIn ∧
    (∀ sp, (t.span sp).line = (s.span sp).line ∧ (t.span sp).txnCounter = (s.span sp).txnCounter)

/-- The resolution of the bridge table, the group table and the waiting orders at a warm restart (R175 to R178). Each
queued order, each watch entry and each test settles RESTARTED. An entry of no group in AWAITING_OFFER is freed
RESTARTED and one in RELEASING with its outcome; an initiator in OFFERING, MATCHING or ROLLED and a responder in
MATCHING stand in UNWINDING with RESTARTED and RESTART and settle RESTARTED; a responder in ROLLED keeps what it has
and settles HELD, and an entry in UNWINDING keeps what it has and settles with its outcome. Each entry kept has lost
its order reference. A group's members are resolved by phase, the group settles with the outcomes its members have,
and the members still in use have left it. Afterwards each entry in UNWINDING hands its ABANDON. The order among the
orders, the entries and the groups is log 4, and that the ABANDONs are handed after them, lowest index first, is log
29. -/
def Obligations.WarmRestartEntry : Prop :=
  (∀ s : State, s.resetLow = false → s.phase = .ready →
     let t := State.finish s ((s.setPhase .warming).restartMemory.restartOrders.restartBridges.restartNotices)
     exec .warmnPulse s = .next t ∧ exec .nudgeWarm s = .next t) ∧
  (∀ s : State, s.restartBridges =
     each (List.finRange 48) (fun i u => u.restartMessage i)
       (each (List.finRange 4) (fun g u => u.restartGroup g)
         (each (List.finRange 48) (fun i u => u.restartEntry i) ((s.emptyTransmit .a).emptyTransmit .b)))) ∧
  (∀ s : State, let t := s.restartOrders
     t.queue = [] ∧ t.watch = [] ∧ ∃ l, t.settles = s.settles ++ l ∧ l.map (fun x => (x.ref, x.code)) =
       (s.queue.map QueueEntry.ref ++ s.watch.map WatchEntry.ref ++
         [Span.a, Span.b].filterMap fun sp => (s.span sp).prove.bind ProveRun.ref).map fun r => (r, .restarted)) ∧
  (∀ (s : State) (i : BridgeNo) (e : Bridge), s.bridge i = some e → e.group = none →
     let t := s.restartEntry i
     let settles := fun code => (∀ ref, e.ref = some ref → t.settles = s.settles ++ [⟨s.nextSettle, ref, code, 1⟩]) ∧
       (e.ref = none → t.settles = s.settles)
     (e.phase = .awaitingOffer → t = s.freeAs i .restarted ∧ t.bridge i = none ∧ settles .restarted) ∧
     (∀ o, e.phase = .releasing → e.outcome = some o →
       t = (s.stopFromFeed e).freeAs i o ∧ t.bridge i = none ∧ settles o) ∧
     (∀ o, e.phase = .unwinding → e.outcome = some o → t.bridge i = some { e with ref := none } ∧ settles o) ∧
     (e.phase = .rolled → e.role = .responder → t.bridge i = some { e with ref := none } ∧ settles .held) ∧
     (e.phase = .offering ∨ e.phase = .matching ∨ (e.phase = .rolled ∧ e.role = .initiator) → settles .restarted ∧
       ∃ x, t.bridge i = some x ∧ x.phase = .unwinding ∧ x.outcome = some .restarted ∧
         x.unwindReason = some .restart ∧ x.ref = none ∧ x.group = none ∧ x.circuit = e.circuit ∧ x.txn = e.txn ∧
         x.deadline = none ∧ x.retryDue = none ∧ x.rolled = false)) ∧
  (∀ (s : State) (i : BridgeNo) (e : Bridge), s.bridge i = some e →
     (e.group ≠ none → s.restartEntry i = s) ∧
     (e.phase = .releasing → s.restartMember i = (s.stopFromFeed e).freeEntry i) ∧
     (e.phase = .unwinding → s.restartMember i = s) ∧
     (e.phase ≠ .releasing → e.phase ≠ .unwinding →
       s.restartMember i = s.enterUnwinding i .restarted (some .restart) false false) ∧
     (e.phase = .unwinding → s.restartMessage i = s.sendAbandon i) ∧ (e.phase ≠ .unwinding → s.restartMessage i = s)) ∧
  ∀ (s : State) (g : Fin 4) (x y : Group), s.group g = some x →
    let u := s.eachMember x fun i v => v.restartMember i
    u.group g = some y → let t := s.restartGroup g
    t.group g = none ∧
    t.settles = u.settles ++ [⟨u.nextSettle, y.ref,
      ((y.members.find? u.memberFailed).bind u.memberOutcome).getD .done, 1 + (y.members.length + 3) / 4⟩] ∧
    ∀ m ∈ y.members, ∀ i e, m.bridge = some i → t.bridge i = some e → e.ref = none ∧ e.group = none

/-! ### The registers -/

/-- NUDGE START n is accepted in READY for a runner that is STOPPED or FAULTED: the fault cause and the streak are
cleared and the Control Block is read, at once or, while a read that STOP has discarded is still outstanding, when
that read is over. In any other state it changes nothing and sets REFUSED (R26).
NUDGE STOP n: the runner is STOPPED from any state with its fault cause, cursor and open count kept; a read in flight
is to be discarded, one not yet issued is withdrawn, a held record and every wait are given up (R27). A PARKED runner
fetches the first unit at its cursor again on WAKE and when its recheck deadline passes; WAKE to a runner in any other
state is ignored (R28). That a read not yet issued is withdrawn is log 20, that a claim to take a record is withdrawn is
log 8, and that a recheck that has not passed changes nothing is log 3. -/
def Obligations.RunnerNudges : Prop :=
  (∀ (n : Fin 4) (s : State), s.resetLow = false → let r := s.runner n
     let accepted := s.phase = .ready ∧ (r.state = .stopped ∨ r.state = .faulted)
     (accepted → r.reading ≠ some .discarded → exec (.nudgeStart n) s = .next (State.finish s
       ((s.setRunner n { r with fault := .none, streak := 0, state := .fetching, reading := some .controlBlock }).setSmp
         { s.smp with waiting := s.smp.waiting ++ [⟨.runner n, s.blockBase, 128⟩] }))) ∧
     (accepted → r.reading = some .discarded → exec (.nudgeStart n) s = .next (State.finish s
       (s.setRunner n { r with fault := .none, streak := 0, state := .fetching, startPending := true }))) ∧
     (¬accepted → exec (.nudgeStart n) s = .next (State.finish s (s.setAttn (s.attn ||| 0b010000#6))))) ∧
  (∀ (n : Fin 4) (s : State), s.resetLow = false → let r := s.runner n
     exec (.nudgeStop n) s = .next (State.finish s
       (((s.setSmp { s.smp with waiting := s.smp.waiting.filter fun q => q.reader != .runner n }).withdrawTake n).setRunner n
         { r with
           state := .stopped, recheck := none, held := none, told := false, startPending := false,
           reading := if s.smp.waiting.any (fun q => q.reader == .runner n) then none
             else r.reading.map fun _ => .discarded }))) ∧
  ∀ (n : Fin 4) (s : State), s.resetLow = false → let r := s.runner n
    (r.state = .parked → exec (.nudgeWake n) s = .next (State.finish s (s.fetch n))) ∧
    (r.state ≠ .parked → exec (.nudgeWake n) s = .next (State.finish s s)) ∧
    (∀ d, r.state = .parked → r.recheck = some d → s.passed d = true →
      exec (.recheckExpiry n) s = .next (State.finish s (s.fetch n))) ∧
    (∀ d, r.recheck = some d → s.passed d = false → exec (.recheckExpiry n) s = .next (State.finish s s)) ∧
    (r.state ≠ .parked ∨ r.recheck = none → exec (.recheckExpiry n) s = .next (State.finish s s))

/-- NUDGE NOTICES: with bases and no credits, a read of the notice area, or the re-read mark while one is waiting or
outstanding; otherwise it is ignored (R166).
A read of the notice area asks for the entries from the notice position to the end of the ring, 8 at most and an even
number of them, one in front of the position being read and disregarded when a single one is left. What it gives: a
credit for each entry from the front whose hand-over word reads FREE, up to the first that does not; with none, the
re-read asked for, or a recheck 64 frames ahead while something waits to be posted. A read that fails leaves the
credits as they are (R166). -/
def Obligations.NoticeReads : Prop :=
  (∀ s : State, s.resetLow = false →
     (∀ b, s.nte.bases = some b → s.nte.credits = 0 → s.nte.reading = none →
       exec .nudgeNotices s = .next (State.finish s s.readNotices)) ∧
     (∀ b f, s.nte.bases = some b → s.nte.credits = 0 → s.nte.reading = some f →
       exec .nudgeNotices s = .next (State.finish s (s.setNte { s.nte with reread := true }))) ∧
     (s.nte.bases = none ∨ s.nte.credits ≠ 0 → exec .nudgeNotices s = .next (State.finish s s))) ∧
  (∀ (b : Bases) (position : Nat), let k := min 8 (b.entries - position); let x := State.noticeReadSpan b position
     (k % 2 = 0 → x = (position, k, false)) ∧ (k % 2 = 1 → k ≠ 1 → x = (position, k - 1, false)) ∧
     (k = 1 → x = (position - 1, 2, true))) ∧
  (∀ (s : State) (b : Bases), s.nte.bases = some b → let x := State.noticeReadSpan b s.nte.position
     s.readNotices = (s.setNte { s.nte with reading := some x.2.2, recheck := none }).setSmp { s.smp with
       waiting := s.smp.waiting ++ [⟨.notices, b.noticeBase + BitVec.ofNat 64 (32 * x.1), 32 * x.2.1⟩] }) ∧
  (∀ (s : State) (data : List Byte), let t := s.noticeReadDone data
     let entries := if s.nte.reading = some true then data.drop 32 else data
     let word := fun k => fieldAt s.cfg.byteOrder (entries.drop (32 * k)) 0 4
     let waits := s.nte.pending ≠ [] ∨ s.nte.lost ≠ 0
     t.nte.credits ≤ entries.length / 32 ∧ (∀ k, k < t.nte.credits → word k = 0) ∧
     (t.nte.credits < entries.length / 32 → word t.nte.credits ≠ 0) ∧
     (t.nte.credits ≠ 0 →
       t = s.setNte { s.nte with credits := t.nte.credits, reading := none, reread := false, recheck := none }) ∧
     (t.nte.credits = 0 → s.nte.reread = true →
       t = (s.setNte { s.nte with credits := 0, reading := none, reread := false }).readNotices) ∧
     (t.nte.credits = 0 → s.nte.reread = false → waits →
       t = s.setNte { s.nte with credits := 0, reading := none, recheck := some (s.counter + 64) }) ∧
     (t.nte.credits = 0 → s.nte.reread = false → ¬waits →
       t = s.setNte { s.nte with credits := 0, reading := none, recheck := none })) ∧
  ∀ s : State, s.noticeReadFailed.nte.credits = s.nte.credits ∧ s.noticeReadFailed.nte.reading = none ∧
    (s.nte.pending ≠ [] ∨ s.nte.lost ≠ 0 → s.noticeReadFailed.nte.recheck = some (s.counter + 64))

/-- A NUDGE of no known code is discarded and sets REFUSED; a write to IDENT, to RUNSTATE or to an offset that holds
no register is discarded without effect (R25, R35, R163).
A write to BLOCK_BASE is taken when every runner is STOPPED or FAULTED and the value is a multiple of 128, and is
otherwise discarded with REFUSED (R36).
Which command a register write is: by its offset, and a write to NUDGE by its code in bits 3 to 0, 1 START, 2 STOP, 3
WAKE, 4 NOTICES and 5 WARM, with the runner in bits 9 and 8 (R25, R163, R179, 13.5).
What the registers read: IDENT the family code, the revision, the phase and the rank, BLOCK_BASE its value, RUNSTATE
each runner's state and the phase, NUDGE and every offset without a register 0 (R25, R35, R36, R163, 13.5). -/
def Obligations.RegisterAccesses : Prop :=
  ((∀ (code : BitVec 4) (offset value : BitVec 64) (s : State), s.resetLow = false →
      ((Instr.nudgeUnknownCode code).wellFormed = true →
        exec (.nudgeUnknownCode code) s = .next (State.finish s (s.setAttn (s.attn ||| 0b010000#6)))) ∧
      exec (.registerWriteDiscard offset value) s = .next (State.finish s s)) ∧
   ∀ (v : BitVec 64) (s : State), s.resetLow = false →
     let taken := (∀ n, (s.runner n).state = .stopped ∨ (s.runner n).state = .faulted) ∧ v.toNat % 128 = 0
     (taken → exec (.blockBaseWrite v) s = .next (State.finish s (s.setBlockBase v))) ∧
     (¬taken → exec (.blockBaseWrite v) s = .next (State.finish s (s.setAttn (s.attn ||| 0b010000#6))))) ∧
  (∀ (offset v : BitVec 64), let code := (v.extractLsb' 0 4).toNat; let n : Fin 4 := (v.extractLsb' 8 2).toFin
     let nudge := registerCommand 0x10#64 v
     registerCommand 0x08#64 v = .blockBaseWrite v ∧ registerCommand 0x20#64 v = .attnWrite v ∧
     registerCommand 0x28#64 v = .attnMaskWrite v ∧
     (discardedOffset offset = true → registerCommand offset v = .registerWriteDiscard offset v) ∧
     (registerCommand offset v).wellFormed = true ∧
     (code = 1 → nudge = .nudgeStart n) ∧ (code = 2 → nudge = .nudgeStop n) ∧ (code = 3 → nudge = .nudgeWake n) ∧
     (code = 4 → nudge = .nudgeNotices) ∧ (code = 5 → nudge = .nudgeWarm) ∧
     (code = 0 ∨ 5 < code → nudge = .nudgeUnknownCode (v.extractLsb' 0 4))) ∧
  ∀ s : State,
    (s.readRegister 0x00#64).extractLsb' 0 16 = 0x3172#16 ∧ (s.readRegister 0x00#64).extractLsb' 16 8 = 1#8 ∧
    (s.readRegister 0x00#64).extractLsb' 24 8 = Phase.code s.phase ∧
    (s.readRegister 0x00#64).extractLsb' 32 8 = s.cfg.rank ∧
    s.readRegister 0x08#64 = s.blockBase ∧
    (∀ n : Fin 4, ((s.readRegister 0x18#64).extractLsb' (4 * n.val) 4).toNat = (s.runner n).state.code.toNat) ∧
    (s.readRegister 0x18#64).extractLsb' 16 8 = Phase.code s.phase ∧
    ∀ o : BitVec 64, o ≠ 0x00#64 → o ≠ 0x08#64 → o ≠ 0x18#64 → o ≠ 0x20#64 → o ≠ 0x28#64 → s.readRegister o = 0

/-- ATTN and ATTN_MASK in every phase: a write to ATTN clears each cause whose bit is written 1 and leaves the others,
a write to ATTN_MASK replaces all six enables, each register reads its present value, and ATTNn is asserted while a
cause is both set and enabled (R169). -/
def Obligations.Attention : Prop :=
  (∀ (v : BitVec 64) (s : State), s.resetLow = false →
    exec (.attnWrite v) s = .next (State.finish s (s.setAttn (s.attn &&& ~~~(v.truncate 6)))) ∧
    exec (.attnMaskWrite v) s = .next (State.finish s (s.setAttnMask (v.truncate 6)))) ∧
  ∀ s : State, s.readRegister 0x20#64 = s.attn.zeroExtend 64 ∧ s.readRegister 0x28#64 = s.attnMask.zeroExtend 64 ∧
    (s.attnAsserted = true ↔ ∃ k, k < 6 ∧ s.attn.getLsbD k = true ∧ s.attnMask.getLsbD k = true)

/-! ### Time and the frame -/

/-- A timer of n frames passes in the frame in which the counter reaches its deadline and not before, and stays passed
for a further 2^31 frames (R149).
In LOADING and CONFIG_FAULT a frame advances the counter and does nothing else (R148, R149).
A frame in READY and WARMING: the counter advances; the elastic stores are read; each line position carries the octet
taken in the frame before from the office slot of the circuit that occupies it with its line feed on, and else the
idle code; a circuit that receives from nothing delivers the office idle code, and one that receives LINE or SPAN what
its alignment store delivers; the octet of each office slot is taken, a LOST office port giving the office idle code;
the report age of each VOICE circuit rises to 8,000 while the signalling slot is present; the count of each healthy
source rises to 8,000 (R7, R8, R138, R144, R145, R149, R150). -/
def Obligations.FrameTicks : Prop :=
  (∀ (s : State) (n k : Nat), 1 ≤ n → n ≤ 1048575 → k < 2147483648 + n →
     ((s.setCounter (s.counter + BitVec.ofNat 32 k)).passed (s.after n) = true ↔ n ≤ k)) ∧
  (∀ (a b : LoopReturn) (s : State), s.resetLow = false → s.phase = .loading ∨ s.phase = .configFault →
     exec (.frameTick a b) s = .next (State.finish s (s.setCounter (s.counter + 1)))) ∧
  ∀ (a b : LoopReturn) (s : State), s.resetLow = false → s.phase = .ready ∨ s.phase = .warming →
    let u := s.advanceCounter.readStores
    ∃ t, exec (.frameTick a b) s = .next t ∧ t.counter = s.counter + 1 ∧
    (∀ p : Fin 256, t.lineOut[p.val] = match s.lineOcc[p.val] with
      | .occupied c => if (s.circuit c).lineFeed then s.officeIn[c.val] else s.cfg.idleCode
      | .free | .vacated _ => s.cfg.idleCode) ∧
    (∀ c : CircuitNo, (s.circuit c).receive = .none → t.officeOut[c.val] = s.cfg.officeIdle) ∧
    (∀ (c : CircuitNo) (x : Byte), (s.circuit c).receive ≠ .none → (u.deliver c).lastDelivered = some x →
      t.officeOut[c.val] = x) ∧
    (∀ c : CircuitNo, t.officeIn[c.val] = u.officeOctet c) ∧
    (∀ c : CircuitNo, (s.port (officePort (officePortOf c))).presence = .lost → t.officeIn[c.val] = s.cfg.officeIdle) ∧
    (∀ c : CircuitNo, t.monitor c =
      if s.cfg.signallingPresent && !s.signalling c && (s.monitor c).age < 8000 then
        { s.monitor c with age := (s.monitor c).age + 1 } else s.monitor c) ∧
    (∀ i : Fin 18, t.ftu.counts[i.val] =
      if s.healthy (Source.ofIndex i) && s.ftu.counts[i.val] < 8000 then s.ftu.counts[i.val] + 1
      else s.ftu.counts[i.val])

/-- An octet delivered to the office is the one the selected path brought `hold` frames before, the present frame's
for a hold of 0, or, while the seam owes repeats, the octet delivered last (R8, R9, R11).
The read of a store at the frame boundary takes its oldest frame; with none in it the frame read last comes again, a
slip on a span and on a FOLLOW port; a LOST port's and an out-of-service span's is not read, and a LOST port offers
the idle code of its side (R131, R138, R140). -/
def Obligations.OfficeOctetDelivered : Prop :=
  (∀ (s : State) (c : CircuitNo), let k := s.circuit c; let a := s.alignOf c; let d := s.deliver c
     (k.receive ≠ .none → a.repeatsDue ≠ 0 → ∀ x, a.lastDelivered = some x → d.lastDelivered = some x) ∧
     (k.receive = .line → a.repeatsDue = 0 → ∀ p, s.linePath c = some p →
       (k.hold = 0 → d.lastDelivered = some (s.lineOctet p)) ∧
       (∀ n x, k.hold = n + 1 → n < 15 → a.lineHistory[n]? = some x → d.lastDelivered = some x)) ∧
     (k.receive = .span → a.repeatsDue = 0 → ∀ b, s.spanPath c = some b →
       (k.hold = 0 → d.lastDelivered = some (s.bearerOctet b)) ∧
       (∀ n x, k.hold = n + 1 → n < 15 → a.spanHistory[n]? = some x → d.lastDelivered = some x)) ∧
     d.repeatsDue = a.repeatsDue - 1) ∧
  (∀ (s : State) (p : PortNo), let k := s.port p; let t := s.readPort p
     (k.presence = .lost → t = s ∧ s.portOffer p = tab 32 fun _ => s.idleOf p) ∧
     (k.presence = .present → s.portOffer p = k.lastRead) ∧
     (∀ f rest, k.presence = .present → k.rxStore = f :: rest →
       t = s.setPort p { k with rxStore := rest, lastRead := f }) ∧
     (k.presence = .present → k.rxStore = [] → (t.port p).rxStore = [] ∧ (t.port p).lastRead = k.lastRead ∧
       (t.port p).slips = if s.clockRole p = .follow then k.slips + 1 else k.slips)) ∧
  ∀ (s : State) (sp : Span), let k := s.span sp; let t := s.readSpan sp
    (s.inService sp = false → t = s) ∧
    (∀ f rest, s.inService sp = true → k.store = f :: rest → t = s.setSpan sp { k with store := rest, lastRead := f }) ∧
    (s.inService sp = true → k.store = [] → (t.span sp).store = [] ∧ (t.span sp).lastRead = k.lastRead ∧
      (t.span sp).slips = k.slips + 1)

/-- What the ports and the spans send in a frame of READY and WARMING (R7, R116, R134, R136, R138, R140). A DRIVE
port sends the frame the Channel Map made for it, and a FOLLOW port's transmit store takes it, a transmit slip when
it already holds two; a span sends what its line state asks (`SpanSends`), while no entry waits to place a message
and no group is in use. A DRIVE port drives its bit clock and a frame sync of the line style in READY and WARMING,
PRESENT or LOST: SHORT, one bit period just before the frame's first, LONG, the eight bit periods of slot 0 (R135);
in LOADING and CONFIG_FAULT, and while RESETn is low, it drives neither, and a FOLLOW port never does (R136, R138,
R147, R171). -/
def Obligations.FrameSends : Prop :=
  (∀ (s : State) (p : PortNo),
     let drives := (s.phase = .ready ∨ s.phase = .warming) ∧ s.resetLow = false ∧ s.clockRole p = .drive
     (drives → s.drivenSync p = some (if s.cfg.lineSync = .long then ⟨0, 8⟩ else ⟨255, 1⟩)) ∧
     (¬drives → s.drivenSync p = none)) ∧
  ∀ (a b : LoopReturn) (s : State), s.resetLow = false → s.phase = .ready ∨ s.phase = .warming →
    let u := s.advanceCounter.readStores
    ∃ t, exec (.frameTick a b) s = .next t ∧
    (∀ (k : Fin 8) (n : Fin 32), (t.portOutput (officePort k))[n.val] = t.officeOut[(circuitAt k n).val]) ∧
    (∀ (k : Fin 8) (n : Fin 32), (t.portOutput (linePort k))[n.val] = t.lineOut[(LinePos.index ⟨k, n⟩).val]) ∧
    (∀ p, s.clockRole p = .drive → (t.port p).sending = some (t.portOutput p)) ∧
    (∀ p, s.clockRole p = .follow → let k := s.port p
      ((t.port p).txStore = if k.txStore.length < 2 then k.txStore ++ [t.portOutput p]
        else k.txStore.tail ++ [t.portOutput p]) ∧
      (t.port p).txSlips = if k.txStore.length < 2 then k.txSlips else k.txSlips + 1) ∧
    ((∀ i e, s.bridge i = some e → e.pending = false) → (∀ g, s.group g = none) →
      t.span .a = (u.sendSpan .a a).span .a ∧ t.span .b = (u.sendSpan .b b).span .b)

/-- The matchers at a frame (R63, R64). Each admissible pair that this frame completes raises the run of its offset,
up to 16, when its octets are equal and clears it when they are not; a pair with an octet from before the window
leaves it. A match is the one admissible offset with a run of 16 whose to-path octets hold two values, and when none
has been found before it is noted with the present frame. FRAME_TICK does so for each entry in MATCHING, on the octets
its line position and its bearer slot bring in that frame, while no entry waits to place a message and no group is in
use. That a match already noted is not looked for again is log 25. -/
def Obligations.MatcherCompares : Prop :=
  (∀ (m : Matcher) (x y : Byte), m.runs.length = 31 → let n := compareFrame m x y
     n.lowest = m.lowest ∧ n.runs.length = 31 ∧ n.toHistory = (x :: m.toHistory).take 31 ∧
     n.fromHistory = (y :: m.fromHistory).take 31 ∧
     ∀ (k old : Nat), k < 31 → m.runs[k]? = some old → let d := (k : Int) - 15
       (∀ u v, n.toHistory[(-d).toNat]? = some u → n.fromHistory[d.toNat]? = some v →
         n.runs[k]? = some (if u = v then min (old + 1) 16 else 0)) ∧
       (n.toHistory[(-d).toNat]? = none ∨ n.fromHistory[d.toNat]? = none → n.runs[k]? = some old)) ∧
  (∀ (m : Matcher) (d : Int), m.runs.length = 31 →
     let hit := fun c : Int => -15 ≤ c ∧ c ≤ 15 ∧ m.lowest ≤ c ∧ m.runs[(c + 15).toNat]? = some 16 ∧
       ∃ u ∈ (m.toHistory.drop (-c).toNat).take 16, ∃ v ∈ (m.toHistory.drop (-c).toNat).take 16, u ≠ v
     matchFound m = some d ↔ hit d ∧ ∀ c, hit c → c = d) ∧
  (∀ (s : State) (i : BridgeNo) (e : Bridge) (m : Matcher), s.bridge i = some e → e.matcher = some m →
     let line := s.lineOctet e.linePos; let span := s.bearerOctet e.bearer
     let n := match e.direction with
       | .toFibre => compareFrame m span line
       | .toCopper => compareFrame m line span
     (e.phase ≠ .matching → s.matchEntry i = s) ∧
     (∀ d, e.phase = .matching → e.matchDue = none → matchFound n = some d → s.matchEntry i =
       s.setBridge i (some { e with matcher := some n, offset := some d, matchDue := some s.counter })) ∧
     (e.phase = .matching → e.matchDue ≠ none ∨ matchFound n = none → s.matchEntry i =
       s.setBridge i (some { e with matcher := some n }))) ∧
  ∀ (a b : LoopReturn) (s : State), s.resetLow = false → s.phase = .ready ∨ s.phase = .warming →
    (∀ i e, s.bridge i = some e → e.pending = false) → (∀ g, s.group g = none) →
    let u := s.advanceCounter.readStores
    ∃ t, exec (.frameTick a b) s = .next t ∧ ∀ i, t.bridge i = (u.matchEntry i).bridge i

/-! ### The seam, and the orders that change a circuit's positions -/

/-- A MAP or RECOVER with an expected generation other than the circuit's settles STALE before every other check (R12,
R14). MAP SET_LINE (R15): BAD_STATE unless COPPER; DONE with no change onto the present position; SLOT_TAKEN unless
the target is FREE or VACATED by the circuit; and else the circuit stands on the target with hold 0, the old position
is FREE, the generation has advanced by one, and the held octets are the dropped count.
MAP UNEQUIP and EQUIP (R16): the state each asks for, else BAD_STATE; the target EQUIP asks for, else
SLOT_TAKEN; and the circuit each leaves. Each leaves every other circuit, every other position and the rest of the
part as they were. The dropped count of UNEQUIP, and the 0 of an order that a check refuses, are log 21; that both
histories and the repeats still owed are discarded is log 30. FORGET is stated by `ForgetGivesUpPosition`.
The order settles with its code, and with the generation, path state, line position, vacated position and hold that the
circuit then has and the dropped count as its values (R14; their places are stated by `WrittenOctets`). That an order which
a check refuses carries values is log 21. -/
def Obligations.MapOrders : Prop :=
  (∀ (s : State) (ref : OrderRef) (x : MapAction) (c : CircuitNo) (p : LinePos) (target : Option LinePos) (g : Option Half),
     (s.dispatch ref (.map x c target g) = State.settleMap ref c (s.mapOrder x c target g)) ∧
     (s.dispatch ref (.recover c target g) = State.settleMap ref c (s.recoverOrder c target g)) ∧
     (∀ (t : State) (code : ResultCode) (dropped : Nat), let u := State.settleMap ref c (t, code, dropped)
       u = t.settleOrder ref code (mapValues t.cfg.byteOrder (t.circuit c) dropped) ∧
       u.settles = t.settles ++ [⟨t.nextSettle, ref, code, 1⟩] ∧ u.circuits = t.circuits) ∧
     (∀ n, g = some n → n ≠ (s.circuit c).generation →
       s.mapOrder x c target g = (s, .stale, 0) ∧ s.recoverOrder c target g = (s, .stale, 0)) ∧
     (g = none ∨ g = some (s.circuit c).generation →
       s.mapOrder .setLine c (some p) g = s.mapSetLine c p ∧ s.mapOrder .equip c (some p) g = s.mapEquip c p ∧
       s.mapOrder .unequip c target g = s.mapUnequip c ∧ s.mapOrder .forget c target g = s.mapForget c ∧
       s.recoverOrder c target g = s.recover c target)) ∧
  ∀ (s : State) (c : CircuitNo) (p : LinePos), let k := s.circuit c
    let only := fun t : State => { t with circuits := s.circuits, align := s.align, lineOcc := s.lineOcc } = s ∧
      ∀ d, d ≠ c → t.circuit d = s.circuit d ∧ t.alignOf d = s.alignOf d
    let discards := fun t : State => t.alignOf c = { s.alignOf c with lineHistory := [], spanHistory := [], repeatsDue := 0 }
    (k.pathState ≠ .copper → s.mapSetLine c p = (s, .badState, 0)) ∧
    (k.pathState = .copper → k.linePos = some p → s.mapSetLine c p = (s, .done, 0)) ∧
    (k.pathState = .copper → k.linePos ≠ some p → s.lineUse p ≠ .free → s.lineUse p ≠ .vacated c →
      s.mapSetLine c p = (s, .slotTaken, 0)) ∧
    (∀ old, k.pathState = .copper → k.linePos = some old → old ≠ p → (s.lineUse p = .free ∨ s.lineUse p = .vacated c) →
      ∃ t, s.mapSetLine c p = (t, .done, k.hold) ∧ t.lineUse old = .free ∧ t.lineUse p = .occupied c ∧
        (∀ q, q ≠ p → q ≠ old → t.lineUse q = s.lineUse q) ∧
        t.circuit c = { k with receive := .line, lineFeed := true, spanFeed := false, linePos := some p, hold := 0,
                               generation := k.generation + 1,
                               vacated := if k.vacated = some p then none else k.vacated } ∧
        discards t ∧ only t) ∧
    (k.pathState ≠ .copper → s.mapUnequip c = (s, .badState, 0)) ∧
    (k.pathState = .copper → ∃ t, s.mapUnequip c = (t, .done, k.hold) ∧
      t.circuit c = { k with pathState := .unequipped, linePos := none, vacated := none, receive := .none,
                             lineFeed := false, spanFeed := false, hold := 0, generation := k.generation + 1 } ∧
      (∀ q, t.lineUse q = if k.linePos = some q ∨ k.vacated = some q then .free else s.lineUse q) ∧
      discards t ∧ only t) ∧
    (k.pathState ≠ .unequipped → s.mapEquip c p = (s, .badState, 0)) ∧
    (k.pathState = .unequipped → s.lineUse p ≠ .free → s.mapEquip c p = (s, .slotTaken, 0)) ∧
    (k.pathState = .unequipped → s.lineUse p = .free → ∃ t, s.mapEquip c p = (t, .done, 0) ∧
      (∀ q, t.lineUse q = if q = p then .occupied c else s.lineUse q) ∧
      t.circuit c = { k with pathState := .copper, linePos := some p, receive := .line, lineFeed := true,
                             spanFeed := false, hold := 0, generation := k.generation + 1,
                             vacated := if k.vacated = some p then none else k.vacated } ∧
      discards t ∧ only t)

/-- MAP FORGET (R17): on a COPPER, FIBRE or STRANDED circuit with a vacated position that position becomes FREE, the
circuit's vacated position is cleared and its generation advances by one; its path state, receive, feeds, hold and bearer
slot, every other circuit and position and the rest of the part stay; on any other circuit it is BAD_STATE and changes
nothing. After it, a RECOVER of the circuit without a target is BAD_STATE, and a TO_COPPER migration of it starts only onto
a target that it names and that is FREE. A FREE position may be claimed by any circuit: by SET_LINE from COPPER, by EQUIP
from UNEQUIPPED, by RECOVER from STRANDED and by a TO_COPPER migration from FIBRE or STRANDED. -/
def Obligations.ForgetGivesUpPosition : Prop :=
  (∀ (s : State) (c : CircuitNo), let k := s.circuit c
     (∀ (ref : OrderRef) (target : Option LinePos),
       s.dispatch ref (.map .forget c target none) = State.settleMap ref c (s.mapForget c)) ∧
     (∀ v, (k.pathState = .copper ∨ k.pathState = .fibre ∨ k.pathState = .stranded) → k.vacated = some v →
       ∃ t, s.mapForget c = (t, .done, 0) ∧ (∀ q, t.lineUse q = if q = v then .free else s.lineUse q) ∧
         t.circuit c = { k with vacated := none, generation := k.generation + 1 } ∧
         (∀ d, d ≠ c → t.circuit d = s.circuit d) ∧ { t with circuits := s.circuits, lineOcc := s.lineOcc } = s ∧
         t.recover c none = (t, .badState, 0) ∧
         (s.PositionsAgree → ∀ m : MoveOrder, m.circuit = c → m.direction = .toCopper → t.startCheck m = none →
           ∃ p, m.target = some p ∧ t.lineUse p = .free)) ∧
     (k.pathState = .bridged ∨ k.pathState = .unequipped ∨ k.vacated = none → s.mapForget c = (s, .badState, 0))) ∧
  ∀ (s : State) (d : CircuitNo) (p : LinePos), s.lineUse p = .free → let k := s.circuit d
    let claims := fun x : State × ResultCode × Nat => x.2.1 = .done ∧ x.1.lineUse p = .occupied d ∧
      (x.1.circuit d).linePos = some p
    (k.pathState = .copper → k.linePos ≠ some p → claims (s.mapSetLine d p)) ∧
    (k.pathState = .unequipped → claims (s.mapEquip d p)) ∧
    (k.pathState = .stranded → claims (s.recover d (some p))) ∧
    ∀ (m : MoveOrder) (b : BearerSlot), m.circuit = d → m.direction = .toCopper → m.target = some p →
      k.pathState = .fibre ∨ k.pathState = .stranded → k.bearer = some b → s.inService b.span = true →
      s.linePresent p = true → m.expectedGeneration = none ∨ m.expectedGeneration = some k.generation →
      s.startCheck m = none

/-- Every FIBRE circuit on a span that is lost is stranded: STRANDED, receiving and feeding nothing, hold 0, its
bearer slot and vacated position kept, and its generation advanced by one; every other circuit is as it was (R13).
RECOVER (R18): a STRANDED circuit goes to the target named, or to its vacated position, which must be FREE or VACATED
by it; its bearer slot becomes FREE with the circuit as lastCircuit, and the generation advances by one; every other
circuit, slot and position and the rest of the part stay as they were. The dropped count of RECOVER is log 21.
The held octets of a stranded circuit are discarded (R13), and so are those of a recovered one: that this discards the
histories of both paths and the repeats still owed, and that a RECOVER discards them too, is log 30. -/
def Obligations.StrandAndRecover : Prop :=
  (∀ (s : State) (sp : Span) (c : CircuitNo), let k := s.circuit c
     (∀ b, k.pathState = .fibre → k.bearer = some b → b.span = sp → (s.strandAll sp).circuit c =
       { k with pathState := .stranded, receive := .none, lineFeed := false, spanFeed := false, hold := 0,
                generation := k.generation + 1 } ∧ (s.strandAll sp).alignOf c =
       { s.alignOf c with lineHistory := [], spanHistory := [], repeatsDue := 0 }) ∧
     ((k.pathState ≠ .fibre ∨ ∀ b, k.bearer = some b → b.span ≠ sp) →
       (s.strandAll sp).circuit c = k ∧ (s.strandAll sp).alignOf c = s.alignOf c) ∧
     (s.strandAll sp).still = s.still ∧ (s.strandAll sp).lineOcc = s.lineOcc ∧ (s.strandAll sp).spanOcc = s.spanOcc) ∧
  ∀ (s : State) (c : CircuitNo) (target : Option LinePos), let k := s.circuit c
    (k.pathState ≠ .stranded → s.recover c target = (s, .badState, 0)) ∧
    (target = none → k.vacated = none → s.recover c target = (s, .badState, 0)) ∧
    (∀ p, k.pathState = .stranded → (target = some p ∨ target = none ∧ k.vacated = some p) →
      (s.lineUse p ≠ .free → s.lineUse p ≠ .vacated c → s.recover c target = (s, .slotTaken, 0)) ∧
      (∀ b, k.bearer = some b → (s.lineUse p = .free ∨ s.lineUse p = .vacated c) →
        ∃ t, s.recover c target = (t, .done, 0) ∧ t.lineUse p = .occupied c ∧ t.slotEntry b = ⟨.free, some c⟩ ∧
          t.circuit c = { k with pathState := .copper, linePos := some p, bearer := none, receive := .line,
                                 lineFeed := true, spanFeed := false, hold := 0, generation := k.generation + 1,
                                 vacated := if k.vacated = some p then none else k.vacated } ∧
          t.alignOf c = { s.alignOf c with lineHistory := [], spanHistory := [], repeatsDue := 0 } ∧
          (∀ d, d ≠ c → t.circuit d = s.circuit d ∧ t.alignOf d = s.alignOf d) ∧
          (∀ q, q ≠ p → t.lineUse q = s.lineUse q) ∧ (∀ x, x ≠ b → t.slotEntry x = s.slotEntry x) ∧
          { t with circuits := s.circuits, align := s.align, lineOcc := s.lineOcc, spanOcc := s.spanOcc } = s))

/-! ### Spans and ports -/

/-- A roll message is read from its control field as it was sent, with every operand at every value the field admits
(R82, 13.4).
A CARRY frame, however the balance inverts it, passes its check at a receiver whose reference marker is the other one
and is restored to the fields it was given; a TRAIN and a REPLY frame pass theirs and bring the sender's rank (R117,
R118, R119, R120).
A CARRY frame is inverted when the running balance and its disparity are both non-zero and of the same sign; the
balance then adds the disparity as sent, and never exceeds in size the largest disparity a frame can have (R118). -/
def Obligations.MessagesAndFrames : Prop :=
  (∀ m : RollMessage, (m.reason.isSome = true ↔ m.kind = .decline ∨ m.kind = .abandon) →
     (m.kind ≠ .offer → m.direction = .toFibre ∧ m.quick = false) →
     RollMessage.ofControl m.control = some m) ∧
  ((∀ (balance : Int) (m : Marker) (bearer : Vector Byte 256) (control : Vector Byte 5),
     judgeFrame (Marker.flip m) (carryFrame balance m bearer control).1 = (.carry bearer control, m)) ∧
   ∀ (cfg : SiteConfig) (m : Marker), judgeFrame m (plainFrame cfg 1) = (.train cfg.rank, .even) ∧
     judgeFrame m (plainFrame cfg 2) = (.reply cfg.rank, .even)) ∧
  ∀ (balance : Int) (m : Marker) (bearer : Vector Byte 256) (control : Vector Byte 5),
    let d := disparity bearer control; let x := carryFrame balance m bearer control
    (frameInverted x.1 = true ↔ (0 < balance ∧ 0 < d) ∨ (balance < 0 ∧ d < 0)) ∧
    x.2 = (if frameInverted x.1 then balance - d else balance + d) ∧
    -2088 ≤ d ∧ d ≤ 2088 ∧ (-2088 ≤ balance → balance ≤ 2088 → -2088 ≤ x.2 ∧ x.2 ≤ 2088)

/-- What a span sends in a frame by its line state (R116, R122): nothing in DISABLED, TRAIN in SEEK, HOLD_DOWN and
PROVING, REPLY in ANSWER, and in IN_SERVICE a CARRY of the other marker with the bearer field and the head of the
transmit queue, which leaves the queue when no entry of the span waits (R85). That it is the line state that stands, also
when a count has reached its limit and the passage's own command has not come, is the model's choice (log 45).
In PROVING each frame also sends the next prove frame over the internal loop, until those asked for are sent (R129): a CARRY
of the other marker, inverted by the balance of the test, with the octet (k + n) mod 256 in bearer slot n of frame k and no
message. It counts as checked, and as errored when nothing comes back, when what comes back is errored, or when it brings
another bearer octet; a loop that returns each frame as it was sent brings no error. That every returned frame is judged at
once, with no search for alignment, is the model's choice (log 14), and so is that the errored-frame count of the span does
not rise (log 46). -/
def Obligations.SpanSends : Prop :=
  (∀ (s : State) (sp : Span) (loop : LoopReturn), let k := s.span sp; let t := (s.sendSpan sp loop).span sp
     (k.line = .disabled → t.sending = none) ∧
     (k.line = .seek ∨ k.line = .holdDown ∨ k.line = .proving → t.sending = some (plainFrame s.cfg 1)) ∧
     (k.line = .answer → t.sending = some (plainFrame s.cfg 2)) ∧
     (k.line = .inService → t.lastSent = Marker.flip k.lastSent ∧
       (∃ f, t.sending = some f ∧ judgeFrame k.lastSent f =
         (.carry (s.bearerField sp) ((k.txQueue.head?.map fun x => x.message.control).getD emptyControl),
          Marker.flip k.lastSent)) ∧
       ((∀ i e, s.bridge i = some e → e.pending = false) → t.txQueue = k.txQueue.tail))) ∧
  (∀ (s : State) (sp : Span) (b : BearerSlot), b.span = sp → (s.bearerField sp)[b.slot.val] =
     match (s.slotEntry b).use with
     | .assigned c | .bridged c => if (s.circuit c).spanFeed then s.officeIn[c.val] else s.cfg.idleCode
     | .free => s.cfg.idleCode) ∧
  ∀ (s : State) (sp : Span) (loop : LoopReturn) (p : ProveRun), let k := s.span sp; let t := (s.sendSpan sp loop).span sp
    k.line = .proving → k.prove = some p →
    let bearer : Vector Byte 256 := tab 256 fun n => BitVec.ofNat 8 ((p.sent + n.val) % 256)
    let sent := carryFrame p.balance (Marker.flip p.lastSent) bearer emptyControl
    let counted := fun (bad : Bool) (reference : Marker) => t = { k with
      sending := some (plainFrame s.cfg 1)
      prove := some { p with sent := p.sent + 1, balance := sent.2, lastSent := Marker.flip p.lastSent,
                             reference := reference }
      proveChecked := k.proveChecked + 1
      proveErrored := if bad then k.proveErrored + 1 else k.proveErrored }
    (p.asked ≤ p.sent → t = { k with sending := some (plainFrame s.cfg 1) }) ∧
    (p.sent < p.asked →
      (loop = .nothing → counted true p.reference) ∧
      (loop = .asSent → p.reference = p.lastSent → counted false (Marker.flip p.lastSent)) ∧
      ∀ f, (loop = .returned f ∨ loop = .asSent ∧ f = sent.1) → let v := judgeFrame p.reference f
        (∀ x y, v.1 = .carry x y → (x = bearer → counted false v.2) ∧ (x ≠ bearer → counted true v.2)) ∧
        ((∀ x y, v.1 ≠ .carry x y) → counted true v.2))

/-- How a frame period moves the receiver and the run counts of its span (R119 to R121, R123, R125, R126): in READY and
WARMING, when no count has reached its limit; a rank clash goes to HOLD_DOWN (R124). A frame whose delimiter is in its place
is judged by an aligned receiver, and by one that has found the delimiter before it, which is then aligned; a frame period
without it loses alignment, and that one and each until alignment is regained counts as errored. That a delimiter found
elsewhere begins the search again in that period is log 11. Each errored frame raises the errored-frame count, but in
DISABLED and PROVING, where no count moves (log 12). The roll message of a good CARRY joins the span's arrivals behind those
kept, unless it comes from the own rank: R83 takes it from the frame, and that it is kept until its own arrival command is
the model's choice (log 10). -/
def Obligations.SpanFrameCounts : Prop :=
  ∀ (sp : Span) (rx : SpanPeriod) (s : State), let k := s.span sp
    let judged : Option SpanFrame := match k.alignment, rx with
      | .aligned, .inPlace f | .trial, .inPlace f => some f
      | _, _ => none
    let v := (judged.map fun f => (judgeFrame k.reference f).1).getD .errored
    s.resetLow = false → s.phase = .ready ∨ s.phase = .warming →
    k.good < 4 → k.errored < 4 → k.train < 4 → k.holdDown < 512 →
    ∃ t, exec (.spanFrameReceived sp rx) s = .next t ∧
      (judged.isSome = true → (t.span sp).alignment = .aligned) ∧
      (∀ f, k.alignment = .searching → rx = .inPlace f → (t.span sp).alignment = .trial) ∧
      (∀ f, rx = .elsewhere f → (t.span sp).alignment = .trial) ∧
      (rx = .nothing → (t.span sp).alignment = .searching) ∧
      (k.line ≠ .proving → (t.span sp).reference =
        (judged.map fun f => (judgeFrame k.reference f).2).getD k.reference) ∧
      (k.line ≠ .disabled → k.line ≠ .proving → (t.span sp).erroredFrames =
        if v = .errored then k.erroredFrames + 1 else k.erroredFrames) ∧
      (k.line = .disabled ∨ k.line = .proving → (t.span sp).erroredFrames = k.erroredFrames ∧
        (t.span sp).good = k.good ∧ (t.span sp).errored = k.errored ∧ (t.span sp).train = k.train ∧
        (t.span sp).holdDown = k.holdDown) ∧
      (t.span sp).line = (if State.rankClash k s.cfg.rank v then .holdDown else k.line) ∧
      (k.line = .seek → ∀ r, r ≠ s.cfg.rank → v = .train r ∨ v = .reply r →
        (t.span sp).good = k.good + 1 ∧ (t.span sp).peerRank = some r) ∧
      (k.line = .seek → v = .errored ∨ (∃ x y, v = .carry x y) → (t.span sp).good = 0) ∧
      (k.line = .answer → ∀ r, r ≠ s.cfg.rank → v = .train r → (t.span sp).good = 0 ∧ (t.span sp).errored = 0) ∧
      (k.line = .answer → ∀ r, r ≠ s.cfg.rank → v = .reply r → (t.span sp).good = k.good + 1 ∧ (t.span sp).errored = 0) ∧
      (k.line = .answer → (∃ x y, v = .carry x y) → (t.span sp).good = k.good + 1 ∧ (t.span sp).errored = 0) ∧
      (k.line = .answer → v = .errored → (t.span sp).good = 0 ∧ (t.span sp).errored = k.errored + 1) ∧
      (k.line = .inService → v = .errored → (t.span sp).errored = k.errored + 1 ∧ (t.span sp).train = 0) ∧
      (k.line = .inService → (∃ r, v = .train r) → (t.span sp).errored = 0 ∧ (t.span sp).train = k.train + 1) ∧
      (k.line = .inService → (∃ x y, v = .carry x y) → (t.span sp).errored = 0 ∧ (t.span sp).train = 0) ∧
      (∀ x y, k.line = .inService → v = .carry x y → (t.span sp).arrivals = k.arrivals ++
        match RollMessage.ofControl y with
        | some m => if m.rank = s.cfg.rank then [] else [m]
        | none => []) ∧
      (k.line = .inService → (∃ r, v = .reply r) → (t.span sp).errored = k.errored ∧ (t.span sp).train = k.train) ∧
      (k.line = .holdDown → v = .errored ∨ v = .train s.cfg.rank ∨ v = .reply s.cfg.rank → (t.span sp).holdDown = 0) ∧
      (k.line = .holdDown → (∃ r, r ≠ s.cfg.rank ∧ (v = .train r ∨ v = .reply r)) ∨ (∃ x y, v = .carry x y) →
        (t.span sp).holdDown = k.holdDown + 1)

/-- The passages of a span at the limits of its counts (R122, R123, R125, R126): the state entered, its cause, the run
counts at 0, and the notice SPAN_STATE (R127), which for a span that leaves IN_SERVICE comes after the notices of what its
loss does: the model's choice (log 4). On entry into IN_SERVICE the running balance is 0, the last marker sent EVEN, and
the store holds one frame of the line-side idle code (R127); that no arrival is kept then is the model's choice (log 10).
That each changes nothing below its limit is log 3.
PROVE_END: after its n frames a test ends, the span enters SEEK with cause PROVE_END, and the order the framer still
holds settles DONE (R130). -/
def Obligations.SpanPassages : Prop :=
  (∀ (sp : Span) (s : State), s.resetLow = false → let k := s.span sp
     let enters := fun (c : Instr) (line : LineState) (cause : SpanCause) (hold : Option HoldCause) => ∃ u t : State,
       exec c s = .next t ∧ t = State.finish s (u.handNotice (.spanState sp k.line line cause hold)) ∧
       (t.span sp).line = line ∧ (t.span sp).cause = some cause ∧ (t.span sp).good = 0 ∧ (t.span sp).errored = 0 ∧
       (t.span sp).train = 0
     (k.line = .seek → k.good = 4 → enters (.spanTrained sp) .answer .trained none) ∧
     (k.line = .answer → k.good = 4 → enters (.spanTrained sp) .inService .trained none ∧
       ∃ t, exec (.spanTrained sp) s = .next t ∧ let x := t.span sp; let idle := tab 256 fun _ => s.cfg.idleCode
         x.balance = 0 ∧ x.lastSent = .even ∧ x.store = [idle] ∧ x.lastRead = idle ∧ x.arrivals = [] ∧
         t.circuits = s.circuits ∧ t.bridges = s.bridges) ∧
     (k.line = .answer ∨ k.line = .inService → k.errored = 4 → enters (.spanErrors sp) .holdDown .errors (some .errors)) ∧
     (k.line = .inService → k.train = 4 → enters (.peerRestart sp) .seek .peerRestart none) ∧
     (k.line = .holdDown → k.holdDown = 512 → enters (.holdDownRecovered sp) .seek .recovered none) ∧
     (k.good < 4 → exec (.spanTrained sp) s = .next (State.finish s s)) ∧
     (k.errored < 4 → exec (.spanErrors sp) s = .next (State.finish s s)) ∧
     (k.train < 4 → exec (.peerRestart sp) s = .next (State.finish s s)) ∧
     (k.holdDown < 512 → exec (.holdDownRecovered sp) s = .next (State.finish s s))) ∧
  ∀ (sp : Span) (s : State) (p : ProveRun), s.resetLow = false → (s.span sp).line = .proving →
    (s.span sp).prove = some p → p.sent = p.asked → ∃ t, exec (.proveEnd sp) s = .next t ∧
      (t.span sp).line = .seek ∧ (t.span sp).cause = some .proveEnd ∧ (t.span sp).prove = none ∧
      (t.span sp).proveChecked = (s.span sp).proveChecked ∧ (t.span sp).proveErrored = (s.span sp).proveErrored ∧
      (∀ ref, p.ref = some ref → t.settles = s.settles ++ [⟨s.nextSettle, ref, .done, 1⟩]) ∧
      (p.ref = none → t.settles = s.settles)

/-- SPAN orders (R128, R129): on an absent span ABSENT; ENABLE takes a DISABLED span into SEEK and settles DONE;
DISABLE and PROVE settle SPAN_BUSY while some slot of the span is ASSIGNED or BRIDGED, and PROVE also in IN_SERVICE
and PROVING; else DISABLE takes the span into DISABLED and settles DONE, and PROVE takes it into PROVING with its
counts at 0 and settles only at its end. A test that a DISABLE cuts short settles DONE; that it does so before the
DISABLE is log 4. That an order finds the line state that stands, also when a count has reached its limit and the
passage's own command has not come, is the model's choice (log 45). -/
def Obligations.SpanOrders : Prop :=
  ∀ (s : State) (ref : OrderRef) (sp : Span) (frames : Nat), let k := s.span sp
    let order := fun x => s.dispatch ref (.span sp x frames)
    let settles := fun (t : State) code => t.settles = s.settles ++ [⟨s.nextSettle, ref, code, 1⟩]
    let refused := fun (t : State) code => settles t code ∧ t.spans = s.spans ∧ t.nte = s.nte ∧ t.circuits = s.circuits ∧
      t.bridges = s.bridges
    let used := ∃ b : BearerSlot, b.span = sp ∧ (s.slotEntry b).use ≠ .free
    (s.spanPresent sp = false → ∀ x, refused (order x) .absent) ∧
    (s.spanPresent sp = true →
      (k.line = .disabled → let t := order .enable; settles t .done ∧ (t.span sp).line = .seek ∧
        (t.span sp).cause = some .order) ∧
      (k.line ≠ .disabled → refused (order .enable) .done) ∧
      (used → refused (order .disable) .spanBusy ∧ refused (order .prove) .spanBusy) ∧
      (k.line = .inService ∨ k.line = .proving → refused (order .prove) .spanBusy) ∧
      (¬used → k.line = .disabled → refused (order .disable) .done) ∧
      (¬used → k.line ≠ .disabled → let t := order .disable; (t.span sp).line = .disabled ∧
        (t.span sp).cause = some .order ∧ (t.span sp).prove = none ∧
        (t.settles.getLast?.map fun x => (x.ref, x.code)) = some (ref, .done)) ∧
      (∀ p old, ¬used → k.line = .proving → k.prove = some p → p.ref = some old → (order .disable).settles =
        s.settles ++ [⟨s.nextSettle, old, .done, 1⟩, ⟨s.nextSettle + 1, ref, .done, 1⟩]) ∧
      (¬used → k.line ≠ .inService → k.line ≠ .proving → let t := order .prove; t.settles = s.settles ∧
        (t.span sp).line = .proving ∧ (t.span sp).cause = some .order ∧ (t.span sp).proveChecked = 0 ∧
        (t.span sp).proveErrored = 0 ∧
        ∃ p, (t.span sp).prove = some p ∧ p.ref = some ref ∧ p.asked = frames ∧ p.sent = 0))

/-- What the loss of a path does. A span that leaves IN_SERVICE loses its transmit queue and its store, its FIBRE
circuits are stranded, the loss is resolved for every entry on it, the Frame Timing Unit loses the source, and
SPAN_STATE is posted (R76, R127); a line port that becomes LOST, the same for the entries on its line positions, with
PORT_STATE (R76, R139); each port that changes posts PORT_STATE. For one entry: the loss of its to-path frees or
unwinds it with PATH_LOST, or leaves a settled one to its guard (R77, R78); the loss of a TO_FIBRE entry's line port
forces its roll (R79, R80); the loss of a TO_COPPER entry's span completes it forward (R81), and its circuit stands on
the target. That the entries are resolved lowest index first is log 4, and that the arrivals kept are dropped is log
10. -/
def Obligations.PathLosses : Prop :=
  (∀ (sp : Span) (s : State), s.resetLow = false → let k := s.span sp
     let left := fun (line : LineState) (cause : SpanCause) (hold : Option HoldCause) =>
       let u := s.setSpan sp { k with
         line := line, cause := some cause, holdCause := hold <|> k.holdCause, good := 0, errored := 0, train := 0,
         holdDown := if line = .holdDown then 0 else k.holdDown }
       let v := (u.emptyTransmit sp).modSpan sp fun x => { x with store := [], arrivals := [] }
       State.finish s ((((v.strandAll sp).resolveSpanLoss sp).sourceUnhealthy (.span sp)).handNotice
         (.spanState sp .inService line cause hold))
     (k.line = .inService → k.errored = 4 → exec (.spanErrors sp) s = .next (left .holdDown .errors (some .errors))) ∧
     (k.line = .inService → k.train = 4 → exec (.peerRestart sp) s = .next (left .seek .peerRestart none))) ∧
  (∀ (p : PortNo) (s : State), s.resetLow = false → let k := s.port p
     let cause : PortCause := if s.clockRole p = .drive then .noSignal else
       if k.lastBad = .misplaced then .misplacedSync else .missingSync
     let u := s.setPort p { k with presence := .lost, loss := 0, recovery := 0, trialTiming := none, rxStore := [],
                                   cause := some cause, changeFrame := some s.counter }
     (k.presence = .present → k.loss = 3 →
       (∀ n, lineNumber p = some n → exec (.portLost p) s = .next (State.finish s
         (((u.resolveLineLoss n).sourceUnhealthy (.line n)).handNotice (.portState p .lost cause)))) ∧
       (∀ n, officeNumber p = some n → exec (.portLost p) s = .next (State.finish s
         ((u.sourceUnhealthy (.office n)).handNotice (.portState p .lost cause))))) ∧
     (k.presence = .lost → k.recovery = 16 → ∃ v : State, exec (.portRecovered p) s = .next (State.finish s
       (v.handNotice (.portState p .present .recovered))) ∧ v.bridges = s.bridges ∧ v.circuits = s.circuits)) ∧
  (∀ (s : State) (sp : Span) (n : Fin 8),
     s.resolveSpanLoss sp = each (List.finRange 48) (fun i t => t.spanLossEntry sp i) s ∧
     s.resolveLineLoss n = each (List.finRange 48) (fun i t => t.lineLossEntry n i) s) ∧
  (∀ (s : State) (i : BridgeNo) (e : Bridge), s.bridge i = some e →
     (∀ sp, e.bearer.span ≠ sp → s.spanLossEntry sp i = s) ∧ (∀ n, e.linePos.port ≠ n → s.lineLossEntry n i = s) ∧
     (∀ t, (e.direction = .toFibre ∧ t = s.spanLossEntry e.bearer.span i) ∨
         (e.direction = .toCopper ∧ t = s.lineLossEntry e.linePos.port i) →
       (e.phase = .awaitingOffer → t = s.freeAs i .pathLost) ∧
       (e.phase = .offering ∨ e.phase = .matching ∨ e.phase = .rolled →
         t = (s.enterUnwinding i .pathLost (some .pathLost) false true).sendAbandon i) ∧
       (e.phase = .releasing → t = (s.stopToFeed e).beginGuard i) ∧
       (e.phase = .unwinding → t = (s.stopToFeed e).freeEntry i)) ∧
     (e.direction = .toFibre → let t := s.lineLossEntry e.linePos.port i
       let u := (s.stopFromFeed e).setBridge i (some { e with fromLost := true })
       (e.phase = .awaitingOffer ∨ e.phase = .unwinding ∨ (e.phase = .offering ∧ e.rolled = true) → t = u) ∧
       (e.phase = .offering → e.rolled = false → t = u.roll i 0 true) ∧
       (e.phase = .matching → t = (u.roll i 0 true).enterRolled i) ∧
       (e.phase = .rolled → t = (u.modBridge i fun x => { x with forced := true }).releaseDecision i) ∧
       (e.phase = .releasing → t = u.freeEntry i)) ∧
     (e.direction = .toCopper → let t := s.spanLossEntry e.bearer.span i
       (e.phase = .releasing → t = (s.stopFromFeed e).freeEntry i) ∧
       (e.phase = .unwinding → let u := (s.stopFromFeed e).setBridge i (some { e with fromLost := true })
         ((s.circuit e.circuit).lineFeed = true → t = u.beginGuard i) ∧
         ((s.circuit e.circuit).lineFeed = false → t = u.freeEntry i)) ∧
       (e.phase = .awaitingOffer ∨ e.phase = .offering ∨ e.phase = .matching ∨ e.phase = .rolled →
         let k := t.circuit e.circuit
         t.bridge i = none ∧ k.pathState = .copper ∧ k.linePos = some e.linePos ∧ k.receive = .line ∧ k.lineFeed = true ∧
         k.spanFeed = false ∧ k.bearer = none ∧
         k.hold = (if e.rolled then (s.circuit e.circuit).hold else (seamNumbers (s.circuit e.circuit).hold 0).hold) ∧
         (∀ ref, e.group = none → e.ref = some ref →
           t.settles = s.settles ++ [⟨s.nextSettle, ref, .doneForced, 1⟩]))))

/-- How a frame period moves the counts of a port, when neither has reached its limit (R135, R136, R137). That a frame
period which fails a trial leaves no trial, even when it brings another pulse of the style, is log 19.
A PRESENT port whose loss count is 3 becomes LOST, and a LOST port whose recovery count is 16 becomes PRESENT, a
FOLLOW port with its trial timing as its frame timing; both counts go to 0, the cause and the frame of the change are
noted, and the receive store holds nothing, or one frame of idle code (R137, R138, R139, R140). That neither changes
anything below its limit is log 3. -/
def Obligations.PortFrameCounts : Prop :=
  (∀ (p : PortNo) (rx : PortPeriod) (s : State), let k := s.port p; let role := s.clockRole p; let style := s.syncStyle p
     s.resetLow = false → s.phase = .ready ∨ s.phase = .warming → k.loss < 3 → k.recovery < 16 →
     ∃ t, exec (.portFramePeriod p rx) s = .next t ∧ (t.port p).presence = k.presence ∧
       (k.presence = .present → judgePeriod role style k.frameTiming rx = .good → (t.port p).loss = 0) ∧
       (k.presence = .present → judgePeriod role style k.frameTiming rx ≠ .good →
         (t.port p).loss = k.loss + 1 ∧ (t.port p).frameTiming = k.frameTiming) ∧
       (k.presence = .lost → role = .drive → judgePeriod role style none rx = .good →
         (t.port p).recovery = k.recovery + 1) ∧
       (k.presence = .lost → role = .drive → judgePeriod role style none rx ≠ .good → (t.port p).recovery = 0) ∧
       (k.presence = .lost → role = .follow → k.trialTiming = none → ∀ x, findTrial style rx = some x →
         (t.port p).recovery = 1 ∧ (t.port p).trialTiming = some x) ∧
       (∀ x, k.presence = .lost → role = .follow → k.trialTiming = some x →
         judgePeriod role style (some x) rx = .good →
         (t.port p).recovery = k.recovery + 1 ∧ (t.port p).trialTiming = some x) ∧
       (∀ x, k.presence = .lost → role = .follow → k.trialTiming = some x →
         judgePeriod role style (some x) rx ≠ .good → (t.port p).recovery = 0 ∧ (t.port p).trialTiming = none)) ∧
  ∀ (p : PortNo) (s : State), s.resetLow = false → let k := s.port p
    (k.presence = .present → k.loss = 3 → ∃ t, exec (.portLost p) s = .next t ∧ (t.port p).presence = .lost ∧
      (t.port p).loss = 0 ∧ (t.port p).recovery = 0 ∧ (t.port p).rxStore = [] ∧
      (t.port p).changeFrame = some s.counter ∧ (t.port p).frameTiming = k.frameTiming ∧
      (t.port p).cause = some (if s.clockRole p = .drive then .noSignal else
        if k.lastBad = .misplaced then .misplacedSync else .missingSync)) ∧
    (k.presence = .lost → k.recovery = 16 → ∃ t, exec (.portRecovered p) s = .next t ∧
      (t.port p).presence = .present ∧ (t.port p).loss = 0 ∧ (t.port p).recovery = 0 ∧
      (t.port p).cause = some .recovered ∧ (t.port p).changeFrame = some s.counter ∧
      (t.port p).rxStore = [tab 32 fun _ => s.idleOf p] ∧
      (s.clockRole p = .follow → (t.port p).frameTiming = k.trialTiming)) ∧
    (k.loss < 3 → exec (.portLost p) s = .next (State.finish s s)) ∧
    (k.recovery < 16 → exec (.portRecovered p) s = .next (State.finish s s))

/-- What a frame period does to the elastic stores (R120, R131, R132, R140, R141). In IN_SERVICE the bearer octets of a good
CARRY enter the span's store, and the idle code for any other period; in no other line state does a frame period touch it. A
PRESENT port's frame enters its receive store after its report is taken (R142): a DRIVE port's store then holds that frame,
and a FOLLOW port's gains it. A store that already holds two frames loses the older, a deleting slip, and a span in service
whose store is empty at a read slips by repeating. A slip raises the count of the input, restarts the matcher of every entry
in MATCHING on that span or on that line port (R66), and posts SLIP with its kind and the count after it, unless the input
has posted one within the last 8,000 frames, and changes nothing else. A FOLLOW port with frame timing whose bit clock
runs starts a frame of its own in each period: it sends the oldest frame of its transmit store, and with none in it a
transmit slip is counted and the frame sent last goes again (R140). -/
def Obligations.ElasticStores : Prop :=
  let restarted := fun (m : Matcher) => { m with toHistory := [], fromHistory := [], runs := List.replicate 31 0 }
  let slipped := fun (s t : State) (last : Option FrameNo) (b : NoticeBody) (mark : State → Option FrameNo)
      (on : Bridge → Prop) =>
    let recent := ∃ f, last = some f ∧ (s.counter - f).toNat < 8000
    (recent → mark t = last ∧ t.nte = s.nte ∧ t.attn = s.attn) ∧
    (¬recent → mark t = some s.counter ∧ t.nte = (s.handNotice b).nte ∧ t.attn = (s.handNotice b).attn) ∧
    (∀ i, s.bridge i = none → t.bridge i = none) ∧
    ∀ i e, s.bridge i = some e →
      (e.phase = .matching ∧ on e → t.bridge i = some { e with matcher := e.matcher.map restarted }) ∧
      (¬(e.phase = .matching ∧ on e) → t.bridge i = some e)
  (∀ (s : State) (sp : Span) (f : BearerFrame) (kind : SlipKind), let k := s.span sp; let t := s.spanSlip sp kind
     (k.store.length < 2 → s.writeSpanStore sp f = s.setSpan sp { k with store := k.store ++ [f] }) ∧
     (2 ≤ k.store.length → s.writeSpanStore sp f =
       (s.setSpan sp { k with store := k.store.tail ++ [f] }).spanSlip sp .deleting) ∧
     (s.inService sp = true → k.store = [] → s.readSpan sp = s.spanSlip sp .repeating) ∧
     slipped s t k.lastSlipNotice (.slip (.span sp) kind (k.slips + 1)) (fun x => (x.span sp).lastSlipNotice)
       (fun e => e.bearer.span = sp) ∧
     { t.span sp with lastSlipNotice := none } = { k with slips := k.slips + 1, lastSlipNotice := none } ∧
     (∀ x, x ≠ sp → t.span x = s.span x) ∧
     { t with spans := s.spans, bridges := s.bridges, nte := s.nte, attn := s.attn } = s) ∧
  (∀ (s : State) (p : PortNo) (f : PortFrame) (kind : SlipKind), let k := s.port p; let t := s.portSlip p kind
     (s.clockRole p = .drive → s.writePortStore p f = s.setPort p { k with rxStore := [f] }) ∧
     (s.clockRole p = .follow → k.rxStore.length < 2 →
       s.writePortStore p f = s.setPort p { k with rxStore := k.rxStore ++ [f] }) ∧
     (s.clockRole p = .follow → 2 ≤ k.rxStore.length →
       s.writePortStore p f = (s.setPort p { k with rxStore := k.rxStore.tail ++ [f] }).portSlip p .deleting) ∧
     (s.clockRole p = .follow → k.presence = .present → k.rxStore = [] → s.readPort p = s.portSlip p .repeating) ∧
     slipped s t k.lastSlipNotice (.slip (portSource p) kind (k.slips + 1)) (fun x => (x.port p).lastSlipNotice)
       (fun e => lineNumber p = some e.linePos.port) ∧
     { t.port p with lastSlipNotice := none } = { k with slips := k.slips + 1, lastSlipNotice := none } ∧
     (∀ x, x ≠ p → t.port x = s.port x) ∧
     { t with ports := s.ports, bridges := s.bridges, nte := s.nte, attn := s.attn } = s) ∧
  (∀ (s : State) (p : PortNo), let k := s.port p
     (s.clockRole p = .drive ∨ k.frameTiming = none → s.readTransmit p = s) ∧
     (s.clockRole p = .follow → k.frameTiming ≠ none →
       (k.txStore = [] → s.readTransmit p = s.setPort p { k with txSlips := k.txSlips + 1 }) ∧
       ∀ f rest, k.txStore = f :: rest → s.readTransmit p = s.setPort p { k with txStore := rest, sending := some f })) ∧
  (∀ (p : PortNo) (s : State), s.resetLow = false → s.phase = .ready ∨ s.phase = .warming → let k := s.port p
     k.loss < 3 → k.recovery < 16 → let period := fun rx => exec (.portFramePeriod p rx) s
     (∃ x, period .stopped = .next (State.finish s (s.setPort p x)) ∧ x.rxStore = k.rxStore ∧ x.txStore = k.txStore ∧
       x.sending = k.sending ∧ x.slips = k.slips ∧ x.txSlips = k.txSlips ∧ x.frameTiming = k.frameTiming) ∧
     ∀ pulses octets, ∃ x, x.rxStore = k.rxStore ∧ x.txStore = k.txStore ∧ x.sending = k.sending ∧ x.slips = k.slips ∧
       x.txSlips = k.txSlips ∧ x.frameTiming = k.frameTiming ∧ x.presence = k.presence ∧
       x.lastSlipNotice = k.lastSlipNotice ∧ let u := s.setPort p x; let answers := period (.clocked pulses octets)
       (k.presence = .lost → answers = .next (State.finish s (u.readTransmit p))) ∧
       (k.presence = .present →
         (∀ n, officeNumber p = some n → answers = .next (State.finish s
           (((u.takeReport n octets).writePortStore p octets).readTransmit p))) ∧
         (officeNumber p = none → answers = .next (State.finish s ((u.writePortStore p octets).readTransmit p))))) ∧
  ∀ (sp : Span) (rx : SpanPeriod) (s : State), s.resetLow = false → s.phase = .ready ∨ s.phase = .warming →
    let k := s.span sp
    k.good < 4 → k.errored < 4 → k.train < 4 → k.holdDown < 512 →
    (k.line ≠ .inService → ∃ t, exec (.spanFrameReceived sp rx) s = .next t ∧ (t.span sp).store = k.store ∧
      (t.span sp).slips = k.slips) ∧
    (k.line = .inService → ∃ u : State, (u.span sp).store = k.store ∧ (u.span sp).slips = k.slips ∧
      (u.span sp).lastSlipNotice = k.lastSlipNotice ∧ { u with spans := s.spans } = s ∧
      let enters := fun octets => exec (.spanFrameReceived sp rx) s = .next (State.finish s (u.writeSpanStore sp octets))
      (∀ f x y, k.alignment ≠ .searching → rx = .inPlace f → (judgeFrame k.reference f).1 = .carry x y → enters x) ∧
      ((∀ f x y, k.alignment ≠ .searching → rx = .inPlace f → (judgeFrame k.reference f).1 ≠ .carry x y) →
        enters (tab 256 fun _ => s.cfg.idleCode)))

/-- A valid report for circuit c with condition X: the activity becomes X when the candidate is X and the activity is
not; the candidate becomes X; the age becomes 0; and no other circuit's fields are touched (R143). An invalid report
touches no circuit's (R142). A frame period of a PRESENT office port k brings the report in its signalling slot: bits 7
to 3 name the slot, and with it the circuit of office port k, bits 2 and 1 the condition (R142, 13.4).
REPORT_AGE_EXPIRY: at an age of 8,000 the candidate is cleared and the activity becomes UNKNOWN (R144). That a valid
report that finds an age of 8,000 expires it first is log 26, and that nothing happens below that age is log 3. -/
def Obligations.SignallingMonitor : Prop :=
  ((∀ (s : State) (c : CircuitNo) (x : Activity), let m := s.monitor c
     (s.validReport c x).monitor c =
       { activity := if m.candidate = some x ∧ m.activity ≠ x then x else m.activity, candidate := some x, age := 0 } ∧
     ∀ c', c' ≠ c → (s.validReport c x).monitor c' = s.monitor c') ∧
   ∀ (s : State) (k : Fin 8) (octets : PortFrame), s.cfg.signallingPresent = true →
     let b := octets[s.cfg.signallingSlot.val]
     (State.oddOnes b = false ∨ (b.extractLsb' 3 5).toNat = s.cfg.signallingSlot.val) →
     (s.takeReport k octets).monitors = s.monitors ∧
     ((s.takeReport k octets).port (officePort k)).invalidReports = (s.port (officePort k)).invalidReports + 1) ∧
  (∀ (s : State) (k : Fin 8) (octets : PortFrame), s.cfg.signallingPresent = true →
     let b := octets[s.cfg.signallingSlot.val]; let c := circuitAt k (b.extractLsb' 3 5).toFin
     let x : Activity := if (b.extractLsb' 1 2).toNat = 0 then .idle else if (b.extractLsb' 1 2).toNat = 1 then .seized else
       if (b.extractLsb' 1 2).toNat = 2 then .answered else .blocked
     State.oddOnes b = true → (b.extractLsb' 3 5).toNat ≠ s.cfg.signallingSlot.val →
     c.val = 32 * k.val + (b.extractLsb' 3 5).toNat ∧
     ((s.monitor c).age < 8000 → s.takeReport k octets = s.validReport c x) ∧
     ((s.monitor c).age = 8000 → s.takeReport k octets = (s.reportAgeExpiry c).validReport c x)) ∧
  (∀ (s : State) (k : Fin 8) (octets : PortFrame), s.cfg.signallingPresent = false → s.takeReport k octets = s) ∧
  (∀ (s : State) (k : Fin 8) (pulses : List SyncPulse) (octets : PortFrame), let p := officePort k
     s.resetLow = false → s.phase = .ready ∨ s.phase = .warming → (s.port p).presence = .present → (s.port p).loss < 3 →
     ∃ t, exec (.portFramePeriod p (.clocked pulses octets)) s = .next t ∧
       ∀ c, t.monitor c = (s.takeReport k octets).monitor c) ∧
  ∀ (c : CircuitNo) (s : State), s.resetLow = false →
    ((s.monitor c).age = 8000 → ∃ t, exec (.reportAgeExpiry c) s = .next t ∧ t.monitor c = ⟨.unknown, none, 8000⟩ ∧
      ∀ c', c' ≠ c → t.monitor c' = s.monitor c') ∧
    ((s.monitor c).age < 8000 → exec (.reportAgeExpiry c) s = .next (State.finish s s))

/-! ### Frame timing -/

/-- A listed candidate that is qualified: in FREE_RUN and HOLDOVER the unit locks to it with cause QUALIFIED; LOCKED
with a revertive list it moves to it with cause REVERTED if its priority is higher than the reference's, and otherwise
nothing changes (R153, R154). A source that is not listed is no candidate (R150), and that nothing changes for it, or for
one that is not qualified, is log 3.
A source that becomes unhealthy loses its qualification; if it is the reference, the unit locks to the listed
qualified candidate of the highest priority, or enters HOLDOVER, with cause REFERENCE_LOST; otherwise its state stays
(R150, R152).
A TIMING order replaces the list and settles DONE (R151): LOCKED to a listed source, the unit moves only with a
revertive list to a qualified candidate of higher priority; LOCKED to a source that is not listed, it locks to the
best qualified candidate or goes into HOLDOVER; in FREE_RUN and HOLDOVER it locks to the best qualified candidate, if
there is one. -/
def Obligations.TimingSources : Prop :=
  (∀ (src : Source) (s : State), s.resetLow = false →
     (src ∈ s.ftu.candidates → s.qualified src = true →
       (s.ftu.mode = .freeRun ∨ s.ftu.mode = .holdover → ∃ t, exec (.candidateQualified src) s = .next t ∧
         t.ftu.mode = .locked src ∧ t.ftu.lastCause = some .qualified ∧ t.ftu.lastChange = some s.counter) ∧
       (∀ ref x y, s.ftu.mode = .locked ref → s.ftu.revertive = true → s.ftu.priority src = some x →
         s.ftu.priority ref = some y → x < y → ∃ t, exec (.candidateQualified src) s = .next t ∧
         t.ftu.mode = .locked src ∧ t.ftu.lastCause = some .reverted ∧ t.ftu.lastChange = some s.counter) ∧
       (∀ ref, s.ftu.mode = .locked ref → (s.ftu.revertive = false ∨ ∀ x y, s.ftu.priority src = some x →
         s.ftu.priority ref = some y → y ≤ x) → exec (.candidateQualified src) s = .next (State.finish s s))) ∧
     (src ∉ s.ftu.candidates ∨ s.qualified src = false →
       exec (.candidateQualified src) s = .next (State.finish s s))) ∧
  (∀ (s : State) (src : Source), let t := s.sourceUnhealthy src
     let rest := s.ftu.candidates.filter fun x => x != src && s.qualified x
     t.ftu.counts[(Source.index src).val] = 0 ∧
     (s.ftu.mode ≠ .locked src → t.ftu.mode = s.ftu.mode ∧ t.nte = s.nte) ∧
     (s.ftu.mode = .locked src → t.ftu.lastCause = some .referenceLost ∧ t.ftu.lastChange = some s.counter ∧
       t.ftu.mode = match rest with
         | best :: _ => .locked best
         | [] => .holdover)) ∧
  ∀ (s : State) (ref : OrderRef) (list : List Source) (revertive : Bool),
    let t := s.dispatch ref (.timing list revertive); let best := list.find? s.qualified
    let stays := t.ftu.mode = s.ftu.mode ∧ t.nte = s.nte
    let moves := fun m => t.ftu.mode = m ∧ t.ftu.lastCause = some .order ∧ t.ftu.lastChange = some s.counter
    t.ftu.candidates = list ∧ t.ftu.revertive = revertive ∧ t.ftu.counts = s.ftu.counts ∧
    t.settles = s.settles ++ [⟨s.nextSettle, ref, .done, 1⟩] ∧
    (∀ x, s.ftu.mode = .locked x → x ∉ list →
      (∀ y, best = some y → moves (.locked y)) ∧ (best = none → moves .holdover)) ∧
    (∀ x, s.ftu.mode = .locked x → x ∈ list →
      (∀ y i j, revertive = true → best = some y → list.findIdx? (· == y) = some i → list.findIdx? (· == x) = some j →
        i < j → moves (.locked y)) ∧
      (revertive = false ∨ best = none ∨ (∀ y i j, best = some y → list.findIdx? (· == y) = some i →
        list.findIdx? (· == x) = some j → j ≤ i) → stays)) ∧
    (s.ftu.mode = .freeRun ∨ s.ftu.mode = .holdover →
      (∀ y, best = some y → moves (.locked y)) ∧ (best = none → stays))

/-! ### The System Memory Port -/

/-- READ_ISSUE: with an empty posted-write queue the oldest waiting request takes the lowest-numbered FREE tag, with a
timeout 16 frames ahead; with a write in the queue, no request or no FREE tag, nothing is issued (R157).
READ_TIMEOUT and QUARANTINE_END (R159): an OUTSTANDING tag whose deadline has passed fails its read, and a QUARANTINED
tag whose deadline has passed is FREE; that a deadline which has not passed changes nothing is log 3.
READ_UNIT_ARRIVAL (R158, R159): a first unit with its error flag fails the read; so does LAST before, or MORE at, the
expected count; LAST at the expected count completes it, its data goes to the reader and the tag is FREE; any other
unit is kept. A failed read's tag is QUARANTINED for 64 frames. A unit of a QUARANTINED tag is discarded, one of a
FREE tag sets STRAY. -/
def Obligations.MemoryReads : Prop :=
  ((∀ s : State, s.resetLow = false →
      (∀ r rest k, s.smp.writes = [] → s.smp.waiting = r :: rest → s.tag k = .free → (∀ j, j < k → s.tag j ≠ .free) →
        ∃ t, exec .readIssue s = .next t ∧ t.tag k = .outstanding r 0 [] (s.counter + 16) ∧
          (∀ j, j ≠ k → t.tag j = s.tag j) ∧ t.smp.writes = [] ∧ ∃ more, t.smp.waiting = rest ++ more) ∧
      (s.smp.writes ≠ [] ∨ s.smp.waiting = [] ∨ (∀ k, s.tag k ≠ .free) →
        exec .readIssue s = .next (State.finish s s))) ∧
   ∀ (k : Fin 4) (s : State), s.resetLow = false →
     (∀ r n data d, s.tag k = .outstanding r n data d →
       (s.passed d = true → exec (.readTimeout k) s = .next (State.finish s (s.readFailed k r.reader))) ∧
       (s.passed d = false → exec (.readTimeout k) s = .next (State.finish s s))) ∧
     (∀ d, s.tag k = .quarantined d →
       (s.passed d = true → exec (.quarantineEnd k) s = .next (State.finish s (s.setTag k .free))) ∧
       (s.passed d = false → exec (.quarantineEnd k) s = .next (State.finish s s)))) ∧
  ∀ (k : Fin 4) (mark : UnitMark) (error : Bool) (unit : Vector Byte 32) (s : State), s.resetLow = false →
    let arrives := exec (.readUnitArrival k mark error unit) s
    (∀ r n data d, s.tag k = .outstanding r n data d → let full := n + 1 = r.length / 32
      let failed := arrives = .next (State.finish s (s.readFailed k r.reader))
      (n = 0 → error = true → failed) ∧
      (n ≠ 0 ∨ error = false → mark = .last → ¬full → failed) ∧
      (n ≠ 0 ∨ error = false → mark = .more → full → failed) ∧
      (n ≠ 0 ∨ error = false → mark = .last → full →
        arrives = .next (State.finish s ((s.setTag k .free).readDone r.reader (data ++ unit.toList)))) ∧
      (n ≠ 0 ∨ error = false → mark = .more → ¬full →
        arrives = .next (State.finish s (s.setTag k (.outstanding r (n + 1) (data ++ unit.toList) d))))) ∧
    (∀ d, s.tag k = .quarantined d → arrives = .next (State.finish s s)) ∧
    (s.tag k = .free → arrives = .next (State.finish s (s.setAttn (s.attn ||| 0b001000#6)))) ∧
    ∀ reader, (s.readFailed k reader).tag k = .quarantined (s.counter + 64)

/-- The first waiting runner claim takes a place while the posted-write queue has room (R161): a result write joins
the tail; a take is offered again with every check made again, so that it takes its record, or, where the checks now
ask for another place, waits for that (log 8); and a SETTLED word joins the tail with the order settled, one open
order fewer, and its notice unless the order is quiet (R34). Without room, nothing is granted.
How claims come about (R34, R161): the result writes of a record take the room there is and claim places for the rest,
all at once; but a runner one of whose claims still waits settles no further record, and keeps its further claims until
its waiting one has a place or is withdrawn, when it makes those it has kept longest. That it keeps the claims of SETTLED
and TAKEN words so too is log 42. -/
def Obligations.PlacesGranted : Prop :=
  (∀ s : State, s.resetLow = false →
    (∀ n w rest, s.smp.writes.length < 8 → s.smp.claims = .result n w :: rest → exec .writePlaceGrant s = .next
      (State.finish s ((s.setSmp { s.smp with claims := rest, writes := s.smp.writes ++ [w] }).makeHeld n))) ∧
    (∀ n rest, s.smp.writes.length < 8 → s.smp.claims = .take n :: rest → exec .writePlaceGrant s = .next
      (State.finish s (((s.setSmp { s.smp with claims := rest }).reoffer n true).makeHeld n))) ∧
    (∀ n id x rest, s.smp.writes.length < 8 → s.smp.claims = .settled n id :: rest → s.findSettle id = some x →
      let t := (s.setSmp { s.smp with claims := rest }).queueSettled x
      exec .settledWrite s = .next (State.finish s (t.makeHeld n)) ∧
        t.smp = { s.smp with claims := rest, writes := s.smp.writes ++ [s.wordWrite x.ref.addr 3 (.settled id)] } ∧
        t.settles = s.settles.filter (fun y => y.id != x.id) ∧
        (t.runner x.ref.runner).openCount = (s.runner x.ref.runner).openCount - 1 ∧
        (x.ref.quiet = true → t.nte.pending = s.nte.pending) ∧
        (x.ref.quiet = false → s.nte.pending.length < 16 → t.nte.pending =
          s.nte.pending ++ [⟨s.counter, .orderSettled x.ref.runner x.ref.addr x.ref.tag x.code⟩])) ∧
    (8 ≤ s.smp.writes.length → exec .writePlaceGrant s = .next (State.finish s s) ∧
      exec .settledWrite s = .next (State.finish s s))) ∧
  (∀ (s : State) (n : Fin 4), let waits := ∃ c ∈ s.smp.claims, c.runner = n
     let kept := fun l => { s.smp with held := s.smp.held.set n.val l }
     (waits ∨ s.heldClaims n = [] → s.makeHeld n = s) ∧
     (∀ l rest, ¬waits → s.heldClaims n = l :: rest →
       s.makeHeld n = s.setSmp { kept rest with claims := s.smp.claims ++ l }) ∧
     (∀ c : WriteClaim, c.runner = n →
       (waits ∨ s.heldClaims n ≠ [] → s.makeClaim c = s.setSmp (kept (s.heldClaims n ++ [[c]]))) ∧
       (¬waits → s.heldClaims n = [] → s.makeClaim c = s.setSmp { s.smp with claims := s.smp.claims ++ [c] })) ∧
     s.withdrawTake n = (s.setSmp { kept ((s.heldClaims n).filter fun l => l != [.take n]) with
       claims := s.smp.claims.filter fun c => c != .take n }).makeHeld n) ∧
  ∀ (s : State) (ref : OrderRef) (code : ResultCode) (values : List Byte) (members : List (Byte × Byte)),
    let n := ref.runner; let waits := ∃ c ∈ s.smp.claims, c.runner = n
    let l := s.resultWrites s.nextSettle ref code values members; let t := s.settleOrder ref code values members
    let room := 8 - s.smp.writes.length
    t.settles = s.settles ++ [⟨s.nextSettle, ref, code, 1 + (members.length + 3) / 4⟩] ∧
    (waits ∨ s.heldClaims n ≠ [] → t.smp =
      { s.smp with held := s.smp.held.set n.val (s.heldClaims n ++ [l.map fun w => .result n w]) }) ∧
    (¬waits → s.heldClaims n = [] → s.smp.claims ≠ [] → t.smp =
      { s.smp with claims := s.smp.claims ++ l.map fun w => .result n w }) ∧
    (s.heldClaims n = [] → s.smp.claims = [] → t.smp =
      { s.smp with writes := s.smp.writes ++ l.take room, claims := (l.drop room).map fun w => .result n w })

/-- WRITE_ANSWER and WRITE_TIMEOUT (R160, R162, R34): done removes the sent head and tells its claimant, NOTICE being
set for a notice entry; the last result write of a record done, its runner claims the SETTLED write; a reject, or 16
frames without an answer, removes the head and reports it, and a rejected result write ends the record's settle with no
SETTLED word and no notice of its own; an answer for no sent write sets STRAY. That WRITE_TIMEOUT changes nothing before
its deadline is log 3, and that the other result writes of such a record still go out is log 22. That a rejected SETTLED
write only reports MEMORY_FAULT, and changes neither the open count nor the notice, is the model's choice (log 18), and so
is that an answer is always that of the write now sent (log 48). -/
def Obligations.WriteAnswers : Prop :=
  ∀ (reply : WriteReply) (s : State), s.resetLow = false →
    (∀ d w rest, s.smp.sent = some d → s.smp.writes = w :: rest → let t := s.setSmp { s.smp with writes := rest, sent := none }
      exec (.writeAnswer .done) s = .next (State.finish s (t.writeDone w)) ∧
      exec (.writeAnswer .reject) s = .next (State.finish s (t.writeFailed w .reject)) ∧
      (s.passed d = true → exec .writeTimeout s = .next (State.finish s (t.writeFailed w .timeout))) ∧
      (s.passed d = false → exec .writeTimeout s = .next (State.finish s s)) ∧
      (w.claimant = .notice → t.writeDone w = t.setAttn (t.attn ||| 0b000001#6) ∧
        ∀ cause, t.writeFailed w cause = t.setAttn (t.attn ||| 0b000100#6)) ∧
      (∀ r cause, w.claimant = .row r → t.writeDone w = t ∧
        t.writeFailed w cause = (t.handNotice (.memoryFault w.addr cause true)).raise .memoryFault) ∧
      (∀ cause, (∃ n, w.claimant = .taken n) ∨ (∃ id, w.claimant = .settled id) → t.writeDone w = t ∧
        t.writeFailed w cause = (t.handNotice (.memoryFault w.addr cause false)).raise .memoryFault) ∧
      (∀ id cause, w.claimant = .result id → let u := (t.handNotice (.memoryFault w.addr cause false)).raise .memoryFault
        (t.findSettle id = none → t.writeDone w = t ∧ t.writeFailed w cause = u) ∧
        ∀ x, t.findSettle id = some x →
          let left := t.setSettles (t.settles.map fun y =>
            if y.id = id then { y with writesLeft := y.writesLeft - 1 } else y)
          (x.writesLeft = 1 → t.writeDone w = left.makeClaim (.settled x.ref.runner id)) ∧
          (x.writesLeft ≠ 1 → t.writeDone w = left) ∧
          t.writeFailed w cause = (u.setSettles (t.settles.filter fun y => y.id != x.id)).setRunner x.ref.runner
            { t.runner x.ref.runner with openCount := (t.runner x.ref.runner).openCount - 1 })) ∧
    (s.smp.sent = none → exec (.writeAnswer reply) s = .next (State.finish s (s.setAttn (s.attn ||| 0b001000#6))))

/-! ### The runners -/

/-- A fetch reads the first unit at the cursor; at a cursor that is no multiple of 64 the runner is FAULTED with
BAD_ADDRESS, its cursor kept, and RUNNER_FAULT is set (R28, R33).
What a runner does on a first unit (R28, R29): it parks for 800 frames on a word that is not ARMED; it follows a NEXT
record to its target with the streak one higher, or is FAULTED with NEXT_LOOP and its cursor kept when the streak
already stands at 8; it reads the remaining units of a record that has more, and offers a record that is complete. A
record that is ARMED and was taken by another runner since the read was issued is read again.
What an offer does (R30, R31, R38): a record that needs what it does not find is held, and the runner is WAITING; else it
is taken, when TAKEN finds a place or has been granted one, and the runner waits for that place otherwise (log 8). A take
writes TAKEN, marks the other runners at its address, counts the record open, clears the streak, advances the cursor by
the record's units and fetches; a malformed record settles MALFORMED, with a notice whatever its quiet flag says, and a
valid one acts at its owner.
The Control Block read of a START (R21, R26): while no bases are latched, bases that pass their checks are latched
with the notice position at 0, and bases that do not fault the runner with BAD_ADDRESS and latch nothing; bases
latched before stay. The runner then takes its chain head as its cursor and fetches, or is FAULTED with BAD_ADDRESS,
its cursor kept, when the head is no multiple of 64. -/
def Obligations.RunnerFetches : Prop :=
  (∀ (s : State) (n : Fin 4), let r := s.runner n
     (r.cursor.toNat % 64 = 0 → s.fetch n =
       (s.setRunner n { r with state := .fetching, recheck := none, held := none, told := false, raced := false,
                               reading := some .firstUnit }).setSmp
         { s.smp with waiting := s.smp.waiting ++ [⟨.runner n, r.cursor, 64⟩] }) ∧
     (r.cursor.toNat % 64 ≠ 0 → ((s.fetch n).runner n).state = .faulted ∧ ((s.fetch n).runner n).fault = .badAddress ∧
       ((s.fetch n).runner n).cursor = r.cursor ∧ ((s.fetch n).runner n).recheck = none ∧
       ((s.fetch n).runner n).held = none ∧ (s.fetch n).attn.getLsbD 1 = true ∧ (s.fetch n).smp = s.smp)) ∧
  (∀ (s : State) (n : Fin 4) (rec : List Byte), let r := s.runner n; let t := s.firstArrived n rec
     (firstUnit s.cfg.byteOrder rec = .notArmed → (t.runner n).state = .parked ∧ (t.runner n).cursor = r.cursor ∧
       (t.runner n).recheck = some (s.counter + 800) ∧ t.smp = s.smp) ∧
     (∀ target, firstUnit s.cfg.byteOrder rec = .next target → r.raced = false →
       (r.streak ≠ 8 → target.toNat % 64 = 0 → (t.runner n).state = .fetching ∧ (t.runner n).cursor = target ∧
         (t.runner n).streak = r.streak + 1 ∧ (t.runner n).openCount = r.openCount ∧ t.smp.writes = s.smp.writes) ∧
       (r.streak = 8 → (t.runner n).state = .faulted ∧ (t.runner n).fault = .nextLoop ∧ (t.runner n).cursor = r.cursor)) ∧
     (∀ units, firstUnit s.cfg.byteOrder rec = .more units → r.raced = false → t =
       (s.setRunner n { r with reading := some (.remainder rec) }).setSmp
         { s.smp with waiting := s.smp.waiting ++ [⟨.runner n, r.cursor + 64, 64 * units⟩] }) ∧
     (firstUnit s.cfg.byteOrder rec = .complete → r.raced = false → t = s.offer n rec false) ∧
     (firstUnit s.cfg.byteOrder rec ≠ .notArmed → r.raced = true → t = s.fetch n) ∧
     ∀ first, r.reading = some (.remainder first) →
       (r.raced = false → s.runnerRead n rec = s.offer n (first ++ rec) false) ∧
       (r.raced = true → s.runnerRead n rec = s.fetch n)) ∧
  (∀ (s : State) (n : Fin 4) (rec : List Byte) (granted : Bool), let r := s.runner n; let x := recordOf s.cfg rec
     let t := s.offer n rec granted; let ref := recordRef s.cfg.byteOrder n r.cursor rec
     let waiting := fun why => s.setRunner n
       { r with state := .waiting, held := some ⟨rec, why⟩, reading := none, told := false }
     let place := granted = true ∨ s.smp.claims = [] ∧ s.smp.writes.length < 8
     (∀ why, s.recordWaits n x = some why → t = waiting why) ∧
     (s.recordWaits n x = none → ¬place → t = (waiting .writePlace).makeClaim (.take n)) ∧
     (s.recordWaits n x = none → place → let v := s.queueWrite (s.wordWrite r.cursor 2 (.taken n))
       ∃ u : State, t = (u.actOnRecord ref x).fetch n ∧ u.smp = v.smp ∧ u.queue = s.queue ∧ u.watch = s.watch ∧
         u.circuits = s.circuits ∧ u.bridges = s.bridges ∧ u.settles = s.settles ∧ u.nextSettle = s.nextSettle ∧
         u.runner n = { r with state := .fetching, openCount := r.openCount + 1, streak := 0, held := none, told := false,
                               reading := none, cursor := r.cursor + BitVec.ofNat 64 (64 * State.Record.units x) } ∧
         (∀ m, m ≠ n → u.runner m = { s.runner m with raced := (s.runner m).raced || (s.runner m).cursor == r.cursor }) ∧
         (∀ k, x = .malformed k → s.recordWaits n x = none ∧ u.actOnRecord ref x =
           u.settleOrder { ref with quiet := false } .malformed (List.replicate 16 0)) ∧
         (x = .fence → u.actOnRecord ref x = u.settleOrder ref .done (List.replicate 16 0)) ∧
         ∀ order k, x = .order order k → u.actOnRecord ref x = u.dispatch ref order)) ∧
  (∀ (o : ByteOrder) (block : List Byte) (b : Bases), blockBases o block = some b ↔
     fieldAt o block 0x20 8 % 32 = 0 ∧ 16 ≤ fieldAt o block 0x28 2 ∧ fieldAt o block 0x28 2 ≤ 1024 ∧
     fieldAt o block 0x30 8 % 32 = 0 ∧
     b = ⟨BitVec.ofNat 64 (fieldAt o block 0x20 8), fieldAt o block 0x28 2, BitVec.ofNat 64 (fieldAt o block 0x30 8)⟩) ∧
  ∀ (s : State) (n : Fin 4) (block : List Byte), let t := s.blockArrived n block
    let found := blockBases s.cfg.byteOrder block
    let head := BitVec.ofNat 64 (fieldAt s.cfg.byteOrder block (8 * n.val) 8)
    let faulted := (t.runner n).state = .faulted ∧ (t.runner n).fault = .badAddress ∧
      (t.runner n).cursor = (s.runner n).cursor ∧ t.smp = s.smp
    (∀ b, s.nte.bases = some b → t.nte.bases = some b ∧ t.nte.position = s.nte.position) ∧
    (∀ b, s.nte.bases = none → found = some b → t.nte.bases = some b ∧ t.nte.position = 0) ∧
    (s.nte.bases = none → found = none → t.nte.bases = none ∧ faulted) ∧
    (s.nte.bases ≠ none ∨ found ≠ none → head.toNat % 64 ≠ 0 → faulted) ∧
    (s.nte.bases ≠ none ∨ found ≠ none → head.toNat % 64 = 0 → (t.runner n).state = .fetching ∧
      (t.runner n).cursor = head ∧ t.smp = { s.smp with waiting := s.smp.waiting ++ [⟨.runner n, head, 64⟩] })

/-- What the octets of a record are found to be (R14, R22, R23, R28 to R30, R37, R51, R57, R104, R107, R128, R151, 13.1,
13.2). A first unit whose word is not ARMED is not taken; an ARMED NEXT names its target; a GROUP whose unit count agrees with
its member count asks for its other units; every other ARMED record is complete. A record whose unit count does not agree
with its kind is MALFORMED and one unit long. Else each kind is MALFORMED when a field of it is out of range, a field it
requires is absent, or two members or candidates clash, and is otherwise the order that its fields spell: match limit 0
standing for 4,000 frames, a target and an expected generation only where their flags are set, and for TO_FIBRE no target
and for TO_COPPER no bearer slot. -/
def Obligations.RecordsValidated : Prop :=
  ∀ (cfg : SiteConfig) (rec : List Byte), 64 ≤ rec.length → let o := cfg.byteOrder; let r := recordOf cfg rec
    let at1 := fun x => byteAt rec x; let at2 := fun x => fieldAt o rec x 2; let flag := fun n => (byteAt rec 6).getLsbD n
    let kind := (at1 4).toNat; let units := (at1 5).toNat; let n := (at1 0x10).toNat
    let agrees := kind = 3 ∧ 1 ≤ n ∧ n ≤ 32 ∧ units = 1 + (n + 7) / 8 ∨ 1 ≤ kind ∧ kind ≠ 3 ∧ kind ≤ 11 ∧ units = 1
    let armed := fieldAt o rec 0 4 = 1
    let circuit : CircuitNo := (at1 0x10).toFin
    let position := fun b : Byte => (⟨(b.extractLsb' 5 3).toFin, (b.extractLsb' 0 5).toFin⟩ : LinePos)
    let target := if flag 2 then some (position (at1 0x14)) else none
    let expected := if flag 1 then some (BitVec.ofNat 16 (at2 0x0C)) else none
    let wait := fieldAt o rec 0x1C 4; let matchField := at2 0x18
    let matchFits := matchField = 0 ∨ 800 ≤ matchField ∧ matchField ≤ 65535
    let matchLimit := if matchField = 0 then 4000 else matchField
    let valid := fun (fits : Prop) (order : Order) => (fits → r = .order order units) ∧ (¬fits → r = .malformed units)
    (¬armed → firstUnit o rec = .notArmed) ∧
    (armed → kind = 11 → units = 1 → firstUnit o rec = .next (BitVec.ofNat 64 (fieldAt o rec 0x10 8))) ∧
    (armed → kind = 3 → agrees → firstUnit o rec = .more (units - 1)) ∧
    (armed → kind ≠ 3 ∧ kind ≠ 11 ∨ ¬agrees → firstUnit o rec = .complete) ∧
    (¬agrees → r = .malformed 1) ∧
    (agrees → kind = 10 → r = .fence) ∧
    (let fibre := at1 0x11 = 0
     let fits := (fibre ∧ (at1 0x12 = 0 ∨ at1 0x12 = 1) ∨ at1 0x11 = 1) ∧ matchFits
     let move : MoveOrder :=
       { circuit := circuit, direction := if fibre then .toFibre else .toCopper,
         span := if fibre ∧ at1 0x12 = 1 then .b else .a, slot := if fibre then (at1 0x13).toFin else 0,
         target := if fibre then none else target, expectedGeneration := expected, quick := flag 4,
         matchLimit := matchLimit }
     (agrees → kind = 1 → valid (fits ∧ wait ≤ 1048575) (.migrate move (flag 3) wait)) ∧
     (agrees → kind = 2 → valid (fits ∧ 1 ≤ wait ∧ wait ≤ 1048575) (.expect { move with quick := false } wait))) ∧
    (let member := fun i : Nat => let x := 64 + 8 * i; let mark := fun k => (at1 (x + 1)).getLsbD k
       ({ circuit := (at1 x).toFin, direction := if mark 0 then .toCopper else .toFibre,
          span := if mark 0 = false ∧ mark 1 = true then .b else .a, slot := if mark 0 then 0 else (at1 (x + 2)).toFin,
          target := if mark 0 = true ∧ mark 2 = true then some (position (at1 (x + 2))) else none,
          expectedGeneration := if mark 3 then some (BitVec.ofNat 16 (at2 (x + 3))) else none, quick := flag 4,
          matchLimit := matchLimit } : MoveOrder)
     let clash := fun a b : MoveOrder => a.circuit = b.circuit ∨
       a.direction = .toFibre ∧ b.direction = .toFibre ∧ a.span = b.span ∧ a.slot = b.slot ∨
       a.direction = .toCopper ∧ b.direction = .toCopper ∧ a.target ≠ none ∧ a.target = b.target
     agrees → kind = 3 → valid (matchFits ∧ ∀ i j, i < j → j < n → ¬clash (member i) (member j))
       (.group ((List.range n).map member))) ∧
    (agrees → kind = 4 → valid (at1 0x11 ≤ 2)
      (.abandon circuit (if at1 0x11 = 0 then .none else if at1 0x11 = 1 then .back else .forward))) ∧
    (agrees → kind = 5 → valid (wait ≤ 1048575) (.trim circuit wait)) ∧
    (agrees → kind = 6 → valid (at1 0x11 ≤ 3 ∧ (at1 0x11 = 0 ∨ at1 0x11 = 2 → flag 2 = true))
      (.map (if at1 0x11 = 0 then .setLine else if at1 0x11 = 1 then .unequip else if at1 0x11 = 2 then .equip else .forget)
        circuit target expected)) ∧
    (agrees → kind = 7 → r = .order (.recover circuit target expected) units) ∧
    (agrees → kind = 8 → valid (at1 0x10 ≤ 1 ∧ at1 0x11 ≤ 2 ∧ (at1 0x11 = 2 → at2 0x18 ≠ 0))
      (.span (if at1 0x10 = 0 then .a else .b)
        (if at1 0x11 = 0 then .enable else if at1 0x11 = 1 then .disable else .prove) (at2 0x18))) ∧
    (agrees → kind = 9 →
      let source := fun (b : Byte) (x : Source) =>
        ((b.extractLsb' 6 2).toNat = 0 ∧ x = .office (b.extractLsb' 0 3).toFin) ∨
        ((b.extractLsb' 6 2).toNat = 1 ∧ x = .line (b.extractLsb' 0 3).toFin ∧
          cfg.clockRoles[(b.extractLsb' 0 3).toNat]? = some .follow) ∨
        ((b.extractLsb' 6 2).toNat = 2 ∧ (b.extractLsb' 0 3).toNat = 0 ∧ x = .span .a ∧ cfg.spanAPresent = true) ∨
        ((b.extractLsb' 6 2).toNat = 2 ∧ (b.extractLsb' 0 3).toNat = 1 ∧ x = .span .b ∧ cfg.spanBPresent = true)
      let spelled := fun list : List Source => 1 ≤ n ∧ n ≤ 4 ∧ list.length = n ∧ list.Nodup ∧
        ∀ k x, list[k]? = some x → source (at1 (0x12 + k)) x
      (∀ list, spelled list → at1 0x11 ≤ 1 → r = .order (.timing list (at1 0x11 == 1)) units) ∧
      ((∀ list, ¬spelled list) ∨ 1 < at1 0x11 → r = .malformed units))

/-- A WAITING runner that has been told of a place offers its units again (R31, R39): a MIGRATE without WAIT_IDLE
whose circuit is not busy joins the tail of the admission queue when it has room, and the runner counts it open,
clears its streak, advances its cursor by one unit and fetches; when the queue is full again, the runner stays
WAITING. That a runner that has not been told does nothing is log 3, and that the entry stands in the queue after the
step also where it has become the head, which the step does not examine, is the model's choice (log 38). Every other
record it holds it offers in the same way, unless it has lost the record to another runner's take, when it reads it again.
What each order asks for at its take, and what it does there (R38, R39, R57, R105): a busy circuit settles BUSY; a MIGRATE
with WAIT_IDLE on a circuit that is not IDLE, and a TRIM of a hold on one, need a place on the watch list and join it;
every other MIGRATE, every EXPECT and every GROUP needs a queue place, beyond those that ready watch entries will take
(log 27), and joins the tail of the queue; a TRIM that finds the circuit IDLE or without a hold needs none.
A runner WAITING on a FENCE takes it when its open count is 0: the FENCE settles DONE, the open count goes to 1, the
streak to 0 and the cursor one unit on; with orders still open it goes on waiting (R32). -/
def Obligations.HeldRecordsRetried : Prop :=
  (∀ (n : Fin 4) (s : State) (rec : List Byte) (m : MoveOrder) (limit : Nat), s.resetLow = false →
     let r := s.runner n
     r.state = .waiting → r.held = some ⟨rec, .queuePlace⟩ → r.raced = false →
     recordOf s.cfg rec = .order (.migrate m false limit) 1 → s.busy m.circuit = false →
     (r.told = true → s.queueRoom = true → s.smp.writes.length < 8 → s.smp.claims = [] → r.cursor.toNat % 64 = 0 →
       ∃ t, exec (.waitingReoffer n) s = .next t ∧
         t.queue = s.queue ++ [⟨recordRef s.cfg.byteOrder n r.cursor rec, .migrate m⟩] ∧
         t.smp.writes = s.smp.writes ++ [s.wordWrite r.cursor 2 (.taken n)] ∧
         (t.runner n).state = .fetching ∧ (t.runner n).openCount = r.openCount + 1 ∧ (t.runner n).streak = 0 ∧
         (t.runner n).cursor = r.cursor + 64 ∧ (t.runner n).held = none) ∧
     (r.told = true → s.queueRoom = false → ∃ t, exec (.waitingReoffer n) s = .next t ∧
       (t.runner n).state = .waiting ∧ (t.runner n).held = some ⟨rec, .queuePlace⟩ ∧ t.queue = s.queue ∧
       t.smp.writes = s.smp.writes) ∧
     (r.told = false → exec (.waitingReoffer n) s = .next (State.finish s s))) ∧
  (∀ (n : Fin 4) (s : State) (h : HeldRecord), s.resetLow = false → let r := s.runner n
     r.state = .waiting → r.held = some h → r.told = true →
     (r.raced = false → exec (.waitingReoffer n) s = .next (State.finish s (s.offer n h.units false))) ∧
     (r.raced = true → exec (.waitingReoffer n) s = .next (State.finish s (s.fetch n)))) ∧
  (∀ (s : State) (ref : OrderRef) (m : MoveOrder) (waitIdle : Bool) (limit window : Nat) (c : CircuitNo)
     (members : List MoveOrder),
     let full := 16 ≤ s.queue.length + (s.watch.filter fun w => w.readyMark.isSome).length
     let queuePlace := if full then some WaitFor.queuePlace else none
     let watchPlace := if 16 ≤ s.watch.length then some WaitFor.watchPlace else none
     let migrate := Order.migrate m waitIdle limit
     let busy := fun x : MoveOrder => s.busy x.circuit = true
     let settlesBusy := fun x : MoveOrder => s.settleMove ref .busy
       { generation := (s.circuit x.circuit).generation, pathState := some (s.circuit x.circuit).pathState }
     let watching := waitIdle = true ∧ s.activity m.circuit ≠ .idle
     (busy m → s.orderWaits migrate = none ∧ s.dispatch ref migrate = settlesBusy m ∧
       s.orderWaits (.expect m window) = none ∧ s.dispatch ref (.expect m window) = settlesBusy m) ∧
     (¬busy m → watching → s.orderWaits migrate = watchPlace ∧ s.dispatch ref migrate = s.setWatch (s.watch ++
       [⟨ref, m.circuit, .migrate m, if limit = 0 then none else some (s.after limit), none⟩])) ∧
     (¬busy m → ¬watching →
       s.orderWaits migrate = queuePlace ∧ s.dispatch ref migrate = s.setQueue (s.queue ++ [⟨ref, .migrate m⟩])) ∧
     (¬busy m → s.orderWaits (.expect m window) = queuePlace ∧
       s.dispatch ref (.expect m window) = s.setQueue (s.queue ++ [⟨ref, .expect m window⟩])) ∧
     ((∃ x ∈ members, busy x) → s.orderWaits (.group members) = none) ∧
     (∀ k, members.findIdx? (fun x => s.busy x.circuit) = some k →
       s.dispatch ref (.group members) = s.settleLone ref members k .busy) ∧
     ((∀ x ∈ members, ¬busy x) → s.orderWaits (.group members) = queuePlace ∧
       s.dispatch ref (.group members) = s.setQueue (s.queue ++ [⟨ref, .group members⟩])) ∧
     (let trims := s.busy c = false ∧ (s.circuit c).hold ≠ 0 ∧ s.activity c ≠ .idle
      (trims → s.orderWaits (.trim c limit) = watchPlace) ∧ (¬trims → s.orderWaits (.trim c limit) = none))) ∧
  ∀ (n : Fin 4) (s : State) (rec : List Byte), s.resetLow = false → let r := s.runner n
    r.state = .waiting → r.held = some ⟨rec, .fence⟩ → r.raced = false → recordOf s.cfg rec = .fence →
    (r.openCount = 0 → s.smp.writes.length < 8 → s.smp.claims = [] → r.cursor.toNat % 64 = 0 →
      ∃ t, exec (.fenceRetry n) s = .next t ∧
        t.settles = s.settles ++ [⟨s.nextSettle, recordRef s.cfg.byteOrder n r.cursor rec, .done, 1⟩] ∧
        (t.runner n).state = .fetching ∧ (t.runner n).openCount = 1 ∧ (t.runner n).streak = 0 ∧
        (t.runner n).cursor = r.cursor + 64) ∧
    (r.openCount ≠ 0 → exec (.fenceRetry n) s = .next (State.finish s s))

/-! ### Admission and the bridge table -/

/-- ADMISSION_START with one MIGRATE in the queue and a free entry (R42, R43, R47, R84, R86). Refused by a start check, it
settles with that code and nothing is allocated. Passing, it starts in the lowest-numbered free entry, as the
initiator in OFFERING with the span's transaction number, the OFFERING deadline and the first retry; its circuit is
BRIDGED with its generation one higher and its to-path fed; a target that was its own vacated position is so no
more; its OFFER takes its place in the span's transmit queue, or the entry's message waits. A TO_FIBRE move whose line
port is LOST at its start starts all the same, with the loss of its from-path applied to it: its receive moves to the span
by a forced roll of offset 0, and its line feed is off (R43, R79, log 24). The step's own effect leads to `u`; its end is
that of `StepEnd`, and changes `u` no more where no group entry is in use. -/
def Obligations.AdmissionStarts : Prop :=
  ∀ (s : State) (ref : OrderRef) (m : MoveOrder) (i : BridgeNo), s.resetLow = false →
    s.queue = [⟨ref, .migrate m⟩] → s.bridge i = none → (∀ j, j < i → s.bridge j ≠ none) →
    (∀ code, s.startCheck m = some code → ∃ t, exec .admissionStart s = .next t ∧ t.queue = [] ∧
      t.settles = s.settles ++ [⟨s.nextSettle, ref, code, 1⟩] ∧ t.bridges = s.bridges ∧ t.groups = s.groups ∧
      t.circuits = s.circuits ∧ t.lineOcc = s.lineOcc ∧ t.spanOcc = s.spanOcc ∧ t.spans = s.spans) ∧
    (∀ b p, s.startCheck m = none → s.moveBearer m = some b → s.moveLine m = some p →
      let k := s.circuit m.circuit; let x := s.span b.span; let lost := m.direction == .toFibre && !s.linePresent p
      let onto := m.direction == .toCopper && k.vacated == some p
      let offer : RollMessage := ⟨.offer, b.slot, x.txnCounter, s.cfg.rank, m.direction, m.quick, none⟩
      ∃ u e, exec .admissionStart s = .next (State.finish s u) ∧
        ((∀ g, s.group g = none) → (State.finish s u).settledPart = u.settledPart) ∧
        u.queue = [] ∧ u.settles = s.settles ∧ u.groups = s.groups ∧ u.bridge i = some e ∧
        (∀ j, j ≠ i → u.bridge j = s.bridge j) ∧
        (lost = false → e.offset = none ∧ e.forced = false ∧ e.fromLost = false ∧ e.rolled = false) ∧
        (lost = true → e.offset = some 0 ∧ e.forced = true ∧ e.fromLost = true ∧ e.rolled = true) ∧
        e.circuit = m.circuit ∧ e.direction = m.direction ∧ e.role = .initiator ∧ e.bearer = b ∧ e.linePos = p ∧
        e.phase = .offering ∧ e.txn = some x.txnCounter ∧ e.quick = m.quick ∧ e.peerRolled = false ∧
        e.matchLimit = m.matchLimit ∧ e.deadline = some (s.counter + 800) ∧ e.retryDue = some (s.counter + 80) ∧
        e.ref = some ref ∧ e.group = none ∧ e.outcome = none ∧ e.ontoVacated = onto ∧
        (∀ q, placeMessage x.txQueue i offer = some q → e.pending = false ∧
          u.span b.span = { x with txnCounter := x.txnCounter + 1, txQueue := q }) ∧
        (placeMessage x.txQueue i offer = none → e.pending = true ∧
          u.span b.span = { x with txnCounter := x.txnCounter + 1 }) ∧
        (∀ sp, sp ≠ b.span → u.span sp = s.span sp) ∧ (∀ c, c ≠ m.circuit → u.circuit c = s.circuit c) ∧
        u.circuit m.circuit = { k with
          pathState := .bridged, bridgeIndex := some i, groupIndex := none, generation := k.generation + 1,
          vacated := if onto then none else k.vacated
          receive := if lost || k.pathState == .stranded then .span else k.receive
          spanFeed := m.direction == .toFibre || k.pathState == .stranded || k.spanFeed
          lineFeed := m.direction == .toCopper || !lost && k.lineFeed
          hold := if k.pathState = .stranded then 0 else if lost then (seamNumbers k.hold 0).hold else k.hold } ∧
        (m.direction = .toFibre → (u.slotEntry b).use = .bridged m.circuit ∧ u.lineOcc = s.lineOcc ∧
          ∀ q, q ≠ b → u.slotEntry q = s.slotEntry q) ∧
        (m.direction = .toCopper → u.lineUse p = .occupied m.circuit ∧ u.spanOcc = s.spanOcc ∧
          ∀ q, q ≠ p → u.lineUse q = s.lineUse q))

/-- ADMISSION_START with one EXPECT in the queue and a free entry (R42, R43, R46). Refused by a start check, it
settles with that code and nothing is allocated. Passing, it starts in the lowest-numbered free entry, as the
responder in AWAITING_OFFER with the expect window as its deadline and no txn; its circuit is BRIDGED with its
generation one higher and its to-path marked, and keeps its receive, hold and feeds, but that a STRANDED one is
returned to those of FIBRE, and that the line feed of one whose line port is LOST is off, with the loss noted (R43, R79,
log 24). ADMISSION_START with one GROUP in the queue (R42, R84, R86, R104 to R107). With fewer free entries
than members, or no free group entry, nothing happens. The first member that fails its checks refuses the whole GROUP
with its code, and nothing is allocated. Passing, the GROUP takes the lowest-numbered free group entry, RUNNING with its
gate CLOSED and its count the number of members, and the n-th member starts in the n-th of the free entries, as an
initiator in OFFERING of that group, with the next transaction number of its span; the members' OFFERs take their places
in the transmit queues one after another, in member order, or wait. That a member's entry holds no order reference of its
own is the model's choice (log 44). In each the step's own effect leads to `u`, and its end is that of `StepEnd`. -/
def Obligations.ExpectAndGroupStart : Prop :=
  (∀ (s : State) (ref : OrderRef) (m : MoveOrder) (window : Nat) (i : BridgeNo), s.resetLow = false →
     s.queue = [⟨ref, .expect m window⟩] → s.bridge i = none → (∀ j, j < i → s.bridge j ≠ none) →
     (∀ code, s.startCheck m = some code → ∃ t, exec .admissionStart s = .next t ∧ t.queue = [] ∧
       t.settles = s.settles ++ [⟨s.nextSettle, ref, code, 1⟩] ∧ t.bridges = s.bridges ∧ t.groups = s.groups ∧
       t.circuits = s.circuits ∧ t.lineOcc = s.lineOcc ∧ t.spanOcc = s.spanOcc ∧ t.spans = s.spans) ∧
     (∀ b p, s.startCheck m = none → s.moveBearer m = some b → s.moveLine m = some p →
       let k := s.circuit m.circuit; let lost := m.direction == .toFibre && !s.linePresent p
       let onto := m.direction == .toCopper && k.vacated == some p
       ∃ u e, exec .admissionStart s = .next (State.finish s u) ∧
         ((∀ g, s.group g = none) → (State.finish s u).settledPart = u.settledPart) ∧
         u.queue = [] ∧ u.settles = s.settles ∧ u.spans = s.spans ∧ u.groups = s.groups ∧
         u.bridge i = some e ∧ e.circuit = m.circuit ∧ e.direction = m.direction ∧ e.role = .responder ∧ e.bearer = b ∧
         e.linePos = p ∧ e.phase = .awaitingOffer ∧ e.txn = none ∧ e.quick = false ∧ e.peerRolled = false ∧
         e.matchLimit = m.matchLimit ∧ e.deadline = some (s.after window) ∧ e.retryDue = none ∧ e.offset = none ∧
         e.forced = false ∧ e.repeats = 0 ∧ e.skipped = 0 ∧ e.pending = false ∧ e.ref = some ref ∧ e.group = none ∧
         e.fromLost = lost ∧ e.ontoVacated = onto ∧
         (∀ j, j ≠ i → u.bridge j = s.bridge j) ∧ (∀ c, c ≠ m.circuit → u.circuit c = s.circuit c) ∧
         u.circuit m.circuit = { k with
           pathState := .bridged, bridgeIndex := some i, groupIndex := none, generation := k.generation + 1,
           vacated := if onto then none else k.vacated
           receive := if k.pathState = .stranded then .span else k.receive
           spanFeed := if k.pathState = .stranded then true else k.spanFeed
           lineFeed := !lost && k.lineFeed
           hold := if k.pathState = .stranded then 0 else k.hold } ∧
         (m.direction = .toFibre → (u.slotEntry b).use = .bridged m.circuit ∧ u.lineOcc = s.lineOcc ∧
           ∀ q, q ≠ b → u.slotEntry q = s.slotEntry q) ∧
         (m.direction = .toCopper → u.lineUse p = .occupied m.circuit ∧ u.spanOcc = s.spanOcc ∧
           ∀ q, q ≠ p → u.lineUse q = s.lineUse q))) ∧
  ∀ (s : State) (ref : OrderRef) (members : List MoveOrder), s.resetLow = false →
    s.queue = [⟨ref, .group members⟩] → members ≠ [] →
    (s.freeBridges.length < members.length ∨ (∀ g, s.group g ≠ none) →
      exec .admissionStart s = .next (State.finish s s)) ∧
    ∀ g, s.group g = none → (∀ h, h < g → s.group h ≠ none) → members.length ≤ s.freeBridges.length →
      (∀ k m code, members.findIdx? (fun x => (s.startCheck x).isSome) = some k → members[k]? = some m →
        s.startCheck m = some code → ∃ t, exec .admissionStart s = .next t ∧ t.queue = [] ∧
          t.settles = s.settles ++ [⟨s.nextSettle, ref, code, 1 + (members.length + 3) / 4⟩] ∧ t.bridges = s.bridges ∧
          t.groups = s.groups ∧ t.circuits = s.circuits ∧ t.lineOcc = s.lineOcc ∧ t.spanOcc = s.spanOcc ∧
          t.spans = s.spans) ∧
      ((∀ m ∈ members, s.startCheck m = none) → membersApart members = true →
        let on := fun (sp : Span) (m : MoveOrder) => (s.moveBearer m).any fun b => b.span == sp
        ∃ (u : State) (queue : Nat → Span → List QueuedMessage), exec .admissionStart s = .next (State.finish s u) ∧
          ((∀ h, s.group h = none) → (State.finish s u).settledPart = u.settledPart) ∧
          u.queue = [] ∧ u.settles = s.settles ∧
          u.group g = some
            { ref := ref, count := members.length, gate := .closed, state := .running, cause := none,
              members := (members.zip s.freeBridges).map fun x => ⟨x.1.circuit, some x.2, false, none⟩ } ∧
          (∀ h, h ≠ g → u.group h = s.group h) ∧ (∀ j, s.bridge j ≠ none → u.bridge j = s.bridge j) ∧
          (∀ c, (∀ m ∈ members, c ≠ m.circuit) → u.circuit c = s.circuit c) ∧
          (∀ sp, queue 0 sp = (s.span sp).txQueue ∧ u.span sp = { s.span sp with
            txQueue := queue members.length sp
            txnCounter := (s.span sp).txnCounter + BitVec.ofNat 8 (members.countP (on sp)) }) ∧
          ∀ n m i b, members[n]? = some m → s.freeBridges[n]? = some i → s.moveBearer m = some b →
            let txn := (s.span b.span).txnCounter + BitVec.ofNat 8 ((members.take n).countP (on b.span))
            let offer : RollMessage := ⟨.offer, b.slot, txn, s.cfg.rank, m.direction, m.quick, none⟩
            ∃ e, u.bridge i = some e ∧ e.circuit = m.circuit ∧ e.direction = m.direction ∧ e.role = .initiator ∧
              e.bearer = b ∧ s.moveLine m = some e.linePos ∧ e.phase = .offering ∧ e.txn = some txn ∧ e.quick = m.quick ∧
              e.matchLimit = m.matchLimit ∧ e.deadline = some (s.counter + 800) ∧ e.retryDue = some (s.counter + 80) ∧
              e.ref = none ∧ e.group = some (g, n) ∧ (u.circuit m.circuit).pathState = .bridged ∧
              (u.circuit m.circuit).bridgeIndex = some i ∧ (u.circuit m.circuit).groupIndex = some g ∧
              (u.circuit m.circuit).generation = (s.circuit m.circuit).generation + 1 ∧
              (∀ sp, sp ≠ b.span → queue (n + 1) sp = queue n sp) ∧
              (∀ q, placeMessage (queue n b.span) i offer = some q → queue (n + 1) b.span = q ∧ e.pending = false) ∧
              (placeMessage (queue n b.span) i offer = none → queue (n + 1) b.span = queue n b.span ∧ e.pending = true))

/-- READY_ENTRY_ADMIT and WAIT_EXPIRY (R39, R40, R41): the earliest ready MIGRATE moves to the tail of a queue with a
free place and leaves the watch list; a watch entry whose wait deadline has passed is removed, and its order settles
WAIT_EXPIRED. The earliest ready entry is the one with the most frames since its ready mark and, of those with the same
mark, the one with the lowest circuit number (R40). That WAIT_EXPIRY changes nothing for an entry without a deadline or
with one that has not passed, and READY_ENTRY_ADMIT nothing without a free place or a ready entry, is log 3. -/
def Obligations.WatchListLeft : Prop :=
  (∀ s : State,
    (s.firstReady = none ↔ ∀ w ∈ s.watch, w.readyMark = none) ∧
    ∀ w, s.firstReady = some w → w ∈ s.watch ∧ ∃ m, w.readyMark = some m ∧
      ∀ x ∈ s.watch, ∀ n, x.readyMark = some n →
        (s.counter - n).toNat < (s.counter - m).toNat ∨ n = m ∧ w.circuit ≤ x.circuit) ∧
  ∀ s : State, s.resetLow = false →
    (∀ w m, s.queue.length < 16 → s.firstReady = some w → w.body = .migrate m →
      exec .readyEntryAdmit s = .next (State.finish s ((s.setWatch (s.watch.filter fun x => x.circuit != w.circuit)).setQueue
        (s.queue ++ [⟨w.ref, .migrate m⟩])))) ∧
    (16 ≤ s.queue.length ∨ s.firstReady = none → exec .readyEntryAdmit s = .next (State.finish s s)) ∧
    (∀ c w d, s.watchOf c = some w → w.deadline = some d → s.passed d = true → ∃ t, exec (.waitExpiry c) s = .next t ∧
      t.watch = s.watch.filter (fun x => x.circuit != c) ∧ t.queue = s.queue ∧
      t.settles = s.settles ++ [⟨s.nextSettle, w.ref, .waitExpired, 1⟩] ∧ t.circuits = s.circuits) ∧
    (∀ c, (s.watchOf c = none ∨ ∃ w, s.watchOf c = some w ∧ s.due w.deadline = false) →
      exec (.waitExpiry c) s = .next (State.finish s s))

/-- An ABANDON settles with the code of what it does, in this order of places (R51 to R56): an order in the admission
queue is withdrawn, a GROUP whole, and settles ABANDONED; so is one on the watch list; an entry in AWAITING_OFFER is
freed ABANDONED; one before its point of no return unwinds with ABANDONED and ORDERED; and each of these, with
FORWARD, is BAD_STATE and nothing is changed. Past the point of no return NONE is TOO_LATE, BACK unwinds with
FALLBACK, FORCED, and FORWARD completes a responder in ROLLED, FORCED, or finds an entry in RELEASING, DONE. In
UNWINDING it is DONE, or BAD_STATE with FORWARD; with nothing pending it is NOTHING. Its values are the generation,
path state and phase after it has acted. -/
def Obligations.AbandonOrders : Prop :=
  (∀ (s : State) (ref : OrderRef) (c : CircuitNo) (force : Force), let u := (s.abandonPending c force).1
     let code := (s.abandonPending c force).2; let t := s.dispatch ref (.abandon c force)
     t = u.settleMove ref code
       { generation := (u.circuit c).generation, pathState := some (u.circuit c).pathState,
         phase := ((u.circuit c).bridgeIndex.bind u.bridge).map Bridge.phase } ∧
     t.settles = u.settles ++ [⟨u.nextSettle, ref, code, 1⟩]) ∧
  ∀ (s : State) (c : CircuitNo), let acts := s.abandonPending c
    let queued := s.queue.find? fun q => q.circuits.contains c
    let kept := fun t : State => t.bridges = s.bridges ∧ t.circuits = s.circuits ∧ t.spans = s.spans
    (queued = none → s.watchOf c = none → (s.circuit c).bridgeIndex = none → ∀ force, acts force = (s, .nothing)) ∧
    (∀ q, queued = some q → acts .forward = (s, .badState) ∧ ∀ force, force ≠ .forward →
      ∃ t, acts force = (t, .done) ∧ t.queue = s.queue.filter (fun x => !x.circuits.contains c) ∧ kept t ∧
        t.watch = s.watch ∧ t.settles = s.settles ++ [⟨s.nextSettle, q.ref, .abandoned, match q.body with
          | .group members => 1 + (members.length + 3) / 4
          | .migrate _ | .expect _ _ => 1⟩]) ∧
    (∀ w, queued = none → s.watchOf c = some w → acts .forward = (s, .badState) ∧ ∀ force, force ≠ .forward →
      ∃ t, acts force = (t, .done) ∧ t.watch = s.watch.filter (fun x => x.circuit != c) ∧ kept t ∧ t.queue = s.queue ∧
        t.settles = s.settles ++ [⟨s.nextSettle, w.ref, .abandoned, 1⟩]) ∧
    ∀ i e, queued = none → s.watchOf c = none → (s.circuit c).bridgeIndex = some i → s.bridge i = some e →
      let backward := fun x : State × ResultCode => ∀ force, force ≠ .forward → acts force = x
      let back := acts .back = (s.unwind i .fallback (some .ordered), .forced)
      (e.phase = .awaitingOffer → acts .forward = (s, .badState) ∧ backward (s.freeAs i .abandoned, .done)) ∧
      (e.phase = .offering ∨ e.phase = .matching ∨ (e.phase = .rolled ∧ e.role = .initiator) →
        acts .forward = (s, .badState) ∧ backward (s.unwind i .abandoned (some .ordered), .done)) ∧
      (e.phase = .rolled → e.role = .responder → acts .none = (s, .tooLate) ∧ back ∧
        let t := s.setBridge i (some
          { e with forced := true, phase := .releasing, retryDue := none, outcome := some .doneForced })
        (e.fromLost = false → acts .forward = (t.beginGuard i, .forced)) ∧
        (e.fromLost = true → acts .forward = (t.freeEntry i, .forced))) ∧
      (e.phase = .releasing → acts .none = (s, .tooLate) ∧ back ∧ acts .forward = (s, .done)) ∧
      (e.phase = .unwinding → acts .forward = (s, .badState) ∧ backward (s, .done))

/-- A TRIM at its take (R57, R58): on a busy circuit BUSY; at hold 0 DONE with dropped count 0 and nothing changed; on
an IDLE circuit the hold becomes 0, no held octet is delivered, and the TRIM settles DONE with the hold as its dropped
count; else it joins the watch list, with its wait limit as its deadline unless the limit is 0. When the circuit of a
waiting TRIM becomes IDLE, the TRIM leaves the list, drops the hold and settles DONE (R40, R59). The generation is not
changed. The values of a TRIM that is BUSY are log 21, and that the drop of a hold also ends the repeats still owed is
log 30. -/
def Obligations.TrimOrders : Prop :=
  ∀ (s : State) (ref : OrderRef) (c : CircuitNo) (limit : Nat), let t := s.dispatch ref (.trim c limit)
    let k := s.circuit c; let values := s.placeValues c
    let trimmed := fun (t : State) (ref : OrderRef) =>
      t.settles = s.settles ++ [⟨s.nextSettle, ref, .done, 1⟩] ∧ t.circuit c = { k with hold := 0 } ∧
      (∀ d, d ≠ c → t.circuit d = s.circuit d ∧ t.alignOf d = s.alignOf d) ∧
      (k.hold = 0 → t.alignOf c = s.alignOf c) ∧
      (k.hold ≠ 0 → t.alignOf c = { s.alignOf c with repeatsDue := 0 })
    (s.busy c = true → t = s.settleMove ref .busy values) ∧
    (s.busy c = false → k.hold = 0 → t = s.settleMove ref .done { values with dropped := 0 } ∧ trimmed t ref) ∧
    (s.busy c = false → k.hold ≠ 0 → s.activity c = .idle →
      t = (s.dropHold c).settleMove ref .done { values with dropped := k.hold } ∧ trimmed t ref) ∧
    (s.busy c = false → k.hold ≠ 0 → s.activity c ≠ .idle → t = s.setWatch (s.watch ++
      [⟨ref, c, .trim, if limit = 0 then none else some (s.after limit), none⟩])) ∧
    ∀ w, s.watchOf c = some w → w.body = .trim → w.circuit = c →
      let u := s.watchIdle c; u.watch = s.watch.filter (fun x => x.circuit != c) ∧ trimmed u w.ref

/-- The deadlines of an entry (R48, R65, R90, R92): past its expect window an entry in AWAITING_OFFER is freed
EXPIRED; an initiator in OFFERING unwinds with NO_ANSWER, an entry in MATCHING with MATCH_TIMEOUT, its match
forgotten, unless a match or the QUICK condition met in an earlier frame comes first, and an entry in ROLLED with
PEER_STALL. That a match found in the frame in which the deadline passed is forgotten, and one found earlier comes
first, is log 25.
The ends of the guards (R71, R74): past its deadline the from-path feed of an entry in RELEASING stops, the to-path
feed of one in UNWINDING stops, and the entry is freed with its outcome.
OFFER_RETRY and ROLLED_RETRY (R90, R91): when its retry due has passed, an initiator in OFFERING and a responder in
ROLLED hand their message again, and the next retry is due 80 frames ahead. That each of these commands changes nothing
before its deadline, in another phase or where no entry is in use is log 3. -/
def Obligations.EntryDeadlines : Prop :=
  (∀ (i : BridgeNo) (e : Bridge) (s : State), s.resetLow = false → s.bridge i = some e →
     (∀ d, e.deadline = some d → s.passed d = true →
       let earlier := fun due : Option FrameNo => ∃ f, due = some f ∧ (f - d).msb = true
       (e.phase = .awaitingOffer → exec (.expectWindowExpiry i) s = .next (State.finish s (s.freeAs i .expired))) ∧
       (e.phase = .offering →
         exec (.noAnswerExpiry i) s = .next (State.finish s (s.unwind i .noAnswer (some .noAnswer)))) ∧
       (e.phase = .matching → ¬earlier e.matchDue → ¬earlier e.quickDue → exec (.matchDeadlineExpiry i) s = .next
         (State.finish s ((s.setBridge i (some { e with offset := none })).unwind i .matchTimeout (some .matchTimeout)))) ∧
       (e.phase = .matching → earlier e.matchDue ∨ earlier e.quickDue →
         exec (.matchDeadlineExpiry i) s = .next (State.finish s s)) ∧
       (e.phase = .rolled →
         exec (.peerStallExpiry i) s = .next (State.finish s (s.unwind i .peerStall (some .peerStall))))) ∧
     (s.due e.deadline = false → exec (.expectWindowExpiry i) s = .next (State.finish s s) ∧
       exec (.noAnswerExpiry i) s = .next (State.finish s s) ∧
       exec (.matchDeadlineExpiry i) s = .next (State.finish s s) ∧
       exec (.peerStallExpiry i) s = .next (State.finish s s)) ∧
     (e.phase ≠ .awaitingOffer → exec (.expectWindowExpiry i) s = .next (State.finish s s)) ∧
     (e.phase ≠ .offering → exec (.noAnswerExpiry i) s = .next (State.finish s s)) ∧
     (e.phase ≠ .matching → exec (.matchDeadlineExpiry i) s = .next (State.finish s s)) ∧
     (e.phase ≠ .rolled → exec (.peerStallExpiry i) s = .next (State.finish s s))) ∧
  (∀ (i : BridgeNo) (s : State), s.resetLow = false → s.bridge i = none →
     ∀ c ∈ [Instr.expectWindowExpiry i, .noAnswerExpiry i, .matchDeadlineExpiry i, .peerStallExpiry i, .releaseGuardEnd i,
       .unwindGuardEnd i, .offerRetry i, .rolledRetry i], exec c s = .next (State.finish s s)) ∧
  (∀ (i : BridgeNo) (e : Bridge) (s : State), s.resetLow = false → s.bridge i = some e →
     (e.phase = .releasing → s.due e.deadline = true →
       exec (.releaseGuardEnd i) s = .next (State.finish s ((s.stopFromFeed e).freeEntry i))) ∧
     (e.phase = .unwinding → s.due e.deadline = true →
       exec (.unwindGuardEnd i) s = .next (State.finish s ((s.stopToFeed e).freeEntry i))) ∧
     (s.due e.deadline = false ∨ e.phase ≠ .releasing → exec (.releaseGuardEnd i) s = .next (State.finish s s)) ∧
     (s.due e.deadline = false ∨ e.phase ≠ .unwinding → exec (.unwindGuardEnd i) s = .next (State.finish s s))) ∧
  ∀ (i : BridgeNo) (e : Bridge) (s : State), s.resetLow = false → s.bridge i = some e →
    (s.due e.retryDue = true →
      let again := State.finish s ((s.setBridge i (some { e with retryDue := some (s.counter + 80) })).handMessage i)
      (e.phase = .offering → exec (.offerRetry i) s = .next again) ∧
      (e.phase = .rolled → e.role = .responder → exec (.rolledRetry i) s = .next again)) ∧
    (s.due e.retryDue = false ∨ e.phase ≠ .offering → exec (.offerRetry i) s = .next (State.finish s s)) ∧
    (s.due e.retryDue = false ∨ e.phase ≠ .rolled ∨ e.role = .initiator →
      exec (.rolledRetry i) s = .next (State.finish s s))

/-- The numbers of a seam switch: the repeats, the new hold and the skipped octets; a matched offset skips nothing,
and the switch back with the offset reversed leaves the greater of the old hold and the offset (R11, R73).
OWN_ROLL (R64, R67, R68, R69): an entry in MATCHING rolls with its matched offset after a match, and with offset 0
after the QUICK condition, the receive moving to the to-path through the seam; a responder of no group then stands in
ROLLED with ROLLED due again in 80 frames, and an initiator goes on to the release decision from ROLLED, with a
PEER_STALL deadline unless the peer has rolled. That OWN_ROLL changes nothing when no match or QUICK condition is due is
log 3, and that the repeats of a switch replace those still owed by an earlier one is the model's choice (log 40).
The release decision (R70, R71): an initiator in ROLLED enters RELEASING when the peer has rolled, or it was forced and
its from-path is lost, and it is in no group or its group's gate is OPEN; otherwise nothing happens. Entering RELEASING
fixes the outcome, DONE_FORCED for a forced entry and else DONE, clears the deadline and the retry due and hands RELEASE;
with the from-path lost the entry is freed in the same step, and on a span out of service its guard of 64 frames begins
at once. -/
def Obligations.OwnRoll : Prop :=
  (∀ (hx : Nat) (d : Int), hx ≤ 15 → let r := seamNumbers hx d
     (r.repeats : Int) = max 0 (d - hx) ∧ (r.hold : Int) = min 15 (max 0 (hx - d)) ∧
     (r.skipped : Int) = max 0 (hx - d - 15) ∧
     (max (-15) ((hx : Int) - 15) ≤ d → d ≤ 15 → r.skipped = 0 ∧ r.repeats ≤ 15 ∧ (r.hold : Int) = max 0 (hx - d) ∧
       ((seamNumbers r.hold (-d)).hold : Int) = max (hx : Int) d)) ∧
  (∀ (s : State) (i : BridgeNo) (e : Bridge), s.bridge i = some e →
     let permits := e.group = none ∨ ∃ g n x, e.group = some (g, n) ∧ s.group g = some x ∧ x.gate = .opened
     let completes := e.role = .initiator ∧ e.phase = .rolled ∧ (e.peerRolled = true ∨ e.forced = true ∧ e.fromLost = true) ∧
       permits
     let outcome : ResultCode := if e.forced then .doneForced else .done
     let u := (s.setBridge i (some
       { e with phase := .releasing, deadline := none, retryDue := none, outcome := some outcome })).handMessage i
     (completes → s.releaseDecision i = s.enterReleasing i) ∧ (¬completes → s.releaseDecision i = s) ∧
     (e.fromLost = false → s.inService e.bearer.span = true → s.enterReleasing i = u) ∧
     (e.fromLost = false → s.inService e.bearer.span = false → s.enterReleasing i = u.beginGuard i) ∧
     (e.fromLost = true → let t := s.enterReleasing i
       t = u.freeEntry i ∧ t.bridge i = none ∧
       ∀ ref, e.group = none → e.ref = some ref → t.settles = s.settles ++ [⟨s.nextSettle, ref, outcome, 1⟩]) ∧
     s.freeEntry i = s.freeAs i (e.outcome.getD .done) ∧
     s.beginGuard i = s.setBridge i (some { e with deadline := some (e.deadline.getD (s.counter + 64)) })) ∧
  ∀ (i : BridgeNo) (e : Bridge) (s : State), s.resetLow = false → s.bridge i = some e → e.phase = .matching →
    (∀ d f, e.matchDue = some f → e.offset = some d →
      exec (.ownRoll i .matched) s = .next (State.finish s ((s.roll i d false).enterRolled i))) ∧
    (∀ f, e.quickDue = some f → exec (.ownRoll i .quick) s = .next (State.finish s ((s.roll i 0 false).enterRolled i))) ∧
    (e.matchDue = none → exec (.ownRoll i .matched) s = .next (State.finish s s)) ∧
    (e.quickDue = none → exec (.ownRoll i .quick) s = .next (State.finish s s)) ∧
    (∀ d, let t := s.roll i d false; let r := seamNumbers (s.circuit e.circuit).hold d
      (t.circuit e.circuit).receive = (match e.direction with | .toFibre => .span | .toCopper => .line) ∧
      (t.circuit e.circuit).hold = r.hold ∧ (t.circuit e.circuit).generation = (s.circuit e.circuit).generation ∧
      (t.alignOf e.circuit).repeatsDue = r.repeats ∧
      t.bridge i = some { e with offset := some d, repeats := e.repeats + r.repeats, skipped := e.skipped + r.skipped,
                                 rolled := true, matcher := none, matchDue := none, quickDue := none }) ∧
    (e.role = .initiator → s.enterRolled i = (s.setBridge i (some
      { e with phase := .rolled, retryDue := none,
               deadline := if e.peerRolled then none else some (s.counter + 16000) })).releaseDecision i) ∧
    (e.role = .responder → s.enterRolled i = (s.setBridge i (some
      { e with phase := .rolled, deadline := none, retryDue := some (s.counter + 80) })).handMessage i)

/-- Entry into UNWINDING (R73): the outcome, the reason, and the marks of a DECLINE and of a lost to-path are those of the
cause, the deadline and the retry due are cleared, the matcher ends, a rolled circuit's receive returns to the from-path by
the reversed seam with its repeats and skips added to the totals, the from-path is fed unless it is lost, and the to-path
feed stops when that path is lost (R77). Nothing else changes. An entry already in UNWINDING does not unwind again; every
other one, having entered, hands its ABANDON while its span is IN_SERVICE and the cause was no DECLINE, and where none is
sent it is freed at once when its to-path is lost, and else begins its guard (R73, R74, R77). -/
def Obligations.UnwindBegins : Prop :=
  (∀ (s : State) (i : BridgeNo) (e : Bridge) (outcome : ResultCode) (reason : Option Reason) (declined toLost : Bool),
     s.bridge i = some e → let t := s.enterUnwinding i outcome reason declined toLost
     let lost := s.fromPathLost e; let k := s.circuit e.circuit; let r := seamNumbers k.hold (-(e.offset.getD 0))
     (e.phase = .unwinding → s.unwind i outcome reason declined toLost = s) ∧
     (e.phase ≠ .unwinding → s.unwind i outcome reason declined toLost = t.sendAbandon i) ∧
     t.bridge i = some { e with
       phase := .unwinding, deadline := none, retryDue := none, outcome := some outcome, unwindReason := reason,
       declined := declined, freeOnPlace := toLost, matcher := none, matchDue := none, quickDue := none, rolled := false,
       fromLost := lost, repeats := if e.rolled then e.repeats + r.repeats else e.repeats,
       skipped := if e.rolled then e.skipped + r.skipped else e.skipped } ∧
     t.circuit e.circuit = { k with
       hold := if e.rolled then r.hold else k.hold,
       receive := if e.rolled then (match e.direction with | .toFibre => .line | .toCopper => .span) else k.receive,
       lineFeed := match e.direction with
         | .toFibre => !lost
         | .toCopper => if toLost then false else k.lineFeed,
       spanFeed := match e.direction with
         | .toFibre => if toLost then false else k.spanFeed
         | .toCopper => !lost } ∧
     (t.alignOf e.circuit).repeatsDue = (if e.rolled then r.repeats else (s.alignOf e.circuit).repeatsDue) ∧
     (∀ c, c ≠ e.circuit → t.circuit c = s.circuit c ∧ t.alignOf c = s.alignOf c) ∧
     (∀ j, j ≠ i → t.bridge j = s.bridge j) ∧
     { t with circuits := s.circuits, align := s.align, bridges := s.bridges } = s) ∧
  ∀ (s : State) (i : BridgeNo) (e : Bridge), s.bridge i = some e → let t := s.sendAbandon i
    (s.inService e.bearer.span = true → e.declined = false → t = s.handMessage i) ∧
    (s.inService e.bearer.span = false ∨ e.declined = true →
      (e.freeOnPlace = true → t = s.freeEntry i) ∧ (e.freeOnPlace = false → t = s.beginGuard i))

/-- The freeing of an entry (R3, R6, R10, R19, R50, R72): the entry is free; its circuit has no bridge and no group
index, its generation is one higher, its last migration record names the move unless there was no txn; RELEASED
TO_FIBRE it stands on the bearer slot, its line position VACATED by it and an older vacated position FREE; RELEASED
TO_COPPER it is COPPER on the target, and UNWOUND TO_FIBRE COPPER as before, each with the bearer slot FREE; UNWOUND
TO_COPPER it stands on its bearer slot as before and the target is FREE, or VACATED by it again when the target was
its own vacated position. On a bearer slot it is FIBRE while the span is IN_SERVICE and else STRANDED. An order
reference outside a group settles with the outcome. Every other circuit, line position, bearer slot and entry is as it
was, with everything that `still` keeps. -/
def Obligations.EntryFreed : Prop :=
  ∀ (s : State) (i : BridgeNo) (e : Bridge) (o : ResultCode), s.bridge i = some e →
    let t := s.freeAs i o; let k := s.circuit e.circuit; let x := t.circuit e.circuit
    let released := o = .done ∨ o = .doneForced
    let onFibre := x.pathState = (if s.inService e.bearer.span then .fibre else .stranded) ∧ x.bearer = some e.bearer ∧
      x.receive = (if s.inService e.bearer.span then .span else .none) ∧ x.lineFeed = false ∧
      x.spanFeed = s.inService e.bearer.span
    let onCopper := x.pathState = .copper ∧ x.receive = .line ∧ x.lineFeed = true ∧ x.spanFeed = false ∧
      t.slotEntry e.bearer = ⟨.free, some e.circuit⟩ ∧ t.lineOcc = s.lineOcc ∧ x.vacated = k.vacated
    t.bridge i = none ∧ x.bridgeIndex = none ∧ x.groupIndex = none ∧ x.generation = k.generation + 1 ∧
    (e.txn = none → x.lastMigration = k.lastMigration) ∧
    (∀ n, e.txn = some n → released → x.lastMigration = some ⟨e.bearer, n, e.role, .released⟩) ∧
    (∀ n, e.txn = some n → ¬released → x.lastMigration = some ⟨e.bearer, n, e.role, .unwound⟩) ∧
    (e.direction = .toFibre → released → onFibre ∧ x.linePos = none ∧ x.vacated = some e.linePos ∧
      (t.slotEntry e.bearer).use = .assigned e.circuit ∧ (∀ p, t.lineUse p =
        if p = e.linePos then .vacated e.circuit else if k.vacated = some p then .free else s.lineUse p)) ∧
    (e.direction = .toCopper → released → onCopper ∧ x.linePos = some e.linePos ∧ x.bearer = none) ∧
    (e.direction = .toFibre → ¬released → onCopper ∧ x.linePos = k.linePos) ∧
    (e.direction = .toCopper → ¬released → onFibre ∧ x.linePos = k.linePos ∧ t.slotEntry e.bearer = s.slotEntry e.bearer ∧
      x.vacated = (if e.ontoVacated then some e.linePos else k.vacated) ∧ ∀ p, t.lineUse p =
        if p = e.linePos then if e.ontoVacated then .vacated e.circuit else .free else s.lineUse p) ∧
    (∀ ref, e.group = none → e.ref = some ref → t.settles = s.settles ++ [⟨s.nextSettle, ref, o, 1⟩]) ∧
    (e.group ≠ none ∨ e.ref = none → t.settles = s.settles) ∧
    (∀ b, b ≠ e.bearer → t.slotEntry b = s.slotEntry b) ∧ (∀ c, c ≠ e.circuit → t.circuit c = s.circuit c) ∧
    (∀ j, j ≠ i → t.bridge j = s.bridge j) ∧ t.still = s.still

/-! ### The Roll Protocol -/

/-- The place of a handed message (R86): it replaces the message of the entry or the answer queued for its slot; it
waits, with the pending flag, behind one that a freed entry has left and while the queue is full; else it joins the
tail. What it replaces gives up its place to it, and no other message moves. Handing (R86, R89): the entry's pending
flag is set exactly when the message finds no place; a placed one begins the guard of an entry in RELEASING or
UNWINDING, or frees one that waited only for it (R71, R74, R77); nothing is handed when no message is called for, on
a span out of service, or while the flag is set. While the queue has room, a waiting entry that is served places its
message and loses its flag, loses it when no message is called for any more, and else keeps it; they are served
lowest index first, and once the room is used every later one keeps its flag (R87). A queue that is emptied takes
the flags of its entries with it (R89). An answer joins the tail when the queue has room and holds no message for its slot,
with the own rank as its sender's; otherwise it is dropped and leaves no trace (R88). -/
def Obligations.MessagePlaced : Prop :=
  (∀ (q : List QueuedMessage) (i : BridgeNo) (m : RollMessage), (∀ x ∈ q, x.message.slot ≠ m.slot) →
      placeMessage q i m = if q.length < 32 then some (q ++ [⟨m, .entry i⟩]) else none) ∧
  (∀ (q : List QueuedMessage) (i : BridgeNo) (m : RollMessage) (old : QueuedMessage), old ∈ q →
     old.message.slot = m.slot → (q.map fun x => x.message.slot).Nodup →
     (old.owner = .freedEntry → placeMessage q i m = none) ∧
     (old.owner ≠ .freedEntry → ∃ q', placeMessage q i m = some q' ∧ q'.length = q.length ∧
       q'.map (fun x => x.message.slot) = q.map (fun x => x.message.slot) ∧ ⟨m, .entry i⟩ ∈ q' ∧
       ∀ x ∈ q, x.message.slot ≠ m.slot → x ∈ q')) ∧
  (∀ (s : State) (i : BridgeNo) (e : Bridge), s.bridge i = some e → let k := s.span e.bearer.span
     (s.entryMessage e = none ∨ s.inService e.bearer.span = false ∨ e.pending = true → s.handMessage i = s) ∧
     (∀ m, s.entryMessage e = some m → s.inService e.bearer.span = true → e.pending = false →
       (placeMessage k.txQueue i m = none → s.handMessage i = s.setBridge i (some { e with pending := true })) ∧
       (∀ q, placeMessage k.txQueue i m = some q →
         s.handMessage i = (s.setSpan e.bearer.span { k with txQueue := q }).afterPlaced i)) ∧
     (32 ≤ k.txQueue.length → s.serveEntry e.bearer.span i = s) ∧
     (e.pending = true → k.txQueue.length < 32 → let serves := s.serveEntry e.bearer.span i
       let u := s.setBridge i (some { e with pending := false })
       (s.entryMessage e = none → serves = u) ∧
       (∀ m, s.entryMessage e = some m → placeMessage k.txQueue i m = none → serves = s) ∧
       (∀ m q, s.entryMessage e = some m → placeMessage k.txQueue i m = some q →
         serves = (u.setSpan e.bearer.span { k with txQueue := q }).afterPlaced i)) ∧
     (e.pending = false → ∀ sp, s.serveEntry sp i = s) ∧ (∀ sp, e.bearer.span ≠ sp → s.serveEntry sp i = s) ∧
     (e.phase ≠ .releasing → e.phase ≠ .unwinding → s.afterPlaced i = s) ∧
     (e.phase = .releasing ∨ (e.phase = .unwinding ∧ e.freeOnPlace = false) → s.afterPlaced i =
       s.setBridge i (some { e with deadline := some (e.deadline.getD (s.counter + 64)) })) ∧
     (e.phase = .unwinding → e.freeOnPlace = true → s.afterPlaced i = s.freeEntry i)) ∧
  (∀ (s : State) (sp : Span) (kind : MessageKind) (slot : Fin 256) (txn : Byte) (reason : Option Reason),
     let k := s.span sp; let t := s.answer sp kind slot txn reason
     (k.txQueue.length < 32 → (∀ x ∈ k.txQueue, x.message.slot ≠ slot) → t = s.setSpan sp { k with
       txQueue := k.txQueue ++ [⟨⟨kind, slot, txn, s.cfg.rank, .toFibre, false, reason⟩, .answer⟩] }) ∧
     (32 ≤ k.txQueue.length ∨ (∃ x ∈ k.txQueue, x.message.slot = slot) → t = s)) ∧
  ∀ (s : State) (sp : Span), s.servePending sp = each (List.finRange 48) (fun i t => t.serveEntry sp i) s ∧
    (s.emptyTransmit sp).span sp = { s.span sp with txQueue := [] } ∧
    ∀ i e, s.bridge i = some e → (s.emptyTransmit sp).bridge i =
      some (if e.bearer.span = sp then { e with pending := false } else e)

/-- The messages of a span are decided in the order in which their frames arrived (R83). An arrival command is decided
only when its message is the oldest kept, which then leaves; on a span out of service, from a part of the own rank, or
out of its turn, it changes nothing. That a command is decided with none kept, and that one out of its turn changes
nothing, is log 10. -/
def Obligations.ArrivalsInOrder : Prop :=
  (∀ (s : State) (sp : Span) (m : RollMessage), let k := s.span sp
     (s.arrivalDue sp m = true ↔ k.arrivals = [] ∨ k.arrivals.head? = some m) ∧
     s.popArrival sp = s.setSpan sp { k with arrivals := k.arrivals.tail }) ∧
  ∀ (s : State) (sp : Span) (slot : Fin 256) (txn rank : Byte) (dir : Direction) (quick : Bool) (reason : Reason),
    s.resetLow = false →
    let held := fun (c : Instr) (m : RollMessage) =>
      s.inService sp = false ∨ rank = s.cfg.rank ∨ s.arrivalDue sp m = false → exec c s = .next (State.finish s s)
    let plain := fun kind => (⟨kind, slot, txn, rank, .toFibre, false, none⟩ : RollMessage)
    let reasoned := fun kind => (⟨kind, slot, txn, rank, .toFibre, false, some reason⟩ : RollMessage)
    held (.offerArrival sp slot txn rank dir quick) ⟨.offer, slot, txn, rank, dir, quick, none⟩ ∧
    held (.acceptArrival sp slot txn rank) (plain .accept) ∧
    held (.declineArrival sp slot txn rank reason) (reasoned .decline) ∧
    held (.rolledArrival sp slot txn rank) (plain .rolled) ∧
    held (.releaseArrival sp slot txn rank) (plain .release) ∧
    held (.abandonArrival sp slot txn rank reason) (reasoned .abandon)

/-- ACCEPT (R98): an initiator in OFFERING with its txn has the retry due and the deadline cleared and enters
MATCHING, or ROLLED when it was forced-rolled; every other entry ignores it; without an entry the slot's record
decides (R94). Which ACCEPT is decided is the model's choice (log 10): the oldest message kept from the span's frames, or,
with none kept, one that the command itself brings. -/
def Obligations.AcceptArrives : Prop :=
  ∀ (sp : Span) (slot : Fin 256) (txn rank : Byte) (s : State), s.resetLow = false → s.inService sp = true →
    rank ≠ s.cfg.rank →
    s.arrivalDue sp ⟨.accept, slot, txn, rank, .toFibre, false, none⟩ = true →
    let taken := s.popArrival sp
    let arrives := exec (.acceptArrival sp slot txn rank) s
    (∀ i e, taken.entryOn ⟨sp, slot⟩ = some (i, e) →
      (e.role = .initiator → e.txn = some txn → e.phase = .offering →
        let cleared := taken.setBridge i (some { e with retryDue := none, deadline := none })
        (e.rolled = false → arrives = .next (State.finish s (cleared.enterMatching i))) ∧
        (e.rolled = true → arrives = .next (State.finish s (cleared.enterRolled i)))) ∧
      (e.role = .responder ∨ e.txn ≠ some txn ∨ e.phase ≠ .offering → arrives = .next (State.finish s taken))) ∧
    (taken.entryOn ⟨sp, slot⟩ = none →
      arrives = .next (State.finish s (taken.answerFromRecord ⟨sp, slot⟩ .accept txn)))

/-- OFFER at a responder (R95): in AWAITING_OFFER one of the entry's direction gives the entry its txn and its QUICK
flag, its to-path is fed and it enters MATCHING, and one of the other direction is answered MISMATCH; a duplicate
makes the entry hand its message again, but for one in RELEASING; one of another txn is answered BUSY.
OFFER at an initiator (R96): in OFFERING it is ignored when the own rank is the higher, answered MISMATCH when the
directions differ, answered BUSY by a group member, and else the entry yields: it is a responder with the OFFER's txn
and QUICK flag and enters MATCHING. In any other phase it is answered BUSY. That a group member in OFFERING too
answers an OFFER of the other direction MISMATCH is log 17.
Entry into MATCHING (R62, R67, R79): the match limit ahead is the deadline, the retry due is cleared, a new matcher
begins with the offsets from max(−15, h − 15) for a hold of h, the roll of a QUICK entry on an IDLE circuit is due, and
the message of the phase is handed, a responder's ACCEPT. An entry that was forced-rolled in OFFERING enters ROLLED
instead. An entry whose from-path is lost takes that loss in the same step, by a forced roll into ROLLED; that it does so
in place of its ACCEPT, and after a loss that has ended too, is log 24. -/
def Obligations.OfferArrives : Prop :=
  (∀ (s : State) (i : BridgeNo) (e : Bridge), s.bridge i = some e → let t := s.enterMatching i
     let x : Bridge :=
       { e with phase := .matching, deadline := some (s.after e.matchLimit), retryDue := none, matchDue := none,
                matcher := some { toHistory := [], fromHistory := [], runs := List.replicate 31 0,
                                  lowest := max (-15) (((s.circuit e.circuit).hold : Int) - 15) },
                quickDue := if e.quick = true ∧ s.activity e.circuit = .idle then some s.counter else none }
     let u := s.setBridge i (some x)
     let lost := e.direction = .toFibre ∧ (e.fromLost = true ∨ s.linePresent e.linePos = false)
     (e.rolled = true → t = s.enterRolled i) ∧
     (e.rolled = false → ¬lost → t = u.handMessage i) ∧
     (e.rolled = false → lost →
       t = (((u.stopFromFeed e).setBridge i (some { x with fromLost := true })).roll i 0 true).enterRolled i)) ∧
  (∀ (sp : Span) (slot : Fin 256) (txn rank : Byte) (dir : Direction) (quick : Bool) (s : State) (i : BridgeNo)
     (e : Bridge), s.resetLow = false → s.inService sp = true → rank ≠ s.cfg.rank →
     s.arrivalDue sp ⟨.offer, slot, txn, rank, dir, quick, none⟩ = true →
     let taken := s.popArrival sp
     let arrives := exec (.offerArrival sp slot txn rank dir quick) s
     taken.entryOn ⟨sp, slot⟩ = some (i, e) → e.role = .responder →
     (e.phase = .awaitingOffer → dir = e.direction → arrives = .next (State.finish s
       (((taken.setBridge i (some { e with txn := some txn, quick := quick, deadline := none })).modCircuit e.circuit
         fun k => k.feedTo e.direction true).enterMatching i))) ∧
     (e.phase = .awaitingOffer → dir ≠ e.direction →
       arrives = .next (State.finish s (taken.answer sp .decline slot txn (some .mismatch)))) ∧
     (e.phase = .matching ∨ e.phase = .rolled ∨ e.phase = .unwinding → e.txn = some txn →
       arrives = .next (State.finish s (taken.handMessage i))) ∧
     (e.phase = .releasing → e.txn = some txn → arrives = .next (State.finish s taken)) ∧
     (e.phase ≠ .awaitingOffer → e.txn ≠ some txn →
       arrives = .next (State.finish s (taken.answer sp .decline slot txn (some .busy))))) ∧
  ∀ (sp : Span) (slot : Fin 256) (txn rank : Byte) (dir : Direction) (quick : Bool) (s : State) (i : BridgeNo)
    (e : Bridge), s.resetLow = false → s.inService sp = true → rank ≠ s.cfg.rank →
    s.arrivalDue sp ⟨.offer, slot, txn, rank, dir, quick, none⟩ = true →
    let taken := s.popArrival sp
    let arrives := exec (.offerArrival sp slot txn rank dir quick) s
    taken.entryOn ⟨sp, slot⟩ = some (i, e) → e.role = .initiator →
    (e.phase = .offering → rank < s.cfg.rank → arrives = .next (State.finish s taken)) ∧
    (e.phase = .offering → s.cfg.rank < rank → dir ≠ e.direction →
      arrives = .next (State.finish s (taken.answer sp .decline slot txn (some .mismatch)))) ∧
    (e.phase = .offering → s.cfg.rank < rank → dir = e.direction → e.group ≠ none →
      arrives = .next (State.finish s (taken.answer sp .decline slot txn (some .busy)))) ∧
    (e.phase = .offering → s.cfg.rank < rank → dir = e.direction → e.group = none → arrives = .next (State.finish s
      ((taken.setBridge i (some { e with role := .responder, txn := some txn, quick := quick, peerRolled := false,
                                         retryDue := none, deadline := none })).enterMatching i))) ∧
    (e.phase ≠ .offering → arrives = .next (State.finish s (taken.answer sp .decline slot txn (some .busy))))

/-- DECLINE, ROLLED, RELEASE and ABANDON at the entry on their slot (R99, R100, R101, R102): what each does to the
entry it concerns, and that every other entry ignores it.
What an ABANDON does by phase (R75): an entry in AWAITING_OFFER ignores it; one in OFFERING, MATCHING or ROLLED goes back
to its from-path, by the reversed seam if it had rolled, with that path fed unless it is lost, and is freed
PEER_ABANDONED with its to-path feed stopped; one in UNWINDING stops its to-path feed and is freed with its outcome; and
one in RELEASING only stops its to-path feed. The entry keeps the peer's reason. -/
def Obligations.OtherArrivals : Prop :=
  (∀ (s : State) (i : BridgeNo) (e : Bridge) (reason : Reason), s.bridge i = some e → let t := s.peerAbandon i reason
     let v := s.setBridge i (some { e with peerReason := some reason }); let k := s.circuit e.circuit
     (e.phase = .awaitingOffer → t = s) ∧
     (e.phase = .releasing → t = v.stopToFeed e) ∧
     (e.phase = .unwinding → t = (v.stopToFeed e).freeAs i (e.outcome.getD .done) ∧ t.bridge i = none) ∧
     (e.phase = .offering ∨ e.phase = .matching ∨ e.phase = .rolled → ∃ (u : State) (x : Bridge),
       t = u.freeAs i .peerAbandoned ∧ t.bridge i = none ∧ u.bridge i = some x ∧ x.peerReason = some reason ∧
       x.circuit = e.circuit ∧ x.direction = e.direction ∧ x.ref = e.ref ∧ x.group = e.group ∧ u.settles = s.settles ∧
       (let y := u.circuit e.circuit
        (e.rolled = true → y.hold = (seamNumbers k.hold (-(e.offset.getD 0))).hold ∧
          y.receive = match e.direction with | .toFibre => .line | .toCopper => .span) ∧
        (e.rolled = false → y.hold = k.hold ∧ y.receive = k.receive) ∧
        (e.direction = .toFibre → y.spanFeed = false ∧ y.lineFeed = s.linePresent e.linePos) ∧
        (e.direction = .toCopper → y.lineFeed = false ∧ y.spanFeed = s.inService e.bearer.span)))) ∧
  ∀ (sp : Span) (slot : Fin 256) (txn rank : Byte) (reason : Reason) (s : State) (i : BridgeNo) (e : Bridge),
    s.resetLow = false → s.inService sp = true → rank ≠ s.cfg.rank →
    let taken := s.popArrival sp
    let plain := fun kind => s.arrivalDue sp ⟨kind, slot, txn, rank, .toFibre, false, none⟩ = true
    let reasoned := fun kind => s.arrivalDue sp ⟨kind, slot, txn, rank, .toFibre, false, some reason⟩ = true
    s.entryOn ⟨sp, slot⟩ = some (i, e) →
    (reasoned .decline → let declines := exec (.declineArrival sp slot txn rank reason) s
      (e.role = .initiator → e.txn = some txn → e.phase = .offering → declines = .next (State.finish s
        ((taken.setBridge i (some { e with peerReason := some reason })).unwind i .declined none true))) ∧
      (e.role = .responder ∨ e.txn ≠ some txn ∨ e.phase ≠ .offering → declines = .next (State.finish s taken))) ∧
    (plain .rolled → let rolled := exec (.rolledArrival sp slot txn rank) s
      (e.role = .initiator → e.txn = some txn →
        (e.phase = .offering → rolled = .next (State.finish s ((taken.setBridge i (some
          { e with peerRolled := true, retryDue := none, deadline := none })).enterMatching i))) ∧
        (e.phase = .matching → rolled = .next (State.finish s (taken.setBridge i (some { e with peerRolled := true })))) ∧
        (e.phase = .rolled → rolled = .next (State.finish s ((taken.setBridge i (some
          { e with peerRolled := true, deadline := none })).releaseDecision i))) ∧
        (e.phase = .releasing ∨ e.phase = .unwinding → rolled = .next (State.finish s (taken.handMessage i)))) ∧
      (e.role = .responder ∨ e.txn ≠ some txn → rolled = .next (State.finish s taken))) ∧
    (plain .release → let releases := exec (.releaseArrival sp slot txn rank) s
      let t := taken.setBridge i (some { e with phase := .releasing, retryDue := none, deadline := none,
                                                outcome := some (if e.forced then .doneForced else .done) })
      (e.role = .responder → e.txn = some txn → e.phase = .rolled → e.fromLost = false →
        releases = .next (State.finish s (t.beginGuard i))) ∧
      (e.role = .responder → e.txn = some txn → e.phase = .rolled → e.fromLost = true →
        releases = .next (State.finish s (t.freeEntry i))) ∧
      (e.role = .initiator ∨ e.txn ≠ some txn ∨ e.phase ≠ .rolled → releases = .next (State.finish s taken))) ∧
    (reasoned .abandon → let abandons := exec (.abandonArrival sp slot txn rank reason) s
      (e.txn = some txn → abandons = .next (State.finish s (taken.peerAbandon i reason))) ∧
      (e.txn ≠ some txn → abandons = .next (State.finish s taken)))

/-- An arrival on a slot without an entry is decided from the slot's last migration record, that of the circuit the
slot is ASSIGNED to or, for a FREE slot, of its lastCircuit, when the record names this slot and txn, and is answered
as the table lays down; without such a record an OFFER is answered DECLINE with NOT_EXPECTED, and every other kind is
ignored (R94, R97). -/
def Obligations.RecordAnswers : Prop :=
  (∀ (s : State) (b : BearerSlot) (kind : MessageKind) (txn : Byte), let t := s.answerFromRecord b kind txn
    (∀ r, s.recordFor b txn = some r ↔ r.bearer = b ∧ r.txn = txn ∧ ∃ c, (s.circuit c).lastMigration = some r ∧
      ((s.slotEntry b).use = .assigned c ∨ (s.slotEntry b).use = .free ∧ (s.slotEntry b).lastCircuit = some c)) ∧
    (s.recordFor b txn = none →
      (kind = .offer → t = s.answer b.span .decline b.slot txn (some .notExpected)) ∧ (kind ≠ .offer → t = s)) ∧
    (∀ r, s.recordFor b txn = some r →
      (kind = .abandon → t = s) ∧
      (r.outcome = .released → kind = .rolled → r.role = .initiator → t = s.answer b.span .release b.slot txn none) ∧
      (r.outcome = .released → kind ≠ .rolled ∨ r.role = .responder → t = s) ∧
      (r.outcome = .unwound → kind ≠ .abandon → t = s.answer b.span .abandon b.slot txn (some .concluded)))) ∧
  ∀ (sp : Span) (slot : Fin 256) (txn rank : Byte) (dir : Direction) (quick : Bool) (reason : Reason) (s : State),
    s.resetLow = false → s.inService sp = true → rank ≠ s.cfg.rank → s.entryOn ⟨sp, slot⟩ = none →
    let answers := fun (c : Instr) (m : RollMessage) => s.arrivalDue sp m = true →
      exec c s = .next (State.finish s ((s.popArrival sp).answerFromRecord ⟨sp, slot⟩ m.kind txn))
    let plain := fun kind => (⟨kind, slot, txn, rank, .toFibre, false, none⟩ : RollMessage)
    let reasoned := fun kind => (⟨kind, slot, txn, rank, .toFibre, false, some reason⟩ : RollMessage)
    answers (.offerArrival sp slot txn rank dir quick) ⟨.offer, slot, txn, rank, dir, quick, none⟩ ∧
    answers (.acceptArrival sp slot txn rank) (plain .accept) ∧
    answers (.declineArrival sp slot txn rank reason) (reasoned .decline) ∧
    answers (.rolledArrival sp slot txn rank) (plain .rolled) ∧
    answers (.releaseArrival sp slot txn rank) (plain .release) ∧
    answers (.abandonArrival sp slot txn rank reason) (reasoned .abandon)

/-! ### Notices and the status table -/

/-- A notice joins the tail of the pending queue stamped with the present frame, or, with 16 in it, is lost: the lost
count rises, up to 65,535, and LOST is set (R165, R167). The stamp of an OVERFLOW, which nothing hands, is log 32.
NOTICE_POST, NOTICE_RECHECK and STATUS_ROW_WRITE (R161, R166, R167, R168): OVERFLOW before the head of the pending
queue, into the entry at the notice position, for one credit; a read when the recheck deadline has passed; and the row
that joined the dirty set first, with its update count one higher. That nothing happens without bases, a credit or
something to post, before the deadline, or while the row's place is held back, is log 3. -/
def Obligations.NoticeEngine : Prop :=
  (∀ (s : State) (b : NoticeBody),
     (s.nte.pending.length < 16 → s.handNotice b = s.setNte { s.nte with pending := s.nte.pending ++ [⟨s.counter, b⟩] }) ∧
     (16 ≤ s.nte.pending.length → s.handNotice b =
       (s.setNte { s.nte with lost := min (s.nte.lost + 1) 65535 }).setAttn (s.attn ||| 0b100000#6))) ∧
  ∀ s : State, s.resetLow = false →
    (∀ b, s.nte.bases = some b → s.smp.claims = [] → s.smp.writes.length < 8 →
      (∀ n rest, s.nte.credits ≠ 0 → s.nte.lost = 0 → s.nte.pending = n :: rest → exec .noticePost s = .next (State.finish s
        ((s.setNte { s.nte with pending := rest, credits := s.nte.credits - 1,
                                position := (s.nte.position + 1) % b.entries }).setSmp { s.smp with
          writes := s.smp.writes ++ [⟨b.noticeBase + BitVec.ofNat 64 (32 * s.nte.position), n.bytes s.cfg.byteOrder,
            .notice⟩] }))) ∧
      (s.nte.credits ≠ 0 → s.nte.lost ≠ 0 → exec .noticePost s = .next (State.finish s
        ((s.setNte { s.nte with lost := 0, credits := s.nte.credits - 1,
                                position := (s.nte.position + 1) % b.entries }).setSmp { s.smp with
          writes := s.smp.writes ++ [⟨b.noticeBase + BitVec.ofNat 64 (32 * s.nte.position),
            Notice.bytes s.cfg.byteOrder ⟨s.counter, .overflow s.nte.lost⟩, .notice⟩] }))) ∧
      (∀ (r : Fin 276) rest, s.nte.dirty = r.val :: rest → s.postingDue = false → s.smp.waiting = [] →
        exec .statusRowWrite s = .next (State.finish s
          ((s.setNte { s.nte with dirty := rest, updates := s.nte.updates.set r.val (s.nte.updates[r.val] + 1) }).setSmp
            { s.smp with writes := s.smp.writes ++ [⟨b.statusBase + BitVec.ofNat 64 (32 * r.val),
              rowBytes s r.val (s.nte.updates[r.val] + 1), .row r.val⟩] })))) ∧
    (s.nte.bases = none ∨ s.nte.credits = 0 ∨ (s.nte.lost = 0 ∧ s.nte.pending = []) →
      exec .noticePost s = .next (State.finish s s)) ∧
    (s.smp.waiting ≠ [] ∨ s.nte.bases = none → exec .statusRowWrite s = .next (State.finish s s)) ∧
    (s.due s.nte.recheck = true → exec .noticeRecheck s = .next (State.finish s s.readNotices)) ∧
    (s.due s.nte.recheck = false → exec .noticeRecheck s = .next (State.finish s s))

/-- What the part writes into records and notice entries, octet by octet (R14, R34, R50, R128, R130, R151, R163, R165,
R179, 13.1 to 13.3). A field of several octets is least significant octet first in little-endian records and most
significant first in big-endian ones; every value has its code. The hand-over words TAKEN and SETTLED; the result area,
with the code, the settle frame and the values, and each part of a member list that holds member results, four members
to a part, the other octets as they were fetched; the result values of each kind, and a notice entry of each kind, every
octet without a field 0, and so each absent field that has no other form (log 16). A reference that is absent, and its
priority, are 0xFF. -/
def Obligations.WrittenOctets : Prop :=
  (∀ (o : ByteOrder) (bytes : List Byte) (x n : Nat), fieldAt o bytes x 0 = 0 ∧ (x + n < bytes.length →
     fieldAt .little bytes x (n + 1) = (byteAt bytes x).toNat + 256 * fieldAt .little bytes (x + 1) n ∧
     fieldAt .big bytes x (n + 1) = 256 * fieldAt .big bytes x n + (byteAt bytes (x + n)).toNat)) ∧
  (let codes := fun n k : Nat => (List.range k).map fun i => BitVec.ofNat 8 (n + i)
   [.toFibre, .toCopper].map Direction.code = codes 0 2 ∧ [.a, .b].map Span.code = codes 0 2 ∧
   [.initiator, .responder].map Role.code = codes 0 2 ∧
   [.copper, .bridged, .fibre, .stranded, .unequipped].map PathState.code = codes 0 5 ∧
   [.awaitingOffer, .offering, .matching, .rolled, .releasing, .unwinding].map BridgePhase.code = codes 0 6 ∧
   [.line, .span, .none].map Receive.code = codes 0 3 ∧
   [.idle, .seized, .answered, .blocked, .unknown].map Activity.code = codes 0 5 ∧
   [.disabled, .seek, .answer, .inService, .holdDown, .proving].map LineState.code = codes 0 6 ∧
   [.stopped, .fetching, .parked, .waiting, .faulted].map RunnerState.code = codes 0 5 ∧
   [.none, .fetchError, .badAddress, .nextLoop].map RunnerFault.code = codes 0 4 ∧
   (∀ x, [.freeRun, .locked x, .holdover].map FtuMode.code = codes 0 3) ∧
   [.offer, .accept, .decline, .rolled, .release, .abandon].map MessageKind.code = codes 1 6 ∧
   [.notExpected, .mismatch, .busy, .ordered, .matchTimeout, .noAnswer, .peerStall, .restart, .groupUnwind, .pathLost,
    .concluded].map Reason.code = codes 1 11 ∧
   [.done, .doneForced, .fallback, .abandoned, .forced, .peerAbandoned, .declined, .noAnswer, .matchTimeout, .peerStall,
    .waitExpired, .expired, .busy, .stale, .spanDown, .slotTaken, .badState, .malformed, .tooLate, .nothing, .restarted,
    .held, .unwoundByGroup, .pathLost, .spanBusy, .absent].map ResultCode.code = codes 1 26 ∧
   [.order, .trained, .rankClash, .errors, .peerRestart, .recovered, .proveEnd].map SpanCause.code = codes 0 7 ∧
   [.errors, .rankClash].map HoldCause.code = codes 0 2 ∧ [.repeating, .deleting].map SlipKind.code = codes 0 2 ∧
   [.present, .lost].map Presence.code = codes 0 2 ∧
   [.missingSync, .misplacedSync, .noSignal, .recovered].map PortCause.code = codes 0 4 ∧
   [.order, .referenceLost, .qualified, .reverted].map TimingCause.code = codes 0 4 ∧
   [.reject, .timeout].map MemoryCause.code = codes 0 2 ∧ [.follow, .drive].map ClockRole.code = codes 0 2 ∧
   [.short, .long].map SyncStyle.code = codes 0 2 ∧ [.loading, .ready, .warming, .configFault].map Phase.code = codes 0 4 ∧
   (List.finRange 8).map (fun k => Source.code (.office k)) = codes 0 8 ∧
   (List.finRange 8).map (fun k => Source.code (.line k)) = codes 64 8 ∧
   [.a, .b].map (fun sp => Source.code (.span sp)) = codes 128 2 ∧
   ∀ p : LinePos, p.code = BitVec.ofNat 8 (32 * p.port.val + p.slot.val)) ∧
  (takenWord = 2 ∧ settledWord = 3 ∧
   ∀ (s : State) (addr : Addr) (word : Nat) (x : Claimant), word < 4 → let w := s.wordWrite addr word x
     w.addr = addr ∧ w.claimant = x ∧ w.data.length = 4 ∧ fieldAt s.cfg.byteOrder w.data 0 4 = word) ∧
  (∀ (s : State) (id : Nat) (ref : OrderRef) (code : ResultCode) (values : List Byte) (members : List (Byte × Byte)),
     let l := s.resultWrites id ref code values members
     l.length = 1 + (members.length + 3) / 4 ∧
     (∀ w, l[0]? = some w → w.addr = ref.addr + 0x28#64 ∧ w.claimant = .result id ∧ byteAt w.data 0 = code.code ∧
       (∀ x, 1 ≤ x → x < 4 → byteAt w.data x = 0) ∧ fieldAt s.cfg.byteOrder w.data 4 4 = s.counter.toNat ∧
       w.data.drop 8 = values) ∧
     ∀ j w, l[j + 1]? = some w → w.addr = ref.addr + BitVec.ofNat 64 (64 + 32 * j) ∧ w.claimant = .result id ∧
       w.data.length = 32 ∧ ∀ b, b < 32 →
         (∀ x, members[4 * j + b / 8]? = some x → (b % 8 = 5 → byteAt w.data b = x.1) ∧ (b % 8 = 6 → byteAt w.data b = x.2)) ∧
         (b % 8 ≠ 5 ∧ b % 8 ≠ 6 ∨ members.length ≤ 4 * j + b / 8 → byteAt w.data b = byteAt ref.memberList (32 * j + b))) ∧
  (∀ (o : ByteOrder) (v : MoveValues), let b := v.bytes o; let at1 := fun x => byteAt b x
     b.length = 16 ∧ fieldAt o b 0 2 = v.generation.toNat ∧ at1 2 = v.pathState.elim 0 PathState.code ∧
     at1 3 = v.role.elim 0 Role.code ∧ at1 4 = v.phase.elim 0 BridgePhase.code ∧ at1 5 = v.txn.getD 0 ∧
     at1 6 = v.offset.elim 0 (BitVec.ofInt 8) ∧ at1 7 = BitVec.ofNat 8 v.repeats ∧ at1 8 = BitVec.ofNat 8 v.skipped ∧
     at1 9 = BitVec.ofNat 8 v.hold ∧ at1 10 = v.peerReason.elim 0 Reason.code ∧ at1 11 = BitVec.ofNat 8 v.dropped ∧
     at1 12 = v.member.elim 0 (BitVec.ofNat 8) ∧ at1 13 = BitVec.ofNat 8 v.group ∧ at1 14 = BitVec.ofNat 8 v.membersDone ∧
     ∀ n, (at1 15).getLsbD n = ((n == 0 && v.txn.isSome) || (n == 1 && v.offset.isSome) || (n == 2 && v.phase.isSome) ||
       (n == 3 && v.member.isSome))) ∧
  (∀ (o : ByteOrder) (c : Circuit) (dropped : Nat), let b := mapValues o c dropped; let at1 := fun x => byteAt b x
     b.length = 16 ∧ fieldAt o b 0 2 = c.generation.toNat ∧ at1 2 = c.pathState.code ∧ at1 3 = c.linePos.elim 0 LinePos.code ∧
     at1 4 = c.vacated.elim 0 LinePos.code ∧ at1 9 = BitVec.ofNat 8 c.hold ∧ at1 11 = BitVec.ofNat 8 dropped ∧
     (∀ x ∈ [5, 6, 7, 8, 10, 12, 13, 14], at1 x = 0) ∧
     ∀ n, (at1 15).getLsbD n = ((n == 0 && c.linePos.isSome) || (n == 1 && c.vacated.isSome))) ∧
  (∀ (o : ByteOrder) (checked errored : Half) (line : LineState), let b := spanValues o checked errored line
     b.length = 16 ∧ fieldAt o b 0 2 = checked.toNat ∧ fieldAt o b 2 2 = errored.toNat ∧ byteAt b 4 = line.code ∧
     ∀ x, 5 ≤ x → byteAt b x = 0) ∧
  (∀ s : State, let b := timingValues s; let at1 := fun x => byteAt b x; let l := s.ftu.candidates
     b.length = 16 ∧ at1 0 = s.ftu.mode.code ∧
     (∀ x, s.ftu.mode = .locked x → at1 1 = Source.code x ∧ at1 2 = (l.findIdx? (· == x)).elim 0xFF (BitVec.ofNat 8)) ∧
     ((∀ x, s.ftu.mode ≠ .locked x) → at1 1 = 0xFF ∧ at1 2 = 0xFF) ∧
     (∀ k, k < 4 → (l.length ≤ k → at1 (3 + k) = 0) ∧ ∀ x, l[k]? = some x → ∀ n, (at1 (3 + k)).getLsbD n =
       ((n == 0 && s.healthy x) || (n == 1 && s.qualified x))) ∧
     ∀ x, 7 ≤ x → at1 x = 0) ∧
  ∀ (o : ByteOrder) (n : Notice), let b := n.bytes o; let at1 := fun x => byteAt b x; let at2 := fun x => fieldAt o b x 2
    let zero := fun lo hi : Nat => ∀ x, lo ≤ x → x < hi → at1 x = 0; let at8 := fun x => fieldAt o b x 8
    let reference := fun m : FtuMode => match m with
      | .locked x => Source.code x
      | .freeRun | .holdover => 0xFF
    b.length = 32 ∧ fieldAt o b 0 4 = 1 ∧ fieldAt o b 4 4 = n.stamp.toNat ∧ zero 9 12 ∧
    match n.body with
    | .orderSettled r addr tag code => at1 8 = 1 ∧ at1 0x0C = BitVec.ofNat 8 r.val ∧ at1 0x0D = code.code ∧ zero 0x0E 0x10 ∧
      at8 0x10 = addr.toNat ∧ fieldAt o b 0x18 4 = tag.toNat ∧ zero 0x1C 0x20
    | .stranded c => at1 8 = 2 ∧ at1 0x0C = BitVec.ofNat 8 c.val ∧ zero 0x0D 0x20
    | .heldConcluded c outcome v => at1 8 = 2 ∧ at1 0x0C = BitVec.ofNat 8 c.val ∧ at1 0x0D = 1 ∧ at1 0x0E = outcome.code ∧
      at1 0x0F = v.peerReason.elim 0 Reason.code ∧ at1 0x10 = v.role.code ∧ at1 0x11 = v.txn.getD 0 ∧
      (∀ k, (at1 0x12).getLsbD k = ((k == 0 && v.txn.isSome) || (k == 1 && v.offset.isSome))) ∧ zero 0x13 0x18 ∧
      at2 0x18 = v.generation.toNat ∧ at1 0x1A = v.pathState.code ∧ at1 0x1B = v.offset.elim 0 (BitVec.ofInt 8) ∧
      at1 0x1C = BitVec.ofNat 8 v.repeats ∧ at1 0x1D = BitVec.ofNat 8 v.skipped ∧ at1 0x1E = BitVec.ofNat 8 v.hold ∧
      zero 0x1F 0x20
    | .spanState sp left entered cause hold => at1 8 = 3 ∧ at1 0x0C = Span.code sp ∧ at1 0x0D = left.code ∧
      at1 0x0E = entered.code ∧ at1 0x0F = cause.code ∧ at1 0x10 = hold.elim 0 HoldCause.code ∧ zero 0x11 0x20
    | .portState p entered cause => at1 8 = 4 ∧ at1 0x0C = BitVec.ofNat 8 (if p.val < 8 then p.val else 56 + p.val) ∧
      at1 0x0D = entered.code ∧ at1 0x0E = cause.code ∧ zero 0x0F 0x20
    | .slip input kind count => at1 8 = 5 ∧ at1 0x0C = Source.code input ∧ at1 0x0D = kind.code ∧ zero 0x0E 0x18 ∧
      at2 0x18 = count.toNat ∧ zero 0x1A 0x20
    | .timingState left entered priority cause => at1 8 = 6 ∧ at1 0x0C = left.code ∧ at1 0x0D = reference left ∧
      at1 0x0E = entered.code ∧ at1 0x0F = reference entered ∧ at1 0x10 = priority.elim 0xFF (BitVec.ofNat 8) ∧
      at1 0x11 = cause.code ∧ zero 0x12 0x20
    | .runnerFault r cause cursor => at1 8 = 7 ∧ at1 0x0C = BitVec.ofNat 8 r.val ∧ at1 0x0D = cause.code ∧ zero 0x0E 0x10 ∧
      at8 0x10 = cursor.toNat ∧ zero 0x18 0x20
    | .memoryFault addr cause byRow => at1 8 = 8 ∧ at1 0x0C = cause.code ∧ at1 0x0D = (if byRow then 1 else 0) ∧
      zero 0x0E 0x10 ∧ at8 0x10 = addr.toNat ∧ zero 0x18 0x20
    | .overflow lost => at1 8 = 9 ∧ zero 0x0C 0x18 ∧ (lost ≤ 65535 → at2 0x18 = lost) ∧ zero 0x1A 0x20

/-- The 32 octets of each row of the site status table, by the offsets of 13.3 (R20, R44, R133, R146, R156, R163, R168,
R179). Each row opens with the update count it is written with; a field that is absent, the causes and frames of a change
that has not yet come among them, is 0 (log 16), an absent timing reference and its priority 0xFF, and every octet without
a field 0. The timing row is written with the frame counter. In the part row runner 0 has the lowest bits and the first
octets of each field: the model's choice (log 43). -/
def Obligations.RowOctets : Prop :=
  ∀ (s : State) (count : Half) (r : Nat), r < 276 → let o := s.cfg.byteOrder; let row := rowBytes s r count
    let at1 := fun x => byteAt row x; let at2 := fun x => fieldAt o row x 2; let at4 := fun x => fieldAt o row x 4
    let flags := fun (x : Nat) (l : List Bool) => ∀ n, (at1 x).getLsbD n = l.getD n false
    let zero := fun lo hi : Nat => ∀ x, lo ≤ x → x < hi → at1 x = 0
    row.length = 32 ∧ at2 0 = count.toNat ∧
    (∀ c : CircuitNo, r = c.val → let k := s.circuit c; let e := k.bridgeIndex.bind s.bridge
       let txn := e.bind Bridge.txn; let offset := e.bind Bridge.offset; let reason := e.bind Bridge.peerReason
       flags 0x02 [s.signalling c] ∧ at1 0x03 = k.pathState.code ∧ at1 0x04 = k.receive.code ∧
       flags 0x05 [k.lineFeed, k.spanFeed] ∧ at1 0x06 = k.linePos.elim 0 LinePos.code ∧
       at1 0x07 = k.vacated.elim 0 LinePos.code ∧ at1 0x08 = k.bearer.elim 0 (fun b => Span.code b.span) ∧
       at1 0x09 = k.bearer.elim 0 (fun b => BitVec.ofNat 8 b.slot.val) ∧ at1 0x0A = BitVec.ofNat 8 k.hold ∧ zero 0x0B 0x0C ∧
       at2 0x0C = k.generation.toNat ∧ at1 0x0E = (s.activity c).code ∧
       at1 0x0F = k.bridgeIndex.elim 0 (fun i => BitVec.ofNat 8 i.val) ∧
       at1 0x10 = k.groupIndex.elim 0 (fun g => BitVec.ofNat 8 g.val) ∧ at1 0x11 = e.elim 0 (fun x => x.phase.code) ∧
       at1 0x12 = e.elim 0 (fun x => x.role.code) ∧ at1 0x13 = txn.getD 0 ∧ at1 0x14 = offset.elim 0 (BitVec.ofInt 8) ∧
       at1 0x15 = reason.elim 0 Reason.code ∧
       flags 0x16 (e.elim [] fun x => [x.quick, x.peerRolled, x.forced, x.pending]) ∧ zero 0x17 0x18 ∧
       (∀ n, (at2 0x18).testBit n = [k.linePos.isSome, k.vacated.isSome, k.bearer.isSome, e.isSome, k.groupIndex.isSome,
         txn.isSome, offset.isSome, reason.isSome].getD n false) ∧ zero 0x1A 0x20) ∧
    (∀ p : PortNo, r = 256 + p.val → let k := s.port p
       at1 0x02 = BitVec.ofNat 8 (if p.val < 8 then p.val else 120 + p.val) ∧
       flags 0x03 [s.clockRole p == .drive, s.syncStyle p == .long] ∧ at1 0x04 = k.presence.code ∧
       at1 0x05 = k.cause.elim 0 PortCause.code ∧ zero 0x06 0x08 ∧ at4 0x08 = (k.changeFrame.getD 0).toNat ∧
       at2 0x0C = k.slips.toNat ∧ at2 0x0E = k.txSlips.toNat ∧ at2 0x10 = k.invalidReports.toNat ∧ zero 0x12 0x20) ∧
    (∀ sp : Span, r = (match sp with | .a => 272 | .b => 273) → let k := s.span sp
       flags 0x02 [s.spanPresent sp] ∧ at1 0x03 = k.line.code ∧ at1 0x04 = k.cause.elim 0 SpanCause.code ∧
       at1 0x05 = k.holdCause.elim 0 HoldCause.code ∧ at1 0x06 = k.peerRank.getD 0 ∧ flags 0x07 [k.peerRank.isSome] ∧
       at2 0x08 = k.erroredFrames.toNat ∧ at2 0x0A = k.slips.toNat ∧ at1 0x0C = BitVec.ofNat 8 k.txQueue.length ∧
       at1 0x0D = k.txnCounter ∧ at2 0x0E = k.proveChecked.toNat ∧ at2 0x10 = k.proveErrored.toNat ∧ zero 0x12 0x20) ∧
    (r = 274 → let f := s.ftu; let l := f.candidates
       at1 0x02 = f.mode.code ∧ (∀ x, f.mode = .locked x → at1 0x03 = Source.code x ∧
         at1 0x04 = (l.findIdx? (· == x)).elim 0xFF (BitVec.ofNat 8)) ∧
       ((∀ x, f.mode ≠ .locked x) → at1 0x03 = 0xFF ∧ at1 0x04 = 0xFF) ∧ at1 0x05 = f.lastCause.elim 0 TimingCause.code ∧
       zero 0x06 0x08 ∧ at4 0x08 = (f.lastChange.getD 0).toNat ∧ flags 0x0C [f.revertive] ∧
       at1 0x0D = BitVec.ofNat 8 l.length ∧
       (∀ k, k < 4 → (l.length ≤ k → at1 (0x0E + k) = 0 ∧ at1 (0x12 + k) = 0) ∧
         ∀ x, l[k]? = some x → at1 (0x0E + k) = Source.code x ∧ flags (0x12 + k) [s.healthy x, s.qualified x]) ∧
       zero 0x16 0x18 ∧ at4 0x18 = s.counter.toNat ∧ zero 0x1C 0x20) ∧
    (r = 275 → at1 0x02 = s.phase.code ∧ at2 0x06 = s.nte.position % 65536 ∧ at2 0x08 = s.nte.lost % 65536 ∧
       zero 0x0E 0x10 ∧ at2 0x04 < 4096 ∧
       ∀ n : Fin 4, let q := s.runner n
         ((at1 0x03).extractLsb' (2 * n.val) 2).toNat = q.fault.code.toNat ∧
         at2 0x04 / 8 ^ n.val % 8 = q.state.code.toNat ∧ at1 (0x0A + n.val) = BitVec.ofNat 8 q.openCount ∧
         at4 (0x10 + 4 * n.val) = q.cursor.toNat % 4294967296)

/-! ### Groups -/

/-- The gate of a RUNNING group (R108, R109, R110): with a failed member the group unwinds, with that member, the
first in member order, as its cause; with none failed, each member that meets the gate condition for the first time is
marked, its deadline is cleared and the count falls by one, and at 0 the gate opens: the group is RELEASING, and the
release decision is taken for each member in member order. A member meets the condition in ROLLED with the peer rolled,
or forced with its from-path lost, or when it was freed DONE_FORCED; it has failed when its outcome, that of its freed
entry or the one fixed for its entry, is neither DONE nor DONE_FORCED. That a member whose from-path the same loss has
taken unwinds too is log 39.
The end of a group (R114): when every member has ended, the group settles in that step, DONE or with the outcome of the
first member that failed, with each member's result and peer reason, and its entry is free; before that it goes on. -/
def Obligations.GroupAdvances : Prop :=
  (∀ (s : State) (g : Fin 4) (x : Group), s.group g = some x → x.state = .running →
    (∀ k, x.members.findIdx? s.memberFailed = some k → s.runGroup g =
      (s.setGroup g (some { x with state := .unwinding, cause := some k })).eachMember x
        fun i t => t.unwind i .unwoundByGroup (some .groupUnwind)) ∧
    (x.members.findIdx? s.memberFailed = none →
      let counts := fun m : GroupMember => !m.counted && s.memberCounts m
      let n := (x.members.filter counts).length
      let y : Group := { x with members := x.members.map fun m => if counts m then { m with counted := true } else m
                                count := x.count - n }
      let u := s.countMembers g x
      u.group g = some y ∧
      (∀ i e, s.bridge i = some e → u.bridge i = some (if ∃ m ∈ x.members, counts m = true ∧ m.bridge = some i then
        { e with deadline := none } else e)) ∧
      (n < x.count → s.runGroup g = u) ∧
      (x.count ≤ n → s.runGroup g = (u.setGroup g (some { y with state := .releasing, gate := .opened })).eachMember y
        fun i t => t.releaseDecision i))) ∧
  (∀ (s : State) (m : GroupMember), let outcome := s.memberOutcome m
     (∀ code v, m.ended = some (code, v) → outcome = some code ∧ (s.memberCounts m = true ↔ code = .doneForced)) ∧
     (∀ i e, m.ended = none → m.bridge = some i → s.bridge i = some e → outcome = e.outcome ∧
       (s.memberCounts m = true ↔ e.phase = .rolled ∧ (e.peerRolled = true ∨ e.forced = true ∧ e.fromLost = true))) ∧
     (s.memberFailed m = true ↔ ∃ code, outcome = some code ∧ code ≠ .done ∧ code ≠ .doneForced)) ∧
  ∀ (s : State) (g : Fin 4) (x : Group), s.group g = some x → let t := s.endGroup g
    (∀ m ∈ x.members, m.ended = none → t = s) ∧
    ((∀ m ∈ x.members, m.ended ≠ none) → t.group g = none ∧
      let failed := (x.members.find? s.memberFailed).bind s.memberOutcome
      let values : MoveValues :=
        { member := x.cause, group := g.val,
          membersDone := (x.members.filter fun m =>
            s.memberOutcome m == some .done || s.memberOutcome m == some .doneForced).length }
      t = (s.settleOrder x.ref (failed.getD .done) (values.bytes s.cfg.byteOrder)
        (x.members.map s.memberResult)).setGroup g none ∧
      t.settles = s.settles ++ [⟨s.nextSettle, x.ref, failed.getD .done, 1 + (x.members.length + 3) / 4⟩])
end

