-- ==== Sys2Proof/Laws/State.lean ====
section
/-! SUPPORT. The small laws of the state's reads and writes: one for each field under each write, one for each named
read under each write, and what a read gives after a write of the same table. All are simp lemmas, so that no proof
unfolds a record update. -/

namespace Sys2Proof.Machine.State

open Sys2Proof

variable (s : State)

/-! #### setPhase -/

@[simp] theorem setPhase_phase (x : Phase) : (s.setPhase x).phase = x := rfl
@[simp] theorem setPhase_resetLow (x : Phase) : (s.setPhase x).resetLow = s.resetLow := rfl
@[simp] theorem setPhase_counter (x : Phase) : (s.setPhase x).counter = s.counter := rfl
@[simp] theorem setPhase_cfg (x : Phase) : (s.setPhase x).cfg = s.cfg := rfl
@[simp] theorem setPhase_blockBase (x : Phase) : (s.setPhase x).blockBase = s.blockBase := rfl
@[simp] theorem setPhase_attn (x : Phase) : (s.setPhase x).attn = s.attn := rfl
@[simp] theorem setPhase_attnMask (x : Phase) : (s.setPhase x).attnMask = s.attnMask := rfl
@[simp] theorem setPhase_circuits (x : Phase) : (s.setPhase x).circuits = s.circuits := rfl
@[simp] theorem setPhase_align (x : Phase) : (s.setPhase x).align = s.align := rfl
@[simp] theorem setPhase_lineOcc (x : Phase) : (s.setPhase x).lineOcc = s.lineOcc := rfl
@[simp] theorem setPhase_spanOcc (x : Phase) : (s.setPhase x).spanOcc = s.spanOcc := rfl
@[simp] theorem setPhase_officeIn (x : Phase) : (s.setPhase x).officeIn = s.officeIn := rfl
@[simp] theorem setPhase_officeOut (x : Phase) : (s.setPhase x).officeOut = s.officeOut := rfl
@[simp] theorem setPhase_lineOut (x : Phase) : (s.setPhase x).lineOut = s.lineOut := rfl
@[simp] theorem setPhase_queue (x : Phase) : (s.setPhase x).queue = s.queue := rfl
@[simp] theorem setPhase_watch (x : Phase) : (s.setPhase x).watch = s.watch := rfl
@[simp] theorem setPhase_bridges (x : Phase) : (s.setPhase x).bridges = s.bridges := rfl
@[simp] theorem setPhase_groups (x : Phase) : (s.setPhase x).groups = s.groups := rfl
@[simp] theorem setPhase_spans (x : Phase) : (s.setPhase x).spans = s.spans := rfl
@[simp] theorem setPhase_ports (x : Phase) : (s.setPhase x).ports = s.ports := rfl
@[simp] theorem setPhase_monitors (x : Phase) : (s.setPhase x).monitors = s.monitors := rfl
@[simp] theorem setPhase_ftu (x : Phase) : (s.setPhase x).ftu = s.ftu := rfl
@[simp] theorem setPhase_runners (x : Phase) : (s.setPhase x).runners = s.runners := rfl
@[simp] theorem setPhase_settles (x : Phase) : (s.setPhase x).settles = s.settles := rfl
@[simp] theorem setPhase_nextSettle (x : Phase) : (s.setPhase x).nextSettle = s.nextSettle := rfl
@[simp] theorem setPhase_smp (x : Phase) : (s.setPhase x).smp = s.smp := rfl
@[simp] theorem setPhase_nte (x : Phase) : (s.setPhase x).nte = s.nte := rfl
@[simp] theorem setPhase_pending (x : Phase) : (s.setPhase x).pending = s.pending := rfl
@[simp] theorem circuit_setPhase (x : Phase) (c' : CircuitNo) : (s.setPhase x).circuit c' = s.circuit c' := rfl
@[simp] theorem alignOf_setPhase (x : Phase) (c' : CircuitNo) : (s.setPhase x).alignOf c' = s.alignOf c' := rfl
@[simp] theorem lineUse_setPhase (x : Phase) (p' : LinePos) : (s.setPhase x).lineUse p' = s.lineUse p' := rfl
@[simp] theorem slotEntry_setPhase (x : Phase) (b' : BearerSlot) : (s.setPhase x).slotEntry b' = s.slotEntry b' := rfl
@[simp] theorem bridge_setPhase (x : Phase) (i' : BridgeNo) : (s.setPhase x).bridge i' = s.bridge i' := rfl
@[simp] theorem group_setPhase (x : Phase) (g' : Fin 4) : (s.setPhase x).group g' = s.group g' := rfl
@[simp] theorem span_setPhase (x : Phase) (sp' : Span) : (s.setPhase x).span sp' = s.span sp' := rfl
@[simp] theorem port_setPhase (x : Phase) (p' : PortNo) : (s.setPhase x).port p' = s.port p' := rfl
@[simp] theorem monitor_setPhase (x : Phase) (c' : CircuitNo) : (s.setPhase x).monitor c' = s.monitor c' := rfl
@[simp] theorem runner_setPhase (x : Phase) (n' : Fin 4) : (s.setPhase x).runner n' = s.runner n' := rfl
@[simp] theorem inService_setPhase (x : Phase) (sp' : Span) : (s.setPhase x).inService sp' = s.inService sp' := rfl
@[simp] theorem activity_setPhase (x : Phase) (c' : CircuitNo) : (s.setPhase x).activity c' = s.activity c' := rfl
@[simp] theorem tag_setPhase (x : Phase) (t' : Fin 4) : (s.setPhase x).tag t' = s.tag t' := rfl

/-! #### setCounter -/

@[simp] theorem setCounter_phase (x : FrameNo) : (s.setCounter x).phase = s.phase := rfl
@[simp] theorem setCounter_resetLow (x : FrameNo) : (s.setCounter x).resetLow = s.resetLow := rfl
@[simp] theorem setCounter_counter (x : FrameNo) : (s.setCounter x).counter = x := rfl
@[simp] theorem setCounter_cfg (x : FrameNo) : (s.setCounter x).cfg = s.cfg := rfl
@[simp] theorem setCounter_blockBase (x : FrameNo) : (s.setCounter x).blockBase = s.blockBase := rfl
@[simp] theorem setCounter_attn (x : FrameNo) : (s.setCounter x).attn = s.attn := rfl
@[simp] theorem setCounter_attnMask (x : FrameNo) : (s.setCounter x).attnMask = s.attnMask := rfl
@[simp] theorem setCounter_circuits (x : FrameNo) : (s.setCounter x).circuits = s.circuits := rfl
@[simp] theorem setCounter_align (x : FrameNo) : (s.setCounter x).align = s.align := rfl
@[simp] theorem setCounter_lineOcc (x : FrameNo) : (s.setCounter x).lineOcc = s.lineOcc := rfl
@[simp] theorem setCounter_spanOcc (x : FrameNo) : (s.setCounter x).spanOcc = s.spanOcc := rfl
@[simp] theorem setCounter_officeIn (x : FrameNo) : (s.setCounter x).officeIn = s.officeIn := rfl
@[simp] theorem setCounter_officeOut (x : FrameNo) : (s.setCounter x).officeOut = s.officeOut := rfl
@[simp] theorem setCounter_lineOut (x : FrameNo) : (s.setCounter x).lineOut = s.lineOut := rfl
@[simp] theorem setCounter_queue (x : FrameNo) : (s.setCounter x).queue = s.queue := rfl
@[simp] theorem setCounter_watch (x : FrameNo) : (s.setCounter x).watch = s.watch := rfl
@[simp] theorem setCounter_bridges (x : FrameNo) : (s.setCounter x).bridges = s.bridges := rfl
@[simp] theorem setCounter_groups (x : FrameNo) : (s.setCounter x).groups = s.groups := rfl
@[simp] theorem setCounter_spans (x : FrameNo) : (s.setCounter x).spans = s.spans := rfl
@[simp] theorem setCounter_ports (x : FrameNo) : (s.setCounter x).ports = s.ports := rfl
@[simp] theorem setCounter_monitors (x : FrameNo) : (s.setCounter x).monitors = s.monitors := rfl
@[simp] theorem setCounter_ftu (x : FrameNo) : (s.setCounter x).ftu = s.ftu := rfl
@[simp] theorem setCounter_runners (x : FrameNo) : (s.setCounter x).runners = s.runners := rfl
@[simp] theorem setCounter_settles (x : FrameNo) : (s.setCounter x).settles = s.settles := rfl
@[simp] theorem setCounter_nextSettle (x : FrameNo) : (s.setCounter x).nextSettle = s.nextSettle := rfl
@[simp] theorem setCounter_smp (x : FrameNo) : (s.setCounter x).smp = s.smp := rfl
@[simp] theorem setCounter_nte (x : FrameNo) : (s.setCounter x).nte = s.nte := rfl
@[simp] theorem setCounter_pending (x : FrameNo) : (s.setCounter x).pending = s.pending := rfl
@[simp] theorem circuit_setCounter (x : FrameNo) (c' : CircuitNo) : (s.setCounter x).circuit c' = s.circuit c' := rfl
@[simp] theorem alignOf_setCounter (x : FrameNo) (c' : CircuitNo) : (s.setCounter x).alignOf c' = s.alignOf c' := rfl
@[simp] theorem lineUse_setCounter (x : FrameNo) (p' : LinePos) : (s.setCounter x).lineUse p' = s.lineUse p' := rfl
@[simp] theorem slotEntry_setCounter (x : FrameNo) (b' : BearerSlot) : (s.setCounter x).slotEntry b' = s.slotEntry b' := rfl
@[simp] theorem bridge_setCounter (x : FrameNo) (i' : BridgeNo) : (s.setCounter x).bridge i' = s.bridge i' := rfl
@[simp] theorem group_setCounter (x : FrameNo) (g' : Fin 4) : (s.setCounter x).group g' = s.group g' := rfl
@[simp] theorem span_setCounter (x : FrameNo) (sp' : Span) : (s.setCounter x).span sp' = s.span sp' := rfl
@[simp] theorem port_setCounter (x : FrameNo) (p' : PortNo) : (s.setCounter x).port p' = s.port p' := rfl
@[simp] theorem monitor_setCounter (x : FrameNo) (c' : CircuitNo) : (s.setCounter x).monitor c' = s.monitor c' := rfl
@[simp] theorem runner_setCounter (x : FrameNo) (n' : Fin 4) : (s.setCounter x).runner n' = s.runner n' := rfl
@[simp] theorem inService_setCounter (x : FrameNo) (sp' : Span) : (s.setCounter x).inService sp' = s.inService sp' := rfl
@[simp] theorem activity_setCounter (x : FrameNo) (c' : CircuitNo) : (s.setCounter x).activity c' = s.activity c' := rfl
@[simp] theorem tag_setCounter (x : FrameNo) (t' : Fin 4) : (s.setCounter x).tag t' = s.tag t' := rfl

/-! #### setAttn -/

@[simp] theorem setAttn_phase (x : BitVec 6) : (s.setAttn x).phase = s.phase := rfl
@[simp] theorem setAttn_resetLow (x : BitVec 6) : (s.setAttn x).resetLow = s.resetLow := rfl
@[simp] theorem setAttn_counter (x : BitVec 6) : (s.setAttn x).counter = s.counter := rfl
@[simp] theorem setAttn_cfg (x : BitVec 6) : (s.setAttn x).cfg = s.cfg := rfl
@[simp] theorem setAttn_blockBase (x : BitVec 6) : (s.setAttn x).blockBase = s.blockBase := rfl
@[simp] theorem setAttn_attn (x : BitVec 6) : (s.setAttn x).attn = x := rfl
@[simp] theorem setAttn_attnMask (x : BitVec 6) : (s.setAttn x).attnMask = s.attnMask := rfl
@[simp] theorem setAttn_circuits (x : BitVec 6) : (s.setAttn x).circuits = s.circuits := rfl
@[simp] theorem setAttn_align (x : BitVec 6) : (s.setAttn x).align = s.align := rfl
@[simp] theorem setAttn_lineOcc (x : BitVec 6) : (s.setAttn x).lineOcc = s.lineOcc := rfl
@[simp] theorem setAttn_spanOcc (x : BitVec 6) : (s.setAttn x).spanOcc = s.spanOcc := rfl
@[simp] theorem setAttn_officeIn (x : BitVec 6) : (s.setAttn x).officeIn = s.officeIn := rfl
@[simp] theorem setAttn_officeOut (x : BitVec 6) : (s.setAttn x).officeOut = s.officeOut := rfl
@[simp] theorem setAttn_lineOut (x : BitVec 6) : (s.setAttn x).lineOut = s.lineOut := rfl
@[simp] theorem setAttn_queue (x : BitVec 6) : (s.setAttn x).queue = s.queue := rfl
@[simp] theorem setAttn_watch (x : BitVec 6) : (s.setAttn x).watch = s.watch := rfl
@[simp] theorem setAttn_bridges (x : BitVec 6) : (s.setAttn x).bridges = s.bridges := rfl
@[simp] theorem setAttn_groups (x : BitVec 6) : (s.setAttn x).groups = s.groups := rfl
@[simp] theorem setAttn_spans (x : BitVec 6) : (s.setAttn x).spans = s.spans := rfl
@[simp] theorem setAttn_ports (x : BitVec 6) : (s.setAttn x).ports = s.ports := rfl
@[simp] theorem setAttn_monitors (x : BitVec 6) : (s.setAttn x).monitors = s.monitors := rfl
@[simp] theorem setAttn_ftu (x : BitVec 6) : (s.setAttn x).ftu = s.ftu := rfl
@[simp] theorem setAttn_runners (x : BitVec 6) : (s.setAttn x).runners = s.runners := rfl
@[simp] theorem setAttn_settles (x : BitVec 6) : (s.setAttn x).settles = s.settles := rfl
@[simp] theorem setAttn_nextSettle (x : BitVec 6) : (s.setAttn x).nextSettle = s.nextSettle := rfl
@[simp] theorem setAttn_smp (x : BitVec 6) : (s.setAttn x).smp = s.smp := rfl
@[simp] theorem setAttn_nte (x : BitVec 6) : (s.setAttn x).nte = s.nte := rfl
@[simp] theorem setAttn_pending (x : BitVec 6) : (s.setAttn x).pending = s.pending := rfl
@[simp] theorem circuit_setAttn (x : BitVec 6) (c' : CircuitNo) : (s.setAttn x).circuit c' = s.circuit c' := rfl
@[simp] theorem alignOf_setAttn (x : BitVec 6) (c' : CircuitNo) : (s.setAttn x).alignOf c' = s.alignOf c' := rfl
@[simp] theorem lineUse_setAttn (x : BitVec 6) (p' : LinePos) : (s.setAttn x).lineUse p' = s.lineUse p' := rfl
@[simp] theorem slotEntry_setAttn (x : BitVec 6) (b' : BearerSlot) : (s.setAttn x).slotEntry b' = s.slotEntry b' := rfl
@[simp] theorem bridge_setAttn (x : BitVec 6) (i' : BridgeNo) : (s.setAttn x).bridge i' = s.bridge i' := rfl
@[simp] theorem group_setAttn (x : BitVec 6) (g' : Fin 4) : (s.setAttn x).group g' = s.group g' := rfl
@[simp] theorem span_setAttn (x : BitVec 6) (sp' : Span) : (s.setAttn x).span sp' = s.span sp' := rfl
@[simp] theorem port_setAttn (x : BitVec 6) (p' : PortNo) : (s.setAttn x).port p' = s.port p' := rfl
@[simp] theorem monitor_setAttn (x : BitVec 6) (c' : CircuitNo) : (s.setAttn x).monitor c' = s.monitor c' := rfl
@[simp] theorem runner_setAttn (x : BitVec 6) (n' : Fin 4) : (s.setAttn x).runner n' = s.runner n' := rfl
@[simp] theorem inService_setAttn (x : BitVec 6) (sp' : Span) : (s.setAttn x).inService sp' = s.inService sp' := rfl
@[simp] theorem activity_setAttn (x : BitVec 6) (c' : CircuitNo) : (s.setAttn x).activity c' = s.activity c' := rfl
@[simp] theorem tag_setAttn (x : BitVec 6) (t' : Fin 4) : (s.setAttn x).tag t' = s.tag t' := rfl

/-! #### setAttnMask -/

@[simp] theorem setAttnMask_phase (x : BitVec 6) : (s.setAttnMask x).phase = s.phase := rfl
@[simp] theorem setAttnMask_resetLow (x : BitVec 6) : (s.setAttnMask x).resetLow = s.resetLow := rfl
@[simp] theorem setAttnMask_counter (x : BitVec 6) : (s.setAttnMask x).counter = s.counter := rfl
@[simp] theorem setAttnMask_cfg (x : BitVec 6) : (s.setAttnMask x).cfg = s.cfg := rfl
@[simp] theorem setAttnMask_blockBase (x : BitVec 6) : (s.setAttnMask x).blockBase = s.blockBase := rfl
@[simp] theorem setAttnMask_attn (x : BitVec 6) : (s.setAttnMask x).attn = s.attn := rfl
@[simp] theorem setAttnMask_attnMask (x : BitVec 6) : (s.setAttnMask x).attnMask = x := rfl
@[simp] theorem setAttnMask_circuits (x : BitVec 6) : (s.setAttnMask x).circuits = s.circuits := rfl
@[simp] theorem setAttnMask_align (x : BitVec 6) : (s.setAttnMask x).align = s.align := rfl
@[simp] theorem setAttnMask_lineOcc (x : BitVec 6) : (s.setAttnMask x).lineOcc = s.lineOcc := rfl
@[simp] theorem setAttnMask_spanOcc (x : BitVec 6) : (s.setAttnMask x).spanOcc = s.spanOcc := rfl
@[simp] theorem setAttnMask_officeIn (x : BitVec 6) : (s.setAttnMask x).officeIn = s.officeIn := rfl
@[simp] theorem setAttnMask_officeOut (x : BitVec 6) : (s.setAttnMask x).officeOut = s.officeOut := rfl
@[simp] theorem setAttnMask_lineOut (x : BitVec 6) : (s.setAttnMask x).lineOut = s.lineOut := rfl
@[simp] theorem setAttnMask_queue (x : BitVec 6) : (s.setAttnMask x).queue = s.queue := rfl
@[simp] theorem setAttnMask_watch (x : BitVec 6) : (s.setAttnMask x).watch = s.watch := rfl
@[simp] theorem setAttnMask_bridges (x : BitVec 6) : (s.setAttnMask x).bridges = s.bridges := rfl
@[simp] theorem setAttnMask_groups (x : BitVec 6) : (s.setAttnMask x).groups = s.groups := rfl
@[simp] theorem setAttnMask_spans (x : BitVec 6) : (s.setAttnMask x).spans = s.spans := rfl
@[simp] theorem setAttnMask_ports (x : BitVec 6) : (s.setAttnMask x).ports = s.ports := rfl
@[simp] theorem setAttnMask_monitors (x : BitVec 6) : (s.setAttnMask x).monitors = s.monitors := rfl
@[simp] theorem setAttnMask_ftu (x : BitVec 6) : (s.setAttnMask x).ftu = s.ftu := rfl
@[simp] theorem setAttnMask_runners (x : BitVec 6) : (s.setAttnMask x).runners = s.runners := rfl
@[simp] theorem setAttnMask_settles (x : BitVec 6) : (s.setAttnMask x).settles = s.settles := rfl
@[simp] theorem setAttnMask_nextSettle (x : BitVec 6) : (s.setAttnMask x).nextSettle = s.nextSettle := rfl
@[simp] theorem setAttnMask_smp (x : BitVec 6) : (s.setAttnMask x).smp = s.smp := rfl
@[simp] theorem setAttnMask_nte (x : BitVec 6) : (s.setAttnMask x).nte = s.nte := rfl
@[simp] theorem setAttnMask_pending (x : BitVec 6) : (s.setAttnMask x).pending = s.pending := rfl
@[simp] theorem circuit_setAttnMask (x : BitVec 6) (c' : CircuitNo) : (s.setAttnMask x).circuit c' = s.circuit c' := rfl
@[simp] theorem alignOf_setAttnMask (x : BitVec 6) (c' : CircuitNo) : (s.setAttnMask x).alignOf c' = s.alignOf c' := rfl
@[simp] theorem lineUse_setAttnMask (x : BitVec 6) (p' : LinePos) : (s.setAttnMask x).lineUse p' = s.lineUse p' := rfl
@[simp] theorem slotEntry_setAttnMask (x : BitVec 6) (b' : BearerSlot) : (s.setAttnMask x).slotEntry b' = s.slotEntry b' := rfl
@[simp] theorem bridge_setAttnMask (x : BitVec 6) (i' : BridgeNo) : (s.setAttnMask x).bridge i' = s.bridge i' := rfl
@[simp] theorem group_setAttnMask (x : BitVec 6) (g' : Fin 4) : (s.setAttnMask x).group g' = s.group g' := rfl
@[simp] theorem span_setAttnMask (x : BitVec 6) (sp' : Span) : (s.setAttnMask x).span sp' = s.span sp' := rfl
@[simp] theorem port_setAttnMask (x : BitVec 6) (p' : PortNo) : (s.setAttnMask x).port p' = s.port p' := rfl
@[simp] theorem monitor_setAttnMask (x : BitVec 6) (c' : CircuitNo) : (s.setAttnMask x).monitor c' = s.monitor c' := rfl
@[simp] theorem runner_setAttnMask (x : BitVec 6) (n' : Fin 4) : (s.setAttnMask x).runner n' = s.runner n' := rfl
@[simp] theorem inService_setAttnMask (x : BitVec 6) (sp' : Span) : (s.setAttnMask x).inService sp' = s.inService sp' := rfl
@[simp] theorem activity_setAttnMask (x : BitVec 6) (c' : CircuitNo) : (s.setAttnMask x).activity c' = s.activity c' := rfl
@[simp] theorem tag_setAttnMask (x : BitVec 6) (t' : Fin 4) : (s.setAttnMask x).tag t' = s.tag t' := rfl

/-! #### setBlockBase -/

@[simp] theorem setBlockBase_phase (x : Addr) : (s.setBlockBase x).phase = s.phase := rfl
@[simp] theorem setBlockBase_resetLow (x : Addr) : (s.setBlockBase x).resetLow = s.resetLow := rfl
@[simp] theorem setBlockBase_counter (x : Addr) : (s.setBlockBase x).counter = s.counter := rfl
@[simp] theorem setBlockBase_cfg (x : Addr) : (s.setBlockBase x).cfg = s.cfg := rfl
@[simp] theorem setBlockBase_blockBase (x : Addr) : (s.setBlockBase x).blockBase = x := rfl
@[simp] theorem setBlockBase_attn (x : Addr) : (s.setBlockBase x).attn = s.attn := rfl
@[simp] theorem setBlockBase_attnMask (x : Addr) : (s.setBlockBase x).attnMask = s.attnMask := rfl
@[simp] theorem setBlockBase_circuits (x : Addr) : (s.setBlockBase x).circuits = s.circuits := rfl
@[simp] theorem setBlockBase_align (x : Addr) : (s.setBlockBase x).align = s.align := rfl
@[simp] theorem setBlockBase_lineOcc (x : Addr) : (s.setBlockBase x).lineOcc = s.lineOcc := rfl
@[simp] theorem setBlockBase_spanOcc (x : Addr) : (s.setBlockBase x).spanOcc = s.spanOcc := rfl
@[simp] theorem setBlockBase_officeIn (x : Addr) : (s.setBlockBase x).officeIn = s.officeIn := rfl
@[simp] theorem setBlockBase_officeOut (x : Addr) : (s.setBlockBase x).officeOut = s.officeOut := rfl
@[simp] theorem setBlockBase_lineOut (x : Addr) : (s.setBlockBase x).lineOut = s.lineOut := rfl
@[simp] theorem setBlockBase_queue (x : Addr) : (s.setBlockBase x).queue = s.queue := rfl
@[simp] theorem setBlockBase_watch (x : Addr) : (s.setBlockBase x).watch = s.watch := rfl
@[simp] theorem setBlockBase_bridges (x : Addr) : (s.setBlockBase x).bridges = s.bridges := rfl
@[simp] theorem setBlockBase_groups (x : Addr) : (s.setBlockBase x).groups = s.groups := rfl
@[simp] theorem setBlockBase_spans (x : Addr) : (s.setBlockBase x).spans = s.spans := rfl
@[simp] theorem setBlockBase_ports (x : Addr) : (s.setBlockBase x).ports = s.ports := rfl
@[simp] theorem setBlockBase_monitors (x : Addr) : (s.setBlockBase x).monitors = s.monitors := rfl
@[simp] theorem setBlockBase_ftu (x : Addr) : (s.setBlockBase x).ftu = s.ftu := rfl
@[simp] theorem setBlockBase_runners (x : Addr) : (s.setBlockBase x).runners = s.runners := rfl
@[simp] theorem setBlockBase_settles (x : Addr) : (s.setBlockBase x).settles = s.settles := rfl
@[simp] theorem setBlockBase_nextSettle (x : Addr) : (s.setBlockBase x).nextSettle = s.nextSettle := rfl
@[simp] theorem setBlockBase_smp (x : Addr) : (s.setBlockBase x).smp = s.smp := rfl
@[simp] theorem setBlockBase_nte (x : Addr) : (s.setBlockBase x).nte = s.nte := rfl
@[simp] theorem setBlockBase_pending (x : Addr) : (s.setBlockBase x).pending = s.pending := rfl
@[simp] theorem circuit_setBlockBase (x : Addr) (c' : CircuitNo) : (s.setBlockBase x).circuit c' = s.circuit c' := rfl
@[simp] theorem alignOf_setBlockBase (x : Addr) (c' : CircuitNo) : (s.setBlockBase x).alignOf c' = s.alignOf c' := rfl
@[simp] theorem lineUse_setBlockBase (x : Addr) (p' : LinePos) : (s.setBlockBase x).lineUse p' = s.lineUse p' := rfl
@[simp] theorem slotEntry_setBlockBase (x : Addr) (b' : BearerSlot) : (s.setBlockBase x).slotEntry b' = s.slotEntry b' := rfl
@[simp] theorem bridge_setBlockBase (x : Addr) (i' : BridgeNo) : (s.setBlockBase x).bridge i' = s.bridge i' := rfl
@[simp] theorem group_setBlockBase (x : Addr) (g' : Fin 4) : (s.setBlockBase x).group g' = s.group g' := rfl
@[simp] theorem span_setBlockBase (x : Addr) (sp' : Span) : (s.setBlockBase x).span sp' = s.span sp' := rfl
@[simp] theorem port_setBlockBase (x : Addr) (p' : PortNo) : (s.setBlockBase x).port p' = s.port p' := rfl
@[simp] theorem monitor_setBlockBase (x : Addr) (c' : CircuitNo) : (s.setBlockBase x).monitor c' = s.monitor c' := rfl
@[simp] theorem runner_setBlockBase (x : Addr) (n' : Fin 4) : (s.setBlockBase x).runner n' = s.runner n' := rfl
@[simp] theorem inService_setBlockBase (x : Addr) (sp' : Span) : (s.setBlockBase x).inService sp' = s.inService sp' := rfl
@[simp] theorem activity_setBlockBase (x : Addr) (c' : CircuitNo) : (s.setBlockBase x).activity c' = s.activity c' := rfl
@[simp] theorem tag_setBlockBase (x : Addr) (t' : Fin 4) : (s.setBlockBase x).tag t' = s.tag t' := rfl

/-! #### setCircuit -/

@[simp] theorem setCircuit_phase (c : CircuitNo) (x : Circuit) : (s.setCircuit c x).phase = s.phase := rfl
@[simp] theorem setCircuit_resetLow (c : CircuitNo) (x : Circuit) : (s.setCircuit c x).resetLow = s.resetLow := rfl
@[simp] theorem setCircuit_counter (c : CircuitNo) (x : Circuit) : (s.setCircuit c x).counter = s.counter := rfl
@[simp] theorem setCircuit_cfg (c : CircuitNo) (x : Circuit) : (s.setCircuit c x).cfg = s.cfg := rfl
@[simp] theorem setCircuit_blockBase (c : CircuitNo) (x : Circuit) : (s.setCircuit c x).blockBase = s.blockBase := rfl
@[simp] theorem setCircuit_attn (c : CircuitNo) (x : Circuit) : (s.setCircuit c x).attn = s.attn := rfl
@[simp] theorem setCircuit_attnMask (c : CircuitNo) (x : Circuit) : (s.setCircuit c x).attnMask = s.attnMask := rfl
@[simp] theorem setCircuit_circuits (c : CircuitNo) (x : Circuit) : (s.setCircuit c x).circuits = s.circuits.set c.val x c.isLt := rfl
@[simp] theorem setCircuit_align (c : CircuitNo) (x : Circuit) : (s.setCircuit c x).align = s.align := rfl
@[simp] theorem setCircuit_lineOcc (c : CircuitNo) (x : Circuit) : (s.setCircuit c x).lineOcc = s.lineOcc := rfl
@[simp] theorem setCircuit_spanOcc (c : CircuitNo) (x : Circuit) : (s.setCircuit c x).spanOcc = s.spanOcc := rfl
@[simp] theorem setCircuit_officeIn (c : CircuitNo) (x : Circuit) : (s.setCircuit c x).officeIn = s.officeIn := rfl
@[simp] theorem setCircuit_officeOut (c : CircuitNo) (x : Circuit) : (s.setCircuit c x).officeOut = s.officeOut := rfl
@[simp] theorem setCircuit_lineOut (c : CircuitNo) (x : Circuit) : (s.setCircuit c x).lineOut = s.lineOut := rfl
@[simp] theorem setCircuit_queue (c : CircuitNo) (x : Circuit) : (s.setCircuit c x).queue = s.queue := rfl
@[simp] theorem setCircuit_watch (c : CircuitNo) (x : Circuit) : (s.setCircuit c x).watch = s.watch := rfl
@[simp] theorem setCircuit_bridges (c : CircuitNo) (x : Circuit) : (s.setCircuit c x).bridges = s.bridges := rfl
@[simp] theorem setCircuit_groups (c : CircuitNo) (x : Circuit) : (s.setCircuit c x).groups = s.groups := rfl
@[simp] theorem setCircuit_spans (c : CircuitNo) (x : Circuit) : (s.setCircuit c x).spans = s.spans := rfl
@[simp] theorem setCircuit_ports (c : CircuitNo) (x : Circuit) : (s.setCircuit c x).ports = s.ports := rfl
@[simp] theorem setCircuit_monitors (c : CircuitNo) (x : Circuit) : (s.setCircuit c x).monitors = s.monitors := rfl
@[simp] theorem setCircuit_ftu (c : CircuitNo) (x : Circuit) : (s.setCircuit c x).ftu = s.ftu := rfl
@[simp] theorem setCircuit_runners (c : CircuitNo) (x : Circuit) : (s.setCircuit c x).runners = s.runners := rfl
@[simp] theorem setCircuit_settles (c : CircuitNo) (x : Circuit) : (s.setCircuit c x).settles = s.settles := rfl
@[simp] theorem setCircuit_nextSettle (c : CircuitNo) (x : Circuit) : (s.setCircuit c x).nextSettle = s.nextSettle := rfl
@[simp] theorem setCircuit_smp (c : CircuitNo) (x : Circuit) : (s.setCircuit c x).smp = s.smp := rfl
@[simp] theorem setCircuit_nte (c : CircuitNo) (x : Circuit) : (s.setCircuit c x).nte = s.nte := rfl
@[simp] theorem setCircuit_pending (c : CircuitNo) (x : Circuit) : (s.setCircuit c x).pending = s.pending := rfl
@[simp] theorem alignOf_setCircuit (c : CircuitNo) (x : Circuit) (c' : CircuitNo) : (s.setCircuit c x).alignOf c' = s.alignOf c' := rfl
@[simp] theorem lineUse_setCircuit (c : CircuitNo) (x : Circuit) (p' : LinePos) : (s.setCircuit c x).lineUse p' = s.lineUse p' := rfl
@[simp] theorem slotEntry_setCircuit (c : CircuitNo) (x : Circuit) (b' : BearerSlot) : (s.setCircuit c x).slotEntry b' = s.slotEntry b' := rfl
@[simp] theorem bridge_setCircuit (c : CircuitNo) (x : Circuit) (i' : BridgeNo) : (s.setCircuit c x).bridge i' = s.bridge i' := rfl
@[simp] theorem group_setCircuit (c : CircuitNo) (x : Circuit) (g' : Fin 4) : (s.setCircuit c x).group g' = s.group g' := rfl
@[simp] theorem span_setCircuit (c : CircuitNo) (x : Circuit) (sp' : Span) : (s.setCircuit c x).span sp' = s.span sp' := rfl
@[simp] theorem port_setCircuit (c : CircuitNo) (x : Circuit) (p' : PortNo) : (s.setCircuit c x).port p' = s.port p' := rfl
@[simp] theorem monitor_setCircuit (c : CircuitNo) (x : Circuit) (c' : CircuitNo) : (s.setCircuit c x).monitor c' = s.monitor c' := rfl
@[simp] theorem runner_setCircuit (c : CircuitNo) (x : Circuit) (n' : Fin 4) : (s.setCircuit c x).runner n' = s.runner n' := rfl
@[simp] theorem inService_setCircuit (c : CircuitNo) (x : Circuit) (sp' : Span) : (s.setCircuit c x).inService sp' = s.inService sp' := rfl
@[simp] theorem activity_setCircuit (c : CircuitNo) (x : Circuit) (c' : CircuitNo) : (s.setCircuit c x).activity c' = s.activity c' := rfl
@[simp] theorem tag_setCircuit (c : CircuitNo) (x : Circuit) (t' : Fin 4) : (s.setCircuit c x).tag t' = s.tag t' := rfl

/-! #### setAlign -/

@[simp] theorem setAlign_phase (c : CircuitNo) (x : AlignStore) : (s.setAlign c x).phase = s.phase := rfl
@[simp] theorem setAlign_resetLow (c : CircuitNo) (x : AlignStore) : (s.setAlign c x).resetLow = s.resetLow := rfl
@[simp] theorem setAlign_counter (c : CircuitNo) (x : AlignStore) : (s.setAlign c x).counter = s.counter := rfl
@[simp] theorem setAlign_cfg (c : CircuitNo) (x : AlignStore) : (s.setAlign c x).cfg = s.cfg := rfl
@[simp] theorem setAlign_blockBase (c : CircuitNo) (x : AlignStore) : (s.setAlign c x).blockBase = s.blockBase := rfl
@[simp] theorem setAlign_attn (c : CircuitNo) (x : AlignStore) : (s.setAlign c x).attn = s.attn := rfl
@[simp] theorem setAlign_attnMask (c : CircuitNo) (x : AlignStore) : (s.setAlign c x).attnMask = s.attnMask := rfl
@[simp] theorem setAlign_circuits (c : CircuitNo) (x : AlignStore) : (s.setAlign c x).circuits = s.circuits := rfl
@[simp] theorem setAlign_align (c : CircuitNo) (x : AlignStore) : (s.setAlign c x).align = s.align.set c.val x c.isLt := rfl
@[simp] theorem setAlign_lineOcc (c : CircuitNo) (x : AlignStore) : (s.setAlign c x).lineOcc = s.lineOcc := rfl
@[simp] theorem setAlign_spanOcc (c : CircuitNo) (x : AlignStore) : (s.setAlign c x).spanOcc = s.spanOcc := rfl
@[simp] theorem setAlign_officeIn (c : CircuitNo) (x : AlignStore) : (s.setAlign c x).officeIn = s.officeIn := rfl
@[simp] theorem setAlign_officeOut (c : CircuitNo) (x : AlignStore) : (s.setAlign c x).officeOut = s.officeOut := rfl
@[simp] theorem setAlign_lineOut (c : CircuitNo) (x : AlignStore) : (s.setAlign c x).lineOut = s.lineOut := rfl
@[simp] theorem setAlign_queue (c : CircuitNo) (x : AlignStore) : (s.setAlign c x).queue = s.queue := rfl
@[simp] theorem setAlign_watch (c : CircuitNo) (x : AlignStore) : (s.setAlign c x).watch = s.watch := rfl
@[simp] theorem setAlign_bridges (c : CircuitNo) (x : AlignStore) : (s.setAlign c x).bridges = s.bridges := rfl
@[simp] theorem setAlign_groups (c : CircuitNo) (x : AlignStore) : (s.setAlign c x).groups = s.groups := rfl
@[simp] theorem setAlign_spans (c : CircuitNo) (x : AlignStore) : (s.setAlign c x).spans = s.spans := rfl
@[simp] theorem setAlign_ports (c : CircuitNo) (x : AlignStore) : (s.setAlign c x).ports = s.ports := rfl
@[simp] theorem setAlign_monitors (c : CircuitNo) (x : AlignStore) : (s.setAlign c x).monitors = s.monitors := rfl
@[simp] theorem setAlign_ftu (c : CircuitNo) (x : AlignStore) : (s.setAlign c x).ftu = s.ftu := rfl
@[simp] theorem setAlign_runners (c : CircuitNo) (x : AlignStore) : (s.setAlign c x).runners = s.runners := rfl
@[simp] theorem setAlign_settles (c : CircuitNo) (x : AlignStore) : (s.setAlign c x).settles = s.settles := rfl
@[simp] theorem setAlign_nextSettle (c : CircuitNo) (x : AlignStore) : (s.setAlign c x).nextSettle = s.nextSettle := rfl
@[simp] theorem setAlign_smp (c : CircuitNo) (x : AlignStore) : (s.setAlign c x).smp = s.smp := rfl
@[simp] theorem setAlign_nte (c : CircuitNo) (x : AlignStore) : (s.setAlign c x).nte = s.nte := rfl
@[simp] theorem setAlign_pending (c : CircuitNo) (x : AlignStore) : (s.setAlign c x).pending = s.pending := rfl
@[simp] theorem circuit_setAlign (c : CircuitNo) (x : AlignStore) (c' : CircuitNo) : (s.setAlign c x).circuit c' = s.circuit c' := rfl
@[simp] theorem lineUse_setAlign (c : CircuitNo) (x : AlignStore) (p' : LinePos) : (s.setAlign c x).lineUse p' = s.lineUse p' := rfl
@[simp] theorem slotEntry_setAlign (c : CircuitNo) (x : AlignStore) (b' : BearerSlot) : (s.setAlign c x).slotEntry b' = s.slotEntry b' := rfl
@[simp] theorem bridge_setAlign (c : CircuitNo) (x : AlignStore) (i' : BridgeNo) : (s.setAlign c x).bridge i' = s.bridge i' := rfl
@[simp] theorem group_setAlign (c : CircuitNo) (x : AlignStore) (g' : Fin 4) : (s.setAlign c x).group g' = s.group g' := rfl
@[simp] theorem span_setAlign (c : CircuitNo) (x : AlignStore) (sp' : Span) : (s.setAlign c x).span sp' = s.span sp' := rfl
@[simp] theorem port_setAlign (c : CircuitNo) (x : AlignStore) (p' : PortNo) : (s.setAlign c x).port p' = s.port p' := rfl
@[simp] theorem monitor_setAlign (c : CircuitNo) (x : AlignStore) (c' : CircuitNo) : (s.setAlign c x).monitor c' = s.monitor c' := rfl
@[simp] theorem runner_setAlign (c : CircuitNo) (x : AlignStore) (n' : Fin 4) : (s.setAlign c x).runner n' = s.runner n' := rfl
@[simp] theorem inService_setAlign (c : CircuitNo) (x : AlignStore) (sp' : Span) : (s.setAlign c x).inService sp' = s.inService sp' := rfl
@[simp] theorem activity_setAlign (c : CircuitNo) (x : AlignStore) (c' : CircuitNo) : (s.setAlign c x).activity c' = s.activity c' := rfl
@[simp] theorem tag_setAlign (c : CircuitNo) (x : AlignStore) (t' : Fin 4) : (s.setAlign c x).tag t' = s.tag t' := rfl

/-! #### setLineUse -/

@[simp] theorem setLineUse_phase (p : LinePos) (x : LineUse) : (s.setLineUse p x).phase = s.phase := rfl
@[simp] theorem setLineUse_resetLow (p : LinePos) (x : LineUse) : (s.setLineUse p x).resetLow = s.resetLow := rfl
@[simp] theorem setLineUse_counter (p : LinePos) (x : LineUse) : (s.setLineUse p x).counter = s.counter := rfl
@[simp] theorem setLineUse_cfg (p : LinePos) (x : LineUse) : (s.setLineUse p x).cfg = s.cfg := rfl
@[simp] theorem setLineUse_blockBase (p : LinePos) (x : LineUse) : (s.setLineUse p x).blockBase = s.blockBase := rfl
@[simp] theorem setLineUse_attn (p : LinePos) (x : LineUse) : (s.setLineUse p x).attn = s.attn := rfl
@[simp] theorem setLineUse_attnMask (p : LinePos) (x : LineUse) : (s.setLineUse p x).attnMask = s.attnMask := rfl
@[simp] theorem setLineUse_circuits (p : LinePos) (x : LineUse) : (s.setLineUse p x).circuits = s.circuits := rfl
@[simp] theorem setLineUse_align (p : LinePos) (x : LineUse) : (s.setLineUse p x).align = s.align := rfl
@[simp] theorem setLineUse_lineOcc (p : LinePos) (x : LineUse) : (s.setLineUse p x).lineOcc = s.lineOcc.set p.index.val x p.index.isLt := rfl
@[simp] theorem setLineUse_spanOcc (p : LinePos) (x : LineUse) : (s.setLineUse p x).spanOcc = s.spanOcc := rfl
@[simp] theorem setLineUse_officeIn (p : LinePos) (x : LineUse) : (s.setLineUse p x).officeIn = s.officeIn := rfl
@[simp] theorem setLineUse_officeOut (p : LinePos) (x : LineUse) : (s.setLineUse p x).officeOut = s.officeOut := rfl
@[simp] theorem setLineUse_lineOut (p : LinePos) (x : LineUse) : (s.setLineUse p x).lineOut = s.lineOut := rfl
@[simp] theorem setLineUse_queue (p : LinePos) (x : LineUse) : (s.setLineUse p x).queue = s.queue := rfl
@[simp] theorem setLineUse_watch (p : LinePos) (x : LineUse) : (s.setLineUse p x).watch = s.watch := rfl
@[simp] theorem setLineUse_bridges (p : LinePos) (x : LineUse) : (s.setLineUse p x).bridges = s.bridges := rfl
@[simp] theorem setLineUse_groups (p : LinePos) (x : LineUse) : (s.setLineUse p x).groups = s.groups := rfl
@[simp] theorem setLineUse_spans (p : LinePos) (x : LineUse) : (s.setLineUse p x).spans = s.spans := rfl
@[simp] theorem setLineUse_ports (p : LinePos) (x : LineUse) : (s.setLineUse p x).ports = s.ports := rfl
@[simp] theorem setLineUse_monitors (p : LinePos) (x : LineUse) : (s.setLineUse p x).monitors = s.monitors := rfl
@[simp] theorem setLineUse_ftu (p : LinePos) (x : LineUse) : (s.setLineUse p x).ftu = s.ftu := rfl
@[simp] theorem setLineUse_runners (p : LinePos) (x : LineUse) : (s.setLineUse p x).runners = s.runners := rfl
@[simp] theorem setLineUse_settles (p : LinePos) (x : LineUse) : (s.setLineUse p x).settles = s.settles := rfl
@[simp] theorem setLineUse_nextSettle (p : LinePos) (x : LineUse) : (s.setLineUse p x).nextSettle = s.nextSettle := rfl
@[simp] theorem setLineUse_smp (p : LinePos) (x : LineUse) : (s.setLineUse p x).smp = s.smp := rfl
@[simp] theorem setLineUse_nte (p : LinePos) (x : LineUse) : (s.setLineUse p x).nte = s.nte := rfl
@[simp] theorem setLineUse_pending (p : LinePos) (x : LineUse) : (s.setLineUse p x).pending = s.pending := rfl
@[simp] theorem circuit_setLineUse (p : LinePos) (x : LineUse) (c' : CircuitNo) : (s.setLineUse p x).circuit c' = s.circuit c' := rfl
@[simp] theorem alignOf_setLineUse (p : LinePos) (x : LineUse) (c' : CircuitNo) : (s.setLineUse p x).alignOf c' = s.alignOf c' := rfl
@[simp] theorem slotEntry_setLineUse (p : LinePos) (x : LineUse) (b' : BearerSlot) : (s.setLineUse p x).slotEntry b' = s.slotEntry b' := rfl
@[simp] theorem bridge_setLineUse (p : LinePos) (x : LineUse) (i' : BridgeNo) : (s.setLineUse p x).bridge i' = s.bridge i' := rfl
@[simp] theorem group_setLineUse (p : LinePos) (x : LineUse) (g' : Fin 4) : (s.setLineUse p x).group g' = s.group g' := rfl
@[simp] theorem span_setLineUse (p : LinePos) (x : LineUse) (sp' : Span) : (s.setLineUse p x).span sp' = s.span sp' := rfl
@[simp] theorem port_setLineUse (p : LinePos) (x : LineUse) (p' : PortNo) : (s.setLineUse p x).port p' = s.port p' := rfl
@[simp] theorem monitor_setLineUse (p : LinePos) (x : LineUse) (c' : CircuitNo) : (s.setLineUse p x).monitor c' = s.monitor c' := rfl
@[simp] theorem runner_setLineUse (p : LinePos) (x : LineUse) (n' : Fin 4) : (s.setLineUse p x).runner n' = s.runner n' := rfl
@[simp] theorem inService_setLineUse (p : LinePos) (x : LineUse) (sp' : Span) : (s.setLineUse p x).inService sp' = s.inService sp' := rfl
@[simp] theorem activity_setLineUse (p : LinePos) (x : LineUse) (c' : CircuitNo) : (s.setLineUse p x).activity c' = s.activity c' := rfl
@[simp] theorem tag_setLineUse (p : LinePos) (x : LineUse) (t' : Fin 4) : (s.setLineUse p x).tag t' = s.tag t' := rfl

/-! #### setSlotEntry -/

@[simp] theorem setSlotEntry_phase (b : BearerSlot) (x : SlotEntry) : (s.setSlotEntry b x).phase = s.phase := rfl
@[simp] theorem setSlotEntry_resetLow (b : BearerSlot) (x : SlotEntry) : (s.setSlotEntry b x).resetLow = s.resetLow := rfl
@[simp] theorem setSlotEntry_counter (b : BearerSlot) (x : SlotEntry) : (s.setSlotEntry b x).counter = s.counter := rfl
@[simp] theorem setSlotEntry_cfg (b : BearerSlot) (x : SlotEntry) : (s.setSlotEntry b x).cfg = s.cfg := rfl
@[simp] theorem setSlotEntry_blockBase (b : BearerSlot) (x : SlotEntry) : (s.setSlotEntry b x).blockBase = s.blockBase := rfl
@[simp] theorem setSlotEntry_attn (b : BearerSlot) (x : SlotEntry) : (s.setSlotEntry b x).attn = s.attn := rfl
@[simp] theorem setSlotEntry_attnMask (b : BearerSlot) (x : SlotEntry) : (s.setSlotEntry b x).attnMask = s.attnMask := rfl
@[simp] theorem setSlotEntry_circuits (b : BearerSlot) (x : SlotEntry) : (s.setSlotEntry b x).circuits = s.circuits := rfl
@[simp] theorem setSlotEntry_align (b : BearerSlot) (x : SlotEntry) : (s.setSlotEntry b x).align = s.align := rfl
@[simp] theorem setSlotEntry_lineOcc (b : BearerSlot) (x : SlotEntry) : (s.setSlotEntry b x).lineOcc = s.lineOcc := rfl
@[simp] theorem setSlotEntry_spanOcc (b : BearerSlot) (x : SlotEntry) : (s.setSlotEntry b x).spanOcc = s.spanOcc.set b.span ((s.spanOcc.get b.span).set b.slot.val x b.slot.isLt) := rfl
@[simp] theorem setSlotEntry_officeIn (b : BearerSlot) (x : SlotEntry) : (s.setSlotEntry b x).officeIn = s.officeIn := rfl
@[simp] theorem setSlotEntry_officeOut (b : BearerSlot) (x : SlotEntry) : (s.setSlotEntry b x).officeOut = s.officeOut := rfl
@[simp] theorem setSlotEntry_lineOut (b : BearerSlot) (x : SlotEntry) : (s.setSlotEntry b x).lineOut = s.lineOut := rfl
@[simp] theorem setSlotEntry_queue (b : BearerSlot) (x : SlotEntry) : (s.setSlotEntry b x).queue = s.queue := rfl
@[simp] theorem setSlotEntry_watch (b : BearerSlot) (x : SlotEntry) : (s.setSlotEntry b x).watch = s.watch := rfl
@[simp] theorem setSlotEntry_bridges (b : BearerSlot) (x : SlotEntry) : (s.setSlotEntry b x).bridges = s.bridges := rfl
@[simp] theorem setSlotEntry_groups (b : BearerSlot) (x : SlotEntry) : (s.setSlotEntry b x).groups = s.groups := rfl
@[simp] theorem setSlotEntry_spans (b : BearerSlot) (x : SlotEntry) : (s.setSlotEntry b x).spans = s.spans := rfl
@[simp] theorem setSlotEntry_ports (b : BearerSlot) (x : SlotEntry) : (s.setSlotEntry b x).ports = s.ports := rfl
@[simp] theorem setSlotEntry_monitors (b : BearerSlot) (x : SlotEntry) : (s.setSlotEntry b x).monitors = s.monitors := rfl
@[simp] theorem setSlotEntry_ftu (b : BearerSlot) (x : SlotEntry) : (s.setSlotEntry b x).ftu = s.ftu := rfl
@[simp] theorem setSlotEntry_runners (b : BearerSlot) (x : SlotEntry) : (s.setSlotEntry b x).runners = s.runners := rfl
@[simp] theorem setSlotEntry_settles (b : BearerSlot) (x : SlotEntry) : (s.setSlotEntry b x).settles = s.settles := rfl
@[simp] theorem setSlotEntry_nextSettle (b : BearerSlot) (x : SlotEntry) : (s.setSlotEntry b x).nextSettle = s.nextSettle := rfl
@[simp] theorem setSlotEntry_smp (b : BearerSlot) (x : SlotEntry) : (s.setSlotEntry b x).smp = s.smp := rfl
@[simp] theorem setSlotEntry_nte (b : BearerSlot) (x : SlotEntry) : (s.setSlotEntry b x).nte = s.nte := rfl
@[simp] theorem setSlotEntry_pending (b : BearerSlot) (x : SlotEntry) : (s.setSlotEntry b x).pending = s.pending := rfl
@[simp] theorem circuit_setSlotEntry (b : BearerSlot) (x : SlotEntry) (c' : CircuitNo) : (s.setSlotEntry b x).circuit c' = s.circuit c' := rfl
@[simp] theorem alignOf_setSlotEntry (b : BearerSlot) (x : SlotEntry) (c' : CircuitNo) : (s.setSlotEntry b x).alignOf c' = s.alignOf c' := rfl
@[simp] theorem lineUse_setSlotEntry (b : BearerSlot) (x : SlotEntry) (p' : LinePos) : (s.setSlotEntry b x).lineUse p' = s.lineUse p' := rfl
@[simp] theorem bridge_setSlotEntry (b : BearerSlot) (x : SlotEntry) (i' : BridgeNo) : (s.setSlotEntry b x).bridge i' = s.bridge i' := rfl
@[simp] theorem group_setSlotEntry (b : BearerSlot) (x : SlotEntry) (g' : Fin 4) : (s.setSlotEntry b x).group g' = s.group g' := rfl
@[simp] theorem span_setSlotEntry (b : BearerSlot) (x : SlotEntry) (sp' : Span) : (s.setSlotEntry b x).span sp' = s.span sp' := rfl
@[simp] theorem port_setSlotEntry (b : BearerSlot) (x : SlotEntry) (p' : PortNo) : (s.setSlotEntry b x).port p' = s.port p' := rfl
@[simp] theorem monitor_setSlotEntry (b : BearerSlot) (x : SlotEntry) (c' : CircuitNo) : (s.setSlotEntry b x).monitor c' = s.monitor c' := rfl
@[simp] theorem runner_setSlotEntry (b : BearerSlot) (x : SlotEntry) (n' : Fin 4) : (s.setSlotEntry b x).runner n' = s.runner n' := rfl
@[simp] theorem inService_setSlotEntry (b : BearerSlot) (x : SlotEntry) (sp' : Span) : (s.setSlotEntry b x).inService sp' = s.inService sp' := rfl
@[simp] theorem activity_setSlotEntry (b : BearerSlot) (x : SlotEntry) (c' : CircuitNo) : (s.setSlotEntry b x).activity c' = s.activity c' := rfl
@[simp] theorem tag_setSlotEntry (b : BearerSlot) (x : SlotEntry) (t' : Fin 4) : (s.setSlotEntry b x).tag t' = s.tag t' := rfl

/-! #### setQueue -/

@[simp] theorem setQueue_phase (x : List QueueEntry) : (s.setQueue x).phase = s.phase := rfl
@[simp] theorem setQueue_resetLow (x : List QueueEntry) : (s.setQueue x).resetLow = s.resetLow := rfl
@[simp] theorem setQueue_counter (x : List QueueEntry) : (s.setQueue x).counter = s.counter := rfl
@[simp] theorem setQueue_cfg (x : List QueueEntry) : (s.setQueue x).cfg = s.cfg := rfl
@[simp] theorem setQueue_blockBase (x : List QueueEntry) : (s.setQueue x).blockBase = s.blockBase := rfl
@[simp] theorem setQueue_attn (x : List QueueEntry) : (s.setQueue x).attn = s.attn := rfl
@[simp] theorem setQueue_attnMask (x : List QueueEntry) : (s.setQueue x).attnMask = s.attnMask := rfl
@[simp] theorem setQueue_circuits (x : List QueueEntry) : (s.setQueue x).circuits = s.circuits := rfl
@[simp] theorem setQueue_align (x : List QueueEntry) : (s.setQueue x).align = s.align := rfl
@[simp] theorem setQueue_lineOcc (x : List QueueEntry) : (s.setQueue x).lineOcc = s.lineOcc := rfl
@[simp] theorem setQueue_spanOcc (x : List QueueEntry) : (s.setQueue x).spanOcc = s.spanOcc := rfl
@[simp] theorem setQueue_officeIn (x : List QueueEntry) : (s.setQueue x).officeIn = s.officeIn := rfl
@[simp] theorem setQueue_officeOut (x : List QueueEntry) : (s.setQueue x).officeOut = s.officeOut := rfl
@[simp] theorem setQueue_lineOut (x : List QueueEntry) : (s.setQueue x).lineOut = s.lineOut := rfl
@[simp] theorem setQueue_queue (x : List QueueEntry) : (s.setQueue x).queue = x := rfl
@[simp] theorem setQueue_watch (x : List QueueEntry) : (s.setQueue x).watch = s.watch := rfl
@[simp] theorem setQueue_bridges (x : List QueueEntry) : (s.setQueue x).bridges = s.bridges := rfl
@[simp] theorem setQueue_groups (x : List QueueEntry) : (s.setQueue x).groups = s.groups := rfl
@[simp] theorem setQueue_spans (x : List QueueEntry) : (s.setQueue x).spans = s.spans := rfl
@[simp] theorem setQueue_ports (x : List QueueEntry) : (s.setQueue x).ports = s.ports := rfl
@[simp] theorem setQueue_monitors (x : List QueueEntry) : (s.setQueue x).monitors = s.monitors := rfl
@[simp] theorem setQueue_ftu (x : List QueueEntry) : (s.setQueue x).ftu = s.ftu := rfl
@[simp] theorem setQueue_runners (x : List QueueEntry) : (s.setQueue x).runners = s.runners := rfl
@[simp] theorem setQueue_settles (x : List QueueEntry) : (s.setQueue x).settles = s.settles := rfl
@[simp] theorem setQueue_nextSettle (x : List QueueEntry) : (s.setQueue x).nextSettle = s.nextSettle := rfl
@[simp] theorem setQueue_smp (x : List QueueEntry) : (s.setQueue x).smp = s.smp := rfl
@[simp] theorem setQueue_nte (x : List QueueEntry) : (s.setQueue x).nte = s.nte := rfl
@[simp] theorem setQueue_pending (x : List QueueEntry) : (s.setQueue x).pending = s.pending := rfl
@[simp] theorem circuit_setQueue (x : List QueueEntry) (c' : CircuitNo) : (s.setQueue x).circuit c' = s.circuit c' := rfl
@[simp] theorem alignOf_setQueue (x : List QueueEntry) (c' : CircuitNo) : (s.setQueue x).alignOf c' = s.alignOf c' := rfl
@[simp] theorem lineUse_setQueue (x : List QueueEntry) (p' : LinePos) : (s.setQueue x).lineUse p' = s.lineUse p' := rfl
@[simp] theorem slotEntry_setQueue (x : List QueueEntry) (b' : BearerSlot) : (s.setQueue x).slotEntry b' = s.slotEntry b' := rfl
@[simp] theorem bridge_setQueue (x : List QueueEntry) (i' : BridgeNo) : (s.setQueue x).bridge i' = s.bridge i' := rfl
@[simp] theorem group_setQueue (x : List QueueEntry) (g' : Fin 4) : (s.setQueue x).group g' = s.group g' := rfl
@[simp] theorem span_setQueue (x : List QueueEntry) (sp' : Span) : (s.setQueue x).span sp' = s.span sp' := rfl
@[simp] theorem port_setQueue (x : List QueueEntry) (p' : PortNo) : (s.setQueue x).port p' = s.port p' := rfl
@[simp] theorem monitor_setQueue (x : List QueueEntry) (c' : CircuitNo) : (s.setQueue x).monitor c' = s.monitor c' := rfl
@[simp] theorem runner_setQueue (x : List QueueEntry) (n' : Fin 4) : (s.setQueue x).runner n' = s.runner n' := rfl
@[simp] theorem inService_setQueue (x : List QueueEntry) (sp' : Span) : (s.setQueue x).inService sp' = s.inService sp' := rfl
@[simp] theorem activity_setQueue (x : List QueueEntry) (c' : CircuitNo) : (s.setQueue x).activity c' = s.activity c' := rfl
@[simp] theorem tag_setQueue (x : List QueueEntry) (t' : Fin 4) : (s.setQueue x).tag t' = s.tag t' := rfl

/-! #### setWatch -/

@[simp] theorem setWatch_phase (x : List WatchEntry) : (s.setWatch x).phase = s.phase := rfl
@[simp] theorem setWatch_resetLow (x : List WatchEntry) : (s.setWatch x).resetLow = s.resetLow := rfl
@[simp] theorem setWatch_counter (x : List WatchEntry) : (s.setWatch x).counter = s.counter := rfl
@[simp] theorem setWatch_cfg (x : List WatchEntry) : (s.setWatch x).cfg = s.cfg := rfl
@[simp] theorem setWatch_blockBase (x : List WatchEntry) : (s.setWatch x).blockBase = s.blockBase := rfl
@[simp] theorem setWatch_attn (x : List WatchEntry) : (s.setWatch x).attn = s.attn := rfl
@[simp] theorem setWatch_attnMask (x : List WatchEntry) : (s.setWatch x).attnMask = s.attnMask := rfl
@[simp] theorem setWatch_circuits (x : List WatchEntry) : (s.setWatch x).circuits = s.circuits := rfl
@[simp] theorem setWatch_align (x : List WatchEntry) : (s.setWatch x).align = s.align := rfl
@[simp] theorem setWatch_lineOcc (x : List WatchEntry) : (s.setWatch x).lineOcc = s.lineOcc := rfl
@[simp] theorem setWatch_spanOcc (x : List WatchEntry) : (s.setWatch x).spanOcc = s.spanOcc := rfl
@[simp] theorem setWatch_officeIn (x : List WatchEntry) : (s.setWatch x).officeIn = s.officeIn := rfl
@[simp] theorem setWatch_officeOut (x : List WatchEntry) : (s.setWatch x).officeOut = s.officeOut := rfl
@[simp] theorem setWatch_lineOut (x : List WatchEntry) : (s.setWatch x).lineOut = s.lineOut := rfl
@[simp] theorem setWatch_queue (x : List WatchEntry) : (s.setWatch x).queue = s.queue := rfl
@[simp] theorem setWatch_watch (x : List WatchEntry) : (s.setWatch x).watch = x := rfl
@[simp] theorem setWatch_bridges (x : List WatchEntry) : (s.setWatch x).bridges = s.bridges := rfl
@[simp] theorem setWatch_groups (x : List WatchEntry) : (s.setWatch x).groups = s.groups := rfl
@[simp] theorem setWatch_spans (x : List WatchEntry) : (s.setWatch x).spans = s.spans := rfl
@[simp] theorem setWatch_ports (x : List WatchEntry) : (s.setWatch x).ports = s.ports := rfl
@[simp] theorem setWatch_monitors (x : List WatchEntry) : (s.setWatch x).monitors = s.monitors := rfl
@[simp] theorem setWatch_ftu (x : List WatchEntry) : (s.setWatch x).ftu = s.ftu := rfl
@[simp] theorem setWatch_runners (x : List WatchEntry) : (s.setWatch x).runners = s.runners := rfl
@[simp] theorem setWatch_settles (x : List WatchEntry) : (s.setWatch x).settles = s.settles := rfl
@[simp] theorem setWatch_nextSettle (x : List WatchEntry) : (s.setWatch x).nextSettle = s.nextSettle := rfl
@[simp] theorem setWatch_smp (x : List WatchEntry) : (s.setWatch x).smp = s.smp := rfl
@[simp] theorem setWatch_nte (x : List WatchEntry) : (s.setWatch x).nte = s.nte := rfl
@[simp] theorem setWatch_pending (x : List WatchEntry) : (s.setWatch x).pending = s.pending := rfl
@[simp] theorem circuit_setWatch (x : List WatchEntry) (c' : CircuitNo) : (s.setWatch x).circuit c' = s.circuit c' := rfl
@[simp] theorem alignOf_setWatch (x : List WatchEntry) (c' : CircuitNo) : (s.setWatch x).alignOf c' = s.alignOf c' := rfl
@[simp] theorem lineUse_setWatch (x : List WatchEntry) (p' : LinePos) : (s.setWatch x).lineUse p' = s.lineUse p' := rfl
@[simp] theorem slotEntry_setWatch (x : List WatchEntry) (b' : BearerSlot) : (s.setWatch x).slotEntry b' = s.slotEntry b' := rfl
@[simp] theorem bridge_setWatch (x : List WatchEntry) (i' : BridgeNo) : (s.setWatch x).bridge i' = s.bridge i' := rfl
@[simp] theorem group_setWatch (x : List WatchEntry) (g' : Fin 4) : (s.setWatch x).group g' = s.group g' := rfl
@[simp] theorem span_setWatch (x : List WatchEntry) (sp' : Span) : (s.setWatch x).span sp' = s.span sp' := rfl
@[simp] theorem port_setWatch (x : List WatchEntry) (p' : PortNo) : (s.setWatch x).port p' = s.port p' := rfl
@[simp] theorem monitor_setWatch (x : List WatchEntry) (c' : CircuitNo) : (s.setWatch x).monitor c' = s.monitor c' := rfl
@[simp] theorem runner_setWatch (x : List WatchEntry) (n' : Fin 4) : (s.setWatch x).runner n' = s.runner n' := rfl
@[simp] theorem inService_setWatch (x : List WatchEntry) (sp' : Span) : (s.setWatch x).inService sp' = s.inService sp' := rfl
@[simp] theorem activity_setWatch (x : List WatchEntry) (c' : CircuitNo) : (s.setWatch x).activity c' = s.activity c' := rfl
@[simp] theorem tag_setWatch (x : List WatchEntry) (t' : Fin 4) : (s.setWatch x).tag t' = s.tag t' := rfl

/-! #### setBridge -/

@[simp] theorem setBridge_phase (i : BridgeNo) (x : Option Bridge) : (s.setBridge i x).phase = s.phase := rfl
@[simp] theorem setBridge_resetLow (i : BridgeNo) (x : Option Bridge) : (s.setBridge i x).resetLow = s.resetLow := rfl
@[simp] theorem setBridge_counter (i : BridgeNo) (x : Option Bridge) : (s.setBridge i x).counter = s.counter := rfl
@[simp] theorem setBridge_cfg (i : BridgeNo) (x : Option Bridge) : (s.setBridge i x).cfg = s.cfg := rfl
@[simp] theorem setBridge_blockBase (i : BridgeNo) (x : Option Bridge) : (s.setBridge i x).blockBase = s.blockBase := rfl
@[simp] theorem setBridge_attn (i : BridgeNo) (x : Option Bridge) : (s.setBridge i x).attn = s.attn := rfl
@[simp] theorem setBridge_attnMask (i : BridgeNo) (x : Option Bridge) : (s.setBridge i x).attnMask = s.attnMask := rfl
@[simp] theorem setBridge_circuits (i : BridgeNo) (x : Option Bridge) : (s.setBridge i x).circuits = s.circuits := rfl
@[simp] theorem setBridge_align (i : BridgeNo) (x : Option Bridge) : (s.setBridge i x).align = s.align := rfl
@[simp] theorem setBridge_lineOcc (i : BridgeNo) (x : Option Bridge) : (s.setBridge i x).lineOcc = s.lineOcc := rfl
@[simp] theorem setBridge_spanOcc (i : BridgeNo) (x : Option Bridge) : (s.setBridge i x).spanOcc = s.spanOcc := rfl
@[simp] theorem setBridge_officeIn (i : BridgeNo) (x : Option Bridge) : (s.setBridge i x).officeIn = s.officeIn := rfl
@[simp] theorem setBridge_officeOut (i : BridgeNo) (x : Option Bridge) : (s.setBridge i x).officeOut = s.officeOut := rfl
@[simp] theorem setBridge_lineOut (i : BridgeNo) (x : Option Bridge) : (s.setBridge i x).lineOut = s.lineOut := rfl
@[simp] theorem setBridge_queue (i : BridgeNo) (x : Option Bridge) : (s.setBridge i x).queue = s.queue := rfl
@[simp] theorem setBridge_watch (i : BridgeNo) (x : Option Bridge) : (s.setBridge i x).watch = s.watch := rfl
@[simp] theorem setBridge_bridges (i : BridgeNo) (x : Option Bridge) : (s.setBridge i x).bridges = s.bridges.set i.val x i.isLt := rfl
@[simp] theorem setBridge_groups (i : BridgeNo) (x : Option Bridge) : (s.setBridge i x).groups = s.groups := rfl
@[simp] theorem setBridge_spans (i : BridgeNo) (x : Option Bridge) : (s.setBridge i x).spans = s.spans := rfl
@[simp] theorem setBridge_ports (i : BridgeNo) (x : Option Bridge) : (s.setBridge i x).ports = s.ports := rfl
@[simp] theorem setBridge_monitors (i : BridgeNo) (x : Option Bridge) : (s.setBridge i x).monitors = s.monitors := rfl
@[simp] theorem setBridge_ftu (i : BridgeNo) (x : Option Bridge) : (s.setBridge i x).ftu = s.ftu := rfl
@[simp] theorem setBridge_runners (i : BridgeNo) (x : Option Bridge) : (s.setBridge i x).runners = s.runners := rfl
@[simp] theorem setBridge_settles (i : BridgeNo) (x : Option Bridge) : (s.setBridge i x).settles = s.settles := rfl
@[simp] theorem setBridge_nextSettle (i : BridgeNo) (x : Option Bridge) : (s.setBridge i x).nextSettle = s.nextSettle := rfl
@[simp] theorem setBridge_smp (i : BridgeNo) (x : Option Bridge) : (s.setBridge i x).smp = s.smp := rfl
@[simp] theorem setBridge_nte (i : BridgeNo) (x : Option Bridge) : (s.setBridge i x).nte = s.nte := rfl
@[simp] theorem setBridge_pending (i : BridgeNo) (x : Option Bridge) : (s.setBridge i x).pending = s.pending := rfl
@[simp] theorem circuit_setBridge (i : BridgeNo) (x : Option Bridge) (c' : CircuitNo) : (s.setBridge i x).circuit c' = s.circuit c' := rfl
@[simp] theorem alignOf_setBridge (i : BridgeNo) (x : Option Bridge) (c' : CircuitNo) : (s.setBridge i x).alignOf c' = s.alignOf c' := rfl
@[simp] theorem lineUse_setBridge (i : BridgeNo) (x : Option Bridge) (p' : LinePos) : (s.setBridge i x).lineUse p' = s.lineUse p' := rfl
@[simp] theorem slotEntry_setBridge (i : BridgeNo) (x : Option Bridge) (b' : BearerSlot) : (s.setBridge i x).slotEntry b' = s.slotEntry b' := rfl
@[simp] theorem group_setBridge (i : BridgeNo) (x : Option Bridge) (g' : Fin 4) : (s.setBridge i x).group g' = s.group g' := rfl
@[simp] theorem span_setBridge (i : BridgeNo) (x : Option Bridge) (sp' : Span) : (s.setBridge i x).span sp' = s.span sp' := rfl
@[simp] theorem port_setBridge (i : BridgeNo) (x : Option Bridge) (p' : PortNo) : (s.setBridge i x).port p' = s.port p' := rfl
@[simp] theorem monitor_setBridge (i : BridgeNo) (x : Option Bridge) (c' : CircuitNo) : (s.setBridge i x).monitor c' = s.monitor c' := rfl
@[simp] theorem runner_setBridge (i : BridgeNo) (x : Option Bridge) (n' : Fin 4) : (s.setBridge i x).runner n' = s.runner n' := rfl
@[simp] theorem inService_setBridge (i : BridgeNo) (x : Option Bridge) (sp' : Span) : (s.setBridge i x).inService sp' = s.inService sp' := rfl
@[simp] theorem activity_setBridge (i : BridgeNo) (x : Option Bridge) (c' : CircuitNo) : (s.setBridge i x).activity c' = s.activity c' := rfl
@[simp] theorem tag_setBridge (i : BridgeNo) (x : Option Bridge) (t' : Fin 4) : (s.setBridge i x).tag t' = s.tag t' := rfl

/-! #### setGroup -/

@[simp] theorem setGroup_phase (g : Fin 4) (x : Option Group) : (s.setGroup g x).phase = s.phase := rfl
@[simp] theorem setGroup_resetLow (g : Fin 4) (x : Option Group) : (s.setGroup g x).resetLow = s.resetLow := rfl
@[simp] theorem setGroup_counter (g : Fin 4) (x : Option Group) : (s.setGroup g x).counter = s.counter := rfl
@[simp] theorem setGroup_cfg (g : Fin 4) (x : Option Group) : (s.setGroup g x).cfg = s.cfg := rfl
@[simp] theorem setGroup_blockBase (g : Fin 4) (x : Option Group) : (s.setGroup g x).blockBase = s.blockBase := rfl
@[simp] theorem setGroup_attn (g : Fin 4) (x : Option Group) : (s.setGroup g x).attn = s.attn := rfl
@[simp] theorem setGroup_attnMask (g : Fin 4) (x : Option Group) : (s.setGroup g x).attnMask = s.attnMask := rfl
@[simp] theorem setGroup_circuits (g : Fin 4) (x : Option Group) : (s.setGroup g x).circuits = s.circuits := rfl
@[simp] theorem setGroup_align (g : Fin 4) (x : Option Group) : (s.setGroup g x).align = s.align := rfl
@[simp] theorem setGroup_lineOcc (g : Fin 4) (x : Option Group) : (s.setGroup g x).lineOcc = s.lineOcc := rfl
@[simp] theorem setGroup_spanOcc (g : Fin 4) (x : Option Group) : (s.setGroup g x).spanOcc = s.spanOcc := rfl
@[simp] theorem setGroup_officeIn (g : Fin 4) (x : Option Group) : (s.setGroup g x).officeIn = s.officeIn := rfl
@[simp] theorem setGroup_officeOut (g : Fin 4) (x : Option Group) : (s.setGroup g x).officeOut = s.officeOut := rfl
@[simp] theorem setGroup_lineOut (g : Fin 4) (x : Option Group) : (s.setGroup g x).lineOut = s.lineOut := rfl
@[simp] theorem setGroup_queue (g : Fin 4) (x : Option Group) : (s.setGroup g x).queue = s.queue := rfl
@[simp] theorem setGroup_watch (g : Fin 4) (x : Option Group) : (s.setGroup g x).watch = s.watch := rfl
@[simp] theorem setGroup_bridges (g : Fin 4) (x : Option Group) : (s.setGroup g x).bridges = s.bridges := rfl
@[simp] theorem setGroup_groups (g : Fin 4) (x : Option Group) : (s.setGroup g x).groups = s.groups.set g.val x g.isLt := rfl
@[simp] theorem setGroup_spans (g : Fin 4) (x : Option Group) : (s.setGroup g x).spans = s.spans := rfl
@[simp] theorem setGroup_ports (g : Fin 4) (x : Option Group) : (s.setGroup g x).ports = s.ports := rfl
@[simp] theorem setGroup_monitors (g : Fin 4) (x : Option Group) : (s.setGroup g x).monitors = s.monitors := rfl
@[simp] theorem setGroup_ftu (g : Fin 4) (x : Option Group) : (s.setGroup g x).ftu = s.ftu := rfl
@[simp] theorem setGroup_runners (g : Fin 4) (x : Option Group) : (s.setGroup g x).runners = s.runners := rfl
@[simp] theorem setGroup_settles (g : Fin 4) (x : Option Group) : (s.setGroup g x).settles = s.settles := rfl
@[simp] theorem setGroup_nextSettle (g : Fin 4) (x : Option Group) : (s.setGroup g x).nextSettle = s.nextSettle := rfl
@[simp] theorem setGroup_smp (g : Fin 4) (x : Option Group) : (s.setGroup g x).smp = s.smp := rfl
@[simp] theorem setGroup_nte (g : Fin 4) (x : Option Group) : (s.setGroup g x).nte = s.nte := rfl
@[simp] theorem setGroup_pending (g : Fin 4) (x : Option Group) : (s.setGroup g x).pending = s.pending := rfl
@[simp] theorem circuit_setGroup (g : Fin 4) (x : Option Group) (c' : CircuitNo) : (s.setGroup g x).circuit c' = s.circuit c' := rfl
@[simp] theorem alignOf_setGroup (g : Fin 4) (x : Option Group) (c' : CircuitNo) : (s.setGroup g x).alignOf c' = s.alignOf c' := rfl
@[simp] theorem lineUse_setGroup (g : Fin 4) (x : Option Group) (p' : LinePos) : (s.setGroup g x).lineUse p' = s.lineUse p' := rfl
@[simp] theorem slotEntry_setGroup (g : Fin 4) (x : Option Group) (b' : BearerSlot) : (s.setGroup g x).slotEntry b' = s.slotEntry b' := rfl
@[simp] theorem bridge_setGroup (g : Fin 4) (x : Option Group) (i' : BridgeNo) : (s.setGroup g x).bridge i' = s.bridge i' := rfl
@[simp] theorem span_setGroup (g : Fin 4) (x : Option Group) (sp' : Span) : (s.setGroup g x).span sp' = s.span sp' := rfl
@[simp] theorem port_setGroup (g : Fin 4) (x : Option Group) (p' : PortNo) : (s.setGroup g x).port p' = s.port p' := rfl
@[simp] theorem monitor_setGroup (g : Fin 4) (x : Option Group) (c' : CircuitNo) : (s.setGroup g x).monitor c' = s.monitor c' := rfl
@[simp] theorem runner_setGroup (g : Fin 4) (x : Option Group) (n' : Fin 4) : (s.setGroup g x).runner n' = s.runner n' := rfl
@[simp] theorem inService_setGroup (g : Fin 4) (x : Option Group) (sp' : Span) : (s.setGroup g x).inService sp' = s.inService sp' := rfl
@[simp] theorem activity_setGroup (g : Fin 4) (x : Option Group) (c' : CircuitNo) : (s.setGroup g x).activity c' = s.activity c' := rfl
@[simp] theorem tag_setGroup (g : Fin 4) (x : Option Group) (t' : Fin 4) : (s.setGroup g x).tag t' = s.tag t' := rfl

/-! #### setSpan -/

@[simp] theorem setSpan_phase (sp : Span) (x : SpanState) : (s.setSpan sp x).phase = s.phase := rfl
@[simp] theorem setSpan_resetLow (sp : Span) (x : SpanState) : (s.setSpan sp x).resetLow = s.resetLow := rfl
@[simp] theorem setSpan_counter (sp : Span) (x : SpanState) : (s.setSpan sp x).counter = s.counter := rfl
@[simp] theorem setSpan_cfg (sp : Span) (x : SpanState) : (s.setSpan sp x).cfg = s.cfg := rfl
@[simp] theorem setSpan_blockBase (sp : Span) (x : SpanState) : (s.setSpan sp x).blockBase = s.blockBase := rfl
@[simp] theorem setSpan_attn (sp : Span) (x : SpanState) : (s.setSpan sp x).attn = s.attn := rfl
@[simp] theorem setSpan_attnMask (sp : Span) (x : SpanState) : (s.setSpan sp x).attnMask = s.attnMask := rfl
@[simp] theorem setSpan_circuits (sp : Span) (x : SpanState) : (s.setSpan sp x).circuits = s.circuits := rfl
@[simp] theorem setSpan_align (sp : Span) (x : SpanState) : (s.setSpan sp x).align = s.align := rfl
@[simp] theorem setSpan_lineOcc (sp : Span) (x : SpanState) : (s.setSpan sp x).lineOcc = s.lineOcc := rfl
@[simp] theorem setSpan_spanOcc (sp : Span) (x : SpanState) : (s.setSpan sp x).spanOcc = s.spanOcc := rfl
@[simp] theorem setSpan_officeIn (sp : Span) (x : SpanState) : (s.setSpan sp x).officeIn = s.officeIn := rfl
@[simp] theorem setSpan_officeOut (sp : Span) (x : SpanState) : (s.setSpan sp x).officeOut = s.officeOut := rfl
@[simp] theorem setSpan_lineOut (sp : Span) (x : SpanState) : (s.setSpan sp x).lineOut = s.lineOut := rfl
@[simp] theorem setSpan_queue (sp : Span) (x : SpanState) : (s.setSpan sp x).queue = s.queue := rfl
@[simp] theorem setSpan_watch (sp : Span) (x : SpanState) : (s.setSpan sp x).watch = s.watch := rfl
@[simp] theorem setSpan_bridges (sp : Span) (x : SpanState) : (s.setSpan sp x).bridges = s.bridges := rfl
@[simp] theorem setSpan_groups (sp : Span) (x : SpanState) : (s.setSpan sp x).groups = s.groups := rfl
@[simp] theorem setSpan_spans (sp : Span) (x : SpanState) : (s.setSpan sp x).spans = s.spans.set sp x := rfl
@[simp] theorem setSpan_ports (sp : Span) (x : SpanState) : (s.setSpan sp x).ports = s.ports := rfl
@[simp] theorem setSpan_monitors (sp : Span) (x : SpanState) : (s.setSpan sp x).monitors = s.monitors := rfl
@[simp] theorem setSpan_ftu (sp : Span) (x : SpanState) : (s.setSpan sp x).ftu = s.ftu := rfl
@[simp] theorem setSpan_runners (sp : Span) (x : SpanState) : (s.setSpan sp x).runners = s.runners := rfl
@[simp] theorem setSpan_settles (sp : Span) (x : SpanState) : (s.setSpan sp x).settles = s.settles := rfl
@[simp] theorem setSpan_nextSettle (sp : Span) (x : SpanState) : (s.setSpan sp x).nextSettle = s.nextSettle := rfl
@[simp] theorem setSpan_smp (sp : Span) (x : SpanState) : (s.setSpan sp x).smp = s.smp := rfl
@[simp] theorem setSpan_nte (sp : Span) (x : SpanState) : (s.setSpan sp x).nte = s.nte := rfl
@[simp] theorem setSpan_pending (sp : Span) (x : SpanState) : (s.setSpan sp x).pending = s.pending := rfl
@[simp] theorem circuit_setSpan (sp : Span) (x : SpanState) (c' : CircuitNo) : (s.setSpan sp x).circuit c' = s.circuit c' := rfl
@[simp] theorem alignOf_setSpan (sp : Span) (x : SpanState) (c' : CircuitNo) : (s.setSpan sp x).alignOf c' = s.alignOf c' := rfl
@[simp] theorem lineUse_setSpan (sp : Span) (x : SpanState) (p' : LinePos) : (s.setSpan sp x).lineUse p' = s.lineUse p' := rfl
@[simp] theorem slotEntry_setSpan (sp : Span) (x : SpanState) (b' : BearerSlot) : (s.setSpan sp x).slotEntry b' = s.slotEntry b' := rfl
@[simp] theorem bridge_setSpan (sp : Span) (x : SpanState) (i' : BridgeNo) : (s.setSpan sp x).bridge i' = s.bridge i' := rfl
@[simp] theorem group_setSpan (sp : Span) (x : SpanState) (g' : Fin 4) : (s.setSpan sp x).group g' = s.group g' := rfl
@[simp] theorem port_setSpan (sp : Span) (x : SpanState) (p' : PortNo) : (s.setSpan sp x).port p' = s.port p' := rfl
@[simp] theorem monitor_setSpan (sp : Span) (x : SpanState) (c' : CircuitNo) : (s.setSpan sp x).monitor c' = s.monitor c' := rfl
@[simp] theorem runner_setSpan (sp : Span) (x : SpanState) (n' : Fin 4) : (s.setSpan sp x).runner n' = s.runner n' := rfl
@[simp] theorem activity_setSpan (sp : Span) (x : SpanState) (c' : CircuitNo) : (s.setSpan sp x).activity c' = s.activity c' := rfl
@[simp] theorem tag_setSpan (sp : Span) (x : SpanState) (t' : Fin 4) : (s.setSpan sp x).tag t' = s.tag t' := rfl

/-! #### setPort -/

@[simp] theorem setPort_phase (p : PortNo) (x : Port) : (s.setPort p x).phase = s.phase := rfl
@[simp] theorem setPort_resetLow (p : PortNo) (x : Port) : (s.setPort p x).resetLow = s.resetLow := rfl
@[simp] theorem setPort_counter (p : PortNo) (x : Port) : (s.setPort p x).counter = s.counter := rfl
@[simp] theorem setPort_cfg (p : PortNo) (x : Port) : (s.setPort p x).cfg = s.cfg := rfl
@[simp] theorem setPort_blockBase (p : PortNo) (x : Port) : (s.setPort p x).blockBase = s.blockBase := rfl
@[simp] theorem setPort_attn (p : PortNo) (x : Port) : (s.setPort p x).attn = s.attn := rfl
@[simp] theorem setPort_attnMask (p : PortNo) (x : Port) : (s.setPort p x).attnMask = s.attnMask := rfl
@[simp] theorem setPort_circuits (p : PortNo) (x : Port) : (s.setPort p x).circuits = s.circuits := rfl
@[simp] theorem setPort_align (p : PortNo) (x : Port) : (s.setPort p x).align = s.align := rfl
@[simp] theorem setPort_lineOcc (p : PortNo) (x : Port) : (s.setPort p x).lineOcc = s.lineOcc := rfl
@[simp] theorem setPort_spanOcc (p : PortNo) (x : Port) : (s.setPort p x).spanOcc = s.spanOcc := rfl
@[simp] theorem setPort_officeIn (p : PortNo) (x : Port) : (s.setPort p x).officeIn = s.officeIn := rfl
@[simp] theorem setPort_officeOut (p : PortNo) (x : Port) : (s.setPort p x).officeOut = s.officeOut := rfl
@[simp] theorem setPort_lineOut (p : PortNo) (x : Port) : (s.setPort p x).lineOut = s.lineOut := rfl
@[simp] theorem setPort_queue (p : PortNo) (x : Port) : (s.setPort p x).queue = s.queue := rfl
@[simp] theorem setPort_watch (p : PortNo) (x : Port) : (s.setPort p x).watch = s.watch := rfl
@[simp] theorem setPort_bridges (p : PortNo) (x : Port) : (s.setPort p x).bridges = s.bridges := rfl
@[simp] theorem setPort_groups (p : PortNo) (x : Port) : (s.setPort p x).groups = s.groups := rfl
@[simp] theorem setPort_spans (p : PortNo) (x : Port) : (s.setPort p x).spans = s.spans := rfl
@[simp] theorem setPort_ports (p : PortNo) (x : Port) : (s.setPort p x).ports = s.ports.set p.val x p.isLt := rfl
@[simp] theorem setPort_monitors (p : PortNo) (x : Port) : (s.setPort p x).monitors = s.monitors := rfl
@[simp] theorem setPort_ftu (p : PortNo) (x : Port) : (s.setPort p x).ftu = s.ftu := rfl
@[simp] theorem setPort_runners (p : PortNo) (x : Port) : (s.setPort p x).runners = s.runners := rfl
@[simp] theorem setPort_settles (p : PortNo) (x : Port) : (s.setPort p x).settles = s.settles := rfl
@[simp] theorem setPort_nextSettle (p : PortNo) (x : Port) : (s.setPort p x).nextSettle = s.nextSettle := rfl
@[simp] theorem setPort_smp (p : PortNo) (x : Port) : (s.setPort p x).smp = s.smp := rfl
@[simp] theorem setPort_nte (p : PortNo) (x : Port) : (s.setPort p x).nte = s.nte := rfl
@[simp] theorem setPort_pending (p : PortNo) (x : Port) : (s.setPort p x).pending = s.pending := rfl
@[simp] theorem circuit_setPort (p : PortNo) (x : Port) (c' : CircuitNo) : (s.setPort p x).circuit c' = s.circuit c' := rfl
@[simp] theorem alignOf_setPort (p : PortNo) (x : Port) (c' : CircuitNo) : (s.setPort p x).alignOf c' = s.alignOf c' := rfl
@[simp] theorem lineUse_setPort (p : PortNo) (x : Port) (p' : LinePos) : (s.setPort p x).lineUse p' = s.lineUse p' := rfl
@[simp] theorem slotEntry_setPort (p : PortNo) (x : Port) (b' : BearerSlot) : (s.setPort p x).slotEntry b' = s.slotEntry b' := rfl
@[simp] theorem bridge_setPort (p : PortNo) (x : Port) (i' : BridgeNo) : (s.setPort p x).bridge i' = s.bridge i' := rfl
@[simp] theorem group_setPort (p : PortNo) (x : Port) (g' : Fin 4) : (s.setPort p x).group g' = s.group g' := rfl
@[simp] theorem span_setPort (p : PortNo) (x : Port) (sp' : Span) : (s.setPort p x).span sp' = s.span sp' := rfl
@[simp] theorem monitor_setPort (p : PortNo) (x : Port) (c' : CircuitNo) : (s.setPort p x).monitor c' = s.monitor c' := rfl
@[simp] theorem runner_setPort (p : PortNo) (x : Port) (n' : Fin 4) : (s.setPort p x).runner n' = s.runner n' := rfl
@[simp] theorem inService_setPort (p : PortNo) (x : Port) (sp' : Span) : (s.setPort p x).inService sp' = s.inService sp' := rfl
@[simp] theorem activity_setPort (p : PortNo) (x : Port) (c' : CircuitNo) : (s.setPort p x).activity c' = s.activity c' := rfl
@[simp] theorem tag_setPort (p : PortNo) (x : Port) (t' : Fin 4) : (s.setPort p x).tag t' = s.tag t' := rfl

/-! #### setMonitor -/

@[simp] theorem setMonitor_phase (c : CircuitNo) (x : Monitor) : (s.setMonitor c x).phase = s.phase := rfl
@[simp] theorem setMonitor_resetLow (c : CircuitNo) (x : Monitor) : (s.setMonitor c x).resetLow = s.resetLow := rfl
@[simp] theorem setMonitor_counter (c : CircuitNo) (x : Monitor) : (s.setMonitor c x).counter = s.counter := rfl
@[simp] theorem setMonitor_cfg (c : CircuitNo) (x : Monitor) : (s.setMonitor c x).cfg = s.cfg := rfl
@[simp] theorem setMonitor_blockBase (c : CircuitNo) (x : Monitor) : (s.setMonitor c x).blockBase = s.blockBase := rfl
@[simp] theorem setMonitor_attn (c : CircuitNo) (x : Monitor) : (s.setMonitor c x).attn = s.attn := rfl
@[simp] theorem setMonitor_attnMask (c : CircuitNo) (x : Monitor) : (s.setMonitor c x).attnMask = s.attnMask := rfl
@[simp] theorem setMonitor_circuits (c : CircuitNo) (x : Monitor) : (s.setMonitor c x).circuits = s.circuits := rfl
@[simp] theorem setMonitor_align (c : CircuitNo) (x : Monitor) : (s.setMonitor c x).align = s.align := rfl
@[simp] theorem setMonitor_lineOcc (c : CircuitNo) (x : Monitor) : (s.setMonitor c x).lineOcc = s.lineOcc := rfl
@[simp] theorem setMonitor_spanOcc (c : CircuitNo) (x : Monitor) : (s.setMonitor c x).spanOcc = s.spanOcc := rfl
@[simp] theorem setMonitor_officeIn (c : CircuitNo) (x : Monitor) : (s.setMonitor c x).officeIn = s.officeIn := rfl
@[simp] theorem setMonitor_officeOut (c : CircuitNo) (x : Monitor) : (s.setMonitor c x).officeOut = s.officeOut := rfl
@[simp] theorem setMonitor_lineOut (c : CircuitNo) (x : Monitor) : (s.setMonitor c x).lineOut = s.lineOut := rfl
@[simp] theorem setMonitor_queue (c : CircuitNo) (x : Monitor) : (s.setMonitor c x).queue = s.queue := rfl
@[simp] theorem setMonitor_watch (c : CircuitNo) (x : Monitor) : (s.setMonitor c x).watch = s.watch := rfl
@[simp] theorem setMonitor_bridges (c : CircuitNo) (x : Monitor) : (s.setMonitor c x).bridges = s.bridges := rfl
@[simp] theorem setMonitor_groups (c : CircuitNo) (x : Monitor) : (s.setMonitor c x).groups = s.groups := rfl
@[simp] theorem setMonitor_spans (c : CircuitNo) (x : Monitor) : (s.setMonitor c x).spans = s.spans := rfl
@[simp] theorem setMonitor_ports (c : CircuitNo) (x : Monitor) : (s.setMonitor c x).ports = s.ports := rfl
@[simp] theorem setMonitor_monitors (c : CircuitNo) (x : Monitor) : (s.setMonitor c x).monitors = s.monitors.set c.val x c.isLt := rfl
@[simp] theorem setMonitor_ftu (c : CircuitNo) (x : Monitor) : (s.setMonitor c x).ftu = s.ftu := rfl
@[simp] theorem setMonitor_runners (c : CircuitNo) (x : Monitor) : (s.setMonitor c x).runners = s.runners := rfl
@[simp] theorem setMonitor_settles (c : CircuitNo) (x : Monitor) : (s.setMonitor c x).settles = s.settles := rfl
@[simp] theorem setMonitor_nextSettle (c : CircuitNo) (x : Monitor) : (s.setMonitor c x).nextSettle = s.nextSettle := rfl
@[simp] theorem setMonitor_smp (c : CircuitNo) (x : Monitor) : (s.setMonitor c x).smp = s.smp := rfl
@[simp] theorem setMonitor_nte (c : CircuitNo) (x : Monitor) : (s.setMonitor c x).nte = s.nte := rfl
@[simp] theorem setMonitor_pending (c : CircuitNo) (x : Monitor) : (s.setMonitor c x).pending = s.pending := rfl
@[simp] theorem circuit_setMonitor (c : CircuitNo) (x : Monitor) (c' : CircuitNo) : (s.setMonitor c x).circuit c' = s.circuit c' := rfl
@[simp] theorem alignOf_setMonitor (c : CircuitNo) (x : Monitor) (c' : CircuitNo) : (s.setMonitor c x).alignOf c' = s.alignOf c' := rfl
@[simp] theorem lineUse_setMonitor (c : CircuitNo) (x : Monitor) (p' : LinePos) : (s.setMonitor c x).lineUse p' = s.lineUse p' := rfl
@[simp] theorem slotEntry_setMonitor (c : CircuitNo) (x : Monitor) (b' : BearerSlot) : (s.setMonitor c x).slotEntry b' = s.slotEntry b' := rfl
@[simp] theorem bridge_setMonitor (c : CircuitNo) (x : Monitor) (i' : BridgeNo) : (s.setMonitor c x).bridge i' = s.bridge i' := rfl
@[simp] theorem group_setMonitor (c : CircuitNo) (x : Monitor) (g' : Fin 4) : (s.setMonitor c x).group g' = s.group g' := rfl
@[simp] theorem span_setMonitor (c : CircuitNo) (x : Monitor) (sp' : Span) : (s.setMonitor c x).span sp' = s.span sp' := rfl
@[simp] theorem port_setMonitor (c : CircuitNo) (x : Monitor) (p' : PortNo) : (s.setMonitor c x).port p' = s.port p' := rfl
@[simp] theorem runner_setMonitor (c : CircuitNo) (x : Monitor) (n' : Fin 4) : (s.setMonitor c x).runner n' = s.runner n' := rfl
@[simp] theorem inService_setMonitor (c : CircuitNo) (x : Monitor) (sp' : Span) : (s.setMonitor c x).inService sp' = s.inService sp' := rfl
@[simp] theorem tag_setMonitor (c : CircuitNo) (x : Monitor) (t' : Fin 4) : (s.setMonitor c x).tag t' = s.tag t' := rfl

/-! #### setFtu -/

@[simp] theorem setFtu_phase (x : Ftu) : (s.setFtu x).phase = s.phase := rfl
@[simp] theorem setFtu_resetLow (x : Ftu) : (s.setFtu x).resetLow = s.resetLow := rfl
@[simp] theorem setFtu_counter (x : Ftu) : (s.setFtu x).counter = s.counter := rfl
@[simp] theorem setFtu_cfg (x : Ftu) : (s.setFtu x).cfg = s.cfg := rfl
@[simp] theorem setFtu_blockBase (x : Ftu) : (s.setFtu x).blockBase = s.blockBase := rfl
@[simp] theorem setFtu_attn (x : Ftu) : (s.setFtu x).attn = s.attn := rfl
@[simp] theorem setFtu_attnMask (x : Ftu) : (s.setFtu x).attnMask = s.attnMask := rfl
@[simp] theorem setFtu_circuits (x : Ftu) : (s.setFtu x).circuits = s.circuits := rfl
@[simp] theorem setFtu_align (x : Ftu) : (s.setFtu x).align = s.align := rfl
@[simp] theorem setFtu_lineOcc (x : Ftu) : (s.setFtu x).lineOcc = s.lineOcc := rfl
@[simp] theorem setFtu_spanOcc (x : Ftu) : (s.setFtu x).spanOcc = s.spanOcc := rfl
@[simp] theorem setFtu_officeIn (x : Ftu) : (s.setFtu x).officeIn = s.officeIn := rfl
@[simp] theorem setFtu_officeOut (x : Ftu) : (s.setFtu x).officeOut = s.officeOut := rfl
@[simp] theorem setFtu_lineOut (x : Ftu) : (s.setFtu x).lineOut = s.lineOut := rfl
@[simp] theorem setFtu_queue (x : Ftu) : (s.setFtu x).queue = s.queue := rfl
@[simp] theorem setFtu_watch (x : Ftu) : (s.setFtu x).watch = s.watch := rfl
@[simp] theorem setFtu_bridges (x : Ftu) : (s.setFtu x).bridges = s.bridges := rfl
@[simp] theorem setFtu_groups (x : Ftu) : (s.setFtu x).groups = s.groups := rfl
@[simp] theorem setFtu_spans (x : Ftu) : (s.setFtu x).spans = s.spans := rfl
@[simp] theorem setFtu_ports (x : Ftu) : (s.setFtu x).ports = s.ports := rfl
@[simp] theorem setFtu_monitors (x : Ftu) : (s.setFtu x).monitors = s.monitors := rfl
@[simp] theorem setFtu_ftu (x : Ftu) : (s.setFtu x).ftu = x := rfl
@[simp] theorem setFtu_runners (x : Ftu) : (s.setFtu x).runners = s.runners := rfl
@[simp] theorem setFtu_settles (x : Ftu) : (s.setFtu x).settles = s.settles := rfl
@[simp] theorem setFtu_nextSettle (x : Ftu) : (s.setFtu x).nextSettle = s.nextSettle := rfl
@[simp] theorem setFtu_smp (x : Ftu) : (s.setFtu x).smp = s.smp := rfl
@[simp] theorem setFtu_nte (x : Ftu) : (s.setFtu x).nte = s.nte := rfl
@[simp] theorem setFtu_pending (x : Ftu) : (s.setFtu x).pending = s.pending := rfl
@[simp] theorem circuit_setFtu (x : Ftu) (c' : CircuitNo) : (s.setFtu x).circuit c' = s.circuit c' := rfl
@[simp] theorem alignOf_setFtu (x : Ftu) (c' : CircuitNo) : (s.setFtu x).alignOf c' = s.alignOf c' := rfl
@[simp] theorem lineUse_setFtu (x : Ftu) (p' : LinePos) : (s.setFtu x).lineUse p' = s.lineUse p' := rfl
@[simp] theorem slotEntry_setFtu (x : Ftu) (b' : BearerSlot) : (s.setFtu x).slotEntry b' = s.slotEntry b' := rfl
@[simp] theorem bridge_setFtu (x : Ftu) (i' : BridgeNo) : (s.setFtu x).bridge i' = s.bridge i' := rfl
@[simp] theorem group_setFtu (x : Ftu) (g' : Fin 4) : (s.setFtu x).group g' = s.group g' := rfl
@[simp] theorem span_setFtu (x : Ftu) (sp' : Span) : (s.setFtu x).span sp' = s.span sp' := rfl
@[simp] theorem port_setFtu (x : Ftu) (p' : PortNo) : (s.setFtu x).port p' = s.port p' := rfl
@[simp] theorem monitor_setFtu (x : Ftu) (c' : CircuitNo) : (s.setFtu x).monitor c' = s.monitor c' := rfl
@[simp] theorem runner_setFtu (x : Ftu) (n' : Fin 4) : (s.setFtu x).runner n' = s.runner n' := rfl
@[simp] theorem inService_setFtu (x : Ftu) (sp' : Span) : (s.setFtu x).inService sp' = s.inService sp' := rfl
@[simp] theorem activity_setFtu (x : Ftu) (c' : CircuitNo) : (s.setFtu x).activity c' = s.activity c' := rfl
@[simp] theorem tag_setFtu (x : Ftu) (t' : Fin 4) : (s.setFtu x).tag t' = s.tag t' := rfl

/-! #### setRunner -/

@[simp] theorem setRunner_phase (n : Fin 4) (x : Runner) : (s.setRunner n x).phase = s.phase := rfl
@[simp] theorem setRunner_resetLow (n : Fin 4) (x : Runner) : (s.setRunner n x).resetLow = s.resetLow := rfl
@[simp] theorem setRunner_counter (n : Fin 4) (x : Runner) : (s.setRunner n x).counter = s.counter := rfl
@[simp] theorem setRunner_cfg (n : Fin 4) (x : Runner) : (s.setRunner n x).cfg = s.cfg := rfl
@[simp] theorem setRunner_blockBase (n : Fin 4) (x : Runner) : (s.setRunner n x).blockBase = s.blockBase := rfl
@[simp] theorem setRunner_attn (n : Fin 4) (x : Runner) : (s.setRunner n x).attn = s.attn := rfl
@[simp] theorem setRunner_attnMask (n : Fin 4) (x : Runner) : (s.setRunner n x).attnMask = s.attnMask := rfl
@[simp] theorem setRunner_circuits (n : Fin 4) (x : Runner) : (s.setRunner n x).circuits = s.circuits := rfl
@[simp] theorem setRunner_align (n : Fin 4) (x : Runner) : (s.setRunner n x).align = s.align := rfl
@[simp] theorem setRunner_lineOcc (n : Fin 4) (x : Runner) : (s.setRunner n x).lineOcc = s.lineOcc := rfl
@[simp] theorem setRunner_spanOcc (n : Fin 4) (x : Runner) : (s.setRunner n x).spanOcc = s.spanOcc := rfl
@[simp] theorem setRunner_officeIn (n : Fin 4) (x : Runner) : (s.setRunner n x).officeIn = s.officeIn := rfl
@[simp] theorem setRunner_officeOut (n : Fin 4) (x : Runner) : (s.setRunner n x).officeOut = s.officeOut := rfl
@[simp] theorem setRunner_lineOut (n : Fin 4) (x : Runner) : (s.setRunner n x).lineOut = s.lineOut := rfl
@[simp] theorem setRunner_queue (n : Fin 4) (x : Runner) : (s.setRunner n x).queue = s.queue := rfl
@[simp] theorem setRunner_watch (n : Fin 4) (x : Runner) : (s.setRunner n x).watch = s.watch := rfl
@[simp] theorem setRunner_bridges (n : Fin 4) (x : Runner) : (s.setRunner n x).bridges = s.bridges := rfl
@[simp] theorem setRunner_groups (n : Fin 4) (x : Runner) : (s.setRunner n x).groups = s.groups := rfl
@[simp] theorem setRunner_spans (n : Fin 4) (x : Runner) : (s.setRunner n x).spans = s.spans := rfl
@[simp] theorem setRunner_ports (n : Fin 4) (x : Runner) : (s.setRunner n x).ports = s.ports := rfl
@[simp] theorem setRunner_monitors (n : Fin 4) (x : Runner) : (s.setRunner n x).monitors = s.monitors := rfl
@[simp] theorem setRunner_ftu (n : Fin 4) (x : Runner) : (s.setRunner n x).ftu = s.ftu := rfl
@[simp] theorem setRunner_runners (n : Fin 4) (x : Runner) : (s.setRunner n x).runners = s.runners.set n.val x n.isLt := rfl
@[simp] theorem setRunner_settles (n : Fin 4) (x : Runner) : (s.setRunner n x).settles = s.settles := rfl
@[simp] theorem setRunner_nextSettle (n : Fin 4) (x : Runner) : (s.setRunner n x).nextSettle = s.nextSettle := rfl
@[simp] theorem setRunner_smp (n : Fin 4) (x : Runner) : (s.setRunner n x).smp = s.smp := rfl
@[simp] theorem setRunner_nte (n : Fin 4) (x : Runner) : (s.setRunner n x).nte = s.nte := rfl
@[simp] theorem setRunner_pending (n : Fin 4) (x : Runner) : (s.setRunner n x).pending = s.pending := rfl
@[simp] theorem circuit_setRunner (n : Fin 4) (x : Runner) (c' : CircuitNo) : (s.setRunner n x).circuit c' = s.circuit c' := rfl
@[simp] theorem alignOf_setRunner (n : Fin 4) (x : Runner) (c' : CircuitNo) : (s.setRunner n x).alignOf c' = s.alignOf c' := rfl
@[simp] theorem lineUse_setRunner (n : Fin 4) (x : Runner) (p' : LinePos) : (s.setRunner n x).lineUse p' = s.lineUse p' := rfl
@[simp] theorem slotEntry_setRunner (n : Fin 4) (x : Runner) (b' : BearerSlot) : (s.setRunner n x).slotEntry b' = s.slotEntry b' := rfl
@[simp] theorem bridge_setRunner (n : Fin 4) (x : Runner) (i' : BridgeNo) : (s.setRunner n x).bridge i' = s.bridge i' := rfl
@[simp] theorem group_setRunner (n : Fin 4) (x : Runner) (g' : Fin 4) : (s.setRunner n x).group g' = s.group g' := rfl
@[simp] theorem span_setRunner (n : Fin 4) (x : Runner) (sp' : Span) : (s.setRunner n x).span sp' = s.span sp' := rfl
@[simp] theorem port_setRunner (n : Fin 4) (x : Runner) (p' : PortNo) : (s.setRunner n x).port p' = s.port p' := rfl
@[simp] theorem monitor_setRunner (n : Fin 4) (x : Runner) (c' : CircuitNo) : (s.setRunner n x).monitor c' = s.monitor c' := rfl
@[simp] theorem inService_setRunner (n : Fin 4) (x : Runner) (sp' : Span) : (s.setRunner n x).inService sp' = s.inService sp' := rfl
@[simp] theorem activity_setRunner (n : Fin 4) (x : Runner) (c' : CircuitNo) : (s.setRunner n x).activity c' = s.activity c' := rfl
@[simp] theorem tag_setRunner (n : Fin 4) (x : Runner) (t' : Fin 4) : (s.setRunner n x).tag t' = s.tag t' := rfl

/-! #### setSettles -/

@[simp] theorem setSettles_phase (x : List Settle) : (s.setSettles x).phase = s.phase := rfl
@[simp] theorem setSettles_resetLow (x : List Settle) : (s.setSettles x).resetLow = s.resetLow := rfl
@[simp] theorem setSettles_counter (x : List Settle) : (s.setSettles x).counter = s.counter := rfl
@[simp] theorem setSettles_cfg (x : List Settle) : (s.setSettles x).cfg = s.cfg := rfl
@[simp] theorem setSettles_blockBase (x : List Settle) : (s.setSettles x).blockBase = s.blockBase := rfl
@[simp] theorem setSettles_attn (x : List Settle) : (s.setSettles x).attn = s.attn := rfl
@[simp] theorem setSettles_attnMask (x : List Settle) : (s.setSettles x).attnMask = s.attnMask := rfl
@[simp] theorem setSettles_circuits (x : List Settle) : (s.setSettles x).circuits = s.circuits := rfl
@[simp] theorem setSettles_align (x : List Settle) : (s.setSettles x).align = s.align := rfl
@[simp] theorem setSettles_lineOcc (x : List Settle) : (s.setSettles x).lineOcc = s.lineOcc := rfl
@[simp] theorem setSettles_spanOcc (x : List Settle) : (s.setSettles x).spanOcc = s.spanOcc := rfl
@[simp] theorem setSettles_officeIn (x : List Settle) : (s.setSettles x).officeIn = s.officeIn := rfl
@[simp] theorem setSettles_officeOut (x : List Settle) : (s.setSettles x).officeOut = s.officeOut := rfl
@[simp] theorem setSettles_lineOut (x : List Settle) : (s.setSettles x).lineOut = s.lineOut := rfl
@[simp] theorem setSettles_queue (x : List Settle) : (s.setSettles x).queue = s.queue := rfl
@[simp] theorem setSettles_watch (x : List Settle) : (s.setSettles x).watch = s.watch := rfl
@[simp] theorem setSettles_bridges (x : List Settle) : (s.setSettles x).bridges = s.bridges := rfl
@[simp] theorem setSettles_groups (x : List Settle) : (s.setSettles x).groups = s.groups := rfl
@[simp] theorem setSettles_spans (x : List Settle) : (s.setSettles x).spans = s.spans := rfl
@[simp] theorem setSettles_ports (x : List Settle) : (s.setSettles x).ports = s.ports := rfl
@[simp] theorem setSettles_monitors (x : List Settle) : (s.setSettles x).monitors = s.monitors := rfl
@[simp] theorem setSettles_ftu (x : List Settle) : (s.setSettles x).ftu = s.ftu := rfl
@[simp] theorem setSettles_runners (x : List Settle) : (s.setSettles x).runners = s.runners := rfl
@[simp] theorem setSettles_settles (x : List Settle) : (s.setSettles x).settles = x := rfl
@[simp] theorem setSettles_nextSettle (x : List Settle) : (s.setSettles x).nextSettle = s.nextSettle := rfl
@[simp] theorem setSettles_smp (x : List Settle) : (s.setSettles x).smp = s.smp := rfl
@[simp] theorem setSettles_nte (x : List Settle) : (s.setSettles x).nte = s.nte := rfl
@[simp] theorem setSettles_pending (x : List Settle) : (s.setSettles x).pending = s.pending := rfl
@[simp] theorem circuit_setSettles (x : List Settle) (c' : CircuitNo) : (s.setSettles x).circuit c' = s.circuit c' := rfl
@[simp] theorem alignOf_setSettles (x : List Settle) (c' : CircuitNo) : (s.setSettles x).alignOf c' = s.alignOf c' := rfl
@[simp] theorem lineUse_setSettles (x : List Settle) (p' : LinePos) : (s.setSettles x).lineUse p' = s.lineUse p' := rfl
@[simp] theorem slotEntry_setSettles (x : List Settle) (b' : BearerSlot) : (s.setSettles x).slotEntry b' = s.slotEntry b' := rfl
@[simp] theorem bridge_setSettles (x : List Settle) (i' : BridgeNo) : (s.setSettles x).bridge i' = s.bridge i' := rfl
@[simp] theorem group_setSettles (x : List Settle) (g' : Fin 4) : (s.setSettles x).group g' = s.group g' := rfl
@[simp] theorem span_setSettles (x : List Settle) (sp' : Span) : (s.setSettles x).span sp' = s.span sp' := rfl
@[simp] theorem port_setSettles (x : List Settle) (p' : PortNo) : (s.setSettles x).port p' = s.port p' := rfl
@[simp] theorem monitor_setSettles (x : List Settle) (c' : CircuitNo) : (s.setSettles x).monitor c' = s.monitor c' := rfl
@[simp] theorem runner_setSettles (x : List Settle) (n' : Fin 4) : (s.setSettles x).runner n' = s.runner n' := rfl
@[simp] theorem inService_setSettles (x : List Settle) (sp' : Span) : (s.setSettles x).inService sp' = s.inService sp' := rfl
@[simp] theorem activity_setSettles (x : List Settle) (c' : CircuitNo) : (s.setSettles x).activity c' = s.activity c' := rfl
@[simp] theorem tag_setSettles (x : List Settle) (t' : Fin 4) : (s.setSettles x).tag t' = s.tag t' := rfl

/-! #### setNextSettle -/

@[simp] theorem setNextSettle_phase (x : Nat) : (s.setNextSettle x).phase = s.phase := rfl
@[simp] theorem setNextSettle_resetLow (x : Nat) : (s.setNextSettle x).resetLow = s.resetLow := rfl
@[simp] theorem setNextSettle_counter (x : Nat) : (s.setNextSettle x).counter = s.counter := rfl
@[simp] theorem setNextSettle_cfg (x : Nat) : (s.setNextSettle x).cfg = s.cfg := rfl
@[simp] theorem setNextSettle_blockBase (x : Nat) : (s.setNextSettle x).blockBase = s.blockBase := rfl
@[simp] theorem setNextSettle_attn (x : Nat) : (s.setNextSettle x).attn = s.attn := rfl
@[simp] theorem setNextSettle_attnMask (x : Nat) : (s.setNextSettle x).attnMask = s.attnMask := rfl
@[simp] theorem setNextSettle_circuits (x : Nat) : (s.setNextSettle x).circuits = s.circuits := rfl
@[simp] theorem setNextSettle_align (x : Nat) : (s.setNextSettle x).align = s.align := rfl
@[simp] theorem setNextSettle_lineOcc (x : Nat) : (s.setNextSettle x).lineOcc = s.lineOcc := rfl
@[simp] theorem setNextSettle_spanOcc (x : Nat) : (s.setNextSettle x).spanOcc = s.spanOcc := rfl
@[simp] theorem setNextSettle_officeIn (x : Nat) : (s.setNextSettle x).officeIn = s.officeIn := rfl
@[simp] theorem setNextSettle_officeOut (x : Nat) : (s.setNextSettle x).officeOut = s.officeOut := rfl
@[simp] theorem setNextSettle_lineOut (x : Nat) : (s.setNextSettle x).lineOut = s.lineOut := rfl
@[simp] theorem setNextSettle_queue (x : Nat) : (s.setNextSettle x).queue = s.queue := rfl
@[simp] theorem setNextSettle_watch (x : Nat) : (s.setNextSettle x).watch = s.watch := rfl
@[simp] theorem setNextSettle_bridges (x : Nat) : (s.setNextSettle x).bridges = s.bridges := rfl
@[simp] theorem setNextSettle_groups (x : Nat) : (s.setNextSettle x).groups = s.groups := rfl
@[simp] theorem setNextSettle_spans (x : Nat) : (s.setNextSettle x).spans = s.spans := rfl
@[simp] theorem setNextSettle_ports (x : Nat) : (s.setNextSettle x).ports = s.ports := rfl
@[simp] theorem setNextSettle_monitors (x : Nat) : (s.setNextSettle x).monitors = s.monitors := rfl
@[simp] theorem setNextSettle_ftu (x : Nat) : (s.setNextSettle x).ftu = s.ftu := rfl
@[simp] theorem setNextSettle_runners (x : Nat) : (s.setNextSettle x).runners = s.runners := rfl
@[simp] theorem setNextSettle_settles (x : Nat) : (s.setNextSettle x).settles = s.settles := rfl
@[simp] theorem setNextSettle_nextSettle (x : Nat) : (s.setNextSettle x).nextSettle = x := rfl
@[simp] theorem setNextSettle_smp (x : Nat) : (s.setNextSettle x).smp = s.smp := rfl
@[simp] theorem setNextSettle_nte (x : Nat) : (s.setNextSettle x).nte = s.nte := rfl
@[simp] theorem setNextSettle_pending (x : Nat) : (s.setNextSettle x).pending = s.pending := rfl
@[simp] theorem circuit_setNextSettle (x : Nat) (c' : CircuitNo) : (s.setNextSettle x).circuit c' = s.circuit c' := rfl
@[simp] theorem alignOf_setNextSettle (x : Nat) (c' : CircuitNo) : (s.setNextSettle x).alignOf c' = s.alignOf c' := rfl
@[simp] theorem lineUse_setNextSettle (x : Nat) (p' : LinePos) : (s.setNextSettle x).lineUse p' = s.lineUse p' := rfl
@[simp] theorem slotEntry_setNextSettle (x : Nat) (b' : BearerSlot) : (s.setNextSettle x).slotEntry b' = s.slotEntry b' := rfl
@[simp] theorem bridge_setNextSettle (x : Nat) (i' : BridgeNo) : (s.setNextSettle x).bridge i' = s.bridge i' := rfl
@[simp] theorem group_setNextSettle (x : Nat) (g' : Fin 4) : (s.setNextSettle x).group g' = s.group g' := rfl
@[simp] theorem span_setNextSettle (x : Nat) (sp' : Span) : (s.setNextSettle x).span sp' = s.span sp' := rfl
@[simp] theorem port_setNextSettle (x : Nat) (p' : PortNo) : (s.setNextSettle x).port p' = s.port p' := rfl
@[simp] theorem monitor_setNextSettle (x : Nat) (c' : CircuitNo) : (s.setNextSettle x).monitor c' = s.monitor c' := rfl
@[simp] theorem runner_setNextSettle (x : Nat) (n' : Fin 4) : (s.setNextSettle x).runner n' = s.runner n' := rfl
@[simp] theorem inService_setNextSettle (x : Nat) (sp' : Span) : (s.setNextSettle x).inService sp' = s.inService sp' := rfl
@[simp] theorem activity_setNextSettle (x : Nat) (c' : CircuitNo) : (s.setNextSettle x).activity c' = s.activity c' := rfl
@[simp] theorem tag_setNextSettle (x : Nat) (t' : Fin 4) : (s.setNextSettle x).tag t' = s.tag t' := rfl

/-! #### setSmp -/

@[simp] theorem setSmp_phase (x : Smp) : (s.setSmp x).phase = s.phase := rfl
@[simp] theorem setSmp_resetLow (x : Smp) : (s.setSmp x).resetLow = s.resetLow := rfl
@[simp] theorem setSmp_counter (x : Smp) : (s.setSmp x).counter = s.counter := rfl
@[simp] theorem setSmp_cfg (x : Smp) : (s.setSmp x).cfg = s.cfg := rfl
@[simp] theorem setSmp_blockBase (x : Smp) : (s.setSmp x).blockBase = s.blockBase := rfl
@[simp] theorem setSmp_attn (x : Smp) : (s.setSmp x).attn = s.attn := rfl
@[simp] theorem setSmp_attnMask (x : Smp) : (s.setSmp x).attnMask = s.attnMask := rfl
@[simp] theorem setSmp_circuits (x : Smp) : (s.setSmp x).circuits = s.circuits := rfl
@[simp] theorem setSmp_align (x : Smp) : (s.setSmp x).align = s.align := rfl
@[simp] theorem setSmp_lineOcc (x : Smp) : (s.setSmp x).lineOcc = s.lineOcc := rfl
@[simp] theorem setSmp_spanOcc (x : Smp) : (s.setSmp x).spanOcc = s.spanOcc := rfl
@[simp] theorem setSmp_officeIn (x : Smp) : (s.setSmp x).officeIn = s.officeIn := rfl
@[simp] theorem setSmp_officeOut (x : Smp) : (s.setSmp x).officeOut = s.officeOut := rfl
@[simp] theorem setSmp_lineOut (x : Smp) : (s.setSmp x).lineOut = s.lineOut := rfl
@[simp] theorem setSmp_queue (x : Smp) : (s.setSmp x).queue = s.queue := rfl
@[simp] theorem setSmp_watch (x : Smp) : (s.setSmp x).watch = s.watch := rfl
@[simp] theorem setSmp_bridges (x : Smp) : (s.setSmp x).bridges = s.bridges := rfl
@[simp] theorem setSmp_groups (x : Smp) : (s.setSmp x).groups = s.groups := rfl
@[simp] theorem setSmp_spans (x : Smp) : (s.setSmp x).spans = s.spans := rfl
@[simp] theorem setSmp_ports (x : Smp) : (s.setSmp x).ports = s.ports := rfl
@[simp] theorem setSmp_monitors (x : Smp) : (s.setSmp x).monitors = s.monitors := rfl
@[simp] theorem setSmp_ftu (x : Smp) : (s.setSmp x).ftu = s.ftu := rfl
@[simp] theorem setSmp_runners (x : Smp) : (s.setSmp x).runners = s.runners := rfl
@[simp] theorem setSmp_settles (x : Smp) : (s.setSmp x).settles = s.settles := rfl
@[simp] theorem setSmp_nextSettle (x : Smp) : (s.setSmp x).nextSettle = s.nextSettle := rfl
@[simp] theorem setSmp_smp (x : Smp) : (s.setSmp x).smp = x := rfl
@[simp] theorem setSmp_nte (x : Smp) : (s.setSmp x).nte = s.nte := rfl
@[simp] theorem setSmp_pending (x : Smp) : (s.setSmp x).pending = s.pending := rfl
@[simp] theorem circuit_setSmp (x : Smp) (c' : CircuitNo) : (s.setSmp x).circuit c' = s.circuit c' := rfl
@[simp] theorem alignOf_setSmp (x : Smp) (c' : CircuitNo) : (s.setSmp x).alignOf c' = s.alignOf c' := rfl
@[simp] theorem lineUse_setSmp (x : Smp) (p' : LinePos) : (s.setSmp x).lineUse p' = s.lineUse p' := rfl
@[simp] theorem slotEntry_setSmp (x : Smp) (b' : BearerSlot) : (s.setSmp x).slotEntry b' = s.slotEntry b' := rfl
@[simp] theorem bridge_setSmp (x : Smp) (i' : BridgeNo) : (s.setSmp x).bridge i' = s.bridge i' := rfl
@[simp] theorem group_setSmp (x : Smp) (g' : Fin 4) : (s.setSmp x).group g' = s.group g' := rfl
@[simp] theorem span_setSmp (x : Smp) (sp' : Span) : (s.setSmp x).span sp' = s.span sp' := rfl
@[simp] theorem port_setSmp (x : Smp) (p' : PortNo) : (s.setSmp x).port p' = s.port p' := rfl
@[simp] theorem monitor_setSmp (x : Smp) (c' : CircuitNo) : (s.setSmp x).monitor c' = s.monitor c' := rfl
@[simp] theorem runner_setSmp (x : Smp) (n' : Fin 4) : (s.setSmp x).runner n' = s.runner n' := rfl
@[simp] theorem inService_setSmp (x : Smp) (sp' : Span) : (s.setSmp x).inService sp' = s.inService sp' := rfl
@[simp] theorem activity_setSmp (x : Smp) (c' : CircuitNo) : (s.setSmp x).activity c' = s.activity c' := rfl

/-! #### setNte -/

@[simp] theorem setNte_phase (x : Nte) : (s.setNte x).phase = s.phase := rfl
@[simp] theorem setNte_resetLow (x : Nte) : (s.setNte x).resetLow = s.resetLow := rfl
@[simp] theorem setNte_counter (x : Nte) : (s.setNte x).counter = s.counter := rfl
@[simp] theorem setNte_cfg (x : Nte) : (s.setNte x).cfg = s.cfg := rfl
@[simp] theorem setNte_blockBase (x : Nte) : (s.setNte x).blockBase = s.blockBase := rfl
@[simp] theorem setNte_attn (x : Nte) : (s.setNte x).attn = s.attn := rfl
@[simp] theorem setNte_attnMask (x : Nte) : (s.setNte x).attnMask = s.attnMask := rfl
@[simp] theorem setNte_circuits (x : Nte) : (s.setNte x).circuits = s.circuits := rfl
@[simp] theorem setNte_align (x : Nte) : (s.setNte x).align = s.align := rfl
@[simp] theorem setNte_lineOcc (x : Nte) : (s.setNte x).lineOcc = s.lineOcc := rfl
@[simp] theorem setNte_spanOcc (x : Nte) : (s.setNte x).spanOcc = s.spanOcc := rfl
@[simp] theorem setNte_officeIn (x : Nte) : (s.setNte x).officeIn = s.officeIn := rfl
@[simp] theorem setNte_officeOut (x : Nte) : (s.setNte x).officeOut = s.officeOut := rfl
@[simp] theorem setNte_lineOut (x : Nte) : (s.setNte x).lineOut = s.lineOut := rfl
@[simp] theorem setNte_queue (x : Nte) : (s.setNte x).queue = s.queue := rfl
@[simp] theorem setNte_watch (x : Nte) : (s.setNte x).watch = s.watch := rfl
@[simp] theorem setNte_bridges (x : Nte) : (s.setNte x).bridges = s.bridges := rfl
@[simp] theorem setNte_groups (x : Nte) : (s.setNte x).groups = s.groups := rfl
@[simp] theorem setNte_spans (x : Nte) : (s.setNte x).spans = s.spans := rfl
@[simp] theorem setNte_ports (x : Nte) : (s.setNte x).ports = s.ports := rfl
@[simp] theorem setNte_monitors (x : Nte) : (s.setNte x).monitors = s.monitors := rfl
@[simp] theorem setNte_ftu (x : Nte) : (s.setNte x).ftu = s.ftu := rfl
@[simp] theorem setNte_runners (x : Nte) : (s.setNte x).runners = s.runners := rfl
@[simp] theorem setNte_settles (x : Nte) : (s.setNte x).settles = s.settles := rfl
@[simp] theorem setNte_nextSettle (x : Nte) : (s.setNte x).nextSettle = s.nextSettle := rfl
@[simp] theorem setNte_smp (x : Nte) : (s.setNte x).smp = s.smp := rfl
@[simp] theorem setNte_nte (x : Nte) : (s.setNte x).nte = x := rfl
@[simp] theorem setNte_pending (x : Nte) : (s.setNte x).pending = s.pending := rfl
@[simp] theorem circuit_setNte (x : Nte) (c' : CircuitNo) : (s.setNte x).circuit c' = s.circuit c' := rfl
@[simp] theorem alignOf_setNte (x : Nte) (c' : CircuitNo) : (s.setNte x).alignOf c' = s.alignOf c' := rfl
@[simp] theorem lineUse_setNte (x : Nte) (p' : LinePos) : (s.setNte x).lineUse p' = s.lineUse p' := rfl
@[simp] theorem slotEntry_setNte (x : Nte) (b' : BearerSlot) : (s.setNte x).slotEntry b' = s.slotEntry b' := rfl
@[simp] theorem bridge_setNte (x : Nte) (i' : BridgeNo) : (s.setNte x).bridge i' = s.bridge i' := rfl
@[simp] theorem group_setNte (x : Nte) (g' : Fin 4) : (s.setNte x).group g' = s.group g' := rfl
@[simp] theorem span_setNte (x : Nte) (sp' : Span) : (s.setNte x).span sp' = s.span sp' := rfl
@[simp] theorem port_setNte (x : Nte) (p' : PortNo) : (s.setNte x).port p' = s.port p' := rfl
@[simp] theorem monitor_setNte (x : Nte) (c' : CircuitNo) : (s.setNte x).monitor c' = s.monitor c' := rfl
@[simp] theorem runner_setNte (x : Nte) (n' : Fin 4) : (s.setNte x).runner n' = s.runner n' := rfl
@[simp] theorem inService_setNte (x : Nte) (sp' : Span) : (s.setNte x).inService sp' = s.inService sp' := rfl
@[simp] theorem activity_setNte (x : Nte) (c' : CircuitNo) : (s.setNte x).activity c' = s.activity c' := rfl
@[simp] theorem tag_setNte (x : Nte) (t' : Fin 4) : (s.setNte x).tag t' = s.tag t' := rfl

/-! #### setPending -/

@[simp] theorem setPending_phase (x : List Instr) : (s.setPending x).phase = s.phase := rfl
@[simp] theorem setPending_resetLow (x : List Instr) : (s.setPending x).resetLow = s.resetLow := rfl
@[simp] theorem setPending_counter (x : List Instr) : (s.setPending x).counter = s.counter := rfl
@[simp] theorem setPending_cfg (x : List Instr) : (s.setPending x).cfg = s.cfg := rfl
@[simp] theorem setPending_blockBase (x : List Instr) : (s.setPending x).blockBase = s.blockBase := rfl
@[simp] theorem setPending_attn (x : List Instr) : (s.setPending x).attn = s.attn := rfl
@[simp] theorem setPending_attnMask (x : List Instr) : (s.setPending x).attnMask = s.attnMask := rfl
@[simp] theorem setPending_circuits (x : List Instr) : (s.setPending x).circuits = s.circuits := rfl
@[simp] theorem setPending_align (x : List Instr) : (s.setPending x).align = s.align := rfl
@[simp] theorem setPending_lineOcc (x : List Instr) : (s.setPending x).lineOcc = s.lineOcc := rfl
@[simp] theorem setPending_spanOcc (x : List Instr) : (s.setPending x).spanOcc = s.spanOcc := rfl
@[simp] theorem setPending_officeIn (x : List Instr) : (s.setPending x).officeIn = s.officeIn := rfl
@[simp] theorem setPending_officeOut (x : List Instr) : (s.setPending x).officeOut = s.officeOut := rfl
@[simp] theorem setPending_lineOut (x : List Instr) : (s.setPending x).lineOut = s.lineOut := rfl
@[simp] theorem setPending_queue (x : List Instr) : (s.setPending x).queue = s.queue := rfl
@[simp] theorem setPending_watch (x : List Instr) : (s.setPending x).watch = s.watch := rfl
@[simp] theorem setPending_bridges (x : List Instr) : (s.setPending x).bridges = s.bridges := rfl
@[simp] theorem setPending_groups (x : List Instr) : (s.setPending x).groups = s.groups := rfl
@[simp] theorem setPending_spans (x : List Instr) : (s.setPending x).spans = s.spans := rfl
@[simp] theorem setPending_ports (x : List Instr) : (s.setPending x).ports = s.ports := rfl
@[simp] theorem setPending_monitors (x : List Instr) : (s.setPending x).monitors = s.monitors := rfl
@[simp] theorem setPending_ftu (x : List Instr) : (s.setPending x).ftu = s.ftu := rfl
@[simp] theorem setPending_runners (x : List Instr) : (s.setPending x).runners = s.runners := rfl
@[simp] theorem setPending_settles (x : List Instr) : (s.setPending x).settles = s.settles := rfl
@[simp] theorem setPending_nextSettle (x : List Instr) : (s.setPending x).nextSettle = s.nextSettle := rfl
@[simp] theorem setPending_smp (x : List Instr) : (s.setPending x).smp = s.smp := rfl
@[simp] theorem setPending_nte (x : List Instr) : (s.setPending x).nte = s.nte := rfl
@[simp] theorem setPending_pending (x : List Instr) : (s.setPending x).pending = x := rfl
@[simp] theorem circuit_setPending (x : List Instr) (c' : CircuitNo) : (s.setPending x).circuit c' = s.circuit c' := rfl
@[simp] theorem alignOf_setPending (x : List Instr) (c' : CircuitNo) : (s.setPending x).alignOf c' = s.alignOf c' := rfl
@[simp] theorem lineUse_setPending (x : List Instr) (p' : LinePos) : (s.setPending x).lineUse p' = s.lineUse p' := rfl
@[simp] theorem slotEntry_setPending (x : List Instr) (b' : BearerSlot) : (s.setPending x).slotEntry b' = s.slotEntry b' := rfl
@[simp] theorem bridge_setPending (x : List Instr) (i' : BridgeNo) : (s.setPending x).bridge i' = s.bridge i' := rfl
@[simp] theorem group_setPending (x : List Instr) (g' : Fin 4) : (s.setPending x).group g' = s.group g' := rfl
@[simp] theorem span_setPending (x : List Instr) (sp' : Span) : (s.setPending x).span sp' = s.span sp' := rfl
@[simp] theorem port_setPending (x : List Instr) (p' : PortNo) : (s.setPending x).port p' = s.port p' := rfl
@[simp] theorem monitor_setPending (x : List Instr) (c' : CircuitNo) : (s.setPending x).monitor c' = s.monitor c' := rfl
@[simp] theorem runner_setPending (x : List Instr) (n' : Fin 4) : (s.setPending x).runner n' = s.runner n' := rfl
@[simp] theorem inService_setPending (x : List Instr) (sp' : Span) : (s.setPending x).inService sp' = s.inService sp' := rfl
@[simp] theorem activity_setPending (x : List Instr) (c' : CircuitNo) : (s.setPending x).activity c' = s.activity c' := rfl
@[simp] theorem tag_setPending (x : List Instr) (t' : Fin 4) : (s.setPending x).tag t' = s.tag t' := rfl

/-! #### A read of the table that was written -/


@[simp] theorem circuit_setCircuit_same (c : CircuitNo) (x : Circuit) : (s.setCircuit c x).circuit c = x := by
  simp [circuit]
theorem circuit_setCircuit_ne (c c' : CircuitNo) (x : Circuit) (h : c ≠ c') :
    (s.setCircuit c x).circuit c' = s.circuit c' := by
  have h' : c.val ≠ c'.val := fun e => h (Fin.ext e)
  simp [circuit, h']
@[simp] theorem alignOf_setAlign_same (c : CircuitNo) (x : AlignStore) : (s.setAlign c x).alignOf c = x := by
  simp [alignOf]
theorem alignOf_setAlign_ne (c c' : CircuitNo) (x : AlignStore) (h : c ≠ c') :
    (s.setAlign c x).alignOf c' = s.alignOf c' := by
  have h' : c.val ≠ c'.val := fun e => h (Fin.ext e)
  simp [alignOf, h']
@[simp] theorem bridge_setBridge_same (i : BridgeNo) (x : Option Bridge) : (s.setBridge i x).bridge i = x := by
  simp [bridge]
theorem bridge_setBridge_ne (i i' : BridgeNo) (x : Option Bridge) (h : i ≠ i') :
    (s.setBridge i x).bridge i' = s.bridge i' := by
  have h' : i.val ≠ i'.val := fun e => h (Fin.ext e)
  simp [bridge, h']
@[simp] theorem group_setGroup_same (g : Fin 4) (x : Option Group) : (s.setGroup g x).group g = x := by
  simp [group]
theorem group_setGroup_ne (g g' : Fin 4) (x : Option Group) (h : g ≠ g') :
    (s.setGroup g x).group g' = s.group g' := by
  have h' : g.val ≠ g'.val := fun e => h (Fin.ext e)
  simp [group, h']
@[simp] theorem port_setPort_same (p : PortNo) (x : Port) : (s.setPort p x).port p = x := by
  simp [port]
theorem port_setPort_ne (p p' : PortNo) (x : Port) (h : p ≠ p') :
    (s.setPort p x).port p' = s.port p' := by
  have h' : p.val ≠ p'.val := fun e => h (Fin.ext e)
  simp [port, h']
@[simp] theorem monitor_setMonitor_same (c : CircuitNo) (x : Monitor) : (s.setMonitor c x).monitor c = x := by
  simp [monitor]
theorem monitor_setMonitor_ne (c c' : CircuitNo) (x : Monitor) (h : c ≠ c') :
    (s.setMonitor c x).monitor c' = s.monitor c' := by
  have h' : c.val ≠ c'.val := fun e => h (Fin.ext e)
  simp [monitor, h']
@[simp] theorem runner_setRunner_same (n : Fin 4) (x : Runner) : (s.setRunner n x).runner n = x := by
  simp [runner]
theorem runner_setRunner_ne (n n' : Fin 4) (x : Runner) (h : n ≠ n') :
    (s.setRunner n x).runner n' = s.runner n' := by
  have h' : n.val ≠ n'.val := fun e => h (Fin.ext e)
  simp [runner, h']
@[simp] theorem lineUse_setLineUse_same (p : LinePos) (x : LineUse) : (s.setLineUse p x).lineUse p = x := by
  simp [lineUse]
theorem lineUse_setLineUse_ne (p p' : LinePos) (x : LineUse) (h : p ≠ p') :
    (s.setLineUse p x).lineUse p' = s.lineUse p' := by
  have h' : p.index.val ≠ p'.index.val := by
    intro e
    apply h
    have e' : 32 * p.port.val + p.slot.val = 32 * p'.port.val + p'.slot.val := e
    cases p; cases p'
    simp only [LinePos.mk.injEq]
    constructor <;> apply Fin.ext <;> simp_all only [] <;> omega
  simp [lineUse, h']
@[simp] theorem get_set_same {α : Type} (p : PerSpan α) (sp : Span) (x : α) : (p.set sp x).get sp = x := by
  cases sp <;> rfl
theorem get_set_ne {α : Type} (p : PerSpan α) (sp sp' : Span) (x : α) (h : sp ≠ sp') :
    (p.set sp x).get sp' = p.get sp' := by
  cases sp <;> cases sp' <;> first | rfl | exact absurd rfl h
@[simp] theorem span_setSpan_same (sp : Span) (x : SpanState) : (s.setSpan sp x).span sp = x := by
  simp [span]
theorem span_setSpan_ne (sp sp' : Span) (x : SpanState) (h : sp ≠ sp') : (s.setSpan sp x).span sp' = s.span sp' := by
  simp [span, get_set_ne _ _ _ _ h]
@[simp] theorem slotEntry_setSlotEntry_same (b : BearerSlot) (x : SlotEntry) : (s.setSlotEntry b x).slotEntry b = x := by
  simp [slotEntry]
theorem slotEntry_setSlotEntry_ne (b b' : BearerSlot) (x : SlotEntry) (h : b ≠ b') :
    (s.setSlotEntry b x).slotEntry b' = s.slotEntry b' := by
  obtain ⟨sp, n⟩ := b
  obtain ⟨sp', n'⟩ := b'
  by_cases e : sp = sp'
  · subst e
    have h' : n.val ≠ n'.val := fun q => h (by rw [Fin.ext q])
    simp [slotEntry, h']
  · simp [slotEntry, get_set_ne _ _ _ _ e]
@[simp] theorem tag_setTag_same (t : Fin 4) (x : Tag) : (s.setTag t x).tag t = x := by
  simp [setTag, tag]
theorem tag_setTag_ne (t t' : Fin 4) (x : Tag) (h : t ≠ t') : (s.setTag t x).tag t' = s.tag t' := by
  have h' : t.val ≠ t'.val := fun e => h (Fin.ext e)
  simp [setTag, tag, h']

/-! #### A read after a write of the same table, at any place -/

theorem circuit_setCircuit (k k' : CircuitNo) (x : Circuit) : (s.setCircuit k x).circuit k' = if k = k' then x else s.circuit k' := by
  split
  · next h => subst h; simp
  · next h => exact circuit_setCircuit_ne _ _ _ _ h
theorem alignOf_setAlign (k k' : CircuitNo) (x : AlignStore) : (s.setAlign k x).alignOf k' = if k = k' then x else s.alignOf k' := by
  split
  · next h => subst h; simp
  · next h => exact alignOf_setAlign_ne _ _ _ _ h
theorem lineUse_setLineUse (k k' : LinePos) (x : LineUse) : (s.setLineUse k x).lineUse k' = if k = k' then x else s.lineUse k' := by
  split
  · next h => subst h; simp
  · next h => exact lineUse_setLineUse_ne _ _ _ _ h
theorem slotEntry_setSlotEntry (k k' : BearerSlot) (x : SlotEntry) : (s.setSlotEntry k x).slotEntry k' = if k = k' then x else s.slotEntry k' := by
  split
  · next h => subst h; simp
  · next h => exact slotEntry_setSlotEntry_ne _ _ _ _ h
theorem bridge_setBridge (k k' : BridgeNo) (x : Option Bridge) : (s.setBridge k x).bridge k' = if k = k' then x else s.bridge k' := by
  split
  · next h => subst h; simp
  · next h => exact bridge_setBridge_ne _ _ _ _ h
theorem group_setGroup (k k' : Fin 4) (x : Option Group) : (s.setGroup k x).group k' = if k = k' then x else s.group k' := by
  split
  · next h => subst h; simp
  · next h => exact group_setGroup_ne _ _ _ _ h
theorem span_setSpan (k k' : Span) (x : SpanState) : (s.setSpan k x).span k' = if k = k' then x else s.span k' := by
  split
  · next h => subst h; simp
  · next h => exact span_setSpan_ne _ _ _ _ h
theorem port_setPort (k k' : PortNo) (x : Port) : (s.setPort k x).port k' = if k = k' then x else s.port k' := by
  split
  · next h => subst h; simp
  · next h => exact port_setPort_ne _ _ _ _ h
theorem monitor_setMonitor (k k' : CircuitNo) (x : Monitor) : (s.setMonitor k x).monitor k' = if k = k' then x else s.monitor k' := by
  split
  · next h => subst h; simp
  · next h => exact monitor_setMonitor_ne _ _ _ _ h
theorem runner_setRunner (k k' : Fin 4) (x : Runner) : (s.setRunner k x).runner k' = if k = k' then x else s.runner k' := by
  split
  · next h => subst h; simp
  · next h => exact runner_setRunner_ne _ _ _ _ h
theorem tag_setTag (k k' : Fin 4) (x : Tag) : (s.setTag k x).tag k' = if k = k' then x else s.tag k' := by
  split
  · next h => subst h; simp
  · next h => exact tag_setTag_ne _ _ _ _ h

/-! #### The same entry written twice -/

@[simp] theorem setCircuit_setCircuit (c : CircuitNo) (x y : Circuit) : (s.setCircuit c x).setCircuit c y = s.setCircuit c y := by
  simp [setCircuit]
@[simp] theorem setAlign_setAlign (c : CircuitNo) (x y : AlignStore) : (s.setAlign c x).setAlign c y = s.setAlign c y := by
  simp [setAlign]
@[simp] theorem setLineUse_setLineUse (c : LinePos) (x y : LineUse) : (s.setLineUse c x).setLineUse c y = s.setLineUse c y := by
  simp [setLineUse]
@[simp] theorem setBridge_setBridge (c : BridgeNo) (x y : Option Bridge) : (s.setBridge c x).setBridge c y = s.setBridge c y := by
  simp [setBridge]
@[simp] theorem setGroup_setGroup (c : Fin 4) (x y : Option Group) : (s.setGroup c x).setGroup c y = s.setGroup c y := by
  simp [setGroup]
@[simp] theorem setPort_setPort (c : PortNo) (x y : Port) : (s.setPort c x).setPort c y = s.setPort c y := by
  simp [setPort]
@[simp] theorem setMonitor_setMonitor (c : CircuitNo) (x y : Monitor) : (s.setMonitor c x).setMonitor c y = s.setMonitor c y := by
  simp [setMonitor]
@[simp] theorem setRunner_setRunner (c : Fin 4) (x y : Runner) : (s.setRunner c x).setRunner c y = s.setRunner c y := by
  simp [setRunner]
@[simp] theorem set_set {α : Type} (p : PerSpan α) (sp : Span) (x y : α) : (p.set sp x).set sp y = p.set sp y := by
  cases sp <;> rfl
@[simp] theorem setSpan_setSpan (c : Span) (x y : SpanState) : (s.setSpan c x).setSpan c y = s.setSpan c y := by
  simp [setSpan]
@[simp] theorem setSlotEntry_setSlotEntry (c : BearerSlot) (x y : SlotEntry) :
    (s.setSlotEntry c x).setSlotEntry c y = s.setSlotEntry c y := by
  simp [setSlotEntry]
@[simp] theorem setPhase_setPhase (x y : Phase) : (s.setPhase x).setPhase y = s.setPhase y := rfl
@[simp] theorem setCounter_setCounter (x y : FrameNo) : (s.setCounter x).setCounter y = s.setCounter y := rfl
@[simp] theorem setAttn_setAttn (x y : BitVec 6) : (s.setAttn x).setAttn y = s.setAttn y := rfl
@[simp] theorem setQueue_setQueue (x y : List QueueEntry) : (s.setQueue x).setQueue y = s.setQueue y := rfl
@[simp] theorem setWatch_setWatch (x y : List WatchEntry) : (s.setWatch x).setWatch y = s.setWatch y := rfl
@[simp] theorem setFtu_setFtu (x y : Ftu) : (s.setFtu x).setFtu y = s.setFtu y := rfl
@[simp] theorem setSettles_setSettles (x y : List Settle) : (s.setSettles x).setSettles y = s.setSettles y := rfl
@[simp] theorem setNextSettle_setNextSettle (x y : Nat) : (s.setNextSettle x).setNextSettle y = s.setNextSettle y := rfl
@[simp] theorem setSmp_setSmp (x y : Smp) : (s.setSmp x).setSmp y = s.setSmp y := rfl
@[simp] theorem setNte_setNte (x y : Nte) : (s.setNte x).setNte y = s.setNte y := rfl
@[simp] theorem setPending_setPending (x y : List Instr) : (s.setPending x).setPending y = s.setPending y := rfl

/-! #### An entry written as it is -/

theorem setBridge_self {i : BridgeNo} {x : Option Bridge} (h : s.bridge i = x) : s.setBridge i x = s := by
  subst h; simp [setBridge, bridge]
theorem setCircuit_self {c : CircuitNo} {x : Circuit} (h : s.circuit c = x) : s.setCircuit c x = s := by
  subst h; simp [setCircuit, circuit]
theorem setRunner_self {n : Fin 4} {x : Runner} (h : s.runner n = x) : s.setRunner n x = s := by
  subst h; simp [setRunner, runner]

/-! #### Changes of one entry -/

theorem setTag_eq (t : Fin 4) (x : Tag) :
    s.setTag t x = s.setSmp { s.smp with tags := s.smp.tags.set t.val x t.isLt } := rfl
@[simp] theorem modCircuit_eq (c : CircuitNo) (f : Circuit → Circuit) :
    s.modCircuit c f = s.setCircuit c (f (s.circuit c)) := rfl
@[simp] theorem modAlign_eq (c : CircuitNo) (f : AlignStore → AlignStore) :
    s.modAlign c f = s.setAlign c (f (s.alignOf c)) := rfl
@[simp] theorem modSpan_eq (sp : Span) (f : SpanState → SpanState) : s.modSpan sp f = s.setSpan sp (f (s.span sp)) := rfl
@[simp] theorem modPort_eq (p : PortNo) (f : Port → Port) : s.modPort p f = s.setPort p (f (s.port p)) := rfl
@[simp] theorem modRunner_eq (n : Fin 4) (f : Runner → Runner) : s.modRunner n f = s.setRunner n (f (s.runner n)) := rfl
theorem modBridge_some {i : BridgeNo} {e : Bridge} (h : s.bridge i = some e) (f : Bridge → Bridge) :
    s.modBridge i f = s.setBridge i (some (f e)) := by simp [modBridge, h]
theorem withBridge_some {i : BridgeNo} {e : Bridge} (h : s.bridge i = some e) (f : Bridge → State) :
    s.withBridge i f = f e := by simp [withBridge, h]
theorem withBridge_none {i : BridgeNo} (h : s.bridge i = none) (f : Bridge → State) : s.withBridge i f = s := by
  simp [withBridge, h]

end Sys2Proof.Machine.State
end

