-- ==== Sys2Proof/Laws/Frame.lean ====
section
/-! SUPPORT. What the operations that move circuits leave alone, one law for each: they change no field of `still`. -/

namespace Sys2Proof.Machine

open Sys2Proof

/-- A fold of changes keeps what each of them keeps. -/
theorem each_keeps {α β : Type} (view : State → β) (l : List α) (f : α → State → State)
    (h : ∀ x t, view (f x t) = view t) (s : State) : view (each l f s) = view s := by
  unfold each
  induction l generalizing s with
  | nil => rfl
  | cons x l ih => rw [List.foldl_cons, ih, h]

/-- A fold of changes keeps a property that each of them keeps. -/
theorem each_induct {α : Type} (P : State → Prop) (l : List α) (f : α → State → State)
    (h : ∀ x t, P t → P (f x t)) (s : State) (hs : P s) : P (each l f s) := by
  unfold each
  induction l generalizing s with
  | nil => exact hs
  | cons x l ih => exact ih _ (h x s hs)

namespace State

variable (s : State)

@[simp] theorem still_each {α : Type} (l : List α) (f : α → State → State) (h : ∀ x t, (f x t).still = t.still) :
    (each l f s).still = s.still := each_keeps still l f h s

theorem still_withBridge (i : BridgeNo) (f : Bridge → State) (h : ∀ e, (f e).still = s.still) :
    (s.withBridge i f).still = s.still := by
  unfold withBridge
  split
  · rfl
  · exact h _

@[simp] theorem still_setAttn (x : BitVec 6) : (s.setAttn x).still = s.still := rfl
@[simp] theorem still_setCircuit (c : CircuitNo) (x : Circuit) : (s.setCircuit c x).still = s.still := rfl
@[simp] theorem still_setAlign (c : CircuitNo) (x : AlignStore) : (s.setAlign c x).still = s.still := rfl
@[simp] theorem still_setLineUse (p : LinePos) (x : LineUse) : (s.setLineUse p x).still = s.still := rfl
@[simp] theorem still_setSlotEntry (b : BearerSlot) (x : SlotEntry) : (s.setSlotEntry b x).still = s.still := rfl
@[simp] theorem still_setBridge (i : BridgeNo) (x : Option Bridge) : (s.setBridge i x).still = s.still := rfl
@[simp] theorem still_setGroup (g : Fin 4) (x : Option Group) : (s.setGroup g x).still = s.still := rfl
@[simp] theorem still_setSettles (x : List Settle) : (s.setSettles x).still = s.still := rfl
@[simp] theorem still_setNextSettle (x : Nat) : (s.setNextSettle x).still = s.still := rfl
@[simp] theorem still_setClaims (x : List WriteClaim) : (s.setClaims x).still = s.still := rfl
@[simp] theorem still_modBridge (i : BridgeNo) (f : Bridge → Bridge) : (s.modBridge i f).still = s.still := by
  unfold modBridge; split <;> rfl
@[simp] theorem still_modGroup (g : Fin 4) (f : Group → Group) : (s.modGroup g f).still = s.still := by
  unfold modGroup; split <;> rfl
@[simp] theorem still_setTxQueue (sp : Span) (q : List QueuedMessage) : (s.setTxQueue sp q).still = s.still := by
  cases sp <;> rfl
@[simp] theorem still_raise (c : Cause) : (s.raise c).still = s.still := rfl
@[simp] theorem still_handNotice (b : NoticeBody) : (s.handNotice b).still = s.still := by
  unfold handNotice; split <;> rfl

/-! ### The memory port and settling -/

@[simp] theorem still_queueWrite (w : PostedWrite) : (s.queueWrite w).still = s.still := by
  unfold queueWrite; split <;> rfl
@[simp] theorem still_addClaim (c : WriteClaim) : (s.addClaim c).still = s.still := rfl
@[simp] theorem still_setHeld (n : Fin 4) (x : List (List WriteClaim)) : (s.setHeld n x).still = s.still := rfl
@[simp] theorem still_holdClaims (n : Fin 4) (l : List WriteClaim) : (s.holdClaims n l).still = s.still := rfl
@[simp] theorem still_resultWrite (n : Fin 4) (w : PostedWrite) : (s.resultWrite n w).still = s.still := by
  unfold resultWrite; split <;> simp
@[simp] theorem still_claimResults (n : Fin 4) (l : List PostedWrite) : (s.claimResults n l).still = s.still := by
  unfold claimResults; split <;> simp
@[simp] theorem still_settleOrder (ref : OrderRef) (code : ResultCode) (v : List Byte) (m : List (Byte × Byte)) :
    (s.settleOrder ref code v m).still = s.still := by
  simp [settleOrder]

/-! ### The Channel Map -/

@[simp] theorem still_seamSwitch (c : CircuitNo) (r : Receive) (d : Int) : (s.seamSwitch c r d).still = s.still := rfl
@[simp] theorem still_discardHeld (c : CircuitNo) : (s.discardHeld c).still = s.still := rfl
@[simp] theorem still_freshPath (c : CircuitNo) (d : Direction) : (s.freshPath c d).still = s.still := rfl
@[simp] theorem still_useSlot (b : BearerSlot) (u : SlotUse) : (s.useSlot b u).still = s.still := rfl
@[simp] theorem still_freeSlot (b : BearerSlot) (c : CircuitNo) : (s.freeSlot b c).still = s.still := rfl
@[simp] theorem still_freeLine (p : Option LinePos) : (s.freeLine p).still = s.still := by cases p <;> rfl
@[simp] theorem still_bridgeStart (i : BridgeNo) (e : Bridge) : (s.bridgeStart i e).still = s.still := by
  simp only [bridgeStart, modCircuit_eq, still_setBridge, still_setCircuit, still_freshPath]
  split <;> simp
@[simp] theorem still_freeOccupancy (e : Bridge) (r : Bool) : (s.freeOccupancy e r).still = s.still := by
  unfold freeOccupancy; split <;> simp
@[simp] theorem still_bridgeFreed (i : BridgeNo) (e : Bridge) (o : ResultCode) : (s.bridgeFreed i e o).still = s.still := by
  unfold bridgeFreed; dsimp only; split <;> simp
@[simp] theorem still_strand (sp : Span) (c : CircuitNo) : (s.strand sp c).still = s.still := by
  unfold strand; dsimp only; split <;> simp
@[simp] theorem still_strandAll (sp : Span) : (s.strandAll sp).still = s.still := by simp [strandAll]
@[simp] theorem still_placeOnLine (c : CircuitNo) (p : LinePos) : (s.placeOnLine c p).still = s.still := rfl
@[simp] theorem still_dropHold (c : CircuitNo) : (s.dropHold c).still = s.still := by unfold dropHold; split <;> rfl

/-! ### The Roll Protocol Unit -/

@[simp] theorem still_memberEnded (g : Fin 4) (n : Nat) (o : ResultCode) (v : FreedValues) :
    (s.memberEnded g n o v).still = s.still := by simp [memberEnded]
@[simp] theorem still_handEnd (e : Bridge) (o : ResultCode) (v : FreedValues) : (s.handEnd e o v).still = s.still := by
  unfold handEnd; split <;> simp
@[simp] theorem still_leaveMessages (i : BridgeNo) (sp : Span) : (s.leaveMessages i sp).still = s.still := by
  simp [leaveMessages]
@[simp] theorem still_freeAs (i : BridgeNo) (o : ResultCode) : (s.freeAs i o).still = s.still :=
  still_withBridge _ _ _ fun e => by simp
@[simp] theorem still_freeEntry (i : BridgeNo) : (s.freeEntry i).still = s.still :=
  still_withBridge _ _ _ fun e => by simp
@[simp] theorem still_beginGuard (i : BridgeNo) : (s.beginGuard i).still = s.still := by simp [beginGuard]
@[simp] theorem still_afterPlaced (i : BridgeNo) : (s.afterPlaced i).still = s.still :=
  still_withBridge _ _ _ fun e => by (repeat' split) <;> simp
@[simp] theorem still_handMessage (i : BridgeNo) : (s.handMessage i).still = s.still :=
  still_withBridge _ _ _ fun e => by dsimp only; (repeat' split) <;> simp
@[simp] theorem still_serveEntry (sp : Span) (i : BridgeNo) : (s.serveEntry sp i).still = s.still :=
  still_withBridge _ _ _ fun e => by (repeat' split) <;> simp
@[simp] theorem still_servePending (sp : Span) : (s.servePending sp).still = s.still := by simp [servePending]
@[simp] theorem still_answer (sp : Span) (k : MessageKind) (n : Fin 256) (t : Byte) (r : Option Reason) :
    (s.answer sp k n t r).still = s.still := by
  unfold answer; dsimp only; split <;> simp
@[simp] theorem still_clearPending (sp : Span) : (s.clearPending sp).still = s.still := by simp [clearPending]
@[simp] theorem still_emptyTransmit (sp : Span) : (s.emptyTransmit sp).still = s.still := by simp [emptyTransmit]

/-! ### Matching, roll, release and unwinding -/

@[simp] theorem still_stopToFeed (e : Bridge) : (s.stopToFeed e).still = s.still := rfl
@[simp] theorem still_stopFromFeed (e : Bridge) : (s.stopFromFeed e).still = s.still := rfl
@[simp] theorem still_roll (i : BridgeNo) (d : Int) (f : Bool) : (s.roll i d f).still = s.still :=
  still_withBridge _ _ _ fun e => by simp
@[simp] theorem still_enterReleasing (i : BridgeNo) : (s.enterReleasing i).still = s.still :=
  still_withBridge _ _ _ fun e => by dsimp only; (repeat' split) <;> simp
@[simp] theorem still_releaseDecision (i : BridgeNo) : (s.releaseDecision i).still = s.still :=
  still_withBridge _ _ _ fun e => by split <;> simp
@[simp] theorem still_enterRolled (i : BridgeNo) : (s.enterRolled i).still = s.still :=
  still_withBridge _ _ _ fun e => by split <;> simp
@[simp] theorem still_forcedRoll (i : BridgeNo) : (s.forcedRoll i).still = s.still := by simp [forcedRoll]
@[simp] theorem still_fromLineLost (i : BridgeNo) : (s.fromLineLost i).still = s.still :=
  still_withBridge _ _ _ fun e => by dsimp only; (repeat' split) <;> simp
@[simp] theorem still_enterMatching (i : BridgeNo) : (s.enterMatching i).still = s.still :=
  still_withBridge _ _ _ fun e => by dsimp only; (repeat' split) <;> simp
@[simp] theorem still_seamBack (i : BridgeNo) : (s.seamBack i).still = s.still :=
  still_withBridge _ _ _ fun e => by dsimp only; split <;> simp
@[simp] theorem still_refeedFrom (i : BridgeNo) : (s.refeedFrom i).still = s.still :=
  still_withBridge _ _ _ fun e => by simp
@[simp] theorem still_goBack (i : BridgeNo) : (s.goBack i).still = s.still := by simp [goBack]
@[simp] theorem still_enterUnwinding (i : BridgeNo) (o : ResultCode) (r : Option Reason) (d l : Bool) :
    (s.enterUnwinding i o r d l).still = s.still :=
  still_withBridge _ _ _ fun e => by dsimp only; split <;> simp
@[simp] theorem still_sendAbandon (i : BridgeNo) : (s.sendAbandon i).still = s.still :=
  still_withBridge _ _ _ fun e => by (repeat' split) <;> simp
@[simp] theorem still_unwind (i : BridgeNo) (o : ResultCode) (r : Option Reason) (d l : Bool) :
    (s.unwind i o r d l).still = s.still :=
  still_withBridge _ _ _ fun e => by split <;> simp
@[simp] theorem still_toPathLost (i : BridgeNo) : (s.toPathLost i).still = s.still :=
  still_withBridge _ _ _ fun e => by split <;> simp
@[simp] theorem still_completeForward (i : BridgeNo) : (s.completeForward i).still = s.still :=
  still_withBridge _ _ _ fun e => by dsimp only; split <;> simp
@[simp] theorem still_fromSpanLost (i : BridgeNo) : (s.fromSpanLost i).still = s.still :=
  still_withBridge _ _ _ fun e => by dsimp only; (repeat' split) <;> simp
@[simp] theorem still_spanLossEntry (sp : Span) (i : BridgeNo) : (s.spanLossEntry sp i).still = s.still :=
  still_withBridge _ _ _ fun e => by (repeat' split) <;> simp
@[simp] theorem still_lineLossEntry (k : Fin 8) (i : BridgeNo) : (s.lineLossEntry k i).still = s.still :=
  still_withBridge _ _ _ fun e => by (repeat' split) <;> simp
@[simp] theorem still_resolveSpanLoss (sp : Span) : (s.resolveSpanLoss sp).still = s.still := by simp [resolveSpanLoss]
@[simp] theorem still_resolveLineLoss (k : Fin 8) : (s.resolveLineLoss k).still = s.still := by simp [resolveLineLoss]
@[simp] theorem still_peerAbandon (i : BridgeNo) (r : Reason) : (s.peerAbandon i r).still = s.still :=
  still_withBridge _ _ _ fun e => by dsimp only; split <;> simp
@[simp] theorem still_restartMatchers (p : Bridge → Bool) : (s.restartMatchers p).still = s.still := by
  simp [restartMatchers]
@[simp] theorem still_quickOnIdle (c : CircuitNo) : (s.quickOnIdle c).still = s.still := by
  unfold quickOnIdle; split <;> simp

/-! ### Roll groups -/

@[simp] theorem still_settleGroup (g : Fin 4) (x : Group) : (s.settleGroup g x).still = s.still := by simp [settleGroup]
@[simp] theorem still_eachMember (x : Group) (f : BridgeNo → State → State) (h : ∀ i t, (f i t).still = t.still) :
    (s.eachMember x f).still = s.still := by
  unfold eachMember
  refine still_each _ _ _ fun m t => ?_
  split
  · rfl
  · exact h _ _
@[simp] theorem still_unwindGroup (g : Fin 4) (x : Group) : (s.unwindGroup g x).still = s.still := by simp [unwindGroup]
@[simp] theorem still_countMembers (g : Fin 4) (x : Group) : (s.countMembers g x).still = s.still := by
  unfold countMembers
  dsimp only
  rw [still_each, still_setGroup]
  intro m t
  split <;> simp
@[simp] theorem still_openGate (g : Fin 4) (x : Group) : (s.openGate g x).still = s.still := by simp [openGate]
@[simp] theorem still_runGroup (g : Fin 4) : (s.runGroup g).still = s.still := by
  unfold runGroup; dsimp only; (repeat' split) <;> simp
@[simp] theorem still_endGroup (g : Fin 4) : (s.endGroup g).still = s.still := by
  unfold endGroup; (repeat' split) <;> simp
@[simp] theorem still_advanceGroups (before : State) : (advanceGroups before s).still = s.still := by
  unfold advanceGroups; split <;> simp

/-! ### The start of queue heads: they change no field of `steady` -/

/-- What changes no field of `still` changes none of `steady`. -/
theorem steady_of_still {t : State} (h : t.still = s.still) : t.steady = s.steady := by simp only [steady, h]

@[simp] theorem steady_setQueue (q : List QueueEntry) : (s.setQueue q).steady = s.steady := rfl
@[simp] theorem steady_txnCounter (sp : Span) (n : Byte) :
    (s.setSpan sp { s.span sp with txnCounter := n }).steady = s.steady := by cases sp <;> rfl
@[simp] theorem steady_setGroup (g : Fin 4) (x : Option Group) : (s.setGroup g x).steady = s.steady := rfl
@[simp] theorem still_lossAtStart (i : BridgeNo) : (s.lossAtStart i).still = s.still :=
  still_withBridge _ _ _ fun e => by split <;> simp
@[simp] theorem still_settleMove (ref : OrderRef) (code : ResultCode) (v : MoveValues) (m : List (Byte × Byte)) :
    (s.settleMove ref code v m).still = s.still := by simp [settleMove]
@[simp] theorem still_settleLone (ref : OrderRef) (l : List MoveOrder) (k : Nat) (code : ResultCode) :
    (s.settleLone ref l k code).still = s.still := by unfold settleLone; simp
@[simp] theorem still_startExpect (i : BridgeNo) (m : MoveOrder) (w : Nat) (ref : OrderRef) :
    (s.startExpect i m w ref).still = s.still := by unfold startExpect; split <;> simp
theorem steady_startMigrate (i : BridgeNo) (m : MoveOrder) (ref : Option OrderRef) (g : Option (Fin 4 × Nat)) :
    (s.startMigrate i m ref g).steady = s.steady := by
  unfold startMigrate
  split
  · refine (steady_of_still _ ((still_lossAtStart _ _).trans (still_handMessage _ _))).trans ?_
    simp only [modSpan_eq, steady_txnCounter]
    exact steady_of_still _ (by simp)
  · rfl
theorem steady_startGroup (g : Fin 4) (l : List MoveOrder) (ref : OrderRef) :
    (s.startGroup g l ref).steady = s.steady :=
  (each_keeps steady _ _ (fun _ _ => steady_startMigrate _ _ _ _ _) _).trans (steady_setGroup _ _ _)
theorem steady_startHead (q : QueueEntry) : (s.startHead q).steady = s.steady := by
  have settled := fun ref code (v : MoveValues) => steady_of_still s (s.still_settleMove ref code v [])
  have lone := fun ref l k code => steady_of_still s (s.still_settleLone ref l k code)
  unfold startHead
  split
  · split
    · exact settled _ _ _
    · exact steady_startMigrate _ _ _ _ _
    · rfl
  · split
    · exact settled _ _ _
    · exact steady_of_still _ (still_startExpect _ _ _ _ _)
    · rfl
  · split
    · exact lone _ _ _ _
    · split
      · exact steady_startGroup _ _ _ _
      · rfl
theorem steady_startHeads (n : Nat) : (s.startHeads n).steady = s.steady := by
  induction n generalizing s with
  | zero => rfl
  | succ n ih =>
    unfold startHeads
    split
    · rfl
    · split
      · rw [ih, steady_startHead, steady_setQueue]
      · rfl
theorem steady_examineHead (before : State) : (examineHead before s).steady = s.steady := by
  unfold examineHead
  split
  · exact steady_startHeads _ _
  · rfl

end State

end Sys2Proof.Machine
end

