-- ==== Sys2Proof/Laws/Finish.lean ====
section
/-! SUPPORT. What a command's meaning answers and what every step ends with. -/

namespace Sys2Proof.Machine

open Sys2Proof

/-- A command of a part that is not held answers its effect with the end of a step. -/
theorem act_running {s : State} (h : s.resetLow = false) (effect : State → State) :
    act s effect = .next (State.finish s (effect s)) := by simp [act, h]

/-- A command of a part that is held answers the state as it is. -/
theorem act_held {s : State} (h : s.resetLow = true) (effect : State → State) : act s effect = .next s := by
  simp [act, h]

/-- Whatever a meaning answers is the held state or the end of its effect. -/
theorem act_next {s t : State} {effect : State → State} (h : act s effect = .next t) :
    (s.resetLow = true ∧ t = s) ∨ (s.resetLow = false ∧ t = State.finish s (effect s)) := by
  cases hr : s.resetLow with
  | true => exact .inl ⟨rfl, by simpa [act, hr] using h.symm⟩
  | false => exact .inr ⟨rfl, by simpa [act, hr] using h.symm⟩

namespace State

/-- A step that has changed no bridge entry and no group entry leaves the groups alone. -/
theorem advanceGroups_same {before s : State} (hb : s.bridges = before.bridges) (hg : s.groups = before.groups) :
    advanceGroups before s = s := by
  simp [advanceGroups, sameMoves, hb, hg]

/-- With no group entry in use there is nothing for the groups to take. -/
theorem advanceGroups_noGroups {before s : State} (h : s.noGroups = true) : advanceGroups before s = s := by
  simp [advanceGroups, h]

variable (s : State)

@[simp] theorem settledPart_setPhase (x : Phase) : (s.setPhase x).settledPart = s.settledPart := rfl
@[simp] theorem settledPart_endWarming : s.endWarming.settledPart = s.settledPart := by
  unfold endWarming; split <;> rfl
@[simp] theorem settledPart_readNotices : s.readNotices.settledPart = s.settledPart := by
  unfold readNotices; split <;> rfl
@[simp] theorem settledPart_pollNotices : s.pollNotices.settledPart = s.settledPart := by
  unfold pollNotices; split <;> simp
theorem settledPart_tell (n : Fin 4) (r : Runner) (h : { r with told := false } = { s.runner n with told := false }) :
    (s.setRunner n r).settledPart = s.settledPart := by
  unfold settledPart
  have : ∀ m, ({ (s.setRunner n r).runner m with told := false } : Runner) = { s.runner m with told := false } := by
    intro m
    by_cases e : n = m
    · subst e; simpa using h
    · rw [runner_setRunner_ne _ _ _ _ e]
  simp [this]
@[simp] theorem settledPart_tellRunners : s.tellRunners.settledPart = s.settledPart := by
  refine each_keeps settledPart _ _ (fun n t => ?_) s
  rw [modRunner_eq]
  exact settledPart_tell t n _ (by split <;> rfl)
@[simp] theorem settledPart_sendHead : s.sendHead.settledPart = s.settledPart := by
  unfold sendHead; split <;> rfl
@[simp] theorem settledPart_markRows (before : State) : (markRows before s).settledPart = s.settledPart := rfl

/-- No head is examined at the end of a step that freed no entry and left the head where it was (log 38). -/
theorem examineHead_idle {before s : State} (hf : freedSince before s = false) (hh : headLeft before s = false) :
    examineHead before s = s := by
  simp [examineHead, hf, hh]

/-- An empty admission queue has no head to examine. -/
theorem examineHead_empty {before s : State} (hq : s.queue = []) : examineHead before s = s := by
  simp [examineHead, hq, startHeads]

/-- A step that has changed no bridge entry and no group entry has freed none. -/
theorem freedSince_same {before s : State} (hb : s.bridges = before.bridges) (hg : s.groups = before.groups) :
    freedSince before s = false := by
  have h1 : ∀ i, s.bridge i = before.bridge i := fun i => by simp only [bridge, hb]
  have h2 : ∀ g, s.group g = before.group g := fun g => by simp only [group, hg]
  simp [freedSince, h1, h2, Option.isSome_iff_ne_none]

/-- A step that has not changed the queue has not taken its head. -/
theorem headLeft_same {before s : State} (hq : s.queue = before.queue) : headLeft before s = false := by
  unfold headLeft
  rw [hq]
  cases before.queue <;> simp

/-- The end of a step that moved no bridge entry and no group entry and took no head changes only what `settledPart`
leaves out. -/
theorem finish_settledPart {before s : State} (hb : s.bridges = before.bridges) (hg : s.groups = before.groups)
    (hh : headLeft before s = false) : (finish before s).settledPart = s.settledPart := by
  simp [finish, advanceGroups_same hb hg, examineHead_idle (freedSince_same hb hg) hh]

/-- The end of any step changes only what `steady` and `settledPart` leave out. -/
theorem finish_steady (before : State) : (finish before s).steady.settledPart = s.steady.settledPart := by
  have swap : ∀ x : State, x.steady.settledPart = x.settledPart.steady := fun _ => rfl
  rw [swap]
  simp only [finish, settledPart_markRows, settledPart_sendHead, settledPart_tellRunners, settledPart_pollNotices,
    settledPart_endWarming]
  rw [← swap, steady_examineHead, steady_of_still _ (still_advanceGroups _ _)]

/-! ### What the end of a step never touches -/

variable (b : State)

@[simp] theorem finish_resetLow : (finish b s).resetLow = s.resetLow := by
  have h := congrArg State.resetLow (finish_steady s b)
  exact h
@[simp] theorem finish_counter : (finish b s).counter = s.counter := by
  have h := congrArg State.counter (finish_steady s b)
  exact h
@[simp] theorem finish_cfg : (finish b s).cfg = s.cfg := by
  have h := congrArg State.cfg (finish_steady s b)
  exact h
@[simp] theorem finish_blockBase : (finish b s).blockBase = s.blockBase := by
  have h := congrArg State.blockBase (finish_steady s b)
  exact h
@[simp] theorem finish_attnMask : (finish b s).attnMask = s.attnMask := by
  have h := congrArg State.attnMask (finish_steady s b)
  exact h
@[simp] theorem finish_officeIn : (finish b s).officeIn = s.officeIn := by
  have h := congrArg State.officeIn (finish_steady s b)
  exact h
@[simp] theorem finish_officeOut : (finish b s).officeOut = s.officeOut := by
  have h := congrArg State.officeOut (finish_steady s b)
  exact h
@[simp] theorem finish_lineOut : (finish b s).lineOut = s.lineOut := by
  have h := congrArg State.lineOut (finish_steady s b)
  exact h
@[simp] theorem finish_watch : (finish b s).watch = s.watch := by
  have h := congrArg State.watch (finish_steady s b)
  exact h
@[simp] theorem finish_ports : (finish b s).ports = s.ports := by
  have h := congrArg State.ports (finish_steady s b)
  exact h
@[simp] theorem finish_monitors : (finish b s).monitors = s.monitors := by
  have h := congrArg State.monitors (finish_steady s b)
  exact h
@[simp] theorem finish_ftu : (finish b s).ftu = s.ftu := by
  have h := congrArg State.ftu (finish_steady s b)
  exact h
@[simp] theorem finish_pending : (finish b s).pending = s.pending := by
  have h := congrArg State.pending (finish_steady s b)
  exact h
@[simp] theorem finish_port (p : PortNo) : (finish b s).port p = s.port p := by simp [port]
@[simp] theorem finish_monitor (c : CircuitNo) : (finish b s).monitor c = s.monitor c := by simp [monitor]
theorem finish_tags : (finish b s).smp.tags = s.smp.tags := by
  have h := congrArg (fun t : State => t.smp.tags) (finish_steady s b)
  exact h
@[simp] theorem finish_tag (k : Fin 4) : (finish b s).tag k = s.tag k := by simp [tag, finish_tags]

/-- The end of a step changes of a span nothing but its transmit queue and its transaction counter. -/
theorem finish_span (sp : Span) : { (finish b s).span sp with txQueue := [], txnCounter := 0 } =
    { s.span sp with txQueue := [], txnCounter := 0 } := by
  cases sp
  · have h := congrArg (fun t : State => t.spans.a) (finish_steady s b)
    exact h
  · have h := congrArg (fun t : State => t.spans.b) (finish_steady s b)
    exact h

/-- The end of a step changes of a runner nothing but its told mark. -/
theorem finish_runner (n : Fin 4) :
    { (finish b s).runner n with told := false } = { s.runner n with told := false } := by
  have e : ∀ t : State, t.steady.settledPart.runners[n.val] = ({ t.runner n with told := false } : Runner) := fun t => by
    simp only [settledPart, tab_getElem]
    rfl
  rw [← e, ← e, finish_steady]

/-! ### The single fields at the end of a step -/

@[simp] theorem markRows_smp (b : State) : (markRows b s).smp = s.smp := rfl
@[simp] theorem markRows_counter (b : State) : (markRows b s).counter = s.counter := rfl
@[simp] theorem tellRunners_smp : s.tellRunners.smp = s.smp := by
  unfold tellRunners; refine each_keeps State.smp _ _ (fun _ _ => ?_) s; rfl
@[simp] theorem tellRunners_counter : s.tellRunners.counter = s.counter := by
  unfold tellRunners; refine each_keeps State.counter _ _ (fun _ _ => ?_) s; rfl
@[simp] theorem readNotices_counter : s.readNotices.counter = s.counter := by unfold readNotices; split <;> rfl
@[simp] theorem readNotices_writes : s.readNotices.smp.writes = s.smp.writes := by unfold readNotices; split <;> rfl
@[simp] theorem readNotices_sent : s.readNotices.smp.sent = s.smp.sent := by unfold readNotices; split <;> rfl
@[simp] theorem pollNotices_counter : s.pollNotices.counter = s.counter := by unfold pollNotices; split <;> simp
@[simp] theorem pollNotices_writes : s.pollNotices.smp.writes = s.smp.writes := by unfold pollNotices; split <;> simp
@[simp] theorem pollNotices_sent : s.pollNotices.smp.sent = s.smp.sent := by unfold pollNotices; split <;> simp
@[simp] theorem endWarming_counter : s.endWarming.counter = s.counter := by unfold endWarming; split <;> rfl
@[simp] theorem endWarming_smp : s.endWarming.smp = s.smp := by unfold endWarming; split <;> rfl
@[simp] theorem markRows_phase (b : State) : (markRows b s).phase = s.phase := rfl
@[simp] theorem markRows_settles (b : State) : (markRows b s).settles = s.settles := rfl
@[simp] theorem sendHead_phase : s.sendHead.phase = s.phase := by unfold sendHead; split <;> rfl
@[simp] theorem sendHead_settles : s.sendHead.settles = s.settles := by unfold sendHead; split <;> rfl
@[simp] theorem tellRunners_phase : s.tellRunners.phase = s.phase := by
  unfold tellRunners; refine each_keeps State.phase _ _ (fun _ _ => ?_) s; rfl
@[simp] theorem tellRunners_settles : s.tellRunners.settles = s.settles := by
  unfold tellRunners; refine each_keeps State.settles _ _ (fun _ _ => ?_) s; rfl
@[simp] theorem readNotices_phase : s.readNotices.phase = s.phase := by unfold readNotices; split <;> rfl
@[simp] theorem readNotices_settles : s.readNotices.settles = s.settles := by unfold readNotices; split <;> rfl
@[simp] theorem pollNotices_phase : s.pollNotices.phase = s.phase := by unfold pollNotices; split <;> simp
@[simp] theorem pollNotices_settles : s.pollNotices.settles = s.settles := by unfold pollNotices; split <;> simp

/-- The content of a row does not depend on the dirty set. -/
theorem rowBody_setDirty (d : List Nat) (r : Nat) : rowBody (s.setNte { s.nte with dirty := d }) r = rowBody s r := by
  have hc : ∀ c, circuitRow (s.setNte { s.nte with dirty := d }) c = circuitRow s c := fun _ => rfl
  have hp : ∀ p, portRow (s.setNte { s.nte with dirty := d }) p = portRow s p := fun _ => rfl
  have hs : ∀ sp, spanRow (s.setNte { s.nte with dirty := d }) sp = spanRow s sp := fun _ => rfl
  have ht : timingRow (s.setNte { s.nte with dirty := d }) = timingRow s := rfl
  have hq : partRow (s.setNte { s.nte with dirty := d }) = partRow s := by
    simp [partRow]
  simp only [rowBody, hc, hp, hs, ht, hq]

/-- The content of a row depends neither on the queue of waiting commands nor on the hold of RESETn. -/
theorem rowBody_setPending (l : List Instr) (r : Nat) : rowBody (s.setPending l) r = rowBody s r := by
  have hc : ∀ c, circuitRow (s.setPending l) c = circuitRow s c := fun _ => rfl
  have hp : ∀ p, portRow (s.setPending l) p = portRow s p := fun _ => rfl
  have hs : ∀ sp, spanRow (s.setPending l) sp = spanRow s sp := fun _ => rfl
  have ht : timingRow (s.setPending l) = timingRow s := rfl
  have hq : partRow (s.setPending l) = partRow s := by simp [partRow]
  simp only [rowBody, hc, hp, hs, ht, hq]

theorem rowBody_held (r : Nat) : rowBody { s with resetLow := true } r = rowBody s r := by
  have hc : ∀ c, circuitRow { s with resetLow := true } c = circuitRow s c := fun _ => rfl
  have hp : ∀ p, portRow { s with resetLow := true } p = portRow s p := fun _ => rfl
  have hs : ∀ sp, spanRow { s with resetLow := true } sp = spanRow s sp := fun _ => rfl
  have ht : timingRow { s with resetLow := true } = timingRow s := rfl
  have hq : partRow { s with resetLow := true } = partRow s := by
    have hr : ∀ n, ({ s with resetLow := true } : State).runner n = s.runner n := fun _ => rfl
    simp only [partRow, hr]
  simp only [rowBody, hc, hp, hs, ht, hq]

/-- After a cold start every row is dirty, in row order (R20). -/
@[simp] theorem cold_dirty (p : Phase) (c : FrameNo) (x : SiteConfig) (q : List Instr) :
    (State.cold p c x q).nte.dirty = List.range 276 := by simp only [State.cold]

/-- Marking rows changes the content of none. -/
theorem rowBody_markRows (b : State) (r : Nat) : rowBody (markRows b s) r = rowBody s r := rowBody_setDirty s _ r

/-- A row whose content a step has changed is dirty after it. -/
theorem markRows_marks (b : State) (r : Nat) (hr : r < 276) (h : rowBody b r ≠ rowBody s r) :
    r ∈ (markRows b s).nte.dirty := by
  simp only [markRows, setNte_nte, List.mem_append, List.mem_filter, List.mem_range]
  by_cases hd : r ∈ s.nte.dirty
  · exact .inl hd
  · exact .inr ⟨hr, by simp [hd, h]⟩

end State

end Sys2Proof.Machine
end

