-- ==== Sys2Proof/Laws/Arrivals.lean ====
section
/-! SUPPORT. How an arrival of a roll message is decided (R83, R94), and what the taking of its message leaves alone. -/

namespace Sys2Proof.Machine.State

open Sys2Proof

set_option Elab.async false

variable (s : State)

/-! ### Taking a message -/

theorem popArrival_eq (sp : Span) :
    s.popArrival sp = s.setSpan sp { s.span sp with arrivals := (s.span sp).arrivals.tail } := rfl
@[simp] theorem popArrival_cfg (sp : Span) : (s.popArrival sp).cfg = s.cfg := rfl
@[simp] theorem popArrival_counter (sp : Span) : (s.popArrival sp).counter = s.counter := rfl
@[simp] theorem popArrival_bridge (sp : Span) (i : BridgeNo) : (s.popArrival sp).bridge i = s.bridge i := rfl
@[simp] theorem popArrival_circuit (sp : Span) (c : CircuitNo) : (s.popArrival sp).circuit c = s.circuit c := rfl
@[simp] theorem popArrival_slotEntry (sp : Span) (b : BearerSlot) : (s.popArrival sp).slotEntry b = s.slotEntry b := rfl
@[simp] theorem popArrival_entryOn (sp : Span) (b : BearerSlot) : (s.popArrival sp).entryOn b = s.entryOn b := rfl
@[simp] theorem popArrival_recordFor (sp : Span) (b : BearerSlot) (txn : Byte) :
    (s.popArrival sp).recordFor b txn = s.recordFor b txn := rfl

variable {s}

/-! ### The decision -/

/-- It is a message's turn when it is the oldest kept, or when none is kept (log 10). -/
theorem arrivalDue_iff {sp : Span} {m : RollMessage} :
    s.arrivalDue sp m = true ↔ (s.span sp).arrivals = [] ∨ (s.span sp).arrivals.head? = some m := by
  unfold arrivalDue; cases (s.span sp).arrivals <;> simp

/-- An arrival whose turn it is leaves the arrivals and is decided at its slot. -/
theorem arrive_due {sp : Span} {m : RollMessage} (hs : s.inService sp = true) (hr : m.rank ≠ s.cfg.rank)
    (hd : s.arrivalDue sp m = true) (atEntry : State → BridgeNo → Bridge → State) :
    s.arrive sp m atEntry = match (s.popArrival sp).entryOn ⟨sp, m.slot⟩ with
      | some (i, e) => atEntry (s.popArrival sp) i e
      | none => (s.popArrival sp).answerFromRecord ⟨sp, m.slot⟩ m.kind m.txn := by
  simp only [arrive, hs, hd, Bool.and_true, Bool.true_and, bne_iff_ne, ne_eq, hr, not_false_eq_true, if_true] <;> rfl

/-- An arrival on a span out of service, from the own rank, or out of its turn changes nothing. -/
theorem arrive_held {sp : Span} {m : RollMessage}
    (h : s.inService sp = false ∨ m.rank = s.cfg.rank ∨ s.arrivalDue sp m = false)
    (atEntry : State → BridgeNo → Bridge → State) : s.arrive sp m atEntry = s := by
  rcases h with h | h | h <;> simp [arrive, h]

/-- The entry found on a slot is the one in its bridge place, and it is on that slot. -/
theorem entryOn_some {b : BearerSlot} {i : BridgeNo} {e : Bridge} (h : s.entryOn b = some (i, e)) :
    s.bridge i = some e ∧ e.bearer = b := by
  unfold entryOn at h
  rw [List.findSome?_eq_some_iff] at h
  obtain ⟨_, j, _, _, h, _⟩ := h
  revert h
  cases hb : s.bridge j <;> simp
  rintro h rfl rfl; exact ⟨hb, h⟩

end Sys2Proof.Machine.State
end

