-- ==== Sys2Proof/Laws/Positions.lean ====
section
/-! SUPPORT. The writes that keep the circuits' positions, the occupancy tables and the bridge table in agreement (R6):
those that leave every position as it is, and each of those that move one. -/

namespace Sys2Proof.Machine

open Sys2Proof

set_option Elab.async false

/-! ### Writes that move no position -/

/-- What the agreement says of a circuit. -/
def Circuit.places (k : Circuit) : PathState × Option LinePos × Option LinePos × Option BearerSlot × Option BridgeNo :=
  (k.pathState, k.linePos, k.vacated, k.bearer, k.bridgeIndex)

/-- What the agreement says of a bridge entry. -/
def Bridge.places (e : Bridge) : CircuitNo × Direction × BearerSlot × LinePos × Bool :=
  (e.circuit, e.direction, e.bearer, e.linePos, e.ontoVacated)

namespace State

/-- Two states agree on every position, and the second queues nothing new but entries whose members are apart. -/
structure SamePlaces (s t : State) : Prop where
  circuits : ∀ c, (t.circuit c).places = (s.circuit c).places := by intros; rfl
  lines : ∀ p, t.lineUse p = s.lineUse p := by intros; rfl
  slots : ∀ b, t.slotEntry b = s.slotEntry b := by intros; rfl
  bridges : ∀ i, (t.bridge i).map Bridge.places = (s.bridge i).map Bridge.places := by intros; rfl
  queue : ∀ q ∈ t.queue, q ∈ s.queue ∨ q.apart := by exact fun q h => .inl h

theorem SamePlaces.refl (s : State) : s.SamePlaces s := {}

theorem SamePlaces.trans {s t u : State} (h : s.SamePlaces t) (h' : t.SamePlaces u) : s.SamePlaces u where
  circuits c := (h'.circuits c).trans (h.circuits c)
  lines p := (h'.lines p).trans (h.lines p)
  slots b := (h'.slots b).trans (h.slots b)
  bridges i := (h'.bridges i).trans (h.bridges i)
  queue q hq := (h'.queue q hq).elim (h.queue q) .inr

theorem SamePlaces.circuit {s t : State} (h : s.SamePlaces t) (c : CircuitNo) :
    (t.circuit c).pathState = (s.circuit c).pathState ∧ (t.circuit c).linePos = (s.circuit c).linePos ∧
    (t.circuit c).vacated = (s.circuit c).vacated ∧ (t.circuit c).bearer = (s.circuit c).bearer ∧
    (t.circuit c).bridgeIndex = (s.circuit c).bridgeIndex := by
  have := h.circuits c
  simpa [Circuit.places] using this

theorem SamePlaces.entry {s t : State} (h : s.SamePlaces t) {i : BridgeNo} {x : Bridge} (hx : t.bridge i = some x) :
    ∃ e, s.bridge i = some e ∧ x.places = e.places := by
  have := h.bridges i
  rw [hx] at this
  cases he : s.bridge i with
  | none => simp [he] at this
  | some e => exact ⟨e, rfl, by simpa [he] using this⟩

theorem SamePlaces.entry' {s t : State} (h : s.SamePlaces t) {i : BridgeNo} {e : Bridge} (he : s.bridge i = some e) :
    ∃ x, t.bridge i = some x ∧ x.places = e.places := by
  have := h.bridges i
  rw [he] at this
  cases hx : t.bridge i with
  | none => simp [hx] at this
  | some x => exact ⟨x, rfl, by simpa [hx] using this⟩

/-- A state with the same positions agrees as well. -/
theorem PositionsAgree.same {s t : State} (h : s.PositionsAgree) (hs : s.SamePlaces t) : t.PositionsAgree := by
  have hm : ∀ c p, t.movesOnto c p ↔ s.movesOnto c p := by
    intro c p
    constructor
    · rintro ⟨i, x, hx, h1⟩
      obtain ⟨e, he, hp⟩ := hs.entry hx
      simp only [Bridge.places, Prod.mk.injEq] at hp
      exact ⟨i, e, he, by grind⟩
    · rintro ⟨i, e, he, h1⟩
      obtain ⟨x, hx, hp⟩ := hs.entry' he
      simp only [Bridge.places, Prod.mk.injEq] at hp
      exact ⟨i, x, hx, by grind⟩
  have hc := hs.circuit
  constructor
  case line => intro c p; rw [hm, hs.lines, (hc c).2.1]; exact h.line c p
  case vacated => intro c p; rw [hs.lines, (hc c).2.2.1]; exact h.vacated c p
  case bearer => intro c b; rw [hs.slots, (hc c).2.2.2.1]; exact h.bearer c b
  case toFibre =>
    intro i x hx hd
    obtain ⟨e, he, hp⟩ := hs.entry hx
    simp only [Bridge.places, Prod.mk.injEq] at hp
    have := h.toFibre i e he (by grind); have := hc e.circuit; have := hs.slots e.bearer
    grind
  case toCopper =>
    intro i x hx hd
    obtain ⟨e, he, hp⟩ := hs.entry hx
    simp only [Bridge.places, Prod.mk.injEq] at hp
    have := h.toCopper i e he (by grind); have := hc e.circuit; have := hs.lines e.linePos
    grind
  case reserved =>
    intro b c hb
    rw [hs.slots] at hb
    obtain ⟨i, e, he, h1⟩ := h.reserved b c hb
    obtain ⟨x, hx, hp⟩ := hs.entry' he
    simp only [Bridge.places, Prod.mk.injEq] at hp
    exact ⟨i, x, hx, by grind⟩
  case entry =>
    intro i x hx
    obtain ⟨e, he, hp⟩ := hs.entry hx
    simp only [Bridge.places, Prod.mk.injEq] at hp
    have := h.entry i e he; have := hc e.circuit
    grind
  case index =>
    intro c i hi
    obtain ⟨e, he, h1⟩ := h.index c i ((hc c).2.2.2.2.symm.trans hi)
    obtain ⟨x, hx, hp⟩ := hs.entry' he
    simp only [Bridge.places, Prod.mk.injEq] at hp
    exact ⟨x, hx, by grind⟩
  case positioned =>
    intro c
    have := h.positioned c; have := hc c
    unfold Circuit.positioned at *
    grind
  case queue => intro q hq; exact (hs.queue q hq).elim (h.queue q) id

/-! ### The start and the freeing of a bridge -/

theorem bridge_bridgeStart (s : State) (i j : BridgeNo) (e : Bridge) :
    (s.bridgeStart i e).bridge j = if i = j then some e else s.bridge j := by
  unfold bridgeStart; dsimp only; rw [bridge_setBridge]; congr 1
  cases e.direction <;> rfl

/-- What the start checks have found of a bridge that is about to start in a free entry (R43). -/
structure Startable (s : State) (i : BridgeNo) (e : Bridge) : Prop where
  free : s.bridge i = none
  toFibre : e.direction = .toFibre → (s.circuit e.circuit).pathState = .copper ∧
    (s.circuit e.circuit).linePos = some e.linePos ∧ (s.slotEntry e.bearer).use = .free ∧ e.ontoVacated = false
  toCopper : e.direction = .toCopper →
    ((s.circuit e.circuit).pathState = .fibre ∨ (s.circuit e.circuit).pathState = .stranded) ∧
    (s.circuit e.circuit).bearer = some e.bearer ∧
    (s.lineUse e.linePos = .free ∨ s.lineUse e.linePos = .vacated e.circuit) ∧
    (e.ontoVacated = true ↔ (s.circuit e.circuit).vacated = some e.linePos)

/-- The start of a bridge keeps the agreement (R3). -/
theorem PositionsAgree.start {s : State} {i : BridgeNo} {e : Bridge} (h : s.PositionsAgree) (hs : s.Startable i e) :
    (s.bridgeStart i e).PositionsAgree := by
  obtain ⟨free, tf, tc⟩ := hs
  obtain ⟨t, ht⟩ : ∃ t, s.bridgeStart i e = t := ⟨_, rfl⟩
  have hb : ∀ j, t.bridge j = if i = j then some e else s.bridge j := by
    subst ht; intro j; unfold State.bridgeStart; dsimp only; rw [State.bridge_setBridge]; congr 1
    cases e.direction <;> rfl
  have hq : t.queue = s.queue := by subst ht; unfold State.bridgeStart; cases e.direction <;> rfl
  have hc : ∀ c, (t.circuit c).linePos = (s.circuit c).linePos ∧ (t.circuit c).bearer = (s.circuit c).bearer ∧
      (t.circuit c).vacated = (if e.circuit = c ∧ e.ontoVacated = true then none else (s.circuit c).vacated) ∧
      (t.circuit c).bridgeIndex = (if e.circuit = c then some i else (s.circuit c).bridgeIndex) ∧
      (t.circuit c).pathState = (if e.circuit = c then .bridged else (s.circuit c).pathState) := by
    subst ht; intro c
    by_cases hcc : e.circuit = c
    · subst hcc
      unfold State.bridgeStart
      by_cases hp : (s.circuit e.circuit).pathState = .stranded <;> cases e.direction <;> cases e.ontoVacated <;>
        simp [State.freshPath, State.useSlot, hp]
    · unfold State.bridgeStart
      cases e.direction <;> simp [State.freshPath, State.useSlot, State.circuit_setCircuit, hcc]
  have hl : ∀ p, t.lineUse p = if e.direction = .toCopper ∧ e.linePos = p then .occupied e.circuit else s.lineUse p := by
    subst ht; intro p
    unfold State.bridgeStart
    cases e.direction <;> simp [State.freshPath, State.useSlot, State.lineUse_setLineUse]
  have hu : ∀ b, (t.slotEntry b).use = if e.direction = .toFibre ∧ e.bearer = b then .bridged e.circuit else (s.slotEntry b).use := by
    subst ht; intro b
    unfold State.bridgeStart
    cases e.direction <;> simp [State.freshPath, State.useSlot, State.slotEntry_setSlotEntry]
    split <;> simp
  rw [ht]; clear ht
  obtain ⟨a1, a2, a3, a4, a5, a6, a7, a8, a9, a10⟩ := h
  have a9' := fun c => a9 c
  simp only [Circuit.positioned, State.movesOnto] at a1 a9'
  constructor
  case queue => rw [hq]; exact a10
  case positioned => intro c; unfold Circuit.positioned; clear a1 a2 a3 a4 a5 a6 a7 a8 a9 a10; grind
  case line =>
    have hm : ∀ c p, t.movesOnto c p ↔ (e.circuit = c ∧ e.direction = .toCopper ∧ e.linePos = p) ∨ s.movesOnto c p := by
      intro c p
      clear a1 a2 a3 a4 a5 a6 a7 a8 a9 a10 a9'
      constructor
      · rintro ⟨j, x, hj, h1⟩
        rw [hb] at hj
        split at hj
        · cases hj; exact .inl h1
        · exact .inr ⟨j, x, hj, h1⟩
      · rintro (h1 | ⟨j, x, hj, h1⟩)
        · exact ⟨i, e, by simp [hb], h1⟩
        · exact ⟨j, x, by rw [hb, if_neg (fun h => by subst h; simp [free] at hj)]; exact hj, h1⟩
    have a1' : ∀ c p, (s.circuit c).linePos = some p ↔ s.lineUse p = .occupied c ∧ ¬ s.movesOnto c p := a1
    intro c p
    rw [hm, hl, (hc c).1, a1']
    have h9 := a9' e.circuit
    have := a1' e.circuit p
    clear a1 a2 a3 a4 a5 a6 a7 a8 a9 a10 a9' a1' hb hc hu hm
    grind
  all_goals clear a1 a9 a10 
  all_goals cases hd : e.direction <;> simp only [hd, reduceCtorEq, false_and, true_and, if_false, false_implies, true_implies] at tf tc hl hu <;>
    intros <;> grind
/-- The freeing of a bridge keeps the agreement (R3, R72). -/
theorem PositionsAgree.freed {s t : State} {i : BridgeNo} {e : Bridge} (h : s.PositionsAgree) (he : s.bridge i = some e) (r : Bool)
    (k : Circuit) (hk : k.bridgeIndex = none ∧ k.linePos = (s.freedCircuit e r).linePos ∧
      k.vacated = (s.freedCircuit e r).vacated ∧ k.bearer = (s.freedCircuit e r).bearer ∧
      k.pathState = (s.freedCircuit e r).pathState)
    (ht : ((s.freeOccupancy e r).setCircuit e.circuit k).setBridge i none = t) : t.PositionsAgree := by
  have hb : ∀ j, t.bridge j = if i = j then none else s.bridge j := by
    subst ht; intro j; rw [State.bridge_setBridge]; congr 1
    unfold State.freeOccupancy; cases e.direction <;> cases r <;> simp [State.useSlot, State.freeSlot] <;>
    cases (s.circuit e.circuit).vacated <;> rfl
  have hq : t.queue = s.queue := by
    subst ht
    unfold State.freeOccupancy; cases e.direction <;> cases r <;> simp [State.useSlot, State.freeSlot] <;>
    cases (s.circuit e.circuit).vacated <;> rfl
  have hc : ∀ c, t.circuit c = if e.circuit = c then k else s.circuit c := by
    subst ht; intro c
    have : (s.freeOccupancy e r).circuit c = s.circuit c := by
      unfold State.freeOccupancy; cases e.direction <;> cases r <;> simp [State.useSlot, State.freeSlot] <;>
      cases (s.circuit e.circuit).vacated <;> rfl
    simp [State.circuit_setCircuit, this]
  have hl : ∀ p, t.lineUse p = match (generalizing := false) e.direction, r with
      | .toFibre, true => if e.linePos = p then .vacated e.circuit else
          if (s.circuit e.circuit).vacated = some p then .free else s.lineUse p
      | .toCopper, false => if e.linePos = p then (if e.ontoVacated then .vacated e.circuit else .free) else s.lineUse p
      | _, _ => s.lineUse p := by
    subst ht; intro p
    cases hd : e.direction <;> cases r <;>
      simp [State.freeOccupancy, hd, State.useSlot, State.freeSlot, State.lineUse_setLineUse]
    cases (s.circuit e.circuit).vacated <;> simp [State.freeLine, State.lineUse_setLineUse]
  have hu : ∀ b, (t.slotEntry b).use = match (generalizing := false) e.direction, r with
      | .toFibre, true => if e.bearer = b then .assigned e.circuit else (s.slotEntry b).use
      | .toCopper, false => (s.slotEntry b).use
      | _, _ => if e.bearer = b then .free else (s.slotEntry b).use := by
    subst ht; intro b
    cases hd : e.direction <;> cases r <;>
      simp [State.freeOccupancy, hd, State.useSlot, State.freeSlot, State.slotEntry_setSlotEntry]
    · split <;> rfl
    · cases (s.circuit e.circuit).vacated <;> simp [State.freeLine] <;> split <;> rfl
    · split <;> rfl
  clear ht
  obtain ⟨k1, k2, k3, k4, k5⟩ := hk
  obtain ⟨a1, a2, a3, a4, a5, a6, a7, a8, a9, a10⟩ := h
  have hm : ∀ c p, t.movesOnto c p ↔ s.movesOnto c p ∧ e.circuit ≠ c := by
    intro c p
    constructor
    · rintro ⟨j, x, hj, h1, h2⟩
      rw [hb] at hj
      split at hj
      · cases hj
      · next hij =>
        refine ⟨⟨j, x, hj, h1, h2⟩, fun hcc => hij ?_⟩
        have := (a7 i e he).1
        have := (a7 j x hj).1
        grind
    · rintro ⟨⟨j, x, hj, h1, h2⟩, hcc⟩
      exact ⟨j, x, by rw [hb, if_neg (fun h => by subst h; grind)]; exact hj, h1, h2⟩
  have hm' : ∀ p, s.movesOnto e.circuit p ↔ e.direction = .toCopper ∧ e.linePos = p := by
    intro p
    constructor
    · rintro ⟨j, x, hj, h1, h2⟩
      have := (a7 i e he).1
      have := (a7 j x hj).1
      grind
    · rintro ⟨h1, h2⟩; exact ⟨i, e, he, rfl, h1, h2⟩
  have b4 := a4 i e he
  have b5 := a5 i e he
  have b7 := a7 i e he
  constructor
  case queue => rw [hq]; exact a10
  case line =>
    clear hb a4 a5 a6 a7 a8 a9 a10 
    intro c p
    have := a1 c p; have := a1 e.circuit p; have := hm' p; have := a2 c p
    rw [hm, hc, hl]
    cases hd : e.direction <;> cases r <;> simp only [State.freedCircuit, State.endFibre, Circuit.endCopper, Circuit.silent, hd] at * <;> grind
  case vacated =>
    clear hb a4 a5 a6 a7 a8 a9 a10 
    intro c p
    have := a1 c p; have := a1 e.circuit p; have := hm' p; have := a2 c p;  have := a2 e.circuit p
    rw [hc, hl]
    cases hd : e.direction <;> cases r <;> simp only [State.freedCircuit, State.endFibre, Circuit.endCopper, Circuit.silent, hd] at * <;> grind
  case bearer =>
    clear hb a4 a5 a6 a7 a8 a9 a10 a1 a2 hm hm'
    intro c b
    have := a3 c b; have := a3 e.circuit b
    rw [hc, hu]
    cases hd : e.direction <;> cases r <;> simp only [State.freedCircuit, State.endFibre, Circuit.endCopper, Circuit.silent, hd] at * <;> grind
  case positioned =>
    intro c
    have := a9 c
    rw [hc]
    clear hb a4 a5 a6 a7 a8 a9 a10 a1 a2 hm hm'
    unfold Circuit.positioned at *
    cases hd : e.direction <;> cases r <;> simp only [State.freedCircuit, State.endFibre, Circuit.endCopper, Circuit.silent, hd] at * <;> grind
  case toFibre =>
    intro j x hj hx
    have := a3 e.circuit e.bearer
    rw [hb] at hj
    split at hj
    · cases hj
    have := a4 j x hj hx; have := a7 j x hj
    clear hm hm' a4 a5 a6 a7 a8 a9 a10 a1 a2 a3
    cases hd : e.direction <;> cases r <;> simp only [State.freedCircuit, State.endFibre, Circuit.endCopper, Circuit.silent, hd] at * <;> grind
  case toCopper =>
    intro j x hj hx
    rw [hb] at hj
    split at hj
    · cases hj
    have := a5 j x hj hx; have := a7 j x hj; have := a2 e.circuit x.linePos
    have := a1 e.circuit x.linePos
    clear a4 a5 a6 a7 a8 a9 a10 a1 a2 a3
    cases hd : e.direction <;> cases r <;> simp only [State.freedCircuit, State.endFibre, Circuit.endCopper, Circuit.silent, hd] at * <;> grind
  case reserved =>
    intro b c hbc
    have := a6 b c
    clear hm hm' a4 a5 a6  a8 a9 a10 a1 a2 a3
    have := hb i
    cases hd : e.direction <;> cases r <;> simp only [hd] at hu b4 b5 <;> grind
  case entry =>
    clear hm hm' a4 a5 a6  a8 a9 a10 a1 a2 a3 hl hu k2 k3 k4 k5
    grind
  case index =>
    clear hm hm' a4 a5 a6 a9 a10 a1 a2 a3 hl hu k2 k3 k4 k5
    grind
/-! ### The orders that move a circuit no bridge moves -/

/-- A circuit that no bridge moves is written with the positions of its new path state, and the tables follow. -/
theorem PositionsAgree.placed {s t : State} (h : s.PositionsAgree) (c : CircuitNo) (k : Circuit) (hn : (s.circuit c).pathState ≠ .bridged)
    (hk : k.positioned) (hx : k.bridgeIndex = (s.circuit c).bridgeIndex)
    (hb : ∀ j, t.bridge j = s.bridge j) (hq : t.queue = s.queue)
    (hc : ∀ d, t.circuit d = if c = d then k else s.circuit d)
    (hl : ∀ p, t.lineUse p = if k.linePos = some p then .occupied c else if k.vacated = some p then .vacated c else
      if (s.circuit c).linePos = some p ∨ (s.circuit c).vacated = some p then .free else s.lineUse p)
    (hu : ∀ b, (t.slotEntry b).use = if k.bearer = some b then .assigned c else
      if (s.circuit c).bearer = some b then .free else (s.slotEntry b).use)
    (ho : ∀ p, k.linePos = some p → s.lineUse p = .free ∨ s.lineUse p = .vacated c ∨ (s.circuit c).linePos = some p)
    (hd : ∀ p, k.linePos = some p → k.vacated ≠ some p)
    (hv : ∀ p, k.vacated = some p → (s.circuit c).vacated = some p)
    (hr : ∀ b, k.bearer = some b → (s.circuit c).bearer = some b) : t.PositionsAgree := by
  obtain ⟨a1, a2, a3, a4, a5, a6, a7, a8, a9, a10⟩ := h
  have hne : ∀ i e, s.bridge i = some e → e.circuit ≠ c := fun i e he hcc => hn (by subst hcc; exact (a7 i e he).2)
  have hm : ∀ c p, t.movesOnto c p ↔ s.movesOnto c p := fun c p => by simp only [State.movesOnto, hb]
  have hm' : ∀ p, ¬ s.movesOnto c p := fun p ⟨i, e, he, h1, _⟩ => hne i e he h1
  constructor
  case queue => rw [hq]; exact a10
  case line =>
    intro d p
    have := a1 d p; have := a1 c p; have := hm' p; have := a2 c p; have := a2 d p
    rw [hm, hc, hl]
    clear hb a4 a5 a6 a7 a8 a9 a10 a1 a2 a3 hl hu hc hne hm hm'
    grind
  case vacated =>
    intro d p
    have := a1 d p; have := a1 c p; have := hm' p; have := a2 c p; have := a2 d p
    rw [hc, hl]
    clear hb a4 a5 a6 a7 a8 a9 a10 a1 a2 a3 hl hu hc hne hm hm'
    grind
  case bearer =>
    intro d b
    have := a3 c b; have := a3 d b
    rw [hc, hu]
    clear hb a4 a5 a6 a7 a8 a9 a10 a1 a2 a3 hl hu hc hne hm hm'
    grind
  case positioned =>
    intro d; rw [hc]; split
    · exact hk
    · exact a9 d
  case toFibre =>
    intro j x hj hx
    rw [hb] at hj
    have := a4 j x hj hx; have := hne j x hj; have := a3 c x.bearer
    rw [hu, hc]
    clear hb a4 a5 a6 a7 a8 a9 a10 a1 a2 a3 hl hu hc hne hm hm'
    grind
  case toCopper =>
    intro j x hj hx
    rw [hb] at hj
    have := a5 j x hj hx; have := hne j x hj; have := a1 c x.linePos;  have := a2 c x.linePos; have := hm' x.linePos
    rw [hl, hc]
    clear hb a4 a5 a6 a7 a8 a9 a10 a1 a2 a3 hl hu hc hne hm hm'
    grind
  case reserved =>
    intro b d hbc
    have := a6 b d
    simp only [hb]
    rw [hu] at hbc
    clear hb a4 a5 a6  a8 a9 a10 a1 a2 a3
    grind
  case entry =>
    intro j x hj
    rw [hb] at hj
    have := a7 j x hj; have := hne j x hj
    rw [hc]
    grind
  case index =>
    intro d j hj
    rw [hc] at hj
    have := a8 d j
    simp only [hb]
    grind

variable {s : State}

theorem freeLine_lineUse (p : Option LinePos) (q : LinePos) :
    (s.freeLine p).lineUse q = if p = some q then .free else s.lineUse q := by
  cases p <;> simp [freeLine, lineUse_setLineUse]
theorem freeLine_circuit (p : Option LinePos) (c : CircuitNo) : (s.freeLine p).circuit c = s.circuit c := by cases p <;> rfl
theorem freeLine_bridge (p : Option LinePos) (i : BridgeNo) : (s.freeLine p).bridge i = s.bridge i := by cases p <;> rfl
theorem freeLine_slotEntry (p : Option LinePos) (b : BearerSlot) : (s.freeLine p).slotEntry b = s.slotEntry b := by
  cases p <;> rfl
theorem freeLine_queue (p : Option LinePos) : (s.freeLine p).queue = s.queue := by cases p <;> rfl

/-- A FIBRE circuit that is stranded keeps its positions (R13). -/
theorem PositionsAgree.strand (h : s.PositionsAgree) (c : CircuitNo) (n : Half) (hf : (s.circuit c).pathState = .fibre) :
    (s.setCircuit c (Circuit.silent { s.circuit c with pathState := .stranded, generation := n })).PositionsAgree := by
  have hp := h.positioned c
  unfold Circuit.positioned at hp
  have h2 := fun p => h.vacated c p
  have h3 := fun b => h.bearer c b
  refine h.placed c (Circuit.silent { s.circuit c with pathState := .stranded, generation := n }) (by simp [hf]) ?_ rfl
    (fun j => rfl) rfl (fun d => circuit_setCircuit _ _ _ _) ?_ ?_ ?_ ?_ (fun p hv => hv) (fun b hb => hb)
  · simp_all [Circuit.positioned, Circuit.silent]
  · intro p; simp only [Circuit.silent, lineUse_setCircuit]; grind
  · intro b; simp only [Circuit.silent, slotEntry_setCircuit]; grind
  · intro p; simp only [Circuit.silent]; grind
  · intro p; simp only [Circuit.silent]; grind

/-- A circuit that no bridge moves is placed on an open line position, and gives up the position and the slot it had
(R15, R16, R18). -/
theorem PositionsAgree.onLine {t : State} (h : s.PositionsAgree) {c : CircuitNo} {p : LinePos}
    (hn : (s.circuit c).pathState ≠ .bridged) (ho : s.targetOpen c p = true) (hb : ∀ j, t.bridge j = s.bridge j)
    (hq : t.queue = s.queue) (hc : ∀ d, t.circuit d = if c = d then Circuit.endCopper { s.circuit c with
      linePos := some p, hold := 0, generation := (s.circuit c).generation + 1, bearer := none,
      vacated := (if (s.circuit c).vacated = some p then none else (s.circuit c).vacated) } else s.circuit d)
    (hl : ∀ q, t.lineUse q = if p = q then .occupied c else if (s.circuit c).linePos = some q then .free else s.lineUse q)
    (hu : ∀ b, (t.slotEntry b).use = if (s.circuit c).bearer = some b then .free else (s.slotEntry b).use) :
    t.PositionsAgree := by
  have h1 := fun p => h.line c p
  have h2 := fun p => h.vacated c p
  have h3 := fun b => h.bearer c b
  simp only [targetOpen, Bool.or_eq_true, beq_iff_eq] at ho
  refine h.placed c (Circuit.endCopper { s.circuit c with linePos := some p, hold := 0, generation := (s.circuit c).generation + 1, bearer := none, vacated := (if (s.circuit c).vacated = some p then none else (s.circuit c).vacated) }) hn ?_ rfl hb hq hc ?_ ?_ ?_ ?_ ?_ ?_
  · simp [Circuit.positioned, Circuit.endCopper]
  · intro q; rw [hl]; simp only [Circuit.endCopper]; grind
  · intro b; rw [hu]; simp only [Circuit.endCopper]; grind
  · intro q; simp only [Circuit.endCopper]; grind
  · intro q; simp only [Circuit.endCopper]; grind
  · intro q; simp only [Circuit.endCopper]; grind
  · intro q; simp only [Circuit.endCopper]; grind

theorem placeOnLine_lineUse (c : CircuitNo) (p q : LinePos) :
    (s.placeOnLine c p).lineUse q = if p = q then .occupied c else s.lineUse q := by
  simp [placeOnLine, discardHeld, lineUse_setLineUse]
theorem placeOnLine_circuit (c d : CircuitNo) (p : LinePos) : (s.placeOnLine c p).circuit d = if c = d then
    Circuit.endCopper { s.circuit c with
      linePos := some p, hold := 0, generation := (s.circuit c).generation + 1,
      vacated := (if (s.circuit c).vacated = some p then none else (s.circuit c).vacated) } else s.circuit d := by
  simp only [placeOnLine, discardHeld, modAlign, modCircuit, circuit_setAlign, circuit_setCircuit, circuit_setLineUse]
  simp only [beq_iff_eq]
theorem placeOnLine_bridge (c : CircuitNo) (p : LinePos) (i : BridgeNo) : (s.placeOnLine c p).bridge i = s.bridge i := rfl
theorem placeOnLine_slotEntry (c : CircuitNo) (p : LinePos) (b : BearerSlot) :
    (s.placeOnLine c p).slotEntry b = s.slotEntry b := rfl
theorem placeOnLine_queue (c : CircuitNo) (p : LinePos) : (s.placeOnLine c p).queue = s.queue := rfl

theorem PositionsAgree.setLine (h : s.PositionsAgree) {c : CircuitNo} {p : LinePos}
    (hn : (s.circuit c).pathState = .copper) (ho : s.targetOpen c p = true) :
    ((s.freeLine (s.circuit c).linePos).placeOnLine c p).PositionsAgree := by
  have hp := (h.positioned c).1 hn
  refine h.onLine (by simp [hn]) ho (fun j => freeLine_bridge _ _) (freeLine_queue _) ?_ ?_ ?_
  · intro d; rw [placeOnLine_circuit]; simp only [freeLine_circuit, ← hp.2]
  · intro q; rw [placeOnLine_lineUse, freeLine_lineUse]
  · intro b; rw [placeOnLine_slotEntry, freeLine_slotEntry, hp.2]; simp

theorem PositionsAgree.equip (h : s.PositionsAgree) {c : CircuitNo} {p : LinePos}
    (hn : (s.circuit c).pathState = .unequipped) (ho : s.targetOpen c p = true) :
    (s.placeOnLine c p).PositionsAgree := by
  have hp := (h.positioned c).2.2.1 hn
  refine h.onLine (by simp [hn]) ho (fun j => rfl) rfl ?_ ?_ ?_
  · intro d; rw [placeOnLine_circuit]; simp only [← hp.2.2]
  · intro q; rw [placeOnLine_lineUse, hp.1]; simp
  · intro b; rw [placeOnLine_slotEntry, hp.2.2]; simp

theorem PositionsAgree.recover (h : s.PositionsAgree) {c : CircuitNo} {p : LinePos} {b : BearerSlot}
    (hn : (s.circuit c).pathState = .stranded) (hb : (s.circuit c).bearer = some b) (ho : s.targetOpen c p = true) :
    (((s.freeSlot b c).modCircuit c fun k => { k with bearer := none }).placeOnLine c p).PositionsAgree := by
  have hp := (h.positioned c).2.1 (.inr hn)
  refine h.onLine (by simp [hn]) ho (fun j => rfl) rfl ?_ ?_ ?_
  · intro d; rw [placeOnLine_circuit]; simp [circuit_setCircuit, freeSlot]; grind
  · intro q; rw [placeOnLine_lineUse, hp.1]; simp [freeSlot]
  · intro x; rw [placeOnLine_slotEntry, hb]; simp [freeSlot, slotEntry_setSlotEntry]; split <;> rfl

theorem PositionsAgree.unequip (h : s.PositionsAgree) {c : CircuitNo} (n : Half) (hn : (s.circuit c).pathState = .copper) :
    (((s.freeLine (s.circuit c).linePos).freeLine (s.circuit c).vacated).setCircuit c (Circuit.silent
      { s.circuit c with pathState := .unequipped, linePos := none, vacated := none, generation := n })).PositionsAgree := by
  have hp := (h.positioned c).1 hn
  refine h.placed c (Circuit.silent
      { s.circuit c with pathState := .unequipped, linePos := none, vacated := none, generation := n }) (by simp [hn]) ?_ rfl
    (fun j => ?_) ?_ (fun d => ?_) ?_ ?_ (by simp [Circuit.silent]) (by simp [Circuit.silent]) (by simp [Circuit.silent]) (fun b hb => hb)
  · simp [Circuit.positioned, Circuit.silent, hp.2]
  · rw [bridge_setCircuit, freeLine_bridge, freeLine_bridge]
  · rw [setCircuit_queue, freeLine_queue, freeLine_queue]
  · rw [circuit_setCircuit, freeLine_circuit, freeLine_circuit]
  · intro q; rw [lineUse_setCircuit, freeLine_lineUse, freeLine_lineUse]; simp only [Circuit.silent]; grind
  · intro b; rw [slotEntry_setCircuit, freeLine_slotEntry, freeLine_slotEntry]; simp [Circuit.silent, hp.2]

theorem PositionsAgree.forget (h : s.PositionsAgree) {c : CircuitNo} (n : Half) (hn : (s.circuit c).pathState ≠ .bridged) :
    ((s.freeLine (s.circuit c).vacated).setCircuit c { s.circuit c with vacated := none, generation := n }).PositionsAgree := by
  have hp := h.positioned c
  have h1 := fun p => h.line c p
  have h2 := fun p => h.vacated c p
  have h3 := fun p => h.bearer c p
  refine h.placed c { s.circuit c with vacated := none, generation := n } hn ?_ rfl (fun j => ?_) ?_ (fun d => ?_) ?_ ?_
    (fun p hp => .inr (.inr hp)) (by simp) (by simp) (fun b hb => hb)
  · simp only [Circuit.positioned] at hp ⊢; grind
  · rw [bridge_setCircuit, freeLine_bridge]
  · rw [setCircuit_queue, freeLine_queue]
  · rw [circuit_setCircuit, freeLine_circuit]
  · intro q; rw [lineUse_setCircuit, freeLine_lineUse]; grind
  · intro b; rw [slotEntry_setCircuit, freeLine_slotEntry]; grind

/-! ### After a cold start -/

/-- The positions of a part after a cold start agree (R20). -/
theorem cold_agree (p : Phase) (c : FrameNo) (x : SiteConfig) (q : List Instr) : (State.cold p c x q).PositionsAgree := by
  have hc : ∀ k, (State.cold p c x q).circuit k = Circuit.cold k := fun k => by simp [circuit, State.cold]
  have hl : ∀ k : LinePos, (State.cold p c x q).lineUse k = .occupied k.index := fun k => by simp [lineUse, State.cold]
  have hu : ∀ b, ((State.cold p c x q).slotEntry b).use = .free := fun b => by
    rcases b with ⟨sp, n⟩; cases sp <;> simp [slotEntry, State.cold, PerSpan.get]
  have hb : ∀ i, (State.cold p c x q).bridge i = none := fun i => by simp [bridge, State.cold]
  have hi : ∀ (k : CircuitNo) (p : LinePos), LinePos.ofIndex k = p ↔ p.index = k := by
    intro k ⟨a, b⟩
    simp [LinePos.ofIndex, LinePos.index, Fin.ext_iff]
    omega
  constructor
  case queue => intro q hq; exact absurd hq (by simp [State.cold])
  all_goals intros
  all_goals simp_all [movesOnto, Circuit.positioned, Circuit.cold]

end State

end Sys2Proof.Machine
end

