-- ==== Sys2Proof/Laws/Moves.lean ====
section
/-! SUPPORT. What a step can do, said once: the state it ends in is reached by the writes below, each within its
range. An invariant of every step is proved by a case for each write. -/

namespace Sys2Proof.Machine

open Sys2Proof

set_option Elab.async false

/-- A span is written within its ranges: a run count, a store or a transmit queue grows within its capacity only, and a
transmit queue is kept or filled only while its span is IN_SERVICE, unless line and queue stay as they are. -/
structure SpanWrite (old new : SpanState) : Prop where
  good : new.good ≤ 4 ∨ new.good ≤ old.good := by simp
  errored : new.errored ≤ 4 ∨ new.errored ≤ old.errored := by simp
  train : new.train ≤ 4 ∨ new.train ≤ old.train := by simp
  holdDown : new.holdDown ≤ 512 ∨ new.holdDown ≤ old.holdDown := by simp
  store : new.store.length ≤ 2 ∨ new.store.length ≤ old.store.length := by simp
  room : new.txQueue.length ≤ 32 ∨ new.txQueue.length ≤ old.txQueue.length := by simp
  service : new.txQueue = [] ∨ new.line = .inService ∨
    ((new.line = old.line ∨ old.line ≠ .inService) ∧ (old.txQueue = [] → new.txQueue = [])) := by simp

/-- A port is written within its ranges. -/
structure PortWrite (old new : Port) : Prop where
  loss : new.loss ≤ 3 ∨ new.loss ≤ old.loss := by simp
  recovery : new.recovery ≤ 16 ∨ new.recovery ≤ old.recovery := by simp
  rxStore : new.rxStore.length ≤ 2 ∨ new.rxStore.length ≤ old.rxStore.length := by simp
  txStore : new.txStore.length ≤ 2 ∨ new.txStore.length ≤ old.txStore.length := by simp

/-- The memory port is written within its ranges: the posted-write queue grows within its places only, and reads and tags
fit as they did. -/
structure SmpWrite (old new : Smp) : Prop where
  room : new.writes.length ≤ 8 ∨ new.writes.length ≤ old.writes.length := by exact .inr (Nat.le_refl _)
  fits : old.readsFit → new.readsFit := by exact id

/-- The Notice Engine is written within its ranges: the pending queue and the lost count grow within their limits only,
and the notice position stays in the ring. -/
structure NteWrite (old new : Nte) : Prop where
  room : new.pending.length ≤ 16 ∨ new.pending.length ≤ old.pending.length := by exact .inr (Nat.le_refl _)
  lost : new.lost ≤ 65535 ∨ new.lost ≤ old.lost := by exact .inr (Nat.le_refl _)
  position : (∀ b, old.bases = some b → old.position < b.entries) →
    ∀ b, new.bases = some b → new.position < b.entries := by exact id

/-- The state less all that a write of a position may change. -/
def State.unplaced (s : State) : State :=
  { s with
    circuits := State.reset.circuits
    align := State.reset.align
    lineOcc := State.reset.lineOcc
    spanOcc := State.reset.spanOcc
    bridges := State.reset.bridges }

namespace State

variable (s : State)

@[simp] theorem unplaced_setCircuit (c : CircuitNo) (x : Circuit) : (s.setCircuit c x).unplaced = s.unplaced := rfl
@[simp] theorem unplaced_setAlign (c : CircuitNo) (x : AlignStore) : (s.setAlign c x).unplaced = s.unplaced := rfl
@[simp] theorem unplaced_setLineUse (p : LinePos) (x : LineUse) : (s.setLineUse p x).unplaced = s.unplaced := rfl
@[simp] theorem unplaced_setSlotEntry (b : BearerSlot) (x : SlotEntry) : (s.setSlotEntry b x).unplaced = s.unplaced := rfl
@[simp] theorem unplaced_setBridge (i : BridgeNo) (x : Option Bridge) : (s.setBridge i x).unplaced = s.unplaced := rfl
@[simp] theorem unplaced_freeLine (p : Option LinePos) : (s.freeLine p).unplaced = s.unplaced := by cases p <;> rfl
@[simp] theorem unplaced_freeSlot (b : BearerSlot) (c : CircuitNo) : (s.freeSlot b c).unplaced = s.unplaced := rfl
@[simp] theorem unplaced_useSlot (b : BearerSlot) (u : SlotUse) : (s.useSlot b u).unplaced = s.unplaced := rfl
@[simp] theorem unplaced_freshPath (c : CircuitNo) (d : Direction) : (s.freshPath c d).unplaced = s.unplaced := rfl
@[simp] theorem unplaced_placeOnLine (c : CircuitNo) (p : LinePos) : (s.placeOnLine c p).unplaced = s.unplaced := rfl

end State

/-- The states that writes within their ranges reach from `a`. The waiting commands, the configuration, the hold of
RESETn, the frame counter, BLOCK_BASE and ATTN_MASK are not written. A circuit and a bridge entry are written with the
positions they have; what moves a position is one write of `place`, which keeps the positions in agreement (R6). What a
read has brought may be counted into credits, where the reads of the first state fit. -/
inductive Moves (a : State) : State → Prop where
  | refl : Moves a a
  | setPhase {s : State} (x : Phase) : Moves a s → Moves a (s.setPhase x)
  | setAttn {s : State} (x : BitVec 6) : Moves a s → Moves a (s.setAttn x)
  | setCircuit {s : State} (c : CircuitNo) (x : Circuit) :
      Moves a s → x.hold ≤ 15 ∨ x.hold ≤ (s.circuit c).hold →
      (hp : x.places = (s.circuit c).places := by rfl) → Moves a (s.setCircuit c x)
  | setAlign {s : State} (c : CircuitNo) (x : AlignStore) : Moves a s → Moves a (s.setAlign c x)
  | place {s : State} (t : State) : Moves a s →
      t.unplaced = s.unplaced →
      (∀ c, (t.circuit c).hold ≤ 15 ∨ (t.circuit c).hold ≤ (s.circuit c).hold) →
      (∀ i x, t.bridge i = some x → x.matcher = none ∨ s.bridge i = some x) →
      (a.PositionsAgree → t.PositionsAgree) → Moves a t
  | setQueue {s : State} (x : List QueueEntry) : Moves a s → (∀ q ∈ x, q ∈ s.queue ∨ q.apart) →
      x.length ≤ 16 ∨ x.length ≤ s.queue.length → Moves a (s.setQueue x)
  | setWatch {s : State} (x : List WatchEntry) : Moves a s → x.length ≤ 16 ∨ x.length ≤ s.watch.length →
      Moves a (s.setWatch x)
  | setBridge {s : State} (i : BridgeNo) (x : Bridge) {e : Bridge} : Moves a s →
      (he : s.bridge i = some e := by assumption) → (hp : x.places = e.places := by rfl) →
      (hm : e.matcherInRange → x.matcherInRange := by first | exact id | (intro _ _ h; cases h)) →
      Moves a (s.setBridge i (some x))
  | setGroup {s : State} (g : Fin 4) (x : Option Group) : Moves a s →
      ((∀ y, s.group g = some y → y.countsRest) → ∀ y, x = some y → y.countsRest) → Moves a (s.setGroup g x)
  | setSpan {s : State} (sp : Span) (x : SpanState) : Moves a s → SpanWrite (s.span sp) x → Moves a (s.setSpan sp x)
  | setPort {s : State} (p : PortNo) (x : Port) : Moves a s → PortWrite (s.port p) x → Moves a (s.setPort p x)
  | setMonitor {s : State} (c : CircuitNo) (x : Monitor) :
      Moves a s → x.age ≤ 8000 ∨ x.age ≤ (s.monitor c).age → Moves a (s.setMonitor c x)
  | setFtu {s : State} (x : Ftu) : Moves a s →
      (∀ i : Fin 18, x.counts[i.val] ≤ 8000 ∨ x.counts[i.val] ≤ s.ftu.counts[i.val]) → Moves a (s.setFtu x)
  | setRunner {s : State} (n : Fin 4) (x : Runner) :
      Moves a s → ((s.runner n).streak ≤ 8 → x.streak ≤ 8) → Moves a (s.setRunner n x)
  | setSettles {s : State} (x : List Settle) : Moves a s → Moves a (s.setSettles x)
  | setNextSettle {s : State} (x : Nat) : Moves a s → Moves a (s.setNextSettle x)
  | setSmp {s : State} (x : Smp) : Moves a s → SmpWrite s.smp x → Moves a (s.setSmp x)
  | setNte {s : State} (x : Nte) : Moves a s → NteWrite s.nte x →
      (hc : a.smp.readsFit → x.credits ≤ 8 ∨ x.credits ≤ s.nte.credits := by exact fun _ => .inr (Nat.le_refl _)) →
      Moves a (s.setNte x)
  | switch {s : State} (x : Vector AlignStore 256) (y z : Vector Byte 256) :
      Moves a s → Moves a { s with align := x, officeOut := y, lineOut := z }
  | take {s : State} (x : Vector Byte 256) : Moves a s → Moves a { s with officeIn := x }
  | age {s : State} (x : Vector Monitor 256) : Moves a s →
      (∀ c : CircuitNo, x[c.val].age ≤ 8000 ∨ x[c.val].age ≤ (s.monitor c).age) → Moves a { s with monitors := x }

namespace Moves

variable {a s : State}

theorem each {α : Type} (l : List α) (f : α → State → State) (hs : Moves a s)
    (h : ∀ x t, Moves a t → Moves a (f x t)) : Moves a (each l f s) := each_induct (Moves a) l f h s hs

theorem withBridge {i : BridgeNo} {f : Bridge → State} (hs : Moves a s) (h : ∀ e, s.bridge i = some e → Moves a (f e)) :
    Moves a (s.withBridge i f) := by
  unfold State.withBridge
  split
  · exact hs
  · exact h _ (by assumption)

/-- The positions still agree (R6). -/
theorem agree (h : Moves a s) (ha : a.PositionsAgree) : s.PositionsAgree := by
  induction h with
  | refl => exact ha
  | place _ _ _ _ _ ht => exact ht ha
  | setCircuit c x _ _ hp ih =>
    exact ih.same { circuits := fun d => by rw [State.circuit_setCircuit]; split <;> simp_all }
  | setBridge i x _ he hp _ ih =>
    exact ih.same { bridges := fun j => by rw [State.bridge_setBridge]; split <;> simp_all }
  | setQueue x _ hq _ ih => exact ih.same { queue := hq }
  | setSpan sp x _ _ ih => cases sp <;> exact ih.same {}
  | _ => rename_i ih; exact ih.same {}

/-- Reads and tags still fit. -/
theorem reads (h : Moves a s) (ha : a.smp.readsFit) : s.smp.readsFit := by
  induction h with
  | refl => exact ha
  | place t _ ht _ _ _ ih =>
    have := congrArg State.smp ht
    exact (show t.smp = _ from this) ▸ ih
  | setSmp x _ hx ih => exact hx.fits ih
  | _ => rename_i ih; exact ih

theorem trans {b c : State} (h : Moves a b) (h' : Moves b c) : Moves a c := by
  induction h' with
  | refl => exact h
  | setPhase x _ ih => exact ih.setPhase x
  | setAttn x _ ih => exact ih.setAttn x
  | setCircuit c x _ hx hp ih => exact ih.setCircuit c x hx hp
  | setAlign c x _ ih => exact ih.setAlign c x
  | place t _ ht hh hb hp ih => exact ih.place t ht hh hb fun ha => hp (h.agree ha)
  | setQueue x _ hq hl ih => exact ih.setQueue x hq hl
  | setWatch x _ hl ih => exact ih.setWatch x hl
  | setBridge i x _ he hp hm ih => exact ih.setBridge i x he hp hm
  | setGroup g x _ hx ih => exact ih.setGroup g x hx
  | setSpan sp x _ hx ih => exact ih.setSpan sp x hx
  | setPort p x _ hx ih => exact ih.setPort p x hx
  | setMonitor c x _ hx ih => exact ih.setMonitor c x hx
  | setFtu x _ hx ih => exact ih.setFtu x hx
  | setRunner n x _ hx ih => exact ih.setRunner n x hx
  | setSettles x _ ih => exact ih.setSettles x
  | setNextSettle x _ ih => exact ih.setNextSettle x
  | setSmp x _ hx ih => exact ih.setSmp x hx
  | setNte x _ hx hc ih => exact ih.setNte x hx fun ha => hc (h.reads ha)
  | switch x y z _ ih => exact ih.switch x y z
  | take x _ ih => exact ih.take x
  | age x _ hx ih => exact ih.age x hx

/-! ### What no write touches -/

theorem pending_eq (h : Moves a s) : s.pending = a.pending := by
  induction h with
  | place _ _ ht _ _ _ ih =>
    have := congrArg State.pending ht; exact this.trans ih
  | _ => first | rfl | assumption
theorem cfg_eq (h : Moves a s) : s.cfg = a.cfg := by
  induction h with
  | place _ _ ht _ _ _ ih =>
    have := congrArg State.cfg ht; exact this.trans ih
  | _ => first | rfl | assumption
theorem counter_eq (h : Moves a s) : s.counter = a.counter := by
  induction h with
  | place _ _ ht _ _ _ ih =>
    have := congrArg State.counter ht; exact this.trans ih
  | _ => first | rfl | assumption
theorem blockBase_eq (h : Moves a s) : s.blockBase = a.blockBase := by
  induction h with
  | place _ _ ht _ _ _ ih =>
    have := congrArg State.blockBase ht; exact this.trans ih
  | _ => first | rfl | assumption
theorem attnMask_eq (h : Moves a s) : s.attnMask = a.attnMask := by
  induction h with
  | place _ _ ht _ _ _ ih =>
    have := congrArg State.attnMask ht; exact this.trans ih
  | _ => first | rfl | assumption
theorem resetLow_eq (h : Moves a s) : s.resetLow = a.resetLow := by
  induction h with
  | place _ _ ht _ _ _ ih =>
    have := congrArg State.resetLow ht; exact this.trans ih
  | _ => first | rfl | assumption

/-! ### The shared operations -/

theorem setClaims (h : Moves a s) (x : List WriteClaim) : Moves a (s.setClaims x) := h.setSmp _ {}
theorem setTag (h : Moves a s) (t : Fin 4) (x : Tag) (hx : s.smp.readsFit → x.fits) : Moves a (s.setTag t x) :=
  h.setSmp _ { fits := fun hr => ⟨hr.1, fun k => by
    show Tag.fits (s.smp.tags.set t.val x t.isLt)[k.val]
    rw [Vector.getElem_set]; split
    · exact hx hr
    · exact hr.2 k⟩ }
theorem requestRead (h : Moves a s) (r : Reader) (x : Addr) (n : Nat) (hn : r = .notices → n ≤ 256 := by intro e; cases e) :
    Moves a (s.requestRead r x n) :=
  h.setSmp _ { fits := fun hr => ⟨fun q hq => (List.mem_append.mp hq).elim (hr.1 q) fun hq => by
    rw [List.mem_singleton] at hq; subst hq; exact hn, hr.2⟩ }
theorem withdrawRead (h : Moves a s) (r : Reader) : Moves a (s.withdrawRead r) :=
  h.setSmp _ { fits := fun hr => ⟨fun q hq => hr.1 q (List.mem_filter.mp hq).1, hr.2⟩ }
theorem raise (h : Moves a s) (c : Cause) : Moves a (s.raise c) := h.setAttn _
theorem handNotice (h : Moves a s) (b : NoticeBody) : Moves a (s.handNotice b) := by
  unfold State.handNotice
  split
  · next hl => exact h.setNte _ { room := .inl (by simp only [Config.noticePlaces] at hl; simp; omega) }
  · exact Moves.raise (h.setNte _ { lost := .inl (Nat.min_le_right _ _) }) _
theorem queueWrite (h : Moves a s) (w : PostedWrite) : Moves a (s.queueWrite w) := by
  unfold State.queueWrite
  split
  · next hl => exact h.setSmp _ { room := .inl (by
      have hw : s.smp.writes.length < 8 := of_decide_eq_true hl
      simp; omega) }
  · exact h
theorem addClaim (h : Moves a s) (c : WriteClaim) : Moves a (s.addClaim c) := h.setSmp _ {}
theorem setHeld (h : Moves a s) (n : Fin 4) (x : List (List WriteClaim)) : Moves a (s.setHeld n x) := h.setSmp _ {}
theorem holdClaims (h : Moves a s) (n : Fin 4) (l : List WriteClaim) : Moves a (s.holdClaims n l) := h.setHeld _ _
theorem makeClaim (h : Moves a s) (c : WriteClaim) : Moves a (s.makeClaim c) := by
  unfold State.makeClaim; split
  · exact h.holdClaims _ _
  · exact h.addClaim c
theorem makeHeld (h : Moves a s) (n : Fin 4) : Moves a (s.makeHeld n) := by
  unfold State.makeHeld
  (repeat' split) <;> first | exact h | exact (h.setClaims _).setHeld _ _
theorem withdrawTake (h : Moves a s) (n : Fin 4) : Moves a (s.withdrawTake n) :=
  ((h.setClaims _).setHeld _ _).makeHeld n
theorem resultWrite (h : Moves a s) (n : Fin 4) (w : PostedWrite) : Moves a (s.resultWrite n w) := by
  unfold State.resultWrite; split
  · exact h.queueWrite w
  · exact h.addClaim _
theorem claimResults (h : Moves a s) (n : Fin 4) (l : List PostedWrite) : Moves a (s.claimResults n l) := by
  unfold State.claimResults; split
  · exact h.holdClaims _ _
  · exact h.each _ _ fun w _ ht => ht.resultWrite n w
theorem settleOrder (h : Moves a s) (ref : OrderRef) (code : ResultCode) (v : List Byte) (m : List (Byte × Byte)) :
    Moves a (s.settleOrder ref code v m) :=
  ((h.setNextSettle _).setSettles _).claimResults _ _
theorem modBridge (h : Moves a s) (i : BridgeNo) (f : Bridge → Bridge)
    (hf : ∀ e, (f e).places = e.places := by intro e; first | rfl | (split <;> rfl))
    (hm : ∀ e, e.matcherInRange → (f e).matcherInRange := by
      first | exact fun _ => id | (intro _ _ _ h; cases h) | (intro e; split <;> exact id)) : Moves a (s.modBridge i f) := by
  unfold State.modBridge; split
  · exact h
  · exact h.setBridge _ _ (by assumption) (hf _) (hm _)
/-- A group in use is written with a count that is right if it was. -/
theorem setGroupOf (h : Moves a s) (g : Fin 4) {x : Group} (y : Group) (hx : s.group g = some x)
    (hy : x.countsRest → y.countsRest := by exact id) : Moves a (s.setGroup g (some y)) :=
  h.setGroup _ _ fun hs z hz => by cases hz; exact hy (hs x hx)
theorem modGroup (h : Moves a s) (g : Fin 4) (f : Group → Group) (hf : ∀ x : Group, x.countsRest → (f x).countsRest) :
    Moves a (s.modGroup g f) := by
  unfold State.modGroup; split
  · exact h
  · next hx => exact h.setGroupOf g _ hx (hf _)
theorem modAlign (h : Moves a s) (c : CircuitNo) (f : AlignStore → AlignStore) : Moves a (s.modAlign c f) :=
  h.setAlign _ _
theorem modCircuit (h : Moves a s) (c : CircuitNo) (f : Circuit → Circuit)
    (hf : ∀ k, (f k).hold ≤ 15 ∨ (f k).hold ≤ k.hold) (hp : ∀ k, (f k).places = k.places := by intro k; rfl) :
    Moves a (s.modCircuit c f) := h.setCircuit _ _ (hf _) (hp _)
theorem modSpan (h : Moves a s) (sp : Span) (f : SpanState → SpanState) (hf : ∀ k, SpanWrite k (f k)) :
    Moves a (s.modSpan sp f) := h.setSpan _ _ (hf _)
theorem modPort (h : Moves a s) (p : PortNo) (f : Port → Port) (hf : ∀ k, PortWrite k (f k)) :
    Moves a (s.modPort p f) := h.setPort _ _ (hf _)
theorem modRunner (h : Moves a s) (n : Fin 4) (f : Runner → Runner)
    (hf : ∀ r, r.streak ≤ 8 → (f r).streak ≤ 8 := by simp) : Moves a (s.modRunner n f) := h.setRunner _ _ (hf _)

/-! ### The Channel Map -/

theorem seam_hold (h : Nat) (d : Int) : (seamNumbers h d).hold ≤ 15 := Nat.min_le_left _ _
theorem seamSwitch (h : Moves a s) (c : CircuitNo) (r : Receive) (d : Int) : Moves a (s.seamSwitch c r d) := by
  unfold State.seamSwitch
  exact modAlign (modCircuit h _ _ fun _ => .inl (seam_hold _ _)) _ _
theorem discardHeld (h : Moves a s) (c : CircuitNo) : Moves a (s.discardHeld c) := h.modAlign _ _
theorem freshPath (h : Moves a s) (c : CircuitNo) (d : Direction) : Moves a (s.freshPath c d) := h.modAlign _ _
/-- A write of a position that leaves the bridge table alone. -/
theorem placed (h : Moves a s) (t : State) (ht : t.unplaced = s.unplaced)
    (hh : ∀ c, (t.circuit c).hold ≤ 15 ∨ (t.circuit c).hold ≤ (s.circuit c).hold)
    (ha : a.PositionsAgree → t.PositionsAgree) (hb : t.bridges = s.bridges := by rfl) : Moves a t :=
  h.place t ht hh (fun i x hx => .inr (by unfold State.bridge at *; rw [← hb]; exact hx)) ha
theorem bridgeStart (h : Moves a s) (i : BridgeNo) (e : Bridge) (hs : a.PositionsAgree → s.Startable i e)
    (hm : e.matcher = none := by rfl) : Moves a (s.bridgeStart i e) := by
  refine h.place _ ?_ (fun c => ?_) (fun j x hx => ?_) fun ha => (h.agree ha).start (hs ha)
  · unfold State.bridgeStart; cases e.direction <;> simp
  · unfold State.bridgeStart
    by_cases hp : (s.circuit e.circuit).pathState = .stranded <;> cases e.direction <;>
      simp [State.circuit_setCircuit, State.freshPath, State.useSlot, hp] <;> split <;> simp_all
  · rw [State.bridge_bridgeStart] at hx
    split at hx
    · cases hx; exact .inl hm
    · exact .inr hx
theorem freeOccupancy_circuit (e : Bridge) (r : Bool) (c : CircuitNo) : (s.freeOccupancy e r).circuit c = s.circuit c := by
  have hl : ∀ (t : State) p, (t.freeLine p).circuit c = t.circuit c := fun t p => by cases p <;> rfl
  unfold State.freeOccupancy
  split <;> simp [State.useSlot, State.freeSlot, hl]
theorem freeOccupancy_bridge (e : Bridge) (r : Bool) (i : BridgeNo) : (s.freeOccupancy e r).bridge i = s.bridge i := by
  have hl : ∀ p, (s.freeLine p).bridge i = s.bridge i := fun p => by cases p <;> rfl
  unfold State.freeOccupancy
  split <;> simp [State.useSlot, State.freeSlot, hl]
theorem freedCircuit_hold (e : Bridge) (r : Bool) : (s.freedCircuit e r).hold ≤ (s.circuit e.circuit).hold := by
  unfold State.freedCircuit State.endFibre Circuit.endCopper Circuit.silent
  dsimp only
  (repeat' split) <;> simp
/-- The freeing of an entry is one write that keeps the agreement. -/
theorem freed (h : Moves a s) (i : BridgeNo) (e : Bridge) (he : s.bridge i = some e) (r : Bool) (k : Circuit)
    (hk : k.bridgeIndex = none ∧ k.linePos = (s.freedCircuit e r).linePos ∧
      k.vacated = (s.freedCircuit e r).vacated ∧ k.bearer = (s.freedCircuit e r).bearer ∧
      k.pathState = (s.freedCircuit e r).pathState) (hh : k.hold = (s.freedCircuit e r).hold) :
    Moves a (((s.freeOccupancy e r).setCircuit e.circuit k).setBridge i none) := by
  refine h.place _ ?_ (fun c => .inr ?_) (fun j x hx => .inr ?_) fun ha => (h.agree ha).freed he r k hk rfl
  · unfold State.freeOccupancy
    cases e.direction <;> cases r <;> simp
  · rw [State.circuit_setBridge, State.circuit_setCircuit, freeOccupancy_circuit]
    split
    · next hc => subst hc; rw [hh]; exact freedCircuit_hold _ _
    · exact Nat.le_refl _
  · rw [State.bridge_setBridge] at hx
    split at hx
    · cases hx
    · rw [← hx, State.bridge_setCircuit, freeOccupancy_bridge]
theorem bridgeFreed (h : Moves a s) (i : BridgeNo) (e : Bridge) (o : ResultCode) (he : s.bridge i = some e) :
    Moves a (s.bridgeFreed i e o) := by
  have h' := h.freed i e he (State.releasedForm o)
    { s.freedCircuit e (State.releasedForm o) with
        bridgeIndex := none, groupIndex := none, generation := (s.freedCircuit e (State.releasedForm o)).generation + 1,
        lastMigration := State.freedRecord (s.freedCircuit e (State.releasedForm o)).lastMigration e (State.releasedForm o) }
    ⟨rfl, rfl, rfl, rfl, rfl⟩ rfl
  unfold State.bridgeFreed
  dsimp only
  split
  · exact (h'.discardHeld _).handNotice _
  · exact h'
theorem strand (h : Moves a s) (sp : Span) (c : CircuitNo) : Moves a (s.strand sp c) := by
  unfold State.strand; dsimp only; split
  · next hf =>
    have hf := eq_of_beq (Bool.and_eq_true_iff.mp hf).1
    refine Moves.handNotice (Moves.discardHeld (h.placed (s.setCircuit c (Circuit.silent
      { s.circuit c with pathState := .stranded, generation := (s.circuit c).generation + 1 })) rfl (fun d => ?_)
      fun ha => (h.agree ha).strand c _ hf) _) _
    rw [State.circuit_setCircuit]; split
    · exact .inl (Nat.zero_le _)
    · exact .inr (Nat.le_refl _)
  · exact h
theorem strandAll (h : Moves a s) (sp : Span) : Moves a (s.strandAll sp) :=
  Moves.each _ _ h fun c _ ht => ht.strand sp c
theorem dropHold (h : Moves a s) (c : CircuitNo) : Moves a (s.dropHold c) := by
  unfold State.dropHold
  split
  · exact h
  · exact (h.modCircuit _ _ fun _ => .inl (Nat.zero_le _)).modAlign _ _
theorem placeOnLine_hold (t : State) (c : CircuitNo) (p : LinePos) (d : CircuitNo) :
    ((t.placeOnLine c p).circuit d).hold ≤ (t.circuit d).hold := by
  rw [State.placeOnLine_circuit]; split
  · exact Nat.zero_le _
  · exact Nat.le_refl _
theorem mapSetLine (h : Moves a s) (c : CircuitNo) (p : LinePos) : Moves a (s.mapSetLine c p).1 := by
  unfold State.mapSetLine
  dsimp only
  split
  · exact h
  next hn =>
  split
  · exact h
  split
  · exact h
  next ho =>
  refine h.placed _ ?_ (fun d => .inr (Nat.le_trans (placeOnLine_hold _ c p d) (Nat.le_of_eq (by rw [State.freeLine_circuit]))))
    (fun ha => (h.agree ha).setLine (by simpa using hn) (by simpa using ho)) ?_
  · simp
  · cases (s.circuit c).linePos <;> rfl
theorem mapEquip (h : Moves a s) (c : CircuitNo) (p : LinePos) : Moves a (s.mapEquip c p).1 := by
  unfold State.mapEquip
  split
  · exact h
  next hn =>
  split
  · exact h
  next ho =>
  exact h.placed _ rfl (fun d => .inr (placeOnLine_hold _ c p d))
    fun ha => (h.agree ha).equip (by simpa using hn) (by simp_all [State.targetOpen])
theorem mapUnequip (h : Moves a s) (c : CircuitNo) : Moves a (s.mapUnequip c).1 := by
  unfold State.mapUnequip
  dsimp only
  split
  · exact h
  next hn =>
  refine Moves.discardHeld (h.placed _ ?_ (fun d => ?_) (fun ha => (h.agree ha).unequip _ (by simpa using hn)) ?_) _
  · simp
  · rw [State.circuit_setCircuit, State.freeLine_circuit, State.freeLine_circuit]; split
    · exact .inl (Nat.zero_le _)
    · exact .inr (Nat.le_refl _)
  · cases (s.circuit c).linePos <;> cases (s.circuit c).vacated <;> rfl
theorem mapForget (h : Moves a s) (c : CircuitNo) : Moves a (s.mapForget c).1 := by
  unfold State.mapForget
  dsimp only
  split
  · exact h
  next hn =>
  refine h.placed _ ?_ (fun d => .inr ?_) (fun ha => (h.agree ha).forget _ ?_) ?_
  · simp
  · rw [State.circuit_setCircuit, State.freeLine_circuit]; split
    · next hc => subst hc; exact Nat.le_refl _
    · exact Nat.le_refl _
  · intro hb; simp [hb] at hn
  · cases (s.circuit c).vacated <;> rfl
theorem mapOrder (h : Moves a s) (x : MapAction) (c : CircuitNo) (t : Option LinePos) (g : Option Half) :
    Moves a (s.mapOrder x c t g).1 := by
  unfold State.mapOrder
  split
  · exact h
  split
  · exact h.mapSetLine _ _
  · exact h.mapEquip _ _
  · exact h.mapUnequip _
  · exact h.mapForget _
  · exact h
theorem recover (h : Moves a s) (c : CircuitNo) (t : Option LinePos) : Moves a (s.recover c t).1 := by
  unfold State.recover
  dsimp only
  split
  · exact h
  next hn =>
  have hn : (s.circuit c).pathState = .stranded := by simpa using hn
  cases t <|> (s.circuit c).vacated with
  | none => exact h
  | some p =>
    dsimp only
    split
    · exact h
    next ho =>
    refine h.placed _ ?_ (fun d => .inr (Nat.le_trans (placeOnLine_hold _ c p d) ?_)) (fun ha => ?_) ?_
    · cases (s.circuit c).bearer <;> simp
    · cases (s.circuit c).bearer <;> simp only [State.freeSlot, State.modCircuit_eq, State.circuit_setCircuit] <;> split <;>
        simp_all
    · have hb := ((h.agree ha).positioned c).2.1 (.inr hn)
      cases hx : (s.circuit c).bearer with
      | none => exact absurd hx hb.2
      | some b => exact (h.agree ha).recover hn hx (by simpa using ho)
    · cases (s.circuit c).bearer <;> rfl
theorem recoverOrder (h : Moves a s) (c : CircuitNo) (t : Option LinePos) (g : Option Half) :
    Moves a (s.recoverOrder c t g).1 := by
  unfold State.recoverOrder
  split
  · exact h
  · exact h.recover c t

/-! ### The Roll Protocol Unit -/

/-- A change of one item that a test does not see leaves the number of items that pass it. -/
theorem modify_filter {α : Type} (l : List α) (n : Nat) (f : α → α) (p : α → Bool) (hf : ∀ x, p (f x) = p x) :
    ((l.modify n f).filter p).length = (l.filter p).length := by
  induction l generalizing n with
  | nil => simp
  | cons x l ih => cases n <;> simp [List.filter_cons, hf] <;> split <;> simp [ih]
theorem memberEnded (h : Moves a s) (g : Fin 4) (n : Nat) (o : ResultCode) (v : FreedValues) :
    Moves a (s.memberEnded g n o v) := h.modGroup _ _ fun x hx => by
  unfold Group.countsRest at *
  rw [hx]
  exact (modify_filter x.members n _ _ fun _ => by rfl).symm
theorem handEnd (h : Moves a s) (e : Bridge) (o : ResultCode) (v : FreedValues) : Moves a (s.handEnd e o v) := by
  unfold State.handEnd; split
  · exact h.memberEnded _ _ _ _
  · exact h.settleOrder _ _ _ _
  · exact h.handNotice _
/-- A transmit queue may be written when it is emptied, when it is the queue of a span IN_SERVICE, or when it stays as
empty as it was. -/
theorem setTxQueue (h : Moves a s) (sp : Span) (q : List QueuedMessage)
    (hl : q.length ≤ 32 ∨ q.length ≤ (s.span sp).txQueue.length)
    (hs : q = [] ∨ s.inService sp = true ∨ ((s.span sp).txQueue = [] → q = [])) : Moves a (s.setTxQueue sp q) := by
  unfold State.setTxQueue
  refine h.setSpan _ _ { room := hl, service := ?_ }
  rcases hs with hs | hs | hs
  · exact .inl hs
  · exact .inr (.inl (by simpa [State.inService] using hs))
  · exact .inr (.inr ⟨.inl rfl, hs⟩)
theorem leaveMessages (h : Moves a s) (i : BridgeNo) (sp : Span) : Moves a (s.leaveMessages i sp) :=
  h.setTxQueue _ _ (.inr (by simp)) (.inr (.inr fun e => by simp [e]))
theorem freeAs (h : Moves a s) (i : BridgeNo) (o : ResultCode) : Moves a (s.freeAs i o) :=
  h.withBridge fun e he => ((h.bridgeFreed i e o he).handEnd _ _ _).leaveMessages _ _
theorem freeEntry (h : Moves a s) (i : BridgeNo) : Moves a (s.freeEntry i) := h.withBridge fun _ _ => h.freeAs _ _
theorem beginGuard (h : Moves a s) (i : BridgeNo) : Moves a (s.beginGuard i) := h.modBridge _ _
theorem afterPlaced (h : Moves a s) (i : BridgeNo) : Moves a (s.afterPlaced i) :=
  h.withBridge fun e _ => by
    (repeat' split) <;> first | exact h | exact h.beginGuard _ | exact h.freeEntry _
theorem placeMessage_length {q q' : List QueuedMessage} {i : BridgeNo} {m : RollMessage}
    (h : placeMessage q i m = some q') : q'.length ≤ 32 ∨ q'.length ≤ q.length := by
  unfold placeMessage at h
  split at h
  · split at h
    · cases h
    · cases h; exact .inr (by simp)
  · split at h
    · next hl => cases h; exact .inl (by simp only [Config.transmitPlaces] at hl; simp; omega)
    · cases h
theorem handMessage (h : Moves a s) (i : BridgeNo) : Moves a (s.handMessage i) :=
  h.withBridge fun e _ => by
    dsimp only
    split
    · exact h
    · split
      · exact h
      · next hs =>
        have hs' : s.inService e.bearer.span = true := by
          cases hx : s.inService e.bearer.span
          · simp [hx] at hs
          · rfl
        split
        · next q hq => exact (h.setTxQueue _ _ (placeMessage_length hq) (.inr (.inl hs'))).afterPlaced _
        · exact h.setBridge _ _
theorem serveEntry (h : Moves a s) (sp : Span) (i : BridgeNo) (hs : s.inService sp = true) :
    Moves a (s.serveEntry sp i) :=
  h.withBridge fun e _ => by
    split
    · split
      · exact h.setBridge _ _
      · split
        · next q hq =>
          exact ((h.setTxQueue _ _ (placeMessage_length hq) (.inr (.inl hs))).setBridge _ _).afterPlaced _
        · exact h
    · exact h
theorem still_inService {t u : State} (h : t.still = u.still) (sp : Span) : t.inService sp = u.inService sp := by
  have hl : (t.span sp).line = (u.span sp).line := by
    cases sp
    · have h' := congrArg (fun x : State => x.spans.a.line) h
      exact h'
    · have h' := congrArg (fun x : State => x.spans.b.line) h
      exact h'
  simp [State.inService, hl]
theorem servePending (h : Moves a s) (sp : Span) (hs : s.inService sp = true) : Moves a (s.servePending sp) := by
  unfold State.servePending
  exact (each_induct (fun t => Moves a t ∧ t.inService sp = true) _ _
    (fun i t ht => ⟨ht.1.serveEntry sp i ht.2,
      (still_inService (State.still_serveEntry t sp i) sp).trans ht.2⟩) s ⟨h, hs⟩).1
theorem answer (h : Moves a s) (sp : Span) (k : MessageKind) (n : Fin 256) (t : Byte) (r : Option Reason)
    (hs : s.inService sp = true) : Moves a (s.answer sp k n t r) := by
  unfold State.answer
  dsimp only
  split
  · next hl =>
    refine h.setTxQueue _ _ (.inl ?_) (.inr (.inl hs))
    have hw : (s.span sp).txQueue.length < 32 := of_decide_eq_true (Bool.and_eq_true_iff.mp hl).1
    simp; omega
  · exact h
theorem clearPending (h : Moves a s) (sp : Span) : Moves a (s.clearPending sp) :=
  Moves.each _ _ h fun _ _ ht => ht.modBridge _ _
theorem emptyTransmit (h : Moves a s) (sp : Span) : Moves a (s.emptyTransmit sp) :=
  (h.setTxQueue sp [] (.inl (Nat.zero_le _)) (.inl rfl)).clearPending sp

/-! ### Matching, roll, release and unwinding -/

theorem feedTo (h : Moves a s) (c : CircuitNo) (d : Direction) (on : Bool) :
    Moves a (s.modCircuit c fun k => k.feedTo d on) :=
  h.modCircuit _ _ (fun _ => .inr (by cases d <;> exact Nat.le_refl _)) fun _ => by cases d <;> rfl
theorem feedFrom (h : Moves a s) (c : CircuitNo) (d : Direction) (on : Bool) :
    Moves a (s.modCircuit c fun k => k.feedFrom d on) :=
  h.modCircuit _ _ (fun _ => .inr (by cases d <;> exact Nat.le_refl _)) fun _ => by cases d <;> rfl
theorem stopToFeed (h : Moves a s) (e : Bridge) : Moves a (s.stopToFeed e) := h.feedTo _ _ _
theorem stopFromFeed (h : Moves a s) (e : Bridge) : Moves a (s.stopFromFeed e) := h.feedFrom _ _ _
theorem roll (h : Moves a s) (i : BridgeNo) (d : Int) (f : Bool) : Moves a (s.roll i d f) :=
  h.withBridge fun _ _ => (h.seamSwitch _ _ _).setBridge _ _
theorem enterReleasing (h : Moves a s) (i : BridgeNo) : Moves a (s.enterReleasing i) :=
  h.withBridge fun e he => by
    have ht : ∀ x : Bridge, (hx : x.places = e.places := by rfl) →
        (hm : e.matcherInRange → x.matcherInRange := by exact id) → Moves a ((s.setBridge i (some x)).handMessage i) :=
      fun x hx hm => (h.setBridge i x he hx hm).handMessage i
    dsimp only
    (repeat' split) <;> first | exact ht _ | exact (ht _).freeEntry _ | exact (ht _).beginGuard _
theorem releaseDecision (h : Moves a s) (i : BridgeNo) : Moves a (s.releaseDecision i) :=
  h.withBridge fun _ _ => by
    split
    · exact h.enterReleasing _
    · exact h
theorem enterRolled (h : Moves a s) (i : BridgeNo) : Moves a (s.enterRolled i) :=
  h.withBridge fun _ _ => by
    split
    · exact (h.setBridge _ _).handMessage _
    · exact (h.setBridge _ _).releaseDecision _
theorem forcedRoll (h : Moves a s) (i : BridgeNo) : Moves a (s.forcedRoll i) := h.roll _ _ _
theorem fromLineLost (h : Moves a s) (i : BridgeNo) : Moves a (s.fromLineLost i) :=
  h.withBridge fun e he => by
    have ht : ∀ x : Bridge, (hx : x.places = e.places := by rfl) →
        (hm : e.matcherInRange → x.matcherInRange := by exact id) → Moves a ((s.stopFromFeed e).setBridge i (some x)) :=
      fun x hx hm => (h.stopFromFeed e).setBridge i x he hx hm
    dsimp only
    (repeat' split) <;> first
      | exact ht _ | exact (ht _).forcedRoll _ | exact ((ht _).forcedRoll _).enterRolled _
      | exact ((ht _).modBridge _ _).releaseDecision _ | exact (ht _).freeEntry _
theorem fresh_inRange (n : Nat) : (Matcher.fresh n).InRange where
  toHistory := Nat.zero_le _
  fromHistory := Nat.zero_le _
  runs x hx := by simp [Matcher.fresh] at hx; omega
theorem restart_inRange (m : Matcher) : m.restart.InRange where
  toHistory := Nat.zero_le _
  fromHistory := Nat.zero_le _
  runs x hx := by simp [Matcher.restart] at hx; omega
theorem enterMatching (h : Moves a s) (i : BridgeNo) : Moves a (s.enterMatching i) :=
  h.withBridge fun e he => by
    have ht : ∀ x : Bridge, (hx : x.places = e.places := by rfl) →
        (hm : e.matcherInRange → x.matcherInRange := by exact id) → Moves a (s.setBridge i (some x)) :=
      fun x hx hm => h.setBridge i x he hx hm
    dsimp only
    have hf := fun (x : Bridge) hx (he' : x.matcher = some (Matcher.fresh (s.circuit e.circuit).hold)) =>
      ht x hx fun _ m hm => by rw [he'] at hm; cases hm; exact fresh_inRange _
    (repeat' split) <;> first
      | exact h.enterRolled _ | exact (hf _ (by rfl) (by rfl)).fromLineLost _ | exact (hf _ (by rfl) (by rfl)).handMessage _
theorem seamBack (h : Moves a s) (i : BridgeNo) : Moves a (s.seamBack i) :=
  h.withBridge fun _ _ => by
    dsimp only
    split
    · exact (h.seamSwitch _ _ _).setBridge _ _
    · exact h
theorem refeedFrom (h : Moves a s) (i : BridgeNo) : Moves a (s.refeedFrom i) :=
  h.withBridge fun _ _ =>
    (h.feedFrom _ _ _).setBridge _ _
theorem goBack (h : Moves a s) (i : BridgeNo) : Moves a (s.goBack i) := (h.seamBack i).refeedFrom i
theorem enterUnwinding (h : Moves a s) (i : BridgeNo) (o : ResultCode) (r : Option Reason) (d l : Bool) :
    Moves a (s.enterUnwinding i o r d l) :=
  h.withBridge fun e _ => by
    dsimp only
    split
    · exact ((h.goBack i).stopToFeed e).modBridge _ _
    · exact (h.goBack i).modBridge _ _
theorem sendAbandon (h : Moves a s) (i : BridgeNo) : Moves a (s.sendAbandon i) :=
  h.withBridge fun _ _ => by
    (repeat' split) <;> first | exact h.handMessage _ | exact h.freeEntry _ | exact h.beginGuard _
theorem unwind (h : Moves a s) (i : BridgeNo) (o : ResultCode) (r : Option Reason) (d l : Bool) :
    Moves a (s.unwind i o r d l) :=
  h.withBridge fun _ _ => by
    split
    · exact h
    · exact (h.enterUnwinding _ _ _ _ _).sendAbandon _
theorem toPathLost (h : Moves a s) (i : BridgeNo) : Moves a (s.toPathLost i) :=
  h.withBridge fun e _ => by
    split <;> first
      | exact h.freeAs _ _ | exact h.unwind _ _ _ _ _ | exact (h.stopToFeed e).beginGuard _
      | exact (h.stopToFeed e).freeEntry _
theorem completeForward (h : Moves a s) (i : BridgeNo) : Moves a (s.completeForward i) :=
  h.withBridge fun e _ => by
    have ht : Moves a (if e.rolled then s else s.roll i 0 true) := by
      split
      · exact h
      · exact h.roll _ _ _
    refine Moves.freeEntry (Moves.modBridge (ht.modCircuit _ _ (fun _ => .inr ?_) fun _ => ?_) _ _) _ <;>
      cases e.direction <;> first | exact Nat.le_refl _ | rfl
theorem fromSpanLost (h : Moves a s) (i : BridgeNo) : Moves a (s.fromSpanLost i) :=
  h.withBridge fun e he => by
    have ht : ∀ x : Bridge, (hx : x.places = e.places := by rfl) →
        (hm : e.matcherInRange → x.matcherInRange := by exact id) → Moves a ((s.stopFromFeed e).setBridge i (some x)) :=
      fun x hx hm => (h.stopFromFeed e).setBridge i x he hx hm
    dsimp only
    (repeat' split) <;> first
      | exact h.completeForward _ | exact (h.stopFromFeed e).freeEntry _ | exact (ht _).beginGuard _
      | exact (ht _).freeEntry _
theorem spanLossEntry (h : Moves a s) (sp : Span) (i : BridgeNo) : Moves a (s.spanLossEntry sp i) :=
  h.withBridge fun _ _ => by
    (repeat' split) <;> first | exact h | exact h.toPathLost _ | exact h.fromSpanLost _
theorem lineLossEntry (h : Moves a s) (k : Fin 8) (i : BridgeNo) : Moves a (s.lineLossEntry k i) :=
  h.withBridge fun _ _ => by
    (repeat' split) <;> first | exact h | exact h.toPathLost _ | exact h.fromLineLost _
theorem resolveSpanLoss (h : Moves a s) (sp : Span) : Moves a (s.resolveSpanLoss sp) :=
  Moves.each _ _ h fun _ _ ht => ht.spanLossEntry _ _
theorem resolveLineLoss (h : Moves a s) (k : Fin 8) : Moves a (s.resolveLineLoss k) :=
  Moves.each _ _ h fun _ _ ht => ht.lineLossEntry _ _
theorem peerAbandon (h : Moves a s) (i : BridgeNo) (r : Reason) : Moves a (s.peerAbandon i r) :=
  h.withBridge fun e he => by
    have ht : ∀ x : Bridge, (hx : x.places = e.places := by rfl) →
        (hm : e.matcherInRange → x.matcherInRange := by exact id) → Moves a (s.setBridge i (some x)) :=
      fun x hx hm => h.setBridge i x he hx hm
    dsimp only
    split <;> first
      | exact h | exact (((ht _).goBack _).stopToFeed e).freeAs _ _ | exact ((ht _).stopToFeed e).freeEntry _
      | exact (ht _).stopToFeed e
theorem restartMatchers (h : Moves a s) (p : Bridge → Bool) : Moves a (s.restartMatchers p) :=
  Moves.each _ _ h fun _ _ ht => ht.modBridge _ _ (fun e => by split <;> rfl) fun e he => by
    split
    · intro m hm
      obtain ⟨x, _, rfl⟩ := Option.map_eq_some_iff.mp hm
      exact restart_inRange x
    · exact he
theorem quickOnIdle (h : Moves a s) (c : CircuitNo) : Moves a (s.quickOnIdle c) := by
  unfold State.quickOnIdle; split
  · exact h
  · exact h.modBridge _ _

/-! ### Roll groups -/

theorem settleGroup (h : Moves a s) (g : Fin 4) (x : Group) : Moves a (s.settleGroup g x) :=
  (h.settleOrder _ _ _ _).setGroup _ _ fun _ _ hy => nomatch hy
theorem eachMember (h : Moves a s) (x : Group) (f : BridgeNo → State → State)
    (hf : ∀ i t, Moves a t → Moves a (f i t)) : Moves a (s.eachMember x f) :=
  Moves.each _ _ h fun m t ht => by
    split
    · exact ht
    · exact hf _ _ ht
theorem unwindGroup (h : Moves a s) (g : Fin 4) (x : Group) (hx : s.group g = some x) : Moves a (s.unwindGroup g x) :=
  (h.setGroupOf _ _ hx).eachMember _ _ fun _ _ ht => ht.unwind _ _ _ _ _
/-- The members that are marked are as many as the count falls by. -/
theorem marked_countsRest (x : Group) (p : GroupMember → Bool) (h : x.countsRest) :
    Group.countsRest { x with
      members := x.members.map fun m => if !m.counted && p m then { m with counted := true } else m
      count := x.count - (x.members.filter fun m => !m.counted && p m).length } := by
  unfold Group.countsRest at *
  dsimp only
  rw [h]
  generalize x.members = l
  induction l with
  | nil => rfl
  | cons m l ih =>
    have hl := (List.filter_sublist (p := p) (l := l.filter fun m => !m.counted)).length_le
    rw [List.filter_filter] at hl
    have he : (l.filter fun m => p m && !m.counted).length = (l.filter fun m => !m.counted && p m).length := by
      simp [Bool.and_comm]
    cases hc : m.counted <;> cases hp : p m <;> simp_all <;> omega
theorem countMembers (h : Moves a s) (g : Fin 4) (x : Group) (hx : s.group g = some x) : Moves a (s.countMembers g x) :=
  Moves.each _ _ (h.setGroupOf _ _ hx (marked_countsRest x s.memberCounts)) fun m t ht => by
    split
    · exact ht
    · exact ht.modBridge _ _
theorem openGate (h : Moves a s) (g : Fin 4) (x : Group) (hx : s.group g = some x) : Moves a (s.openGate g x) :=
  (h.setGroupOf _ _ hx).eachMember _ _ fun _ _ ht => ht.releaseDecision _
theorem runGroup (h : Moves a s) (g : Fin 4) : Moves a (s.runGroup g) := by
  unfold State.runGroup
  split
  · exact h
  · next x hx =>
    have hc := h.countMembers g x hx
    dsimp only
    (repeat' split) <;> first | exact h | exact h.unwindGroup _ _ hx | exact hc | exact hc.openGate _ _ (by assumption)
theorem endGroup (h : Moves a s) (g : Fin 4) : Moves a (s.endGroup g) := by
  unfold State.endGroup
  (repeat' split) <;> first | exact h | exact h.settleGroup _ _
theorem advanceGroups (h : Moves a s) (b : State) : Moves a (State.advanceGroups b s) := by
  unfold State.advanceGroups
  split
  · exact h
  · exact Moves.each _ _ h fun _ _ ht => (ht.runGroup _).endGroup _

end Moves

end Sys2Proof.Machine
end

