-- ==== Sys2Proof/Laws/Starts.lean ====
section
/-! SUPPORT. What the start checks promise of a move (R43), and that a start takes nothing from the moves that start
after it in the same group (R104, R107). -/

namespace Sys2Proof.Machine

open Sys2Proof

set_option Elab.async false

namespace State

variable {s : State}

/-- A move whose start checks pass (R43), as far as the positions are concerned. -/
def Admissible (s : State) (m : MoveOrder) : Prop :=
  ∀ b p, s.moveBearer m = some b → s.moveLine m = some p →
    (m.direction = .toFibre → (s.circuit m.circuit).pathState = .copper ∧ (s.slotEntry b).use = .free) ∧
    (m.direction = .toCopper → ((s.circuit m.circuit).pathState = .fibre ∨ (s.circuit m.circuit).pathState = .stranded) ∧
      s.targetOpen m.circuit p = true)

theorem admissible_of_startCheck {m : MoveOrder} (h : s.startCheck m = none) : s.Admissible m := by
  intro b p hb hp
  unfold startCheck moveState at h
  rw [hb, hp] at h
  cases hd : m.direction <;> simp only [hd] at h ⊢ <;> (repeat' split at h) <;> simp_all
  grind

/-- The entry that an admissible move fills can start. -/
theorem Admissible.startable {m : MoveOrder} {i : BridgeNo} {e : Bridge} {b : BearerSlot} {p : LinePos}
    (h : s.Admissible m) (hf : s.bridge i = none) (hb : s.moveBearer m = some b) (hp : s.moveLine m = some p)
    (hc : e.circuit = m.circuit) (hd : e.direction = m.direction) (heb : e.bearer = b) (hep : e.linePos = p)
    (ho : e.ontoVacated = s.ontoVacated m p) : s.Startable i e := by
  have h' := h b p hb hp
  constructor
  · exact hf
  · intro hx
    rw [hd] at hx
    have := h'.1 hx
    simp_all [moveLine, ontoVacated]
  · intro hx
    rw [hd] at hx
    have := h'.2 hx
    simp only [moveBearer, hx] at hb
    simp_all [targetOpen, ontoVacated]

/-- A message handed in OFFERING moves no position. -/
theorem samePlaces_handMessage {t : State} {i : BridgeNo} {e : Bridge} (he : t.bridge i = some e)
    (hp : e.phase = .offering) :
    t.SamePlaces (t.handMessage i) ∧ ∃ x, (t.handMessage i).bridge i = some x ∧ x.phase = .offering ∧ x.rolled = e.rolled := by
  unfold handMessage
  rw [withBridge_some _ he]
  have hq : ∀ q, ((t.setTxQueue e.bearer.span q).afterPlaced i) = t.setTxQueue e.bearer.span q := fun q => by
    unfold afterPlaced
    rw [withBridge_some _ (show (t.setTxQueue e.bearer.span q).bridge i = some e from he)]
    simp [hp]
  dsimp only
  split
  · exact ⟨.refl _, e, he, hp, rfl⟩
  split
  · exact ⟨.refl _, e, he, hp, rfl⟩
  split
  · rw [hq]
    exact ⟨{}, e, he, hp, rfl⟩
  · refine ⟨{ bridges := fun j => ?_ }, { e with pending := true }, by simp, hp, rfl⟩
    rw [bridge_setBridge]; split
    · subst_vars; rw [he]; rfl
    · rfl

/-- A loss applied in OFFERING moves no position. -/
theorem samePlaces_lossAtStart {t : State} {i : BridgeNo} {e : Bridge} (he : t.bridge i = some e)
    (hp : e.phase = .offering) : t.SamePlaces (t.lossAtStart i) := by
  unfold lossAtStart
  rw [withBridge_some _ he]
  split
  · unfold fromLineLost
    rw [withBridge_some _ he]
    have h1 : t.SamePlaces ((t.stopFromFeed e).setBridge i (some { e with fromLost := true })) := {
      circuits := fun c => by
        rw [circuit_setBridge, stopFromFeed, modCircuit_eq, circuit_setCircuit]; split
        · subst_vars; cases e.direction <;> rfl
        · rfl
      bridges := fun j => by
        rw [bridge_setBridge]; split
        · subst_vars; rw [he]; rfl
        · rfl }
    have hu : ((t.stopFromFeed e).setBridge i (some { e with fromLost := true })).bridge i = some { e with fromLost := true } :=
      bridge_setBridge_same _ _ _
    generalize (t.stopFromFeed e).setBridge i (some { e with fromLost := true }) = u at h1 hu
    dsimp only
    rw [hp]
    dsimp only
    split
    · exact h1
    · refine h1.trans ?_
      unfold forcedRoll roll
      rw [withBridge_some _ hu]
      exact {
        circuits := fun c => by
          rw [circuit_setBridge, seamSwitch, modAlign_eq, circuit_setAlign, modCircuit_eq, circuit_setCircuit]; split
          · subst_vars; rfl
          · rfl
        bridges := fun j => by
          rw [bridge_setBridge]; split
          · subst_vars; rw [hu]; rfl
          · rfl }
  · exact .refl _

/-- A MIGRATE that starts moves the positions that its bridge start moves. -/
theorem samePlaces_startMigrate {m : MoveOrder} {b : BearerSlot} {p : LinePos} (hb : s.moveBearer m = some b)
    (hp : s.moveLine m = some p) (i : BridgeNo) (ref : Option OrderRef) (g : Option (Fin 4 × Nat)) :
    (s.bridgeStart i (s.migrateEntry m b p ref g)).SamePlaces (s.startMigrate i m ref g) := by
  unfold startMigrate
  rw [hb, hp]
  have h0 : ∀ t : State, t.SamePlaces ((t.modCircuit m.circuit fun k => k.feedTo m.direction true).modSpan b.span fun k =>
      { k with txnCounter := k.txnCounter + 1 }) := fun t => {
    circuits := fun c => by
      rw [modSpan_eq, circuit_setSpan, modCircuit_eq, circuit_setCircuit]; split
      · subst_vars; cases m.direction <;> rfl
      · rfl }
  have he : ∀ t : State, t.bridge i = some (s.migrateEntry m b p ref g) →
      ((t.modCircuit m.circuit fun k => k.feedTo m.direction true).modSpan b.span fun k =>
      { k with txnCounter := k.txnCounter + 1 }).bridge i = some (s.migrateEntry m b p ref g) := fun t h => h
  have h1 := samePlaces_handMessage (he (s.bridgeStart i _) (by rw [bridge_bridgeStart, if_pos rfl])) rfl
  obtain ⟨x, hx, hph, _⟩ := h1.2
  exact (h0 _).trans (h1.1.trans (samePlaces_lossAtStart hx hph))

/-- An admissible move stays admissible when a move that does not clash with it has started. -/
theorem Admissible.after {x m : MoveOrder} (hm : s.Admissible m) (hx : s.Admissible x) (ha : s.PositionsAgree)
    (hc : membersClash x m = false) {i : BridgeNo} {ref : Option OrderRef} {g : Option (Fin 4 × Nat)} :
    (s.startMigrate i x ref g).Admissible m := by
  cases hb : s.moveBearer x with
  | none => unfold startMigrate; rw [hb]; exact hm
  | some b =>
  cases hp : s.moveLine x with
  | none => unfold startMigrate; rw [hb, hp]; exact hm
  | some p =>
  have hs := samePlaces_startMigrate hb hp i ref g
  generalize s.startMigrate i x ref g = t at hs
  have hcx : x.circuit ≠ m.circuit := by simp [membersClash] at hc; exact hc.1.1
  have h1 : ((s.bridgeStart i (s.migrateEntry x b p ref g)).circuit m.circuit) = s.circuit m.circuit := by
    unfold bridgeStart
    cases hd : x.direction <;> simp [migrateEntry, newBridge, freshPath, useSlot, circuit_setCircuit, hcx, hd]
  have h2 : ∀ q, (s.bridgeStart i (s.migrateEntry x b p ref g)).lineUse q =
      if x.direction = .toCopper ∧ p = q then .occupied x.circuit else s.lineUse q := fun q => by
    unfold bridgeStart
    cases hd : x.direction <;> simp [migrateEntry, newBridge, freshPath, useSlot, lineUse_setLineUse, hd]
  have h3 : ∀ q, ((s.bridgeStart i (s.migrateEntry x b p ref g)).slotEntry q).use =
      if x.direction = .toFibre ∧ b = q then .bridged x.circuit else (s.slotEntry q).use := fun q => by
    unfold bridgeStart
    cases hd : x.direction <;> simp [migrateEntry, newBridge, freshPath, useSlot, slotEntry_setSlotEntry, hd]
    split <;> simp
  have hk := hs.circuit m.circuit
  rw [h1] at hk
  intro b' p' hb' hp'
  have hb1 : s.moveBearer m = some b' := by rw [← hb']; unfold moveBearer; simp only [hk.2.2.2.1]
  have hp1 : s.moveLine m = some p' := by rw [← hp']; unfold moveLine; simp only [hk.2.1, hk.2.2.1]
  have hm' := hm b' p' hb1 hp1
  have hx' := hx b p hb hp
  refine ⟨fun hd => ⟨hk.1.trans (hm'.1 hd).1, ?_⟩, fun hd => ⟨hk.1 ▸ (hm'.2 hd).1, ?_⟩⟩
  · rw [hs.slots, h3, if_neg]
    · exact (hm'.1 hd).2
    · rintro ⟨hxd, rfl⟩
      simp only [moveBearer, hxd, hd] at hb hb1
      simp only [membersClash, hxd, hd] at hc
      simp_all
      grind
  · have hl := (hm'.2 hd).2
    unfold targetOpen at hl ⊢
    rw [hs.lines, h2, if_neg]
    · exact hl
    · rintro ⟨hxd, rfl⟩
      have hxl := (hx'.2 hxd).2
      have v1 := ha.vacated x.circuit p
      have v2 := ha.vacated m.circuit p
      simp only [moveLine, hxd, hd] at hp hp1
      simp only [membersClash, hxd, hd] at hc
      unfold targetOpen at hxl
      clear hs h1 h2 h3 hk hm hx ha hm' hx' hb' hp' hb hb1
      cases ht : x.target <;> cases ht' : m.target <;> simp_all

/-- A bridge entry that is free stays free while another starts. -/
theorem free_startMigrate {m : MoveOrder} {i j : BridgeNo} {ref : Option OrderRef} {g : Option (Fin 4 × Nat)} (hj : i ≠ j)
    (hf : s.bridge j = none) : (s.startMigrate i m ref g).bridge j = none := by
  cases hb : s.moveBearer m with
  | none => unfold startMigrate; rw [hb]; exact hf
  | some b =>
  cases hp : s.moveLine m with
  | none => unfold startMigrate; rw [hb, hp]; exact hf
  | some p =>
  have hs := (samePlaces_startMigrate hb hp i ref g).bridges j
  rw [bridge_bridgeStart, if_neg hj, hf] at hs
  simpa using hs

/-- The free entries are free, and each is named once. -/
theorem free_of_freeBridges {i : BridgeNo} (h : i ∈ s.freeBridges) : s.bridge i = none := by
  simpa [freeBridges] using h
theorem freeBridges_nodup : s.freeBridges.Nodup := (List.nodup_finRange 48).filter _

end State

end Sys2Proof.Machine
end

