-- ==== Sys2Proof/Laws/Reach.lean ====
section
/-! SUPPORT. What every shared operation does, in the words of `Moves`: whatever it answers is reached by writes within
their ranges. -/

namespace Sys2Proof.Machine

open Sys2Proof

set_option Elab.async false

namespace Moves

variable {a s : State}

/-! ### The memory port and the Notice Engine -/

theorem closeSettle (h : Moves a s) (x : Settle) : Moves a (s.closeSettle x) :=
  by
  unfold State.closeSettle
  exact (h.setSettles _).modRunner _ _
theorem resultDone (h : Moves a s) (id : Nat) : Moves a (s.resultDone id) := by
  unfold State.resultDone
  split
  · exact h
  · dsimp only; split
    · exact (h.setSettles _).makeClaim _
    · exact h.setSettles _
theorem queueSettled (h : Moves a s) (x : Settle) : Moves a (s.queueSettled x) := by
  unfold State.queueSettled
  dsimp only; split
  · exact (h.queueWrite _).closeSettle _
  · exact ((h.queueWrite _).closeSettle _).handNotice _
theorem writeDone (h : Moves a s) (w : PostedWrite) : Moves a (s.writeDone w) := by
  unfold State.writeDone
  split <;> first | exact h | exact h.resultDone _ | exact h.raise _
theorem writeFailed (h : Moves a s) (w : PostedWrite) (c : MemoryCause) : Moves a (s.writeFailed w c) := by
  unfold State.writeFailed
  have ht := fun b => (h.handNotice b).raise .memoryFault
  dsimp only
  (repeat' split) <;> first | exact h.raise _ | exact ht _ | exact (ht _).closeSettle _
theorem dropHead (h : Moves a s) : Moves a s.dropHead := h.setSmp _ { room := .inr (by simp) }
theorem sendHead (h : Moves a s) : Moves a s.sendHead := by
  unfold State.sendHead; split
  · exact h.setSmp _ {}
  · exact h
theorem setFtu' (h : Moves a s) (x : Ftu) (hc : x.counts = s.ftu.counts) : Moves a (s.setFtu x) :=
  h.setFtu _ fun i => .inr (Nat.le_of_eq (by rw [hc]))
theorem noticeReadSpan_le (b : Bases) (n : Nat) : (State.noticeReadSpan b n).2.1 ≤ 8 := by
  unfold State.noticeReadSpan
  dsimp only
  (repeat' split) <;> dsimp only <;> omega
theorem readNotices (h : Moves a s) : Moves a s.readNotices := by
  unfold State.readNotices; split
  · exact h
  · next b _ =>
    have hn := noticeReadSpan_le b s.nte.position
    generalize State.noticeReadSpan b s.nte.position = x at hn
    obtain ⟨f, n, skip⟩ := x
    exact requestRead (h.setNte _ {}) _ _ _ fun _ => by dsimp only at hn; omega
theorem pollNotices (h : Moves a s) : Moves a s.pollNotices := by
  unfold State.pollNotices; split
  · exact h.readNotices
  · exact h
theorem freeRun_le (o : ByteOrder) (n : Nat) (data : List Byte) : State.freeRun o n data ≤ n := by
  induction n generalizing data with
  | zero => exact Nat.le_refl _
  | succ n ih =>
    unfold State.freeRun; split
    · have := ih (data.drop 32); omega
    · exact Nat.zero_le _
theorem noticeReadDone (h : Moves a s) (data : List Byte) (hd : a.smp.readsFit → data.length ≤ 256) :
    Moves a (s.noticeReadDone data) := by
  unfold State.noticeReadDone
  dsimp only
  obtain ⟨l, hl, hs⟩ : ∃ l, l.length ≤ data.length ∧
      (if s.nte.reading == some true then data.drop 32 else data) = l := ⟨_, by split <;> simp, rfl⟩
  rw [hs]
  have hc : a.smp.readsFit → State.freeRun s.cfg.byteOrder (l.length / 32) l ≤ 8 := fun ha =>
    Nat.le_trans (freeRun_le _ _ _) (by have := hd ha; omega)
  have ht := h.setNte { s.nte with credits := State.freeRun s.cfg.byteOrder (l.length / 32) l, reading := none } {}
    fun ha => .inl (hc ha)
  (repeat' split) <;> first | exact ht.setNte _ {} | exact (ht.setNte _ {}).readNotices
theorem noticeReadFailed (h : Moves a s) : Moves a s.noticeReadFailed := h.setNte _ {}
theorem postNotice (h : Moves a s) : Moves a s.postNotice := by
  unfold State.postNotice State.nextNotice
  split
  · next b n x hb hn =>
    have hp : ∀ y : Nte, y.bases = s.nte.bases → y.position = (s.nte.position + 1) % b.entries →
        (∀ b, s.nte.bases = some b → s.nte.position < b.entries) → ∀ b, y.bases = some b → y.position < b.entries :=
      fun y h1 h2 h3 b' h4 => by
        rw [h1, hb] at h4
        cases h4
        rw [h2]
        exact Nat.mod_lt _ (Nat.lt_of_le_of_lt (Nat.zero_le _) (h3 b hb))
    refine Moves.queueWrite (h.setNte _ ?_ fun _ => .inr ?_) _
    · split at hn
      · cases hn; exact { lost := .inl (Nat.zero_le _), position := hp _ rfl rfl }
      · split at hn
        · cases hn
        · next hq => cases hn; exact { room := .inr (by simp [hq]), position := hp _ rfl rfl }
    · split at hn
      · cases hn; exact Nat.sub_le _ _
      · split at hn
        · cases hn
        · cases hn; exact Nat.sub_le _ _
  · exact h
theorem writeRow (h : Moves a s) : Moves a s.writeRow := by
  unfold State.writeRow
  split
  · exact Moves.queueWrite (h.setNte _ {}) _
  · exact h
theorem markRows (h : Moves a s) (b : State) : Moves a (State.markRows b s) := h.setNte _ {}
theorem markAllRows (h : Moves a s) : Moves a s.markAllRows := h.setNte _ {}

/-! ### The Frame Timing Unit -/

theorem changeTiming (h : Moves a s) (m : FtuMode) (c : TimingCause) : Moves a (s.changeTiming m c) := by
  unfold State.changeTiming
  dsimp only; split
  · exact h
  · refine Moves.handNotice (setFtu' h _ ?_) _
    rfl
theorem lockOrHold (h : Moves a s) (c : TimingCause) : Moves a (s.lockOrHold c) := by
  unfold State.lockOrHold; split <;> exact h.changeTiming _ _
theorem sourceUnhealthy (h : Moves a s) (x : Source) : Moves a (s.sourceUnhealthy x) := by
  unfold State.sourceUnhealthy
  have ht := h.setFtu { s.ftu with counts := s.ftu.counts.set (Source.index x).val 0 (Source.index x).isLt } fun i => by
    simp only [Vector.getElem_set]; split
    · exact .inl (Nat.zero_le _)
    · exact .inr (Nat.le_refl _)
  dsimp only; split
  · exact ht.lockOrHold _
  · exact ht
theorem evaluateTiming (h : Moves a s) (c : TimingCause) : Moves a (s.evaluateTiming c) := by
  unfold State.evaluateTiming
  (repeat' split) <;> first | exact h | exact h.changeTiming _ _ | exact h.lockOrHold _
theorem timingOrder (h : Moves a s) (l : List Source) (r : Bool) : Moves a (s.timingOrder l r) := by
  refine evaluateTiming (setFtu' h _ ?_) _
  rfl
theorem candidateQualified (h : Moves a s) (x : Source) : Moves a (s.candidateQualified x) := by
  unfold State.candidateQualified
  (repeat' split) <;> first | exact h | exact h.changeTiming _ _
theorem countQualification (h : Moves a s) : Moves a s.countQualification := by
  unfold State.countQualification
  refine h.setFtu _ fun i => ?_
  have hl : Config.qualifyFrames = 8000 := rfl
  simp only [tab_getElem]
  split
  · next hq =>
    have hn := of_decide_eq_true (Bool.and_eq_true_iff.mp hq).2
    exact .inl (by omega)
  · exact .inr (Nat.le_refl _)

/-! ### Admission -/

theorem settleMove (h : Moves a s) (ref : OrderRef) (code : ResultCode) (v : MoveValues) (m : List (Byte × Byte)) :
    Moves a (s.settleMove ref code v m) := h.settleOrder _ _ _ _
theorem settleLone (h : Moves a s) (ref : OrderRef) (l : List MoveOrder) (k : Nat) (code : ResultCode) :
    Moves a (s.settleLone ref l k code) := h.settleMove _ _ _ _
theorem lossAtStart (h : Moves a s) (i : BridgeNo) : Moves a (s.lossAtStart i) :=
  h.withBridge fun _ _ => by
    split
    · exact h.fromLineLost _
    · exact h
theorem startExpect (h : Moves a s) (i : BridgeNo) (m : MoveOrder) (w : Nat) (ref : OrderRef)
    (hf : s.bridge i = none) (hs : a.PositionsAgree → s.Admissible m) : Moves a (s.startExpect i m w ref) := by
  unfold State.startExpect; split
  · next hb hp =>
    exact (h.bridgeStart _ _ fun ha => (hs ha).startable hf hb hp rfl rfl rfl rfl rfl).lossAtStart _
  · exact h
theorem startMigrate (h : Moves a s) (i : BridgeNo) (m : MoveOrder) (ref : Option OrderRef)
    (g : Option (Fin 4 × Nat)) (hf : s.bridge i = none) (hs : a.PositionsAgree → s.Admissible m) :
    Moves a (s.startMigrate i m ref g) := by
  unfold State.startMigrate; split
  · next hb hp =>
    exact Moves.lossAtStart (Moves.handMessage (Moves.modSpan (Moves.feedTo (h.bridgeStart _ _ fun ha =>
      (hs ha).startable hf hb hp rfl rfl rfl rfl rfl) _ _ _) _ _ fun _ => {}) _) _
  · exact h
/-- The members of a group start one after another in entries that are free and different. -/
theorem startMembers (f : (MoveOrder × BridgeNo) × Nat → Option (Fin 4 × Nat)) (l : List MoveOrder) :
    ∀ (bs : List BridgeNo) (n : Nat) {t : State}, Moves a t → bs.Nodup → (∀ i ∈ bs, t.bridge i = none) →
      (a.PositionsAgree → membersApart l = true ∧ ∀ m ∈ l, t.Admissible m) →
      Moves a (Machine.each ((l.zip bs).zipIdx n) (fun x u => u.startMigrate x.1.2 x.1.1 none (f x)) t) := by
  induction l with
  | nil => intro bs n t h _ _ _; exact h
  | cons m l ih =>
    intro bs n t h hn hf hs
    cases bs with
    | nil => exact h
    | cons i bs =>
      rw [List.nodup_cons] at hn
      show Moves a (Machine.each ((l.zip bs).zipIdx (n + 1)) _ (t.startMigrate i m none (f ((m, i), n))))
      refine ih bs (n + 1) (h.startMigrate i m none _ (hf i List.mem_cons_self) fun ha =>
        (hs ha).2 m List.mem_cons_self) hn.2 (fun j hj => ?_) fun ha => ?_
      · exact State.free_startMigrate (fun e => hn.1 (e ▸ hj)) (hf j (List.mem_cons_of_mem _ hj))
      · have hm := hs ha
        simp only [membersApart, Bool.and_eq_true, List.all_eq_true] at hm
        exact ⟨hm.1.2, fun x hx => State.Admissible.after (hm.2 x (List.mem_cons_of_mem _ hx)) (hm.2 m List.mem_cons_self)
          (h.agree ha) (by simpa using hm.1.1 x hx)⟩
/-- Every member of a new group has an item, and none is counted. -/
theorem granted_countsRest (l : List MoveOrder) (bs : List BridgeNo) (hl : l.length ≤ bs.length) (ref : OrderRef) :
    Group.countsRest
      { ref := ref, count := l.length, gate := .closed, state := .running, cause := none
        members := (l.zip bs).zipIdx.map fun x => ⟨x.1.1.circuit, some x.1.2, false, none⟩ } := by
  unfold Group.countsRest
  rw [List.filter_map, List.length_map]
  rw [List.filter_eq_self.mpr (by simp)]
  simp; omega
theorem startGroup (h : Moves a s) (g : Fin 4) (l : List MoveOrder) (ref : OrderRef)
    (hl : l.length ≤ s.freeBridges.length)
    (hs : a.PositionsAgree → membersApart l = true ∧ ∀ m ∈ l, s.Admissible m) : Moves a (s.startGroup g l ref) :=
  startMembers (fun x => some (g, x.2)) l _ 0
    (h.setGroup _ _ fun _ y hy => by cases hy; exact granted_countsRest l s.freeBridges hl ref) State.freeBridges_nodup
    (fun _ hi => State.free_of_freeBridges hi) hs
theorem startHead (h : Moves a s) (q : QueueEntry) (hq : a.PositionsAgree → q.apart)
    (hl : q.needs ≤ s.freeBridges.length) : Moves a (s.startHead q) := by
  have hf : ∀ {i : BridgeNo} {l : List BridgeNo}, s.freeBridges = i :: l → s.bridge i = none := fun e =>
    State.free_of_freeBridges (by rw [e]; exact List.mem_cons_self)
  unfold State.startHead
  split
  · split
    · exact h.settleMove _ _ _ _
    · next hc hb => exact h.startMigrate _ _ _ _ (hf hb) fun _ => State.admissible_of_startCheck hc
    · exact h
  · split
    · exact h.settleMove _ _ _ _
    · next hc hb => exact h.startExpect _ _ _ _ (hf hb) fun _ => State.admissible_of_startCheck hc
    · exact h
  · next members hm =>
    split
    · exact h.settleLone _ _ _ _
    · next hc =>
      split
      · refine h.startGroup _ _ _ (by simpa [QueueEntry.needs, QueueEntry.circuits, hm] using hl) fun ha => ⟨hq ha members hm, fun m hx => State.admissible_of_startCheck ?_⟩
        have := List.findIdx?_eq_none_iff.mp hc m hx
        simpa using this
      · exact h
theorem startHeads (h : Moves a s) (n : Nat) : Moves a (s.startHeads n) := by
  induction n generalizing s with
  | zero => exact h
  | succ n ih =>
    unfold State.startHeads
    split
    · exact h
    · next q rest hr =>
      split
      · next hf =>
        exact ih ((h.setQueue rest (fun x hx => .inl (by rw [hr]; exact List.mem_cons_of_mem _ hx))
          (.inr (by simp [hr]))).startHead q (fun ha => (h.agree ha).queue q (by rw [hr]; exact List.mem_cons_self))
          (of_decide_eq_true (Bool.and_eq_true_iff.mp hf).1))
      · exact h
theorem examineHead (h : Moves a s) (b : State) : Moves a (State.examineHead b s) := by
  unfold State.examineHead; split
  · exact h.startHeads _
  · exact h

/-! ### The end of a step -/

theorem endWarming (h : Moves a s) : Moves a s.endWarming := by
  unfold State.endWarming; split
  · exact h.setPhase _
  · exact h
theorem tellRunners (h : Moves a s) : Moves a s.tellRunners :=
  Moves.each _ _ h fun n t ht => ht.modRunner n _ fun r hr => by split <;> exact hr
theorem finish (h : Moves a s) (b : State) : Moves a (State.finish b s) :=
  ((((((h.advanceGroups b).examineHead b).endWarming).pollNotices).tellRunners).sendHead).markRows b
theorem act {s t : State} {f : State → State} (hf : Moves a (f s)) (ha : Moves a s) (h : act s f = .next t) :
    Moves a t := by
  rcases act_next h with ⟨_, rfl⟩ | ⟨_, rfl⟩
  · exact ha
  · exact hf.finish _

/-! ### The watch list and the orders that act on what is pending -/

theorem unwatch (h : Moves a s) (c : CircuitNo) : Moves a (s.unwatch c) :=
  h.setWatch _ (.inr (List.length_filter_le _ _))
theorem enqueue (h : Moves a s) (q : QueueEntry) (hl : s.queue.length < 16) (hq : q.apart := by intro m hm; cases hm) :
    Moves a (s.enqueue q) :=
  h.setQueue _ (fun x hx => (List.mem_append.mp hx).imp id fun hx => by rw [List.mem_singleton] at hx; exact hx ▸ hq)
    (.inl (by simp; omega))
/-- An entry joins the watch list where there is room. -/
theorem watchOn (h : Moves a s) (w : WatchEntry) (hl : s.watch.length < 16) : Moves a (s.setWatch (s.watch ++ [w])) :=
  h.setWatch _ (.inl (by simp; omega))
theorem room_of_queueRoom (hr : s.queueRoom = true) : s.queue.length < 16 := by
  have : s.queue.length + s.readyCount < 16 := of_decide_eq_true hr
  omega
theorem executeTrim (h : Moves a s) (w : WatchEntry) : Moves a (s.executeTrim w) :=
  ((h.unwatch _).dropHold _).settleMove _ _ _ _
theorem moveToQueue (h : Moves a s) (w : WatchEntry) (hl : s.queue.length < 16) : Moves a (s.moveToQueue w) := by
  unfold State.moveToQueue; split
  · exact (h.unwatch _).enqueue _ hl
  · exact h
theorem watchIdle (h : Moves a s) (c : CircuitNo) : Moves a (s.watchIdle c) := by
  unfold State.watchIdle
  (repeat' split) <;> first
    | exact h | exact h.executeTrim _ | exact h.moveToQueue _ (room_of_queueRoom (by assumption))
    | exact h.setWatch _ (.inr (by simp))
theorem watchBusy (h : Moves a s) (c : CircuitNo) : Moves a (s.watchBusy c) := h.setWatch _ (.inr (by simp))
theorem withdrawQueued (h : Moves a s) (q : QueueEntry) (c : CircuitNo) : Moves a (s.withdrawQueued q c) := by
  unfold State.withdrawQueued
  dsimp only
  have ht := h.setQueue (s.queue.filter fun x => !x.circuits.contains c) (fun x hx => .inl (List.mem_filter.mp hx).1)
    (.inr (List.length_filter_le _ _))
  split <;> exact ht.settleMove _ _ _ _
theorem abandonEntry (h : Moves a s) (i : BridgeNo) (e : Bridge) (f : Force) (he : s.bridge i = some e) : Moves a (s.abandonEntry i e f).1 := by
  unfold State.abandonEntry
  split <;> first
    | exact h | exact h.freeAs _ _ | exact h.unwind _ _ _ _ _
    | (dsimp only; split
       · exact (h.setBridge _ _).freeEntry _
       · exact (h.setBridge _ _).beginGuard _)
theorem abandonPending (h : Moves a s) (c : CircuitNo) (f : Force) : Moves a (s.abandonPending c f).1 := by
  unfold State.abandonPending
  (repeat' split) <;> first
    | exact h | exact h.withdrawQueued _ _ | exact (h.unwatch _).settleMove _ _ _ _ | exact h.abandonEntry _ _ _ (by assumption)
theorem abandonOrder (h : Moves a s) (ref : OrderRef) (c : CircuitNo) (f : Force) : Moves a (s.abandonOrder ref c f) :=
  (h.abandonPending c f).settleMove _ _ _ _
theorem trimOrder (h : Moves a s) (ref : OrderRef) (c : CircuitNo) (l : Nat)
    (hw : s.trimWaits c = true → s.watch.length < 16) : Moves a (s.trimOrder ref c l) := by
  unfold State.trimOrder
  dsimp only
  split
  · exact h.settleMove _ _ _ _
  · split
    · next ht => exact h.watchOn _ (hw ht)
    · exact (h.dropHold _).settleMove _ _ _ _

/-! ### Spans -/

theorem storeWrite_length {α : Type} (l : List α) (x : α) :
    (storeWrite l x).1.length ≤ 2 ∨ (storeWrite l x).1.length ≤ l.length := by
  unfold storeWrite
  split
  · next h => right; simp; omega
  · next h => left; simp; omega
theorem storeRead_length {α : Type} (l : List α) (x : α) : (storeRead l x).1.length ≤ l.length := by
  unfold storeRead; split <;> simp
theorem spanSlip (h : Moves a s) (sp : Span) (k : SlipKind) : Moves a (s.spanSlip sp k) := by
  unfold State.spanSlip
  have ht := (h.modSpan sp (fun k => { k with slips := k.slips + 1 }) fun _ => {}).restartMatchers
    fun e => e.bearer.span == sp
  dsimp only; split
  · exact (ht.modSpan _ _ fun _ => {}).handNotice _
  · exact ht
theorem writeSpanStore (h : Moves a s) (sp : Span) (f : BearerFrame) : Moves a (s.writeSpanStore sp f) := by
  unfold State.writeSpanStore
  have ht := h.setSpan sp { s.span sp with store := (storeWrite (s.span sp).store f).1 }
    { store := storeWrite_length _ _ }
  dsimp only; split
  · exact ht.spanSlip _ _
  · exact ht
theorem emptyTransmit_line (t : State) (sp : Span) :
    ((t.emptyTransmit sp).span sp) = { t.span sp with txQueue := [] } := by
  have hc : ∀ u : State, (u.clearPending sp).span sp = u.span sp := fun u =>
    each_keeps (fun x : State => x.span sp) _ _ (fun i x => by
      unfold State.modBridge; split <;> rfl) u
  unfold State.emptyTransmit
  rw [hc]
  simp [State.setTxQueue]
theorem spanLost (h : Moves a s) (sp : Span) : Moves a (s.spanLost sp) := by
  unfold State.spanLost
  exact ((((h.emptyTransmit sp).modSpan sp _ fun _ => { store := .inl (Nat.zero_le _) }).strandAll sp).resolveSpanLoss
    sp).sourceUnhealthy _
theorem spanEntered (h : Moves a s) (sp : Span) : Moves a (s.spanEntered sp) := by
  unfold State.spanEntered
  exact h.modSpan _ _ fun _ => { store := .inl (by simp) }
/-- A new line state is written and, where IN_SERVICE is left, the transmit queue is emptied: the two writes in one. -/
theorem leaveLine (h : Moves a s) (sp : Span) (x : SpanState) (hx : SpanWrite (s.span sp) { x with txQueue := [] }) :
    Moves a ((s.setSpan sp x).emptyTransmit sp) := by
  have e : (s.setSpan sp x).setTxQueue sp [] = s.setSpan sp { x with txQueue := [] } := by simp [State.setTxQueue]
  unfold State.emptyTransmit
  rw [e]
  exact (h.setSpan sp _ hx).clearPending sp
theorem changeLine (h : Moves a s) (sp : Span) (l : LineState) (c : SpanCause) (o : Option HoldCause) :
    Moves a (s.changeLine sp l c o) := by
  let x : SpanState := { s.span sp with
    line := l, cause := some c, holdCause := o <|> (s.span sp).holdCause, good := 0, errored := 0, train := 0,
    holdDown := if l == .holdDown then 0 else (s.span sp).holdDown }
  have hd : x.holdDown ≤ 512 ∨ x.holdDown ≤ (s.span sp).holdDown := by
    show (if l == .holdDown then 0 else (s.span sp).holdDown) ≤ 512 ∨ _ ≤ _
    split
    · exact .inl (Nat.zero_le _)
    · next hl => exact .inr (by simp [x, hl])
  have hx : ∀ q, q = [] ∨ ((s.span sp).line ≠ .inService ∧ q = (s.span sp).txQueue) →
      SpanWrite (s.span sp) { x with txQueue := q } := fun q hq =>
    { holdDown := hd, good := .inl (Nat.zero_le _), errored := .inl (Nat.zero_le _), train := .inl (Nat.zero_le _)
      store := .inr (Nat.le_refl _)
      room := by
        rcases hq with hq | ⟨_, hq⟩ <;> subst hq
        · exact .inl (Nat.zero_le _)
        · exact .inr (Nat.le_refl _)
      service := by
        rcases hq with hq | ⟨hl, hq⟩
        · exact .inl hq
        · exact .inr (.inr ⟨.inr hl, fun e => hq.trans e⟩) }
  have hz : Moves a (if (s.span sp).line == .inService then (s.setSpan sp x).spanLost sp else s.setSpan sp x) := by
    by_cases hs : (s.span sp).line = .inService
    · simp only [hs, beq_self_eq_true, if_true]
      unfold State.spanLost
      exact ((((leaveLine h sp x (hx [] (.inl rfl))).modSpan sp _ fun _ =>
        { store := .inl (Nat.zero_le _) }).strandAll sp).resolveSpanLoss sp).sourceUnhealthy _
    · simp only [hs, beq_iff_eq, if_false]
      exact h.setSpan sp x (hx _ (.inr ⟨hs, rfl⟩))
  unfold State.changeLine
  dsimp only [x] at hz
  dsimp only
  refine Moves.handNotice ?_ _
  split
  · exact Moves.spanEntered hz sp
  · exact hz
theorem spanTrained (h : Moves a s) (sp : Span) : Moves a (s.spanTrained sp) := by
  unfold State.spanTrained; dsimp only
  (repeat' split) <;> first | exact h | exact h.changeLine _ _ _ _
theorem spanErrors (h : Moves a s) (sp : Span) : Moves a (s.spanErrors sp) := by
  unfold State.spanErrors; dsimp only
  split <;> first | exact h | exact h.changeLine _ _ _ _
theorem peerRestart (h : Moves a s) (sp : Span) : Moves a (s.peerRestart sp) := by
  unfold State.peerRestart; dsimp only
  split <;> first | exact h | exact h.changeLine _ _ _ _
theorem holdDownRecovered (h : Moves a s) (sp : Span) : Moves a (s.holdDownRecovered sp) := by
  unfold State.holdDownRecovered; dsimp only
  split <;> first | exact h | exact h.changeLine _ _ _ _
theorem duePassage (h : Moves a s) (sp : Span) : Moves a (s.duePassage sp) := by
  unfold State.duePassage
  (repeat' split) <;> first
    | exact h | exact h.spanTrained _ | exact h.spanErrors _ | exact h.peerRestart _ | exact h.holdDownRecovered _
theorem countFrame_write (k : SpanState) (r : Byte) (v : Verdict) : SpanWrite k (State.countFrame k r v) := by
  have hr : ∀ n, State.runUp n ≤ 4 := fun n => Nat.min_le_right _ _
  have hd : ∀ n, min (n + 1) Config.holdDownFrames ≤ 512 := fun n => Nat.min_le_right _ _
  unfold State.countFrame
  (repeat' split) <;> constructor <;> simp [hr, hd]
theorem takeMessage (h : Moves a s) (sp : Span) (c : Vector Byte 5) : Moves a (s.takeMessage sp c) := by
  unfold State.takeMessage
  (repeat' split) <;> first | exact h | exact h.modSpan _ _ fun _ => {}
theorem actOnVerdict (h : Moves a s) (sp : Span) (v : Verdict) : Moves a (s.actOnVerdict sp v) := by
  have he : Moves a (if v == .errored then s.modSpan sp fun k => { k with erroredFrames := k.erroredFrames + 1 } else s) := by
    split
    · exact h.modSpan _ _ fun _ => {}
    · exact h
  obtain ⟨u, hu⟩ : ∃ u, (if v == .errored then
      s.modSpan sp fun k => { k with erroredFrames := k.erroredFrames + 1 } else s) = u := ⟨_, rfl⟩
  rw [hu] at he
  unfold State.actOnVerdict
  dsimp only
  rw [hu]
  split
  · exact he.changeLine _ _ _ _
  · have ht := fun r => he.modSpan sp (fun k => State.countFrame k r v) fun k => countFrame_write k r v
    split
    · split
      · exact ((ht _).takeMessage _ _).writeSpanStore _ _
      · exact (ht _).writeSpanStore _ _
      · exact (ht _).writeSpanStore _ _
      · exact (ht _).writeSpanStore _ _
    · exact ht _
theorem spanPeriod (h : Moves a s) (sp : Span) (rx : SpanPeriod) : Moves a (s.spanPeriod sp rx) := by
  unfold State.spanPeriod
  have hd := h.duePassage sp
  generalize s.duePassage sp = t at hd
  dsimp only
  split <;> first
    | exact hd.modSpan _ _ fun _ => {}
    | exact (hd.modSpan _ _ fun _ => {}).actOnVerdict _ _
theorem settleProve (h : Moves a s) (sp : Span) (c : ResultCode) : Moves a (s.settleProve sp c) := by
  unfold State.settleProve; dsimp only
  split
  · exact h
  · exact h.settleOrder _ _ _ _
theorem endProve (h : Moves a s) (sp : Span) : Moves a (s.endProve sp) := by
  unfold State.endProve; exact h.modSpan _ _ fun _ => {}
theorem settleSpan (h : Moves a s) (ref : OrderRef) (sp : Span) (c : ResultCode) : Moves a (s.settleSpan ref sp c) :=
  h.settleOrder _ _ _ _
theorem disableSpan (h : Moves a s) (sp : Span) : Moves a (s.disableSpan sp) := by
  unfold State.disableSpan; split
  · exact h
  · exact ((h.changeLine _ _ _ _).settleProve _ _).endProve _
theorem startProve (h : Moves a s) (ref : OrderRef) (sp : Span) (n : Nat) : Moves a (s.startProve ref sp n) := by
  unfold State.startProve; exact (h.changeLine _ _ _ _).modSpan _ _ fun _ => {}
theorem spanOrder (h : Moves a s) (ref : OrderRef) (sp : Span) (x : SpanAction) (n : Nat) :
    Moves a (s.spanOrder ref sp x n) := by
  unfold State.spanOrder
  split
  · exact h.settleSpan _ _ _
  · split
    · refine Moves.settleSpan ?_ _ _ _
      split
      · exact h.changeLine _ _ _ _
      · exact h
    · split
      · exact h.settleSpan _ _ _
      · exact (h.disableSpan _).settleSpan _ _ _
    · split
      · exact h.settleSpan _ _ _
      · exact h.startProve _ _ _
theorem proveEnd (h : Moves a s) (sp : Span) : Moves a (s.proveEnd sp) := by
  unfold State.proveEnd; dsimp only; split
  · exact ((h.changeLine _ _ _ _).settleProve _ _).endProve _
  · exact h

/-! ### Ports -/

theorem activityChanged (h : Moves a s) (c : CircuitNo) (x y : Activity) : Moves a (s.activityChanged c x y) := by
  unfold State.activityChanged
  (repeat' split) <;> first | exact h | exact (h.watchIdle _).quickOnIdle _ | exact h.watchBusy _
theorem reportAgeExpiry (h : Moves a s) (c : CircuitNo) : Moves a (s.reportAgeExpiry c) := by
  unfold State.reportAgeExpiry
  have ht := h.setMonitor c { s.monitor c with activity := .unknown, candidate := none } (.inr (Nat.le_refl _))
  dsimp only
  (repeat' split) <;> first | exact h | exact ht | exact ht.activityChanged _ _ _
theorem validReport (h : Moves a s) (c : CircuitNo) (x : Activity) : Moves a (s.validReport c x) := by
  unfold State.validReport
  have ht := fun y => h.setMonitor c { activity := y, candidate := some x, age := 0 } (.inl (Nat.zero_le _))
  dsimp only
  split <;> first | exact ht _ | exact (ht _).activityChanged _ _ _
theorem takeReport (h : Moves a s) (k : Fin 8) (f : PortFrame) : Moves a (s.takeReport k f) := by
  unfold State.takeReport
  split
  · exact h
  · dsimp only; split
    · exact h.modPort _ _ fun _ => {}
    · exact (h.reportAgeExpiry _).validReport _ _
theorem portLost (h : Moves a s) (p : PortNo) : Moves a (s.portLost p) := by
  unfold State.portLost
  dsimp only; split
  · refine Moves.handNotice (Moves.sourceUnhealthy ?_ _) _
    split
    · exact (h.setPort _ _ { rxStore := .inl (Nat.zero_le _) }).resolveLineLoss _
    · exact h.setPort _ _ { rxStore := .inl (Nat.zero_le _) }
  · exact h
theorem portRecovered (h : Moves a s) (p : PortNo) : Moves a (s.portRecovered p) := by
  unfold State.portRecovered
  dsimp only; split
  · refine Moves.handNotice (h.setPort _ _ { rxStore := .inl (by simp), txStore := ?_ }) _
    dsimp only; split
    · exact .inl (by simp)
    · exact .inr (Nat.le_refl _)
  · exact h
theorem portSlip (h : Moves a s) (p : PortNo) (k : SlipKind) : Moves a (s.portSlip p k) := by
  unfold State.portSlip
  have h1 := h.modPort p (fun k => { k with slips := k.slips + 1 }) fun _ => {}
  have ht : Moves a (match lineNumber p with
      | some n => (s.modPort p fun k => { k with slips := k.slips + 1 }).restartMatchers fun e => e.linePos.port == n
      | none => s.modPort p fun k => { k with slips := k.slips + 1 }) := by
    split
    · exact h1.restartMatchers _
    · exact h1
  dsimp only; split
  · exact (ht.modPort _ _ fun _ => {}).handNotice _
  · exact ht
theorem writePortStore (h : Moves a s) (p : PortNo) (f : PortFrame) : Moves a (s.writePortStore p f) := by
  unfold State.writePortStore
  split
  · exact h.modPort _ _ fun _ => { rxStore := .inl (by simp) }
  · have ht := h.setPort p { s.port p with rxStore := (storeWrite (s.port p).rxStore f).1 }
      { rxStore := storeWrite_length _ _ }
    dsimp only; split
    · exact ht.portSlip _ _
    · exact ht
theorem readTransmit (h : Moves a s) (p : PortNo) : Moves a (s.readTransmit p) := by
  unfold State.readTransmit
  dsimp only
  split
  · split
    · exact h.setPort _ _ {}
    · next hq => exact h.setPort _ _ { txStore := .inr (by simp [hq]) }
  · exact h
theorem receivePort (h : Moves a s) (p : PortNo) (f : PortFrame) : Moves a (s.receivePort p f) := by
  unfold State.receivePort
  split
  · refine Moves.writePortStore ?_ _ _
    split
    · exact h.takeReport _ _
    · exact h
  · exact h
theorem duePresence (h : Moves a s) (p : PortNo) : Moves a (s.duePresence p) := by
  unfold State.duePresence; split
  · exact h.portLost _
  · exact h.portRecovered _
theorem countPeriod_write (k : Port) (r : ClockRole) (y : SyncStyle) (rx : PortPeriod) :
    PortWrite k (countPeriod k r y rx) := by
  have hl : ∀ n, min (n + 1) Config.lossRun ≤ 3 := fun n => Nat.min_le_right _ _
  have hr : ∀ n, min (n + 1) Config.recoveryRun ≤ 16 := fun n => Nat.min_le_right _ _
  unfold countPeriod
  (repeat' split) <;> constructor <;> simp [hl, hr]
theorem portPeriod (h : Moves a s) (p : PortNo) (rx : PortPeriod) : Moves a (s.portPeriod p rx) := by
  unfold State.portPeriod
  have hd := h.duePresence p
  generalize s.duePresence p = t at hd
  have ht := hd.modPort p (fun k => countPeriod k (t.clockRole p) (t.syncStyle p) rx) fun k => countPeriod_write _ _ _ _
  dsimp only
  split
  · exact ht
  · exact (ht.receivePort _ _).readTransmit _

/-! ### The frame -/

theorem readPort (h : Moves a s) (p : PortNo) : Moves a (s.readPort p) := by
  unfold State.readPort
  dsimp only
  split
  · exact h
  · have ht := fun x => h.setPort p
      { s.port p with rxStore := (storeRead (s.port p).rxStore (s.port p).lastRead).1, lastRead := x }
      { rxStore := .inr (storeRead_length _ _) }
    split
    · exact (ht _).portSlip _ _
    · exact ht _
theorem readSpan (h : Moves a s) (sp : Span) : Moves a (s.readSpan sp) := by
  unfold State.readSpan
  split
  · have ht := fun x => h.setSpan sp
      { s.span sp with store := (storeRead (s.span sp).store (s.span sp).lastRead).1, lastRead := x }
      { store := .inr (storeRead_length _ _) }
    dsimp only
    split
    · exact (ht _).spanSlip _ _
    · exact ht _
  · exact h
theorem readStores (h : Moves a s) : Moves a s.readStores :=
  ((Moves.each _ _ h fun p _ ht => ht.readPort p).readSpan .a).readSpan .b
theorem sendCarry (h : Moves a s) (sp : Span) (hs : s.inService sp = true) : Moves a (s.sendCarry sp) := by
  unfold State.sendCarry
  refine Moves.servePending (h.setSpan _ _ { room := .inr (by simp), service := ?_ }) _ ?_
  · exact .inr (.inl (by simpa [State.inService] using hs))
  · simpa [State.inService] using hs
theorem proveFrame (h : Moves a s) (sp : Span) (l : LoopReturn) : Moves a (s.proveFrame sp l) := by
  unfold State.proveFrame
  dsimp only
  (repeat' split) <;> first | exact h | exact h.setSpan _ _ {}
theorem sendSpan (h : Moves a s) (sp : Span) (l : LoopReturn) : Moves a (s.sendSpan sp l) := by
  unfold State.sendSpan
  split
  · exact h.modSpan _ _ fun _ => {}
  · exact h.modSpan _ _ fun _ => {}
  · exact h.modSpan _ _ fun _ => {}
  · exact h.modSpan _ _ fun _ => {}
  · next hl => exact h.sendCarry _ (by simp [State.inService, hl])
  · exact (h.modSpan _ _ fun _ => {}).proveFrame _ _
theorem sendPort (h : Moves a s) (p : PortNo) : Moves a (s.sendPort p) := by
  unfold State.sendPort
  split
  · exact h.modPort _ _ fun _ => {}
  · exact h.setPort p _ { txStore := storeWrite_length _ _ }
theorem compareFrame_inRange {m : Matcher} (h : m.InRange) (x y : Byte) : (compareFrame m x y).InRange where
  toHistory := by simp only [compareFrame, List.length_take, Config.matchHistory]; omega
  fromHistory := by simp only [compareFrame, List.length_take, Config.matchHistory]; omega
  runs n hn := by
    obtain ⟨z, hz, rfl⟩ := List.mem_map.mp hn
    have hr := h.runs z.2 (List.of_mem_zip hz).2
    have hl : ∀ k, min (k + 1) Config.matchRun ≤ 16 := fun k => Nat.min_le_right _ _
    unfold runAfter
    (repeat' split) <;> first | exact hr | exact hl _ | exact Nat.zero_le _
theorem matchEntry (h : Moves a s) (i : BridgeNo) : Moves a (s.matchEntry i) :=
  h.withBridge fun e he => by
    dsimp only
    split
    · next m _ hm =>
      have ht : ∀ x : Bridge, (hx : x.places = e.places := by rfl) → ∀ y z, (hy : x.matcher = some (compareFrame m y z)) →
          Moves a (s.setBridge i (some x)) := fun x hx y z hy =>
        h.setBridge i x he hx fun hr n hn => by rw [hy] at hn; cases hn; exact compareFrame_inRange (hr m hm) y z
      (repeat' split) <;> exact ht _ (by rfl) _ _ (by first | rfl | (cases e.direction <;> rfl))
    · exact h
theorem ageReports (h : Moves a s) : Moves a s.ageReports := by
  unfold State.ageReports
  refine h.age _ fun c => ?_
  have hl : Config.reportAgeLimit = 8000 := rfl
  simp only [tab_getElem]
  split
  · next hq =>
    have hn := of_decide_eq_true (Bool.and_eq_true_iff.mp hq).2
    exact .inl (by simp only; omega)
  · exact .inr (Nat.le_refl _)
theorem takeOffice (h : Moves a s) : Moves a s.takeOffice := h.take _
theorem matchAll (h : Moves a s) : Moves a s.matchAll := Moves.each _ _ h fun i _ ht => ht.matchEntry i
theorem switchFrame (h : Moves a s) : Moves a s.switchFrame := h.switch _ _ _
theorem runFrame (h : Moves a s.advanceCounter) (x y : LoopReturn) : Moves a (s.runFrame x y) := by
  unfold State.runFrame
  have h1 := (h.readStores.switchFrame.sendSpan .a x).sendSpan .b y
  have h2 := Moves.each (List.finRange 16) (fun p t => t.sendPort p) h1 fun p _ ht => ht.sendPort p
  exact h2.takeOffice.matchAll.ageReports.countQualification

end Moves

end Sys2Proof.Machine
end

