-- ==== Sys2Proof/Laws/Commands.lean ====
section
/-! SUPPORT. What every command does, in the words of `Moves`: the state it ends in is reached by writes within their
ranges from one of its origins. -/

namespace Sys2Proof.Machine

open Sys2Proof

set_option Elab.async false

namespace Moves

variable {a s : State}

/-! ### The order runners -/

theorem faultRunner (h : Moves a s) (n : Fin 4) (c : RunnerFault) : Moves a (s.faultRunner n c) := by
  unfold State.faultRunner
  exact ((h.modRunner _ _).handNotice _).raise _
theorem fetch (h : Moves a s) (n : Fin 4) : Moves a (s.fetch n) := by
  unfold State.fetch
  dsimp only; split
  · exact h.faultRunner _ _
  · exact (h.setRunner n { s.runner n with
      state := .fetching, recheck := none, held := none, told := false, raced := false,
      reading := some .firstUnit } (by simp)).requestRead _ _ _
theorem readBlock (h : Moves a s) (n : Fin 4) : Moves a (s.readBlock n) := by
  unfold State.readBlock
  exact (h.modRunner _ _).requestRead _ _ _
theorem park (h : Moves a s) (n : Fin 4) : Moves a (s.park n) := by
  unfold State.park
  exact h.modRunner _ _
theorem waitOn (h : Moves a s) (n : Fin 4) (r : List Byte) (w : WaitFor) : Moves a (s.waitOn n r w) := by
  unfold State.waitOn
  exact h.modRunner _ _
/-- An order that does not wait finds the queue place that it needs (R38, R39). -/
theorem queue_free {o : Order} (hw : s.orderWaits o = none)
    (he : s.orderWaits o = if s.queueRoom then none else some WaitFor.queuePlace) : s.queue.length < 16 := by
  rw [he] at hw
  split at hw
  · exact room_of_queueRoom (by assumption)
  · cases hw
/-- An order that does not wait finds the watch place that it needs (R38, R57). -/
theorem watch_free {o : Order} (hw : s.orderWaits o = none)
    (he : s.orderWaits o = if s.watchRoom then none else some WaitFor.watchPlace) : s.watch.length < 16 := by
  rw [he] at hw
  split at hw
  · next hr => exact of_decide_eq_true hr
  · cases hw
theorem migrateOrder (h : Moves a s) (ref : OrderRef) (m : MoveOrder) (w : Bool) (l : Nat)
    (hw : s.orderWaits (.migrate m w l) = none) : Moves a (s.migrateOrder ref m w l) := by
  unfold State.migrateOrder
  split
  · exact h.settleMove _ _ _ _
  · next hb =>
    split
    · next hi => exact h.watchOn _ (watch_free hw (by simp only [State.orderWaits, hb, hi]; rfl))
    · next hi => exact h.enqueue _ (queue_free hw (by simp only [State.orderWaits, hb, hi]; rfl))
theorem expectOrder (h : Moves a s) (ref : OrderRef) (m : MoveOrder) (w : Nat) (hw : s.orderWaits (.expect m w) = none) :
    Moves a (s.expectOrder ref m w) := by
  unfold State.expectOrder
  split
  · exact h.settleMove _ _ _ _
  · next hb => exact h.enqueue _ (queue_free hw (by simp only [State.orderWaits, hb]; rfl))
theorem groupOrder (h : Moves a s) (ref : OrderRef) (l : List MoveOrder) (hl : membersApart l = true)
    (hw : s.orderWaits (.group l) = none) : Moves a (s.groupOrder ref l) := by
  unfold State.groupOrder
  split
  · exact h.settleLone _ _ _ _
  · next hb =>
    have hb : (l.any fun m => s.busy m.circuit) = false := by
      rw [List.any_eq_false]; intro m hm
      have := List.findIdx?_eq_none_iff.mp hb m hm
      simpa using this
    exact h.enqueue _ (queue_free hw (by simp only [State.orderWaits, hb]; rfl)) (by intro m hm; cases hm; exact hl)
theorem settleMap {x : State.MapOutcome} (h : Moves a x.1) (ref : OrderRef) (c : CircuitNo) :
    Moves a (State.settleMap ref c x) := h.settleOrder _ _ _ _
theorem dispatch (h : Moves a s) (ref : OrderRef) (o : Order) (ho : ∀ l, o = .group l → membersApart l = true)
    (hw : s.orderWaits o = none) : Moves a (s.dispatch ref o) := by
  unfold State.dispatch
  split
  · exact h.migrateOrder _ _ _ _ hw
  · exact h.expectOrder _ _ _ hw
  · exact h.groupOrder _ _ (ho _ rfl) hw
  · exact h.abandonOrder _ _ _
  · next c l => exact h.trimOrder _ _ _ fun ht => watch_free hw (by simp only [State.orderWaits, ht]; rfl)
  · exact (h.mapOrder _ _ _ _).settleMap _ _
  · exact (h.recoverOrder _ _ _).settleMap _ _
  · exact h.spanOrder _ _ _ _
  · exact (h.timingOrder _ _).settleOrder _ _ _ _
theorem markTake (h : Moves a s) (n : Fin 4) (x : Addr) : Moves a (s.markTake n x) :=
  Moves.each _ _ h fun m t ht => by
    split
    · exact ht.modRunner _ _
    · exact ht
theorem actOnRecord (h : Moves a s) (ref : OrderRef) (x : Record)
    (hx : ∀ l u, x = .order (.group l) u → membersApart l = true) (hw : ∀ o u, x = .order o u → s.orderWaits o = none) :
    Moves a (s.actOnRecord ref x) := by
  unfold State.actOnRecord
  split
  · exact h.settleOrder _ _ _ _
  · exact h.settleOrder _ _ _ _
  · exact h.dispatch _ _ (fun l e => hx l _ (by rw [e])) (hw _ _ rfl)
/-- The places that an order needs are what they were when its runner has written TAKEN and stepped on. -/
theorem orderWaits_taking (w : PostedWrite) (n : Fin 4) (addr : Addr) (r : Runner) (o : Order) :
    (((s.queueWrite w).markTake n addr).setRunner n r).orderWaits o = s.orderWaits o := by
  have hq : ∀ t : State, (t.queueWrite w).orderWaits o = t.orderWaits o := fun t => by
    unfold State.queueWrite; split <;> rfl
  have hm : ∀ t : State, (t.markTake n addr).orderWaits o = t.orderWaits o := fun t =>
    each_keeps (fun t : State => t.orderWaits o) _ _ (fun m t => by split <;> rfl) t
  exact (show _ = _ from rfl).trans ((hm _).trans (hq s))
theorem takeRecord (h : Moves a s) (n : Fin 4) (rec : List Byte) (x : Record)
    (hx : ∀ l u, x = .order (.group l) u → membersApart l = true) (hw : s.recordWaits n x = none) :
    Moves a (s.takeRecord n rec x) := by
  unfold State.takeRecord
  dsimp only
  exact (((((h.queueWrite _).markTake _ _).setRunner _ _ (fun _ => Nat.zero_le _)).actOnRecord _ _ hx fun o u e =>
    by rw [orderWaits_taking]; subst e; exact hw).fetch _)
theorem groupOf_apart {o : ByteOrder} {rec : List Byte} {l : List MoveOrder} (h : groupOf o rec = some l) :
    membersApart l = true := by
  unfold groupOf at h
  simp only [Option.bind_eq_bind, Option.bind_eq_some_iff] at h
  obtain ⟨k, _, h⟩ := h
  split at h
  · next hl => cases h; exact hl
  · cases h
theorem orderOf_apart {cfg : SiteConfig} {rec : List Byte} {l : List MoveOrder}
    (h : orderOf cfg rec = some (.group l)) : membersApart l = true := by
  unfold orderOf at h
  dsimp only at h
  split at h
  case h_3 =>
    obtain ⟨l', hl, he⟩ := Option.map_eq_some_iff.mp h
    cases he
    exact groupOf_apart hl
  all_goals
    simp only [Option.bind_eq_bind, Option.bind_eq_some_iff, Option.map_eq_some_iff, Option.pure_def,
      Option.some.injEq, reduceCtorEq, and_false, exists_false] at h
  all_goals (repeat' split at h) <;> simp_all
/-- A GROUP record that is not malformed has members that are apart (R104). -/
theorem recordOf_apart {cfg : SiteConfig} {rec : List Byte} {l : List MoveOrder} {u : Nat}
    (h : recordOf cfg rec = .order (.group l) u) : membersApart l = true := by
  unfold recordOf at h
  split at h
  · cases h
  split at h
  · cases h
  split at h
  · cases h
  · next ho => cases h; exact orderOf_apart ho
theorem offer (h : Moves a s) (n : Fin 4) (rec : List Byte) (g : Bool) : Moves a (s.offer n rec g) := by
  unfold State.offer
  dsimp only
  split
  · exact h.waitOn _ _ _
  · next hw =>
    split
    · exact h.takeRecord _ _ _ (fun _ _ => recordOf_apart) hw
    · exact (h.waitOn _ _ _).makeClaim _
theorem reoffer (h : Moves a s) (n : Fin 4) (g : Bool) : Moves a (s.reoffer n g) := by
  unfold State.reoffer
  split
  · exact h
  · split
    · exact h.fetch _
    · exact h.offer _ _ _
/-- A ring has an entry (R21). -/
theorem entries_of_blockBases {o : ByteOrder} {data : List Byte} {b : Bases} (h : blockBases o data = some b) :
    0 < b.entries := by
  unfold blockBases at h
  dsimp only at h
  split at h
  · next hc =>
    simp only [Bool.and_eq_true, decide_eq_true_eq] at hc
    cases h
    exact Nat.lt_of_lt_of_le (by decide) hc.1.1.2
  · cases h
theorem blockArrived (h : Moves a s) (n : Fin 4) (d : List Byte) : Moves a (s.blockArrived n d) := by
  have hg : ∀ t, Moves a t → Moves a (if (chainHead s.cfg.byteOrder d n).toNat % 64 != 0 then t.faultRunner n .badAddress
      else (t.modRunner n fun r => { r with cursor := chainHead s.cfg.byteOrder d n }).fetch n) := fun t ht => by
    split
    · exact ht.faultRunner _ _
    · exact (ht.modRunner _ _).fetch _
  unfold State.blockArrived
  dsimp only
  split
  · exact hg _ h
  · next b hb => exact hg _ (h.setNte _ { position := fun _ x hx => by cases hx; exact entries_of_blockBases hb })
  · exact h.faultRunner _ _
theorem followNext (h : Moves a s) (n : Fin 4) (x : Addr) : Moves a (s.followNext n x) := by
  unfold State.followNext
  split
  · exact h.faultRunner _ _
  · next hq =>
    refine Moves.fetch (h.setRunner n _ fun hs => ?_) _
    have hl : Config.streakLimit = 8 := rfl
    have hn : (s.runner n).streak ≠ 8 := fun e => hq (by simp [e, hl])
    show (s.runner n).streak + 1 ≤ 8
    omega
theorem readRemainder (h : Moves a s) (n : Fin 4) (f : List Byte) (u : Nat) : Moves a (s.readRemainder n f u) := by
  unfold State.readRemainder
  exact (h.modRunner _ _).requestRead _ _ _
theorem firstArrived (h : Moves a s) (n : Fin 4) (rec : List Byte) : Moves a (s.firstArrived n rec) := by
  unfold State.firstArrived
  (repeat' split) <;> first
    | exact h.park _ | exact h.fetch _ | exact h.followNext _ _ | exact h.readRemainder _ _ _ | exact h.offer _ _ _
theorem discardedOver (h : Moves a s) (n : Fin 4) : Moves a (s.discardedOver n) := by
  unfold State.discardedOver
  dsimp only; split
  · exact (h.modRunner _ _).readBlock _
  · exact h.modRunner _ _
theorem runnerRead (h : Moves a s) (n : Fin 4) (d : List Byte) : Moves a (s.runnerRead n d) := by
  unfold State.runnerRead
  split
  · exact h
  · exact h.discardedOver _
  · exact h.blockArrived _ _
  · exact h.firstArrived _ _
  · split
    · exact h.fetch _
    · exact h.offer _ _ _
theorem runnerReadFailed (h : Moves a s) (n : Fin 4) : Moves a (s.runnerReadFailed n) := by
  unfold State.runnerReadFailed
  split
  · exact h
  · exact h.discardedOver _
  · exact h.faultRunner _ _
theorem readDone (h : Moves a s) (r : Reader) (d : List Byte) (hd : a.smp.readsFit → r = .notices → d.length ≤ 256) :
    Moves a (s.readDone r d) := by
  unfold State.readDone
  split
  · exact h.runnerRead _ _
  · exact h.noticeReadDone _ fun ha => hd ha rfl
theorem readFailed (h : Moves a s) (k : Fin 4) (r : Reader) : Moves a (s.readFailed k r) := by
  unfold State.readFailed
  dsimp only
  split
  · exact (h.setTag k (.quarantined _) fun _ => True.intro).runnerReadFailed _
  · exact (h.setTag k (.quarantined _) fun _ => True.intro).noticeReadFailed
theorem startRunner (h : Moves a s) (n : Fin 4) : Moves a (s.startRunner n) := by
  unfold State.startRunner
  dsimp only; split
  · exact (h.modRunner _ _).modRunner _ _
  · exact (h.modRunner _ _).readBlock _
theorem stopRunner (h : Moves a s) (n : Fin 4) : Moves a (s.stopRunner n) := by
  unfold State.stopRunner State.stopReading
  refine Moves.modRunner (Moves.withdrawTake ?_ _) _ _
  split
  · exact (h.withdrawRead _).modRunner _ _
  · exact h.modRunner _ _

/-! ### The memory port's events -/

theorem readIssued (h : Moves a s) (r : Reader) : Moves a (s.readIssued r) := by
  unfold State.readIssued
  split
  · exact h
  · refine h.modRunner _ _ fun r hr => ?_
    split <;> exact hr
theorem issueRead (h : Moves a s) : Moves a s.issueRead := by
  unfold State.issueRead
  split
  · next r rest k _ hw _ =>
    refine Moves.readIssued (s := State.setTag _ k (.outstanding r 0 [] (s.after Config.readFrames))) (h.setSmp
      { s.smp with waiting := rest, tags := s.smp.tags.set k.val (.outstanding r 0 [] (s.after Config.readFrames)) k.isLt }
      { fits := fun hr => ⟨fun q hq => hr.1 q (by rw [hw]; exact List.mem_cons_of_mem _ hq), fun j => ?_⟩ }) _
    rw [Vector.getElem_set]; split
    · exact ⟨hr.1 r (by rw [hw]; exact List.mem_cons_self), rfl⟩
    · exact hr.2 j
  · exact h
theorem unitArrived (h : Moves a s) (k : Fin 4) (r : ReadRequest) (n : Nat) (d : List Byte) (t : FrameNo) (m : UnitMark)
    (e : Bool) (u : Vector Byte 32) (hk : s.tag k = .outstanding r n d t) : Moves a (s.unitArrived k r n d t m e u) := by
  have hf : s.smp.readsFit → r.fits ∧ (d ++ u.toList).length = 32 * (n + 1) := fun hr => by
    have hr := hr.2 k
    rw [show s.smp.tags[k.val] = _ from hk] at hr
    exact ⟨hr.1, by rw [List.length_append, hr.2, Vector.length_toList]; omega⟩
  unfold State.unitArrived
  split
  · exact h.readFailed _ _
  · split
    · exact h.readFailed _ _
    · next hn =>
      dsimp only; split
      · refine (h.setTag k .free fun _ => True.intro).readDone _ _ fun ha e => ?_
        have hx := hf (h.reads ha)
        have hl := hx.1 e
        have hu : n + 1 = r.length / 32 := by simpa using hn
        omega
      · exact h.setTag _ _ hf
theorem timeOutRead (h : Moves a s) (k : Fin 4) : Moves a (s.timeOutRead k) := by
  unfold State.timeOutRead
  (repeat' split) <;> first | exact h | exact h.readFailed _ _
theorem endQuarantine (h : Moves a s) (k : Fin 4) : Moves a (s.endQuarantine k) := by
  unfold State.endQuarantine
  (repeat' split) <;> first | exact h | exact h.setTag k .free fun _ => True.intro
theorem grantPlace (h : Moves a s) : Moves a s.grantPlace := by
  unfold State.grantPlace
  (repeat' split) <;> first | exact h | exact ((h.setClaims _).queueWrite _).makeHeld _ |
    exact ((h.setClaims _).reoffer _ _).makeHeld _
theorem grantSettled (h : Moves a s) : Moves a s.grantSettled := by
  unfold State.grantSettled
  (repeat' split) <;> first | exact h | exact ((h.setClaims _).queueSettled _).makeHeld _ |
    exact (h.setClaims _).makeHeld _
theorem writeAnswered (h : Moves a s) (r : WriteReply) : Moves a (s.writeAnswered r) := by
  unfold State.writeAnswered
  (repeat' split) <;> first | exact h.dropHead.writeDone _ | exact h.dropHead.writeFailed _ _ | exact h.raise _
theorem timeOutWrite (h : Moves a s) : Moves a s.timeOutWrite := by
  unfold State.timeOutWrite
  (repeat' split) <;> first | exact h | exact h.dropHead.writeFailed _ _

/-! ### The Migration Engine's events -/

theorem moveReady (h : Moves a s) : Moves a s.moveReady := by
  unfold State.moveReady
  split
  · next hl =>
    split
    · exact h
    · exact h.moveToQueue _ hl
  · exact h
theorem waitExpiry (h : Moves a s) (c : CircuitNo) : Moves a (s.waitExpiry c) := by
  unfold State.waitExpiry
  (repeat' split) <;> first | exact h | exact (h.unwatch _).settleMove _ _ _ _
theorem inPhase (h : Moves a s) (i : BridgeNo) (p : BridgePhase) (f : Bridge → State)
    (hf : ∀ e, s.bridge i = some e → Moves a (f e)) : Moves a (s.inPhase i p f) := h.withBridge fun e he => by
  split
  · exact hf e he
  · exact h
theorem expectWindowExpiry (h : Moves a s) (i : BridgeNo) : Moves a (s.expectWindowExpiry i) :=
  h.inPhase _ _ _ fun e he => by
    split
    · exact h.freeAs _ _
    · exact h
theorem retry (h : Moves a s) (i : BridgeNo) (e : Bridge) (he : s.bridge i = some e) : Moves a (s.retry i e) := by
  unfold State.retry
  split
  · exact (h.setBridge _ _).handMessage _
  · exact h
theorem offerRetry (h : Moves a s) (i : BridgeNo) : Moves a (s.offerRetry i) := h.inPhase _ _ _ fun e he => h.retry i e he
theorem rolledRetry (h : Moves a s) (i : BridgeNo) : Moves a (s.rolledRetry i) :=
  h.inPhase _ _ _ fun e he => by
    split
    · exact h.retry i e he
    · exact h
theorem noAnswerExpiry (h : Moves a s) (i : BridgeNo) : Moves a (s.noAnswerExpiry i) :=
  h.inPhase _ _ _ fun e he => by
    split
    · exact h.unwind _ _ _ _ _
    · exact h
theorem matchDeadlineExpiry (h : Moves a s) (i : BridgeNo) : Moves a (s.matchDeadlineExpiry i) :=
  h.inPhase _ _ _ fun e he => by
    split
    · exact (h.setBridge _ _).unwind _ _ _ _ _
    · exact h
theorem peerStallExpiry (h : Moves a s) (i : BridgeNo) : Moves a (s.peerStallExpiry i) :=
  h.inPhase _ _ _ fun e he => by
    split
    · exact h.unwind _ _ _ _ _
    · exact h
theorem releaseGuardEnd (h : Moves a s) (i : BridgeNo) : Moves a (s.releaseGuardEnd i) :=
  h.inPhase _ _ _ fun e he => by
    split
    · exact (h.stopFromFeed e).freeEntry _
    · exact h
theorem unwindGuardEnd (h : Moves a s) (i : BridgeNo) : Moves a (s.unwindGuardEnd i) :=
  h.inPhase _ _ _ fun e he => by
    split
    · exact (h.stopToFeed e).freeEntry _
    · exact h
theorem ownRoll (h : Moves a s) (i : BridgeNo) (c : RollCause) : Moves a (s.ownRoll i c) :=
  h.inPhase _ _ _ fun e he => by
    split
    · exact (h.roll _ _ _).enterRolled _
    · exact (h.roll _ _ _).enterRolled _
    · exact h

/-! ### Arrivals -/

theorem answerFromRecord (h : Moves a s) (b : BearerSlot) (k : MessageKind) (t : Byte)
    (hs : s.inService b.span = true) : Moves a (s.answerFromRecord b k t) := by
  unfold State.answerFromRecord
  (repeat' split) <;> first | exact h | exact h.answer _ _ _ _ _ hs
theorem popArrival (h : Moves a s) (sp : Span) : Moves a (s.popArrival sp) := by
  unfold State.popArrival
  exact h.modSpan _ _ fun _ => {}
theorem popArrival_inService (sp : Span) : (s.popArrival sp).inService sp = s.inService sp := by
  simp [State.popArrival, State.inService]
theorem entryOn_bridge {t : State} {b : BearerSlot} {i : BridgeNo} {e : Bridge} (h : t.entryOn b = some (i, e)) :
    t.bridge i = some e := by
  unfold State.entryOn at h
  obtain ⟨j, _, hj⟩ := List.exists_of_findSome?_eq_some h
  split at hj
  · next hb => split at hj <;> simp_all
  · cases hj
theorem arrive (h : Moves a s) (sp : Span) (m : RollMessage) (f : State → BridgeNo → Bridge → State)
    (hf : ∀ t i e, Moves a t → t.bridge i = some e → t.inService sp = true → Moves a (f t i e)) : Moves a (s.arrive sp m f) := by
  unfold State.arrive
  split
  · next hs =>
    have hs' : (s.popArrival sp).inService sp = true := by
      rw [popArrival_inService]; exact (Bool.and_eq_true_iff.mp (Bool.and_eq_true_iff.mp hs).1).1
    dsimp only
    split
    · next hx => exact hf _ _ _ (h.popArrival _) (entryOn_bridge hx) hs'
    · exact (h.popArrival _).answerFromRecord _ _ _ hs'
  · exact h
theorem offerAt (h : Moves a s) (sp : Span) (m : RollMessage) (i : BridgeNo) (e : Bridge)
    (he : s.bridge i = some e) (hs : s.inService sp = true) : Moves a (State.offerAt sp m s i e) := by
  have hd := fun r => h.answer sp .decline m.slot m.txn (some r) hs
  unfold State.offerAt
  split
  · unfold State.offerAtResponder
    split
    · split
      · exact ((h.setBridge _ _).feedTo _ _ _).enterMatching _
      · exact hd _
    · split
      · exact hd _
      · split <;> first | exact h | exact h.handMessage _
  · unfold State.offerAtInitiator
    (repeat' split) <;> first | exact h | exact hd _ | exact (h.setBridge _ _).enterMatching _
theorem acceptAt (h : Moves a s) (t : Byte) (i : BridgeNo) (e : Bridge) (he : s.bridge i = some e) : Moves a (State.acceptAt t s i e) := by
  unfold State.acceptAt; split
  · exact (h.setBridge _ _).enterMatching _
  · exact h
theorem declineAt (h : Moves a s) (t : Byte) (r : Reason) (i : BridgeNo) (e : Bridge) (he : s.bridge i = some e) :
    Moves a (State.declineAt t r s i e) := by
  unfold State.declineAt; split
  · exact (h.setBridge _ _).unwind _ _ _ _ _
  · exact h
theorem rolledAt (h : Moves a s) (t : Byte) (i : BridgeNo) (e : Bridge) (he : s.bridge i = some e) : Moves a (State.rolledAt t s i e) := by
  unfold State.rolledAt
  split
  · split
    · exact (h.setBridge _ _).enterMatching _
    · exact h.setBridge _ _
    · exact (h.setBridge _ _).releaseDecision _
    · exact h.handMessage _
    · exact h.handMessage _
    · exact h
  · exact h
theorem releaseAt (h : Moves a s) (t : Byte) (i : BridgeNo) (e : Bridge) (he : s.bridge i = some e) :
    Moves a (State.releaseAt t s i e) := by
  unfold State.releaseAt
  split
  · dsimp only; split
    · exact (h.setBridge _ _).freeEntry _
    · exact (h.setBridge _ _).beginGuard _
  · exact h
theorem abandonAt (h : Moves a s) (t : Byte) (r : Reason) (i : BridgeNo) (e : Bridge) :
    Moves a (State.abandonAt t r s i e) := by
  unfold State.abandonAt; split
  · exact h.peerAbandon _ _
  · exact h

/-! ### The warm restart and the end of the configuration stream -/

theorem restartMemory (h : Moves a s) : Moves a s.restartMemory := by
  unfold State.restartMemory
  have ht := Moves.each (List.finRange 4) (fun n t => t.restartRunner n) h fun n t ht => by
    unfold State.restartRunner
    exact ht.modRunner _ _
  refine Moves.each _ _ (ht.setSmp _ { fits := fun hr => ⟨fun _ hq => (List.not_mem_nil hq).elim, fun k => ?_⟩ })
    fun n t hu => hu.withdrawTake n
  simp only [tab_getElem]
  split <;> trivial
theorem restartOrders (h : Moves a s) : Moves a s.restartOrders := by
  unfold State.restartOrders
  have h1 := Moves.each s.queue (fun q t => t.restartQueued q) (h.setQueue [] (fun _ hx => (List.not_mem_nil hx).elim)
      (.inl (Nat.zero_le _))) fun q t ht => by
    unfold State.restartQueued
    split <;> exact ht.settleMove _ _ _ _
  have h2 := Moves.each s.watch (fun w t => t.settleMove w.ref .restarted (t.watchValues w.circuit)) (h1.setWatch [] (.inl (Nat.zero_le _)))
    fun w t ht => ht.settleMove _ _ _ _
  exact Moves.each [Span.a, Span.b] _ h2 fun sp t ht => (ht.settleProve _ _).modSpan _ _ fun _ => {}
theorem detach (h : Moves a s) (i : BridgeNo) : Moves a (s.detach i) :=
  h.withBridge fun _ _ => (h.setBridge _ _).modCircuit _ _ fun _ => .inr (Nat.le_refl _)
theorem holdEntry (h : Moves a s) (i : BridgeNo) (c : ResultCode) : Moves a (s.holdEntry i c) :=
  h.withBridge fun _ _ => by
    refine Moves.detach ?_ _
    split
    · exact h
    · exact h.settleMove _ _ _ _
theorem completeRelease (h : Moves a s) (i : BridgeNo) : Moves a (s.completeRelease i) :=
  h.withBridge fun e _ => (h.stopFromFeed e).freeEntry _
theorem restartEntry (h : Moves a s) (i : BridgeNo) : Moves a (s.restartEntry i) :=
  h.withBridge fun e _ => by
    split
    · exact h
    · split <;> first
        | exact h.freeAs _ _ | exact h.completeRelease _ | exact h.holdEntry _ _
        | exact (h.enterUnwinding _ _ _ _ _).holdEntry _ _
theorem restartMember (h : Moves a s) (i : BridgeNo) : Moves a (s.restartMember i) :=
  h.withBridge fun e _ => by
    split <;> first | exact h | exact h.completeRelease _ | exact h.enterUnwinding _ _ _ _ _
theorem restartGroup (h : Moves a s) (g : Fin 4) : Moves a (s.restartGroup g) := by
  unfold State.restartGroup
  split
  · exact h
  · have ht := fun x => h.eachMember x (fun i u => u.restartMember i) fun i t ht => ht.restartMember i
    dsimp only; split
    · exact ht _
    · exact ((ht _).settleGroup _ _).eachMember _ _ fun i t hu => hu.detach i
theorem restartMessage (h : Moves a s) (i : BridgeNo) : Moves a (s.restartMessage i) :=
  h.withBridge fun e _ => by
    split
    · exact h.sendAbandon _
    · exact h
theorem restartBridges (h : Moves a s) : Moves a s.restartBridges := by
  unfold State.restartBridges
  have h1 := Moves.each (List.finRange 48) (fun i u => u.restartEntry i) ((h.emptyTransmit .a).emptyTransmit .b)
    fun i t ht => ht.restartEntry i
  have h2 := Moves.each (List.finRange 4) (fun g u => u.restartGroup g) h1 fun g t ht => ht.restartGroup g
  exact Moves.each (List.finRange 48) (fun i u => u.restartMessage i) h2 fun i t ht => ht.restartMessage i
theorem restartNotices (h : Moves a s) : Moves a s.restartNotices := by
  unfold State.restartNotices
  exact (h.setNte _ { position := fun _ _ hb => by cases hb } fun _ => .inl (Nat.zero_le _)).markAllRows
theorem warmRestart (h : Moves a s) : Moves a s.warmRestart := by
  unfold State.warmRestart
  split
  · exact (h.setPhase _).restartMemory.restartOrders.restartBridges.restartNotices
  · exact h
theorem seekIfPresent (h : Moves a s) (sp : Span) : Moves a (s.seekIfPresent sp) := by
  unfold State.seekIfPresent; split
  · exact h.changeLine _ _ _ _
  · exact h

end Moves

/-! ### Every command -/

/-- The states that the writes of a command begin from: the state it finds, or what the frame clock, a write of
BLOCK_BASE or ATTN_MASK, RESETn or an accepted stream makes of it. -/
inductive Origin (c : Instr) (s : State) : State → Prop where
  | same : Origin c s s
  | clock (x y : LoopReturn) : c = .frameTick x y → Origin c s s.advanceCounter
  | block (v : BitVec 64) : c = .blockBaseWrite v → Origin c s (s.setBlockBase v)
  | mask (v : BitVec 64) : c = .attnMaskWrite v → Origin c s (s.setAttnMask (v.truncate 6))
  | held : c = .resetnHeldLow → Origin c s { s with resetLow := true }
  | reset : c = .resetnRelease → Origin c s (State.cold .loading 0 SiteConfig.unset s.pending)
  | stream (b : BitVec 48) : c = .configStreamEnd b →
      Origin c s (State.cold .ready s.counter (SiteConfig.ofStream b) s.pending)

/-- What every command can do: the writes of `Moves`, from one of its origins. -/
theorem exec_moves {c : Instr} {s t : State} (h : exec c s = .next t) : ∃ b, Origin c s b ∧ Moves b t := by
  have plain : ∀ {f : State → State}, act s f = .next t → Moves s (f s) → ∃ b, Origin c s b ∧ Moves b t :=
    fun h hf => ⟨s, .same, Moves.act hf .refl h⟩
  have either : ∀ {f : State → State} {b : State}, act s f = .next t → Origin c s b → Moves b (f s) →
      ∃ b, Origin c s b ∧ Moves b t := fun {f b} h ho hf => by
    rcases act_next h with ⟨_, rfl⟩ | ⟨_, rfl⟩
    · exact ⟨t, .same, .refl⟩
    · exact ⟨b, ho, hf.finish _⟩
  have r : Moves s s := .refl
  cases c <;> simp only [exec] at h
  case resetnRelease => cases h; exact ⟨_, .reset rfl, .refl⟩
  case resetnHeldLow => cases h; exact ⟨_, .held rfl, .refl⟩
  case configStreamEnd b =>
    simp only [execConfigStreamEnd] at h
    by_cases hp : (s.phase == .loading) = true
    · by_cases hb : streamAccepted b = true
      · refine either h (.stream b rfl) ?_
        simp only [hp, if_true, State.endStream, hb, State.applyStream]
        exact (Moves.refl.seekIfPresent .a).seekIfPresent .b
      · refine plain h ?_
        simp only [hp, if_true, State.endStream, hb]
        exact r.setPhase _
    · refine plain h ?_
      simp only [hp]
      exact r
  case frameTick x y =>
    simp only [execFrameTick] at h
    refine either h (.clock x y rfl) ?_
    split
    · exact Moves.refl.runFrame x y
    · exact .refl
  case blockBaseWrite v =>
    simp only [execBlockBaseWrite, State.writeBlockBase] at h
    by_cases hv : ((List.finRange 4).all s.runnerHalted && v.toNat % 128 == 0) = true
    · refine either h (.block v rfl) ?_
      simp only [hv, if_true]
      exact .refl
    · refine plain h ?_
      simp only [hv]
      exact r.raise _
  case attnMaskWrite v =>
    simp only [execAttnMaskWrite] at h
    exact either h (.mask v rfl) .refl
  case warmnPulse => exact plain h r.warmRestart
  case nudgeWarm => exact plain h r.warmRestart
  case nudgeStart n =>
    refine plain h ?_
    split
    · exact r.startRunner n
    · exact r.raise _
  case nudgeStop n => exact plain h (r.stopRunner n)
  case nudgeWake n =>
    refine plain h ?_
    split
    · exact r.fetch n
    · exact r
  case nudgeNotices =>
    refine plain h ?_
    split
    · split
      · exact r.setNte _ {}
      · exact r.readNotices
    · exact r
  case nudgeUnknownCode code =>
    refine plain h ?_
    split
    · exact r.raise _
    · exact r
  case attnWrite v => exact plain h (r.setAttn _)
  case registerWriteDiscard => exact plain h r
  case ownRoll i k => exact plain h (r.ownRoll i k)
  case spanFrameReceived sp rx =>
    refine plain h ?_
    split
    · exact r.spanPeriod sp rx
    · exact r
  case spanTrained sp => exact plain h (r.spanTrained sp)
  case spanErrors sp => exact plain h (r.spanErrors sp)
  case peerRestart sp => exact plain h (r.peerRestart sp)
  case holdDownRecovered sp => exact plain h (r.holdDownRecovered sp)
  case proveEnd sp => exact plain h (r.proveEnd sp)
  case portFramePeriod p rx =>
    refine plain h ?_
    split
    · exact r.portPeriod p rx
    · exact r
  case portLost p => exact plain h (r.portLost p)
  case portRecovered p => exact plain h (r.portRecovered p)
  case reportAgeExpiry k => exact plain h (r.reportAgeExpiry k)
  case candidateQualified x => exact plain h (r.candidateQualified x)
  case readIssue => exact plain h r.issueRead
  case readUnitArrival k m e u =>
    refine plain h ?_
    split
    · exact r.raise _
    · exact r
    · next hk => exact r.unitArrived _ _ _ _ _ _ _ _ hk
  case readTimeout k => exact plain h (r.timeOutRead k)
  case quarantineEnd k => exact plain h (r.endQuarantine k)
  case recheckExpiry n =>
    refine plain h ?_
    split
    · exact r.fetch n
    · exact r
  case waitingReoffer n =>
    refine plain h ?_
    split
    · exact r.reoffer n false
    · exact r
  case fenceRetry n =>
    refine plain h ?_
    dsimp only
    split
    · exact r.reoffer n false
    · exact r
  case admissionStart => exact plain h (r.startHeads _)
  case readyEntryAdmit => exact plain h r.moveReady
  case waitExpiry k => exact plain h (r.waitExpiry k)
  case expectWindowExpiry i => exact plain h (r.expectWindowExpiry i)
  case offerRetry i => exact plain h (r.offerRetry i)
  case noAnswerExpiry i => exact plain h (r.noAnswerExpiry i)
  case matchDeadlineExpiry i => exact plain h (r.matchDeadlineExpiry i)
  case peerStallExpiry i => exact plain h (r.peerStallExpiry i)
  case rolledRetry i => exact plain h (r.rolledRetry i)
  case releaseGuardEnd i => exact plain h (r.releaseGuardEnd i)
  case unwindGuardEnd i => exact plain h (r.unwindGuardEnd i)
  case offerArrival sp slot txn rank dir quick =>
    exact plain h (r.arrive sp _ _ fun t i e ht he hs => ht.offerAt sp _ i e he hs)
  case acceptArrival sp slot txn rank => exact plain h (r.arrive sp _ _ fun t i e ht he _ => ht.acceptAt txn i e he)
  case declineArrival sp slot txn rank reason =>
    exact plain h (r.arrive sp _ _ fun t i e ht he _ => ht.declineAt txn reason i e he)
  case rolledArrival sp slot txn rank => exact plain h (r.arrive sp _ _ fun t i e ht he _ => ht.rolledAt txn i e he)
  case releaseArrival sp slot txn rank => exact plain h (r.arrive sp _ _ fun t i e ht he _ => ht.releaseAt txn i e he)
  case abandonArrival sp slot txn rank reason =>
    exact plain h (r.arrive sp _ _ fun t i e ht _ _ => ht.abandonAt txn reason i e)
  case writePlaceGrant => exact plain h r.grantPlace
  case settledWrite => exact plain h r.grantSettled
  case writeAnswer reply => exact plain h (r.writeAnswered reply)
  case writeTimeout => exact plain h r.timeOutWrite
  case noticePost =>
    refine plain h ?_
    split
    · exact r.postNotice
    · exact r
  case noticeRecheck =>
    refine plain h ?_
    split
    · exact r.readNotices
    · exact r
  case statusRowWrite =>
    refine plain h ?_
    split
    · exact r.writeRow
    · exact r

end Sys2Proof.Machine
end

