-- ==== Sys2Proof/Laws/Reports.lean ====
section
/-! SUPPORT. What handing a notice, raising a cause and settling an order leave alone: one law for each field and each
named read of the state, so that no proof opens them. -/

namespace Sys2Proof.Machine.State

open Sys2Proof

variable (s : State)

theorem raise_eq (c : Cause) : s.raise c = s.setAttn (s.attn ||| c.bit) := rfl
theorem addClaim_eq (c : WriteClaim) : s.addClaim c = s.setSmp { s.smp with claims := s.smp.claims ++ [c] } := rfl

/-! ### Handing a notice (R167) -/

/-- With room the notice joins the tail of the pending queue. -/
theorem handNotice_room (b : NoticeBody) (h : s.nte.pending.length < 16) :
    s.handNotice b = s.setNte { s.nte with pending := s.nte.pending ++ [⟨s.counter, b⟩] } := if_pos h
/-- Without room it is lost. -/
theorem handNotice_full (b : NoticeBody) (h : 16 ≤ s.nte.pending.length) :
    s.handNotice b = (s.setNte { s.nte with lost := min (s.nte.lost + 1) 65535 }).setAttn (s.attn ||| 0b100000#6) :=
  if_neg (Nat.not_lt.2 h)

@[simp] theorem handNotice_phase (b : NoticeBody) : (s.handNotice b).phase = s.phase := by unfold handNotice; split <;> rfl
@[simp] theorem handNotice_resetLow (b : NoticeBody) : (s.handNotice b).resetLow = s.resetLow := by unfold handNotice; split <;> rfl
@[simp] theorem handNotice_counter (b : NoticeBody) : (s.handNotice b).counter = s.counter := by unfold handNotice; split <;> rfl
@[simp] theorem handNotice_cfg (b : NoticeBody) : (s.handNotice b).cfg = s.cfg := by unfold handNotice; split <;> rfl
@[simp] theorem handNotice_blockBase (b : NoticeBody) : (s.handNotice b).blockBase = s.blockBase := by unfold handNotice; split <;> rfl
@[simp] theorem handNotice_attnMask (b : NoticeBody) : (s.handNotice b).attnMask = s.attnMask := by unfold handNotice; split <;> rfl
@[simp] theorem handNotice_circuits (b : NoticeBody) : (s.handNotice b).circuits = s.circuits := by unfold handNotice; split <;> rfl
@[simp] theorem handNotice_align (b : NoticeBody) : (s.handNotice b).align = s.align := by unfold handNotice; split <;> rfl
@[simp] theorem handNotice_lineOcc (b : NoticeBody) : (s.handNotice b).lineOcc = s.lineOcc := by unfold handNotice; split <;> rfl
@[simp] theorem handNotice_spanOcc (b : NoticeBody) : (s.handNotice b).spanOcc = s.spanOcc := by unfold handNotice; split <;> rfl
@[simp] theorem handNotice_officeIn (b : NoticeBody) : (s.handNotice b).officeIn = s.officeIn := by unfold handNotice; split <;> rfl
@[simp] theorem handNotice_officeOut (b : NoticeBody) : (s.handNotice b).officeOut = s.officeOut := by unfold handNotice; split <;> rfl
@[simp] theorem handNotice_lineOut (b : NoticeBody) : (s.handNotice b).lineOut = s.lineOut := by unfold handNotice; split <;> rfl
@[simp] theorem handNotice_queue (b : NoticeBody) : (s.handNotice b).queue = s.queue := by unfold handNotice; split <;> rfl
@[simp] theorem handNotice_watch (b : NoticeBody) : (s.handNotice b).watch = s.watch := by unfold handNotice; split <;> rfl
@[simp] theorem handNotice_bridges (b : NoticeBody) : (s.handNotice b).bridges = s.bridges := by unfold handNotice; split <;> rfl
@[simp] theorem handNotice_groups (b : NoticeBody) : (s.handNotice b).groups = s.groups := by unfold handNotice; split <;> rfl
@[simp] theorem handNotice_spans (b : NoticeBody) : (s.handNotice b).spans = s.spans := by unfold handNotice; split <;> rfl
@[simp] theorem handNotice_ports (b : NoticeBody) : (s.handNotice b).ports = s.ports := by unfold handNotice; split <;> rfl
@[simp] theorem handNotice_monitors (b : NoticeBody) : (s.handNotice b).monitors = s.monitors := by unfold handNotice; split <;> rfl
@[simp] theorem handNotice_ftu (b : NoticeBody) : (s.handNotice b).ftu = s.ftu := by unfold handNotice; split <;> rfl
@[simp] theorem handNotice_runners (b : NoticeBody) : (s.handNotice b).runners = s.runners := by unfold handNotice; split <;> rfl
@[simp] theorem handNotice_settles (b : NoticeBody) : (s.handNotice b).settles = s.settles := by unfold handNotice; split <;> rfl
@[simp] theorem handNotice_nextSettle (b : NoticeBody) : (s.handNotice b).nextSettle = s.nextSettle := by unfold handNotice; split <;> rfl
@[simp] theorem handNotice_smp (b : NoticeBody) : (s.handNotice b).smp = s.smp := by unfold handNotice; split <;> rfl
@[simp] theorem handNotice_pending (b : NoticeBody) : (s.handNotice b).pending = s.pending := by unfold handNotice; split <;> rfl
@[simp] theorem handNotice_circuit (b : NoticeBody) (c : CircuitNo) : (s.handNotice b).circuit c = s.circuit c := by
  unfold handNotice; split <;> rfl
@[simp] theorem handNotice_alignOf (b : NoticeBody) (c : CircuitNo) : (s.handNotice b).alignOf c = s.alignOf c := by
  unfold handNotice; split <;> rfl
@[simp] theorem handNotice_lineUse (b : NoticeBody) (p : LinePos) : (s.handNotice b).lineUse p = s.lineUse p := by
  unfold handNotice; split <;> rfl
@[simp] theorem handNotice_slotEntry (b : NoticeBody) (x : BearerSlot) : (s.handNotice b).slotEntry x = s.slotEntry x := by
  unfold handNotice; split <;> rfl
@[simp] theorem handNotice_bridge (b : NoticeBody) (i : BridgeNo) : (s.handNotice b).bridge i = s.bridge i := by
  unfold handNotice; split <;> rfl
@[simp] theorem handNotice_group (b : NoticeBody) (g : Fin 4) : (s.handNotice b).group g = s.group g := by
  unfold handNotice; split <;> rfl
@[simp] theorem handNotice_span (b : NoticeBody) (sp : Span) : (s.handNotice b).span sp = s.span sp := by
  unfold handNotice; split <;> rfl
@[simp] theorem handNotice_port (b : NoticeBody) (p : PortNo) : (s.handNotice b).port p = s.port p := by
  unfold handNotice; split <;> rfl
@[simp] theorem handNotice_monitor (b : NoticeBody) (c : CircuitNo) : (s.handNotice b).monitor c = s.monitor c := by
  unfold handNotice; split <;> rfl
@[simp] theorem handNotice_runner (b : NoticeBody) (n : Fin 4) : (s.handNotice b).runner n = s.runner n := by
  unfold handNotice; split <;> rfl
@[simp] theorem handNotice_inService (b : NoticeBody) (sp : Span) : (s.handNotice b).inService sp = s.inService sp := by
  unfold handNotice; split <;> rfl
@[simp] theorem handNotice_tag (b : NoticeBody) (k : Fin 4) : (s.handNotice b).tag k = s.tag k := by
  unfold handNotice; split <;> rfl

/-! ### Claims to a place in the posted-write queue (R161) -/

@[simp] theorem setHeld_same (n : Fin 4) (x : List (List WriteClaim)) : (s.setHeld n x).heldClaims n = x := by
  simp [setHeld, heldClaims]
@[simp] theorem setHeld_claims (n : Fin 4) (x : List (List WriteClaim)) : (s.setHeld n x).smp.claims = s.smp.claims := rfl
@[simp] theorem setClaims_claims (x : List WriteClaim) : (s.setClaims x).smp.claims = x := rfl
@[simp] theorem setClaims_heldClaims (x : List WriteClaim) (n : Fin 4) : (s.setClaims x).heldClaims n = s.heldClaims n := rfl

/-- When a runner keeps its further claims: one of its own waits, or has yet to be made. -/
theorem claimsHeld_iff (n : Fin 4) :
    s.claimsHeld n = true ↔ (∃ c ∈ s.smp.claims, c.runner = n) ∨ s.heldClaims n ≠ [] := by
  simp [claimsHeld, List.any_eq_true]

/-- A claim joins the claims, or those its runner keeps, and nothing else changes. -/
theorem makeClaim_form (c : WriteClaim) :
    ∃ q h, s.makeClaim c = s.setSmp { s.smp with claims := q, held := h } := by
  unfold makeClaim
  split
  · exact ⟨s.smp.claims, _, rfl⟩
  · exact ⟨_, s.smp.held, rfl⟩

/-- Making the claims a runner has kept changes only the claims and those kept. -/
theorem makeHeld_form (n : Fin 4) : ∃ q h, s.makeHeld n = s.setSmp { s.smp with claims := q, held := h } := by
  unfold makeHeld
  split
  · exact ⟨s.smp.claims, s.smp.held, rfl⟩
  · split
    · exact ⟨s.smp.claims, s.smp.held, rfl⟩
    · exact ⟨_, _, rfl⟩

/-- Withdrawing a claim to take a record changes only the claims and those kept. -/
theorem withdrawTake_form (n : Fin 4) : ∃ q h, s.withdrawTake n = s.setSmp { s.smp with claims := q, held := h } := by
  obtain ⟨q, h, e⟩ := ((s.setClaims (s.smp.claims.filter fun c => c != .take n)).setHeld n
    ((s.heldClaims n).filter fun l => l != [.take n])).makeHeld_form n
  exact ⟨q, h, e⟩

@[simp] theorem makeHeld_setRunner (n m : Fin 4) (x : Runner) :
    (s.setRunner m x).makeHeld n = (s.makeHeld n).setRunner m x := by
  unfold makeHeld
  rw [show (s.setRunner m x).heldClaims n = s.heldClaims n from rfl, setRunner_smp]
  cases s.heldClaims n with
  | nil => rfl
  | cons l rest => dsimp only; split <;> rfl
@[simp] theorem withdrawTake_setRunner (n m : Fin 4) (x : Runner) :
    (s.setRunner m x).withdrawTake n = (s.withdrawTake n).setRunner m x :=
  makeHeld_setRunner ((s.setClaims _).setHeld n _) n m x
@[simp] theorem withdrawTake_runner (n m : Fin 4) : (s.withdrawTake n).runner m = s.runner m := by
  obtain ⟨_, _, h⟩ := s.withdrawTake_form n; rw [h]; rfl

/-! ### Settling an order (R34) -/

/-- A result write changes only the posted-write queue and the claims. -/
theorem resultWrite_form (n : Fin 4) (w : PostedWrite) :
    ∃ q c, s.resultWrite n w = s.setSmp { s.smp with writes := q, claims := c } := by
  unfold resultWrite queueWrite
  split
  · split
    · exact ⟨_, _, rfl⟩
    · exact ⟨s.smp.writes, s.smp.claims, rfl⟩
  · exact ⟨_, _, rfl⟩

/-- The result writes of a record change only the posted-write queue and the claims, made or kept. -/
theorem claimResults_form (n : Fin 4) (l : List PostedWrite) :
    ∃ q c h, s.claimResults n l = s.setSmp { s.smp with writes := q, claims := c, held := h } := by
  have fold : ∀ (l : List PostedWrite) (t : State),
      ∃ q c, each l (fun w u => u.resultWrite n w) t = t.setSmp { t.smp with writes := q, claims := c } := by
    intro l
    induction l with
    | nil => exact fun t => ⟨t.smp.writes, t.smp.claims, rfl⟩
    | cons w l ih =>
      intro t
      obtain ⟨q, c, h⟩ := t.resultWrite_form n w
      obtain ⟨q', c', h'⟩ := ih (t.resultWrite n w)
      refine ⟨q', c', ?_⟩
      simp only [each, List.foldl_cons] at h' ⊢
      rw [h', h]
      simp
  unfold claimResults
  split
  · exact ⟨s.smp.writes, s.smp.claims, _, rfl⟩
  · obtain ⟨q, c, h⟩ := fold l s
    exact ⟨q, c, s.smp.held, h⟩

/-- A settle that begins changes only the records being settled, the posted-write queue and the claims, made or kept. -/
theorem settleOrder_form (ref : OrderRef) (code : ResultCode) (v : List Byte) (m : List (Byte × Byte)) :
    ∃ q c k, s.settleOrder ref code v m = ((s.setNextSettle (s.nextSettle + 1)).setSettles
      (s.settles ++ [⟨s.nextSettle, ref, code, (m.length + 3) / 4 + 1⟩])).setSmp
        { s.smp with writes := q, claims := c, held := k } := by
  obtain ⟨q, c, k, h⟩ := ((s.setNextSettle (s.nextSettle + 1)).setSettles
      (s.settles ++ [⟨s.nextSettle, ref, code, (s.resultWrites s.nextSettle ref code v m).length⟩])).claimResults_form
    ref.runner (s.resultWrites s.nextSettle ref code v m)
  refine ⟨q, c, k, ?_⟩
  unfold settleOrder
  dsimp only
  rw [h]
  simp [resultWrites]

variable (ref : OrderRef) (code : ResultCode) (v : List Byte) (m : List (Byte × Byte))

@[simp] theorem settleOrder_settles : (s.settleOrder ref code v m).settles =
    s.settles ++ [⟨s.nextSettle, ref, code, (m.length + 3) / 4 + 1⟩] := by
  obtain ⟨_, _, _, h⟩ := s.settleOrder_form ref code v m; rw [h]; rfl
@[simp] theorem settleOrder_nextSettle : (s.settleOrder ref code v m).nextSettle = s.nextSettle + 1 := by
  obtain ⟨_, _, _, h⟩ := s.settleOrder_form ref code v m; rw [h]; rfl
@[simp] theorem settleOrder_phase : (s.settleOrder ref code v m).phase = s.phase := by
  obtain ⟨_, _, _, h⟩ := s.settleOrder_form ref code v m; rw [h]; rfl
@[simp] theorem settleOrder_resetLow : (s.settleOrder ref code v m).resetLow = s.resetLow := by
  obtain ⟨_, _, _, h⟩ := s.settleOrder_form ref code v m; rw [h]; rfl
@[simp] theorem settleOrder_counter : (s.settleOrder ref code v m).counter = s.counter := by
  obtain ⟨_, _, _, h⟩ := s.settleOrder_form ref code v m; rw [h]; rfl
@[simp] theorem settleOrder_cfg : (s.settleOrder ref code v m).cfg = s.cfg := by
  obtain ⟨_, _, _, h⟩ := s.settleOrder_form ref code v m; rw [h]; rfl
@[simp] theorem settleOrder_blockBase : (s.settleOrder ref code v m).blockBase = s.blockBase := by
  obtain ⟨_, _, _, h⟩ := s.settleOrder_form ref code v m; rw [h]; rfl
@[simp] theorem settleOrder_attn : (s.settleOrder ref code v m).attn = s.attn := by
  obtain ⟨_, _, _, h⟩ := s.settleOrder_form ref code v m; rw [h]; rfl
@[simp] theorem settleOrder_attnMask : (s.settleOrder ref code v m).attnMask = s.attnMask := by
  obtain ⟨_, _, _, h⟩ := s.settleOrder_form ref code v m; rw [h]; rfl
@[simp] theorem settleOrder_circuits : (s.settleOrder ref code v m).circuits = s.circuits := by
  obtain ⟨_, _, _, h⟩ := s.settleOrder_form ref code v m; rw [h]; rfl
@[simp] theorem settleOrder_align : (s.settleOrder ref code v m).align = s.align := by
  obtain ⟨_, _, _, h⟩ := s.settleOrder_form ref code v m; rw [h]; rfl
@[simp] theorem settleOrder_lineOcc : (s.settleOrder ref code v m).lineOcc = s.lineOcc := by
  obtain ⟨_, _, _, h⟩ := s.settleOrder_form ref code v m; rw [h]; rfl
@[simp] theorem settleOrder_spanOcc : (s.settleOrder ref code v m).spanOcc = s.spanOcc := by
  obtain ⟨_, _, _, h⟩ := s.settleOrder_form ref code v m; rw [h]; rfl
@[simp] theorem settleOrder_officeIn : (s.settleOrder ref code v m).officeIn = s.officeIn := by
  obtain ⟨_, _, _, h⟩ := s.settleOrder_form ref code v m; rw [h]; rfl
@[simp] theorem settleOrder_officeOut : (s.settleOrder ref code v m).officeOut = s.officeOut := by
  obtain ⟨_, _, _, h⟩ := s.settleOrder_form ref code v m; rw [h]; rfl
@[simp] theorem settleOrder_lineOut : (s.settleOrder ref code v m).lineOut = s.lineOut := by
  obtain ⟨_, _, _, h⟩ := s.settleOrder_form ref code v m; rw [h]; rfl
@[simp] theorem settleOrder_queue : (s.settleOrder ref code v m).queue = s.queue := by
  obtain ⟨_, _, _, h⟩ := s.settleOrder_form ref code v m; rw [h]; rfl
@[simp] theorem settleOrder_watch : (s.settleOrder ref code v m).watch = s.watch := by
  obtain ⟨_, _, _, h⟩ := s.settleOrder_form ref code v m; rw [h]; rfl
@[simp] theorem settleOrder_bridges : (s.settleOrder ref code v m).bridges = s.bridges := by
  obtain ⟨_, _, _, h⟩ := s.settleOrder_form ref code v m; rw [h]; rfl
@[simp] theorem settleOrder_groups : (s.settleOrder ref code v m).groups = s.groups := by
  obtain ⟨_, _, _, h⟩ := s.settleOrder_form ref code v m; rw [h]; rfl
@[simp] theorem settleOrder_spans : (s.settleOrder ref code v m).spans = s.spans := by
  obtain ⟨_, _, _, h⟩ := s.settleOrder_form ref code v m; rw [h]; rfl
@[simp] theorem settleOrder_ports : (s.settleOrder ref code v m).ports = s.ports := by
  obtain ⟨_, _, _, h⟩ := s.settleOrder_form ref code v m; rw [h]; rfl
@[simp] theorem settleOrder_monitors : (s.settleOrder ref code v m).monitors = s.monitors := by
  obtain ⟨_, _, _, h⟩ := s.settleOrder_form ref code v m; rw [h]; rfl
@[simp] theorem settleOrder_ftu : (s.settleOrder ref code v m).ftu = s.ftu := by
  obtain ⟨_, _, _, h⟩ := s.settleOrder_form ref code v m; rw [h]; rfl
@[simp] theorem settleOrder_runners : (s.settleOrder ref code v m).runners = s.runners := by
  obtain ⟨_, _, _, h⟩ := s.settleOrder_form ref code v m; rw [h]; rfl
@[simp] theorem settleOrder_nte : (s.settleOrder ref code v m).nte = s.nte := by
  obtain ⟨_, _, _, h⟩ := s.settleOrder_form ref code v m; rw [h]; rfl
@[simp] theorem settleOrder_pending : (s.settleOrder ref code v m).pending = s.pending := by
  obtain ⟨_, _, _, h⟩ := s.settleOrder_form ref code v m; rw [h]; rfl
@[simp] theorem settleOrder_tags : (s.settleOrder ref code v m).smp.tags = s.smp.tags := by
  obtain ⟨_, _, _, h⟩ := s.settleOrder_form ref code v m; rw [h]; rfl
@[simp] theorem settleOrder_waiting : (s.settleOrder ref code v m).smp.waiting = s.smp.waiting := by
  obtain ⟨_, _, _, h⟩ := s.settleOrder_form ref code v m; rw [h]; rfl
@[simp] theorem settleOrder_sent : (s.settleOrder ref code v m).smp.sent = s.smp.sent := by
  obtain ⟨_, _, _, h⟩ := s.settleOrder_form ref code v m; rw [h]; rfl
@[simp] theorem settleOrder_circuit (c : CircuitNo) : (s.settleOrder ref code v m).circuit c = s.circuit c := by
  obtain ⟨_, _, _, h⟩ := s.settleOrder_form ref code v m; rw [h]; rfl
@[simp] theorem settleOrder_alignOf (c : CircuitNo) : (s.settleOrder ref code v m).alignOf c = s.alignOf c := by
  obtain ⟨_, _, _, h⟩ := s.settleOrder_form ref code v m; rw [h]; rfl
@[simp] theorem settleOrder_lineUse (p : LinePos) : (s.settleOrder ref code v m).lineUse p = s.lineUse p := by
  obtain ⟨_, _, _, h⟩ := s.settleOrder_form ref code v m; rw [h]; rfl
@[simp] theorem settleOrder_slotEntry (x : BearerSlot) : (s.settleOrder ref code v m).slotEntry x = s.slotEntry x := by
  obtain ⟨_, _, _, h⟩ := s.settleOrder_form ref code v m; rw [h]; rfl
@[simp] theorem settleOrder_bridge (i : BridgeNo) : (s.settleOrder ref code v m).bridge i = s.bridge i := by
  obtain ⟨_, _, _, h⟩ := s.settleOrder_form ref code v m; rw [h]; rfl
@[simp] theorem settleOrder_group (g : Fin 4) : (s.settleOrder ref code v m).group g = s.group g := by
  obtain ⟨_, _, _, h⟩ := s.settleOrder_form ref code v m; rw [h]; rfl
@[simp] theorem settleOrder_span (sp : Span) : (s.settleOrder ref code v m).span sp = s.span sp := by
  obtain ⟨_, _, _, h⟩ := s.settleOrder_form ref code v m; rw [h]; rfl
@[simp] theorem settleOrder_port (p : PortNo) : (s.settleOrder ref code v m).port p = s.port p := by
  obtain ⟨_, _, _, h⟩ := s.settleOrder_form ref code v m; rw [h]; rfl
@[simp] theorem settleOrder_monitor (c : CircuitNo) : (s.settleOrder ref code v m).monitor c = s.monitor c := by
  obtain ⟨_, _, _, h⟩ := s.settleOrder_form ref code v m; rw [h]; rfl
@[simp] theorem settleOrder_runner (n : Fin 4) : (s.settleOrder ref code v m).runner n = s.runner n := by
  obtain ⟨_, _, _, h⟩ := s.settleOrder_form ref code v m; rw [h]; rfl
@[simp] theorem settleOrder_inService (sp : Span) : (s.settleOrder ref code v m).inService sp = s.inService sp := by
  obtain ⟨_, _, _, h⟩ := s.settleOrder_form ref code v m; rw [h]; rfl
@[simp] theorem settleOrder_tag (k : Fin 4) : (s.settleOrder ref code v m).tag k = s.tag k := by
  obtain ⟨_, _, _, h⟩ := s.settleOrder_form ref code v m; rw [h]; rfl

end Sys2Proof.Machine.State
end

