-- ==== Sys2Proof/Laws/Freeing.lean ====
section
/-! SUPPORT. Everything the freeing of a bridge entry does to the circuits, the positions, the bridge table and the
settles (R3, R50), and what stranding does to a circuit and its alignment store (R13). -/

namespace Sys2Proof.Machine.State

open Sys2Proof

set_option Elab.async false

variable (s : State)

/-- The codes of the form RELEASED (R49). -/
theorem releasedForm_iff (o : ResultCode) : releasedForm o = true ↔ o = .done ∨ o = .doneForced := by
  cases o <;> decide

/-- The hand of an entry's end settles its order, or leaves the settles alone. -/
theorem handEnd_settles (e : Bridge) (o : ResultCode) (v : FreedValues) : (s.handEnd e o v).settles =
    match e.group, e.ref with
    | none, some ref => s.settles ++ [⟨s.nextSettle, ref, o, 1⟩]
    | _, _ => s.settles := by
  unfold handEnd
  split
  · rename_i h; simp only [h]; unfold memberEnded modGroup; split <;> rfl
  · rename_i h1 h2; simp [h1, h2]
  · rename_i h1 h2; simp [h1, h2]

/-- The hand of an entry's end moves no circuit, position or entry. -/
theorem handEnd_keeps (e : Bridge) (o : ResultCode) (v : FreedValues) : (s.handEnd e o v).circuits = s.circuits ∧
    (s.handEnd e o v).lineOcc = s.lineOcc ∧ (s.handEnd e o v).spanOcc = s.spanOcc ∧
    (s.handEnd e o v).bridges = s.bridges := by
  unfold handEnd
  split
  · unfold memberEnded modGroup; split <;> exact ⟨rfl, rfl, rfl, rfl⟩
  · simp
  · simp

/-- The circuit that a freed bridge leaves. -/
def circuitAfter (e : Bridge) (o : ResultCode) : Circuit :=
  let k := s.freedCircuit e (releasedForm o)
  { k with bridgeIndex := none, groupIndex := none, generation := k.generation + 1,
           lastMigration := freedRecord k.lastMigration e (releasedForm o) }

/-- The Channel Map's part of a freeing, field by field. -/
theorem bridgeFreed_fields (i : BridgeNo) (e : Bridge) (o : ResultCode) : let u := s.bridgeFreed i e o
    let w := s.freeOccupancy e (releasedForm o)
    u.circuits = s.circuits.set e.circuit.val (s.circuitAfter e o) ∧ u.lineOcc = w.lineOcc ∧ u.spanOcc = w.spanOcc ∧
    u.bridges = s.bridges.set i.val none ∧ u.settles = s.settles ∧ u.nextSettle = s.nextSettle := by
  have hw : let w := s.freeOccupancy e (releasedForm o)
      w.circuits = s.circuits ∧ w.bridges = s.bridges ∧ w.settles = s.settles ∧ w.nextSettle = s.nextSettle := by
    unfold freeOccupancy; dsimp only
    split <;> cases (s.circuit e.circuit).vacated <;> exact ⟨rfl, rfl, rfl, rfl⟩
  obtain ⟨h1, h2, h3, h4⟩ := hw
  dsimp only
  unfold bridgeFreed; dsimp only
  split
  · simp only [handNotice_circuits, handNotice_lineOcc, handNotice_spanOcc, handNotice_bridges, handNotice_settles,
      handNotice_nextSettle, discardHeld, modAlign, setAlign, setBridge, setCircuit, h1, h2, h3, h4]
    exact ⟨rfl, trivial, trivial, trivial, trivial, trivial⟩
  · simp only [setBridge, setCircuit, h1, h2, h3, h4]
    exact ⟨rfl, trivial, trivial, trivial, trivial, trivial⟩

variable {s}

/-- The freeing of an entry, field by field. -/
theorem freeAs_fields {i : BridgeNo} {e : Bridge} (h : s.bridge i = some e) (o : ResultCode) : let t := s.freeAs i o
    let w := s.freeOccupancy e (releasedForm o)
    t.circuits = s.circuits.set e.circuit.val (s.circuitAfter e o) ∧ t.lineOcc = w.lineOcc ∧ t.spanOcc = w.spanOcc ∧
    t.bridges = s.bridges.set i.val none ∧ t.settles = match e.group, e.ref with
      | none, some ref => s.settles ++ [⟨s.nextSettle, ref, o, 1⟩]
      | _, _ => s.settles := by
  obtain ⟨b1, b2, b3, b4, b5, b6⟩ := s.bridgeFreed_fields i e o
  dsimp only
  unfold freeAs
  rw [withBridge_some _ h]
  obtain ⟨k1, k2, k3, k4⟩ := (s.bridgeFreed i e o).handEnd_keeps e o ((s.bridgeFreed i e o).freedValues e)
  have hs := (s.bridgeFreed i e o).handEnd_settles e o ((s.bridgeFreed i e o).freedValues e)
  rw [b5, b6] at hs
  exact ⟨k1.trans b1, k2.trans b2, k3.trans b3, k4.trans b4, hs⟩

/-- The circuits, entries and positions after a freeing, read one at a time. -/
theorem freeAs_reads {i : BridgeNo} {e : Bridge} (h : s.bridge i = some e) (o : ResultCode) :
    (∀ j, (s.freeAs i o).bridge j = if i = j then none else s.bridge j) ∧
    (∀ c, (s.freeAs i o).circuit c = if e.circuit = c then s.circuitAfter e o else s.circuit c) ∧
    (∀ p, (s.freeAs i o).lineUse p = (s.freeOccupancy e (releasedForm o)).lineUse p) ∧
    ∀ b, (s.freeAs i o).slotEntry b = (s.freeOccupancy e (releasedForm o)).slotEntry b := by
  obtain ⟨h1, h2, h3, h4, _⟩ := freeAs_fields h o
  refine ⟨fun j => ?_, fun c => ?_, fun p => by simp only [lineUse, h2], fun b => by simp only [slotEntry, h3]⟩
  · rw [← bridge_setBridge]; simp only [bridge, h4]; rfl
  · rw [← circuit_setCircuit]; simp only [circuit, h1]; rfl

/-- A circuit and its alignment store after one circuit is tried for stranding (R13). -/
theorem strand_reads (sp : Span) (d c : CircuitNo) :
    ((s.strand sp d).circuit c, (s.strand sp d).alignOf c) =
      if d = c ∧ (s.circuit c).pathState = .fibre ∧ (s.circuit c).bearer.map BearerSlot.span = some sp then
        (Circuit.silent { s.circuit c with pathState := .stranded, generation := (s.circuit c).generation + 1 },
         { s.alignOf c with lineHistory := [], spanHistory := [], repeatsDue := 0 })
      else (s.circuit c, s.alignOf c) := by
  unfold strand
  dsimp only
  split
  · next h =>
    rw [handNotice_circuit, handNotice_alignOf]
    simp only [Bool.and_eq_true, beq_iff_eq] at h
    by_cases hd : d = c
    · subst hd; simp [h, discardHeld, modAlign]
    · simp [hd, discardHeld, modAlign, circuit_setCircuit, alignOf_setAlign]
  · next h =>
    simp only [Bool.and_eq_true, beq_iff_eq] at h
    rw [if_neg]; rintro ⟨rfl, h2⟩; exact h h2

end Sys2Proof.Machine.State
end

