-- ==== Sys2Proof/Laws/PerInstr.lean ====
section
/-! SUPPORT. What is said of every command as it is written, one lemma for each row: the only ways for a command to be
ill formed are the three operand ranges. -/

namespace Sys2Proof.Laws.Rows

set_option Elab.async false

/-- A command is well formed exactly when its code, its offset and its pulses are in the ranges that its row asks for;
a row that asks for none has no ill-formed command. -/
def Statement (i : Instr) : Prop :=
  i.wellFormed = true ↔
    (∀ code, i = .nudgeUnknownCode code → unknownNudgeCode code = true) ∧
    (∀ offset value, i = .registerWriteDiscard offset value → discardedOffset offset = true) ∧
    (∀ p rx, i = .portFramePeriod p rx → periodFits rx = true)

/-- A command of a row that asks for no range meets the statement. -/
theorem of_unnamed {i : Instr} (h : i.wellFormed = true) (code : ∀ code, i ≠ .nudgeUnknownCode code)
    (offset : ∀ offset value, i ≠ .registerWriteDiscard offset value) (period : ∀ p rx, i ≠ .portFramePeriod p rx) :
    Statement i :=
  ⟨fun _ => ⟨fun c e => absurd e (code c), fun o v e => absurd e (offset o v), fun p rx e => absurd e (period p rx)⟩,
    fun _ => h⟩

theorem resetnRelease : Statement (.resetnRelease) :=
  of_unnamed rfl nofun nofun nofun
theorem configStreamEnd (stream : BitVec 48) : Statement (.configStreamEnd stream) :=
  of_unnamed rfl nofun nofun nofun
theorem warmnPulse : Statement (.warmnPulse) :=
  of_unnamed rfl nofun nofun nofun
theorem nudgeStart (n : Fin 4) : Statement (.nudgeStart n) :=
  of_unnamed rfl nofun nofun nofun
theorem nudgeStop (n : Fin 4) : Statement (.nudgeStop n) :=
  of_unnamed rfl nofun nofun nofun
theorem nudgeWake (n : Fin 4) : Statement (.nudgeWake n) :=
  of_unnamed rfl nofun nofun nofun
theorem nudgeNotices : Statement (.nudgeNotices) :=
  of_unnamed rfl nofun nofun nofun
theorem nudgeWarm : Statement (.nudgeWarm) :=
  of_unnamed rfl nofun nofun nofun
theorem nudgeUnknownCode (code : BitVec 4) : Statement (.nudgeUnknownCode code) :=
  ⟨fun h => ⟨fun _ e => by cases e; exact h, nofun, nofun⟩, fun h => h.1 _ rfl⟩
theorem blockBaseWrite (value : BitVec 64) : Statement (.blockBaseWrite value) :=
  of_unnamed rfl nofun nofun nofun
theorem attnWrite (value : BitVec 64) : Statement (.attnWrite value) :=
  of_unnamed rfl nofun nofun nofun
theorem attnMaskWrite (value : BitVec 64) : Statement (.attnMaskWrite value) :=
  of_unnamed rfl nofun nofun nofun
theorem registerWriteDiscard (offset value : BitVec 64) : Statement (.registerWriteDiscard offset value) :=
  ⟨fun h => ⟨nofun, fun _ _ e => by cases e; exact h, nofun⟩, fun h => h.2.1 _ _ rfl⟩
theorem frameTick (loopA loopB : LoopReturn) : Statement (.frameTick loopA loopB) :=
  of_unnamed rfl nofun nofun nofun
theorem ownRoll (i : BridgeNo) (cause : RollCause) : Statement (.ownRoll i cause) :=
  of_unnamed rfl nofun nofun nofun
theorem spanFrameReceived (sp : Span) (rx : SpanPeriod) : Statement (.spanFrameReceived sp rx) :=
  of_unnamed rfl nofun nofun nofun
theorem spanTrained (sp : Span) : Statement (.spanTrained sp) :=
  of_unnamed rfl nofun nofun nofun
theorem spanErrors (sp : Span) : Statement (.spanErrors sp) :=
  of_unnamed rfl nofun nofun nofun
theorem peerRestart (sp : Span) : Statement (.peerRestart sp) :=
  of_unnamed rfl nofun nofun nofun
theorem holdDownRecovered (sp : Span) : Statement (.holdDownRecovered sp) :=
  of_unnamed rfl nofun nofun nofun
theorem proveEnd (sp : Span) : Statement (.proveEnd sp) :=
  of_unnamed rfl nofun nofun nofun
theorem portFramePeriod (p : PortNo) (rx : PortPeriod) : Statement (.portFramePeriod p rx) :=
  ⟨fun h => ⟨nofun, nofun, fun _ _ e => by cases e; exact h⟩, fun h => h.2.2 _ _ rfl⟩
theorem portLost (p : PortNo) : Statement (.portLost p) :=
  of_unnamed rfl nofun nofun nofun
theorem portRecovered (p : PortNo) : Statement (.portRecovered p) :=
  of_unnamed rfl nofun nofun nofun
theorem reportAgeExpiry (c : CircuitNo) : Statement (.reportAgeExpiry c) :=
  of_unnamed rfl nofun nofun nofun
theorem candidateQualified (src : Source) : Statement (.candidateQualified src) :=
  of_unnamed rfl nofun nofun nofun
theorem readIssue : Statement (.readIssue) :=
  of_unnamed rfl nofun nofun nofun
theorem readUnitArrival (tag : Fin 4) (mark : UnitMark) (error : Bool) (data : Vector Byte 32) : Statement (.readUnitArrival tag mark error data) :=
  of_unnamed rfl nofun nofun nofun
theorem readTimeout (tag : Fin 4) : Statement (.readTimeout tag) :=
  of_unnamed rfl nofun nofun nofun
theorem quarantineEnd (tag : Fin 4) : Statement (.quarantineEnd tag) :=
  of_unnamed rfl nofun nofun nofun
theorem recheckExpiry (n : Fin 4) : Statement (.recheckExpiry n) :=
  of_unnamed rfl nofun nofun nofun
theorem waitingReoffer (n : Fin 4) : Statement (.waitingReoffer n) :=
  of_unnamed rfl nofun nofun nofun
theorem fenceRetry (n : Fin 4) : Statement (.fenceRetry n) :=
  of_unnamed rfl nofun nofun nofun
theorem admissionStart : Statement (.admissionStart) :=
  of_unnamed rfl nofun nofun nofun
theorem readyEntryAdmit : Statement (.readyEntryAdmit) :=
  of_unnamed rfl nofun nofun nofun
theorem waitExpiry (c : CircuitNo) : Statement (.waitExpiry c) :=
  of_unnamed rfl nofun nofun nofun
theorem expectWindowExpiry (i : BridgeNo) : Statement (.expectWindowExpiry i) :=
  of_unnamed rfl nofun nofun nofun
theorem offerRetry (i : BridgeNo) : Statement (.offerRetry i) :=
  of_unnamed rfl nofun nofun nofun
theorem noAnswerExpiry (i : BridgeNo) : Statement (.noAnswerExpiry i) :=
  of_unnamed rfl nofun nofun nofun
theorem matchDeadlineExpiry (i : BridgeNo) : Statement (.matchDeadlineExpiry i) :=
  of_unnamed rfl nofun nofun nofun
theorem peerStallExpiry (i : BridgeNo) : Statement (.peerStallExpiry i) :=
  of_unnamed rfl nofun nofun nofun
theorem rolledRetry (i : BridgeNo) : Statement (.rolledRetry i) :=
  of_unnamed rfl nofun nofun nofun
theorem releaseGuardEnd (i : BridgeNo) : Statement (.releaseGuardEnd i) :=
  of_unnamed rfl nofun nofun nofun
theorem unwindGuardEnd (i : BridgeNo) : Statement (.unwindGuardEnd i) :=
  of_unnamed rfl nofun nofun nofun
theorem offerArrival (sp : Span) (slot : Fin 256) (txn rank : Byte) (dir : Direction) (quick : Bool) : Statement (.offerArrival sp slot txn rank dir quick) :=
  of_unnamed rfl nofun nofun nofun
theorem acceptArrival (sp : Span) (slot : Fin 256) (txn rank : Byte) : Statement (.acceptArrival sp slot txn rank) :=
  of_unnamed rfl nofun nofun nofun
theorem declineArrival (sp : Span) (slot : Fin 256) (txn rank : Byte) (reason : Reason) : Statement (.declineArrival sp slot txn rank reason) :=
  of_unnamed rfl nofun nofun nofun
theorem rolledArrival (sp : Span) (slot : Fin 256) (txn rank : Byte) : Statement (.rolledArrival sp slot txn rank) :=
  of_unnamed rfl nofun nofun nofun
theorem releaseArrival (sp : Span) (slot : Fin 256) (txn rank : Byte) : Statement (.releaseArrival sp slot txn rank) :=
  of_unnamed rfl nofun nofun nofun
theorem abandonArrival (sp : Span) (slot : Fin 256) (txn rank : Byte) (reason : Reason) : Statement (.abandonArrival sp slot txn rank reason) :=
  of_unnamed rfl nofun nofun nofun
theorem writePlaceGrant : Statement (.writePlaceGrant) :=
  of_unnamed rfl nofun nofun nofun
theorem settledWrite : Statement (.settledWrite) :=
  of_unnamed rfl nofun nofun nofun
theorem writeAnswer (reply : WriteReply) : Statement (.writeAnswer reply) :=
  of_unnamed rfl nofun nofun nofun
theorem writeTimeout : Statement (.writeTimeout) :=
  of_unnamed rfl nofun nofun nofun
theorem noticePost : Statement (.noticePost) :=
  of_unnamed rfl nofun nofun nofun
theorem noticeRecheck : Statement (.noticeRecheck) :=
  of_unnamed rfl nofun nofun nofun
theorem statusRowWrite : Statement (.statusRowWrite) :=
  of_unnamed rfl nofun nofun nofun
theorem resetnHeldLow : Statement (.resetnHeldLow) :=
  of_unnamed rfl nofun nofun nofun

end Sys2Proof.Laws.Rows
end

