-- ==== Sys2Proof/Laws/SpanFrames.lean ====
section
/-! SUPPORT. What a receiver finds a span frame to be, without computing its check: a closed frame passes it, and a frame
with another check is errored. -/

namespace Sys2Proof.Machine

open Sys2Proof

/-- A frame whose check is not the one its octets give is errored, and the reference marker stays (R120). -/
theorem judgeFrame_wrongCheck (m : Marker) (f : SpanFrame) (h : f.check ≠ frameCheck f) :
    judgeFrame m f = (.errored, m) := by
  simp [judgeFrame, h]

/-- A closed TRAIN frame is a good TRAIN (R120). -/
theorem judgeFrame_train (m : Marker) (f : SpanFrame) (h : f.kind = 1) :
    judgeFrame m (closeFrame f) = (.train f.rank, .even) := by
  simp [judgeFrame, closeFrame, frameCheck, frameCovered, h]

/-- A closed REPLY frame is a good REPLY (R120). -/
theorem judgeFrame_reply (m : Marker) (f : SpanFrame) (h : f.kind = 2) :
    judgeFrame m (closeFrame f) = (.reply f.rank, .even) := by
  simp [judgeFrame, closeFrame, frameCheck, frameCovered, h]

/-- A closed CARRY frame is errored when it repeats the reference marker, and else a good CARRY of its fields, restored
(R118, R119, R120). -/
theorem judgeFrame_carry (m : Marker) (f : SpanFrame) (h : f.kind = 3) :
    judgeFrame m (closeFrame f) =
      (if frameMarker f == m then .errored
       else .carry (invertIf (frameInverted f) f.bearer) (invertIf (frameInverted f) f.control), frameMarker f) := by
  simp [judgeFrame, closeFrame, frameCheck, frameCovered, h, frameMarker, frameInverted]

end Sys2Proof.Machine
end

