-- ==== Sys2Proof/Laws/StartEffects.lean ====
section
/-! SUPPORT. What a start does (R42 to R47, R84, R86, R107): the state that starting a MIGRATE, an EXPECT or the members of
a GROUP leads to, said once, so that no proof unfolds the start again. -/

open Sys2Proof Sys2Proof.Machine

set_option Elab.async false
set_option linter.unusedSimpArgs false
set_option linter.unusedVariables false

namespace Sys2Proof.Machine.State

variable {s : State}

/-- Updates of different parts commute. -/
theorem setBridge_setCircuit (i : BridgeNo) (x : Option Bridge) (c : CircuitNo) (y : Circuit) : (s.setBridge i x).setCircuit
    c y = (s.setCircuit c y).setBridge i x := rfl
theorem setBridge_setAlign (i : BridgeNo) (x : Option Bridge) (c : CircuitNo) (y : AlignStore) : (s.setBridge i x).setAlign c
    y = (s.setAlign c y).setBridge i x := rfl
theorem setCircuit_setAlign (d : CircuitNo) (x : Circuit) (c : CircuitNo) (y : AlignStore) : (s.setCircuit d x).setAlign c y
    = (s.setAlign c y).setCircuit d x := rfl
theorem setSpan_setBridge (sp : Span) (z : SpanState) (i : BridgeNo) (x : Option Bridge) : (s.setSpan sp z).setBridge i x =
    (s.setBridge i x).setSpan sp z := rfl
theorem setSpan_setCircuit (sp : Span) (z : SpanState) (c : CircuitNo) (x : Circuit) : (s.setSpan sp z).setCircuit c x =
    (s.setCircuit c x).setSpan sp z := rfl
theorem setSpan_setAlign (sp : Span) (z : SpanState) (c : CircuitNo) (x : AlignStore) : (s.setSpan sp z).setAlign c x =
    (s.setAlign c x).setSpan sp z := rfl
/-- The directions differ. -/
theorem toFibre_beq_toCopper : (Direction.toFibre == Direction.toCopper) = false := rfl
theorem toCopper_beq_toFibre : (Direction.toCopper == Direction.toFibre) = false := rfl
/-- The OFFER that a move hands at its start (R47, R84). -/
def offerMessage (s : State) (m : MoveOrder) (b : BearerSlot) : RollMessage :=
  ⟨.offer, b.slot, (s.span b.span).txnCounter, s.cfg.rank, m.direction, m.quick, none⟩

/-- The message an initiator in OFFERING hands is its OFFER, which is placed or waits (R86). -/
theorem handMessage_offering {t : State} {i : BridgeNo} {e : Bridge} (he : t.bridge i = some e) (hph : e.phase = .offering)
    (hr : e.role = .initiator)
   (hsv : t.inService e.bearer.span = true) (hpd : e.pending = false) :
   t.handMessage i = match placeMessage (t.span e.bearer.span).txQueue i ⟨.offer, e.bearer.slot, e.txn.getD 0, t.cfg.rank,
       e.direction, e.quick, none⟩ with
     | some q => t.setTxQueue e.bearer.span q
     | none => t.setBridge i (some { e with pending := true }) := by
  unfold handMessage
  rw [withBridge_some _ he]
  have h1 : t.entryMessage e = some ⟨.offer, e.bearer.slot, e.txn.getD 0, t.cfg.rank, e.direction, e.quick, none⟩ := by
    simp [entryMessage, Bridge.calledFor, hph, hr]
  simp only [h1, hsv, hpd]
  simp only [Bool.not_true, Bool.or_self, Bool.false_eq_true, if_false]
  cases hq : placeMessage (t.span e.bearer.span).txQueue i ⟨.offer, e.bearer.slot, e.txn.getD 0, t.cfg.rank, e.direction,
      e.quick, none⟩ with
  | some q =>
    simp only
    unfold afterPlaced
    rw [withBridge_some _ (show (t.setTxQueue e.bearer.span q).bridge i = some e from he)]
    simp [hph]
  | none => rfl

/-- An entry in OFFERING that starts with its line port LOST takes that loss: the forced roll (R79, log 24). -/
theorem lossAtStart_offering {t : State} {i : BridgeNo} {e : Bridge} (he : t.bridge i = some e) (hph : e.phase = .offering)
    (hro : e.rolled = false) :
   t.lossAtStart i = if e.direction == .toFibre && !t.linePresent e.linePos then
      ((t.setAlign e.circuit { t.alignOf e.circuit with repeatsDue := (seamNumbers (t.circuit e.circuit).hold 0).repeats }).setCircuit e.circuit
        { t.circuit e.circuit with lineFeed := false, receive := .span, hold := (seamNumbers (t.circuit e.circuit).hold 0).hold }).setBridge i
        (some { e with fromLost := true, offset := some 0, forced := true,
                       repeats := e.repeats + (seamNumbers (t.circuit e.circuit).hold 0).repeats
                       skipped := e.skipped + (seamNumbers (t.circuit e.circuit).hold 0).skipped
                       rolled := true, matcher := none, matchDue := none, quickDue := none })
     else t := by
  unfold lossAtStart
  rw [withBridge_some _ he]
  cases hd : e.direction
  · simp only [fromPathLost, hd]
    cases hl : t.linePresent e.linePos
    · simp only [Bool.not_false, Bool.and_true, beq_self_eq_true, if_true]
      unfold fromLineLost
      rw [withBridge_some _ he]
      simp only [hph, hro]
      simp only [Bool.false_eq_true, if_false]
      unfold forcedRoll roll
      rw [withBridge_some _ (bridge_setBridge_same _ _ _)]
      simp only [stopFromFeed, hd, seamSwitch, toReceive, modCircuit_eq, modAlign_eq, Circuit.feedFrom]
      simp [hd, setBridge_setCircuit, setBridge_setAlign, setCircuit_setAlign]
    · simp
  · simp [fromPathLost, hd]

/-- The to-path of a move marked (R43, R46). -/
def markedToPath (s : State) (m : MoveOrder) (b : BearerSlot) (p : LinePos) : State :=
  match m.direction with | .toFibre => s.useSlot b (.bridged m.circuit) | .toCopper => s.setLineUse p (.occupied m.circuit)

/-- The circuit of a move after its start (R43, R47, R79). -/
def startedCircuit (s : State) (m : MoveOrder) (p : LinePos) (i : BridgeNo) (g : Option (Fin 4)) : Circuit :=
  let k := s.circuit m.circuit; let lost := m.direction == .toFibre && !s.linePresent p
  let onto := m.direction == .toCopper && k.vacated == some p
  { k with
          pathState := .bridged, bridgeIndex := some i, groupIndex := g, generation := k.generation + 1,
          vacated := if onto then none else k.vacated
          receive := if lost || k.pathState == .stranded then .span else k.receive
          spanFeed := m.direction == .toFibre || k.pathState == .stranded || k.spanFeed
          lineFeed := m.direction == .toCopper || !lost && k.lineFeed
          hold := if k.pathState = .stranded then 0 else if lost then (seamNumbers k.hold 0).hold else k.hold }

/-- The span of a move after its start: the transaction number taken, and the OFFER placed when it finds room (R84, R86). -/
def startedSpan (s : State) (m : MoveOrder) (b : BearerSlot) (i : BridgeNo) : SpanState :=
  let x := s.span b.span
  { x with txnCounter := x.txnCounter + 1, txQueue := (placeMessage x.txQueue i (s.offerMessage m b)).getD x.txQueue }

/-- The entry of a move after its start (R47, R79). -/
structure StartedEntry (s : State) (m : MoveOrder) (b : BearerSlot) (p : LinePos) (i : BridgeNo) (ref : Option OrderRef) (g :
    Option (Fin 4 × Nat)) (e : Bridge) : Prop where
  l0 : (m.direction == .toFibre && !s.linePresent p) = false → e.offset = none ∧ e.forced = false ∧ e.fromLost = false ∧
      e.rolled = false
  l1 : (m.direction == .toFibre && !s.linePresent p) = true → e.offset = some 0 ∧ e.forced = true ∧ e.fromLost = true ∧
      e.rolled = true
  f : e.circuit = m.circuit ∧ e.direction = m.direction ∧ e.role = .initiator ∧ e.bearer = b ∧ e.linePos = p ∧
        e.phase = .offering ∧ e.txn = some (s.span b.span).txnCounter ∧ e.quick = m.quick ∧ e.peerRolled = false ∧
        e.matchLimit = m.matchLimit ∧ e.deadline = some (s.counter + 800) ∧ e.retryDue = some (s.counter + 80) ∧
        e.ref = ref ∧ e.group = g ∧ e.outcome = none ∧ e.ontoVacated = (m.direction == .toCopper && (s.circuit
            m.circuit).vacated == some p)
  pd : e.pending = (placeMessage (s.span b.span).txQueue i (s.offerMessage m b)).isNone

/-- The first writes of a start, as one circuit, one entry and one span written on the marked to-path. -/
theorem bridgeStart_migrate {m : MoveOrder} {b : BearerSlot} {p : LinePos} (i : BridgeNo) (ref : Option OrderRef) (g : Option
    (Fin 4 × Nat)) (hp : s.moveLine m = some p) :
   ∃ a, (((s.bridgeStart i (s.migrateEntry m b p ref g)).modCircuit m.circuit fun k => k.feedTo m.direction true).modSpan
       b.span fun k =>
      { k with txnCounter := k.txnCounter + 1 }) =
    (((((s.markedToPath m b p).setAlign m.circuit a).setCircuit m.circuit
      (let k := s.circuit m.circuit; let onto := m.direction == .toCopper && k.vacated == some p
  { k with
          pathState := .bridged, bridgeIndex := some i, groupIndex := g.map Prod.fst, generation := k.generation + 1,
          vacated := if onto then none else k.vacated
          receive := if k.pathState == .stranded then .span else k.receive
          spanFeed := m.direction == .toFibre || k.pathState == .stranded || k.spanFeed
          lineFeed := m.direction == .toCopper || k.lineFeed
          hold := if k.pathState = .stranded then 0 else k.hold })).setBridge i (some (s.migrateEntry m b p ref g))).setSpan
              b.span 
        { s.span b.span with txnCounter := (s.span b.span).txnCounter + 1 }) := by
  cases hd : m.direction
  · refine ⟨{ s.alignOf m.circuit with spanHistory := [] }, ?_⟩
    unfold bridgeStart
    have e1 : (s.migrateEntry m b p ref g).direction = .toFibre := hd
    have e2 : (s.migrateEntry m b p ref g).circuit = m.circuit := rfl
    have e3 : (s.migrateEntry m b p ref g).bearer = b := rfl
    have e4 : (s.migrateEntry m b p ref g).group = g := rfl
    have e5 : (s.migrateEntry m b p ref g).ontoVacated = false := by simp [migrateEntry, ontoVacated, hd]
    generalize s.migrateEntry m b p ref g = E at *
    simp only [e1, e2, e3, e4, e5, freshPath, modCircuit_eq, modAlign_eq, modSpan_eq, markedToPath, hd, Circuit.feedTo]
    by_cases hs : (s.circuit m.circuit).pathState = .stranded
    · simp [hs, useSlot, setBridge_setCircuit, setBridge_setAlign, setCircuit_setAlign, setSpan_setBridge,
        setSpan_setCircuit, setSpan_setAlign, toFibre_beq_toCopper, toCopper_beq_toFibre]
    · simp [hs, useSlot, setBridge_setCircuit, setBridge_setAlign, setCircuit_setAlign, setSpan_setBridge,
        setSpan_setCircuit, setSpan_setAlign, toFibre_beq_toCopper, toCopper_beq_toFibre]
  · refine ⟨{ s.alignOf m.circuit with lineHistory := [] }, ?_⟩
    unfold bridgeStart
    have e1 : (s.migrateEntry m b p ref g).direction = .toCopper := hd
    have e2 : (s.migrateEntry m b p ref g).circuit = m.circuit := rfl
    have e3 : (s.migrateEntry m b p ref g).bearer = b := rfl
    have e4 : (s.migrateEntry m b p ref g).group = g := rfl
    have e6 : (s.migrateEntry m b p ref g).linePos = p := rfl
    have e5 : (s.migrateEntry m b p ref g).ontoVacated = ((s.circuit m.circuit).vacated == some p) := by simp [migrateEntry,
        ontoVacated, hd]
    generalize s.migrateEntry m b p ref g = E at *
    simp only [e1, e2, e3, e4, e5, e6, freshPath, modCircuit_eq, modAlign_eq, modSpan_eq, markedToPath, hd, Circuit.feedTo]
    by_cases hs : (s.circuit m.circuit).pathState = .stranded
    · simp [hs, setBridge_setCircuit, setBridge_setAlign, setCircuit_setAlign, setSpan_setBridge, setSpan_setCircuit,
        setSpan_setAlign, toFibre_beq_toCopper, toCopper_beq_toFibre]
    · have hs' : ((s.circuit m.circuit).pathState == PathState.stranded) = false := by simpa using hs
      simp [hs, hs', setBridge_setCircuit, setBridge_setAlign, setCircuit_setAlign, setSpan_setBridge, setSpan_setCircuit,
          setSpan_setAlign, toFibre_beq_toCopper, toCopper_beq_toFibre]

/-- All that the start of a MIGRATE or of a group member writes. -/
theorem startMigrate_form {m : MoveOrder} {b : BearerSlot} {p : LinePos} (i : BridgeNo) (ref : Option OrderRef) (g : Option
    (Fin 4 × Nat)) (hb : s.moveBearer m = some b) (hp : s.moveLine m = some p)
   (hsv : s.inService b.span = true) :
   ∃ e a, s.startMigrate i m ref g = (((((s.markedToPath m b p).setAlign m.circuit a).setCircuit m.circuit (s.startedCircuit
       m p i (g.map Prod.fst))).setBridge i (some e)).setSpan b.span (s.startedSpan m b i)) ∧
     s.StartedEntry m b p i ref g e := by
  unfold startMigrate
  rw [hb, hp]
  obtain ⟨a, ha⟩ := bridgeStart_migrate (b := b) i ref g hp
  simp only
  rw [ha]
  generalize hk : (let k := s.circuit m.circuit; let onto := m.direction == .toCopper && k.vacated == some p
  ({ k with
          pathState := .bridged, bridgeIndex := some i, groupIndex := g.map Prod.fst, generation := k.generation + 1,
          vacated := if onto then none else k.vacated
          receive := if k.pathState == .stranded then .span else k.receive
          spanFeed := m.direction == .toFibre || k.pathState == .stranded || k.spanFeed
          lineFeed := m.direction == .toCopper || k.lineFeed
          hold := if k.pathState = .stranded then 0 else k.hold } : Circuit)) = k1
  have hocc : ∀ c, (s.markedToPath m b p).circuit c = s.circuit c := by intro c; unfold markedToPath; split <;> rfl
  have hspan : ∀ c, (s.markedToPath m b p).span c = s.span c := by intro c; unfold markedToPath; split <;> rfl
  have hport : ∀ c, (s.markedToPath m b p).linePresent c = s.linePresent c := by intro c; unfold markedToPath; split <;> rfl
  have hcfg : (s.markedToPath m b p).cfg = s.cfg := by unfold markedToPath; split <;> rfl
  generalize hE : s.migrateEntry m b p ref g = E
  generalize ht : (((((s.markedToPath m b p).setAlign m.circuit a).setCircuit m.circuit k1).setBridge i (some E)).setSpan
      b.span 
        { s.span b.span with txnCounter := (s.span b.span).txnCounter + 1 }) = t
  have hB : t.bridge i = some E := by subst ht; simp
  have hEf : E.phase = .offering ∧ E.role = .initiator ∧ E.bearer = b ∧ E.pending = false ∧ E.rolled = false ∧
      E.txn = some (s.span b.span).txnCounter ∧ E.direction = m.direction ∧ E.quick = m.quick ∧ E.linePos = p ∧
          E.circuit = m.circuit := by
    subst hE; simp [migrateEntry, newBridge]
  obtain ⟨x1, x2, x3, x4, x5, x6, x7, x8, x9, x10⟩ := hEf
  have hS : t.span b.span = { s.span b.span with txnCounter := (s.span b.span).txnCounter + 1 } := by subst ht; simp
  have hI : t.inService E.bearer.span = true := by rw [x3]; unfold inService at hsv ⊢; rw [hS]; exact hsv
  have hC : t.cfg = s.cfg := by subst ht; exact hcfg
  have hmm : t.handMessage i = (match placeMessage (s.span b.span).txQueue i (s.offerMessage m b) with
      | some q => t.setTxQueue b.span q
      | none => t.setBridge i (some { E with pending := true })) := by
    have this := handMessage_offering hB x1 x2 hI x4
    have ho : (⟨.offer, E.bearer.slot, E.txn.getD 0, t.cfg.rank, E.direction, E.quick,
        none⟩ : RollMessage) = s.offerMessage m b := by
      simp [offerMessage, x3, x6, x7, x8, hC]
    rw [ho] at this
    have hq : (t.span E.bearer.span).txQueue = (s.span b.span).txQueue := by rw [x3, hS]
    rw [hq] at this
    rw [this]
    cases placeMessage (s.span b.span).txQueue i (s.offerMessage m b)
    · rfl
    · simp only [x3]
  rw [hmm]
  -- second state
  have h2 : (match placeMessage (s.span b.span).txQueue i (s.offerMessage m b) with
      | some q => t.setTxQueue b.span q
      | none => t.setBridge i (some { E with pending := true })) =
      (((((s.markedToPath m b p).setAlign m.circuit a).setCircuit m.circuit k1).setBridge i (some { E with pending := (placeMessage (s.span b.span).txQueue i (s.offerMessage m b)).isNone })).setSpan b.span (s.startedSpan m b i)) := by
    cases hq : placeMessage (s.span b.span).txQueue i (s.offerMessage m b) with
    | none =>
      simp only [Option.isNone_none, Option.getD_none]
      subst ht
      rw [setSpan_setBridge, setBridge_setBridge]
      simp only [startedSpan, hq, Option.getD_none]
    | some q =>
      simp only [Option.isNone_some, Option.getD_some]
      unfold setTxQueue
      rw [modSpan_eq, hS]
      subst ht
      have : ({ E with pending := false } : Bridge) = E := by rw [← x4]
      rw [this, setSpan_setSpan]
      simp only [startedSpan, hq, Option.getD_some]
  rw [h2]
  clear h2
  generalize hE2 : ({ E with pending := (placeMessage (s.span b.span).txQueue i (s.offerMessage m b)).isNone } : Bridge) = E2
  have y : E2.phase = .offering ∧ E2.rolled = false ∧ E2.direction = m.direction ∧ E2.linePos = p ∧ E2.circuit = m.circuit := by
    subst hE2; exact ⟨x1, x5, x7, x9, x10⟩
  rw [lossAtStart_offering (e := E2) (by simp) y.1 y.2.1, y.2.2.1, y.2.2.2.1, y.2.2.2.2]
  have hp' : ∀ A B D F, ((((((s.markedToPath m b p).setAlign m.circuit A).setCircuit m.circuit B).setBridge i D).setSpan
      b.span F).linePresent p) = s.linePresent p := fun _ _ _ _ => hport p
  rw [hp']
  cases hl : (m.direction == .toFibre && !s.linePresent p)
  · simp only [Bool.false_eq_true, if_false]
    refine ⟨E2, a, ?_, ?_⟩
    · congr 3
      subst hk
      unfold startedCircuit
      simp [hl]
    · subst hE2
      constructor
      · intro _; subst hE; simp [migrateEntry, newBridge]
      · intro h; rw [hl] at h; exact absurd h (by decide)
      · subst hE; simp [migrateEntry, newBridge, after, Config.offerFrames, Config.retryFrames, ontoVacated]
      · rfl
  · simp only [if_true]
    have hst : m.direction = .toFibre := by simp at hl; exact hl.1
    have g1 : ((((((s.markedToPath m b p).setAlign m.circuit a).setCircuit m.circuit k1).setBridge i (some E2)).setSpan
        b.span (s.startedSpan m b i)).circuit m.circuit) = k1 := by simp
    have g2 : ((((((s.markedToPath m b p).setAlign m.circuit a).setCircuit m.circuit k1).setBridge i (some E2)).setSpan
        b.span (s.startedSpan m b i)).alignOf m.circuit) = a := by simp
    rw [g1, g2]
    refine ⟨{ E2 with circuit := m.circuit, direction := m.direction, linePos := p, fromLost := true, offset := some 0, forced := true,
                       repeats := E2.repeats + (seamNumbers k1.hold 0).repeats,
                       skipped := E2.skipped + (seamNumbers k1.hold 0).skipped,
                       rolled := true, matcher := none, matchDue := none, quickDue := none }, { a with repeatsDue := (seamNumbers k1.hold 0).repeats }, ?_, ?_⟩
    · simp only [setSpan_setBridge, setSpan_setCircuit, setSpan_setAlign, setBridge_setCircuit, setBridge_setAlign,
          setCircuit_setAlign, setBridge_setBridge, setCircuit_setCircuit, setAlign_setAlign]
      have : ∀ X Y : Circuit, X = Y → ∀ z : State, z.setCircuit m.circuit X = z.setCircuit m.circuit Y := by rintro X _ rfl z; rfl
      congr 2
      apply this
      subst hk
      unfold startedCircuit
      have hlp : s.linePresent p = false := by simp [hst] at hl; exact hl
      have sz : (seamNumbers 0 0).hold = 0 := by decide
      by_cases hs : (s.circuit m.circuit).pathState = .stranded <;> simp [hs, hst, hlp, toFibre_beq_toCopper, sz]
    · subst hE2
      constructor
      · intro h; rw [hl] at h; exact absurd h (by decide)
      · intro _; subst hE; simp [migrateEntry, newBridge]
      · subst hE; simp [migrateEntry, newBridge, after, Config.offerFrames, Config.retryFrames, ontoVacated]
      · rfl

/-- With no head and with the entries and groups as they were, or no group in use, the end of a step leaves all but the
settles and the rows as they are. -/
theorem finish_settledPart_of_queue_nil {s u : State} (hq : u.queue = []) (h : (u.bridges = s.bridges ∧
    u.groups = s.groups) ∨ ∀ g, u.group g = none) :
    (State.finish s u).settledPart = u.settledPart := by
  have hA : advanceGroups s u = u := by
    unfold advanceGroups
    rcases h with ⟨h1, h2⟩ | h
    · have : sameMoves s u = true := by unfold sameMoves; simp [h1, h2]
      simp [this]
    · have : u.noGroups = true := by unfold noGroups; simp [h]
      simp [this]
  have hE : examineHead s u = u := by
    unfold examineHead
    split
    · rw [hq]; rfl
    · rfl
  unfold finish
  rw [hA, hE]
  simp

/-- The lowest free bridge entry heads the free ones (R42). -/
theorem freeBridges_lowest {i : BridgeNo} (hi : s.bridge i = none) (hl : ∀ j, j < i → s.bridge j ≠ none) : ∃ r,
    s.freeBridges = i :: r := by
  unfold freeBridges
  have key : ∀ (l : List BridgeNo), l.Pairwise (· < ·) → i ∈ l → ∃ r, l.filter (fun i => (s.bridge i).isNone) = i :: r := by
    intro l
    induction l with
    | nil => intro _ h; exact absurd h (by simp)
    | cons x l ih =>
      intro hp hm
      rw [List.pairwise_cons] at hp
      by_cases hx : x = i
      · subst hx; exact ⟨l.filter (fun i => (s.bridge i).isNone), by rw [List.filter_cons]; simp [hi]⟩
      · have hm' : i ∈ l := by simpa [Ne.symm hx] using hm
        have := hl x (hp.1 i hm')
        rw [List.filter_cons, if_neg (by simpa using this)]
        exact ih hp.2 hm'
  exact key _ (List.pairwise_lt_finRange 48) (List.mem_finRange i)

/-- The lowest free group entry is the one a GROUP takes (R107). -/
theorem freeGroup_lowest {g : Fin 4} (hi : s.group g = none) (hl : ∀ j, j < g → s.group j ≠ none) : s.freeGroup = some g := by
  unfold freeGroup
  rw [List.find?_eq_some_iff_getElem]
  refine ⟨by simp [hi], g.val, by simp, by simp, ?_⟩
  intro j hj
  have := hl ⟨j, by omega⟩ hj
  simpa [Option.isSome_iff_ne_none] using this

/-- ADMISSION_START starts the heads that fit (R42). -/
theorem exec_admissionStart (h : s.resetLow = false) : exec .admissionStart s = .next (State.finish s (s.startHeads
    s.queue.length)) := by
  show execAdmissionStart s = _
  unfold execAdmissionStart act; rw [h]; simp only [Bool.false_eq_true, if_false]

/-- The span of a move is `sp`. -/
def movesOn (s : State) (sp : Span) (m : MoveOrder) : Bool := (s.moveBearer m).any fun b => b.span == sp

/-- The start of a MIGRATE or of a group member, field by field. -/
theorem startMigrate_effect {m : MoveOrder} {b : BearerSlot} {p : LinePos} (i : BridgeNo) (ref : Option OrderRef) (g : Option
    (Fin 4 × Nat)) (hb : s.moveBearer m = some b) (hp : s.moveLine m = some p)
   (hsv : s.inService b.span = true) : ∃ e, let t := s.startMigrate i m ref g
     s.StartedEntry m b p i ref g e ∧ t.bridge i = some e ∧ (∀ j, j ≠ i → t.bridge j = s.bridge j) ∧ (∀ c,
         c ≠ m.circuit → t.circuit c = s.circuit c) ∧
     t.circuit m.circuit = s.startedCircuit m p i (g.map Prod.fst) ∧ t.span b.span = s.startedSpan m b i ∧ (∀ sp,
         sp ≠ b.span → t.span sp = s.span sp) ∧
     t.queue = s.queue ∧ t.settles = s.settles ∧ t.groups = s.groups ∧ t.cfg = s.cfg ∧ t.counter = s.counter := by
  obtain ⟨e, a, he, hE⟩ := startMigrate_form i ref g hb hp hsv
  refine ⟨e, hE, ?_⟩
  rw [he]
  have ob : ∀ j, (s.markedToPath m b p).bridge j = s.bridge j := by intro j; unfold markedToPath; split <;> rfl
  have oc : ∀ j, (s.markedToPath m b p).circuit j = s.circuit j := by intro j; unfold markedToPath; split <;> rfl
  have osp : ∀ j, (s.markedToPath m b p).span j = s.span j := by intro j; unfold markedToPath; split <;> rfl
  have o1 : (s.markedToPath m b p).queue = s.queue ∧ (s.markedToPath m b p).settles = s.settles ∧
      (s.markedToPath m b p).groups = s.groups ∧ (s.markedToPath m b p).cfg = s.cfg ∧
          (s.markedToPath m b p).counter = s.counter := by
    unfold markedToPath; split <;> exact ⟨rfl, rfl, rfl, rfl, rfl⟩
  refine ⟨by simp, ?_, ?_, ?_, by rw [span_setSpan_same], ?_, o1.1, o1.2.1, o1.2.2.1, o1.2.2.2.1, o1.2.2.2.2⟩
  · intro j hj
    rw [bridge_setSpan, bridge_setBridge, if_neg (Ne.symm hj)]; exact ob j
  · intro c hc
    rw [circuit_setSpan, circuit_setBridge, circuit_setCircuit, if_neg (Ne.symm hc)]; exact oc c
  · rw [circuit_setSpan, circuit_setBridge, circuit_setCircuit, if_pos rfl]
  · intro sp hsp
    rw [span_setSpan, if_neg (Ne.symm hsp)]; exact osp sp

set_option maxHeartbeats 2000000 in
/-- The members of a GROUP start one after another: each as its own start says, the numbers and the places in the transmit
queues following in member order (R84, R86, R107). -/
theorem startMembers_effect (g : Fin 4) (l : List ((MoveOrder × BridgeNo) × Nat)) : ∀ (v : State),
   (∀ x ∈ l, ∃ b p, v.moveBearer x.1.1 = some b ∧ v.moveLine x.1.1 = some p ∧ v.inService b.span = true) →
   l.Pairwise (fun x y => x.1.1.circuit ≠ y.1.1.circuit ∧ x.1.2 ≠ y.1.2) →
   let w := each l (fun x u => u.startMigrate x.1.2 x.1.1 none (some (g, x.2))) v
   ∃ queue : Nat → Span → List QueuedMessage,
     w.queue = v.queue ∧ w.settles = v.settles ∧ w.groups = v.groups ∧ w.cfg = v.cfg ∧ w.counter = v.counter ∧
     (∀ j, (∀ x ∈ l, j ≠ x.1.2) → w.bridge j = v.bridge j) ∧ (∀ c, (∀ x ∈ l, c ≠ x.1.1.circuit) → w.circuit c = v.circuit c) ∧
     (∀ sp, queue 0 sp = (v.span sp).txQueue ∧ w.span sp = { v.span sp with
        txQueue := queue l.length sp
        txnCounter := (v.span sp).txnCounter + BitVec.ofNat 8 (l.countP fun x => v.movesOn sp x.1.1) }) ∧
     ∀ n x b, l[n]? = some x → v.moveBearer x.1.1 = some b →
       let m := x.1.1
       let txn := (v.span b.span).txnCounter + BitVec.ofNat 8 ((l.take n).countP fun x => v.movesOn b.span x.1.1)
       let offer : RollMessage := ⟨.offer, b.slot, txn, v.cfg.rank, m.direction, m.quick, none⟩
            ∃ e, e.outcome = none ∧ w.bridge x.1.2 = some e ∧ e.circuit = m.circuit ∧ e.direction = m.direction ∧
                e.role = .initiator ∧
              e.bearer = b ∧ v.moveLine m = some e.linePos ∧ e.phase = .offering ∧ e.txn = some txn ∧ e.quick = m.quick ∧
              e.matchLimit = m.matchLimit ∧ e.deadline = some (v.counter + 800) ∧ e.retryDue = some (v.counter + 80) ∧
              e.ref = none ∧ e.group = some (g, x.2) ∧ (w.circuit m.circuit).pathState = .bridged ∧
              (w.circuit m.circuit).bridgeIndex = some x.1.2 ∧ (w.circuit m.circuit).groupIndex = some g ∧
              (w.circuit m.circuit).generation = (v.circuit m.circuit).generation + 1 ∧
              (∀ sp, sp ≠ b.span → queue (n + 1) sp = queue n sp) ∧
              (∀ q, placeMessage (queue n b.span) x.1.2 offer = some q → queue (n + 1) b.span = q ∧ e.pending = false) ∧
              (placeMessage (queue n b.span) x.1.2 offer = none → queue (n + 1) b.span = queue n b.span ∧
                  e.pending = true) := by
  induction l with
  | nil =>
    intro v _ _
    refine ⟨fun _ sp => (v.span sp).txQueue, rfl, rfl, rfl, rfl, rfl, fun _ _ => rfl, fun _ _ => rfl, ?_, ?_⟩
    · intro sp; refine ⟨rfl, ?_⟩; simp [each]
    · intro n x b h; simp at h
  | cons x l ih =>
    intro v h hp
    rw [List.pairwise_cons] at hp
    obtain ⟨b, p, hb, hpl, hsv⟩ := h x (by simp)
    obtain ⟨e, hE, hbi, hbo, hco, hci, hsi, hso, q1, q2, q3, q4, q5⟩ := startMigrate_effect x.1.2 none (some (g,
        x.2)) hb hpl hsv
    generalize hv' : v.startMigrate x.1.2 x.1.1 none (some (g, x.2)) = v' at *
    have hmb : ∀ y ∈ l, v'.moveBearer y.1.1 = v.moveBearer y.1.1 ∧ v'.moveLine y.1.1 = v.moveLine y.1.1 := by
      intro y hy
      have := hco y.1.1.circuit (Ne.symm (hp.1 y hy).1)
      unfold moveBearer moveLine
      rw [this]; exact ⟨rfl, rfl⟩
    have hin : ∀ sp, v'.inService sp = v.inService sp := by
      intro sp; unfold inService
      by_cases hs : sp = b.span
      · subst hs; rw [hsi]; rfl
      · rw [hso sp hs]
    have hon : ∀ y ∈ l, ∀ sp, v'.movesOn sp y.1.1 = v.movesOn sp y.1.1 := by
      intro y hy sp; unfold movesOn; rw [(hmb y hy).1]
    obtain ⟨queue, r1, r2, r3, r4, r5, r6, r7, r8, r9⟩ := ih v' (by
      intro y hy
      obtain ⟨b', p', h1, h2, h3⟩ := h y (by simp [hy])
      exact ⟨b', p', by rw [(hmb y hy).1, h1], by rw [(hmb y hy).2, h2], by rw [hin, h3]⟩) hp.2
    have hw : each (x :: l) (fun x u => u.startMigrate x.1.2 x.1.1 none (some (g,
        x.2))) v = each l (fun x u => u.startMigrate x.1.2 x.1.1 none (some (g, x.2))) v' := by
      simp only [each, List.foldl_cons, hv']
    rw [hw]
    generalize each l (fun x u => u.startMigrate x.1.2 x.1.1 none (some (g, x.2))) v' = w at *
    have hcount : ∀ sp (k : Nat), (l.take k).countP (fun x => v'.movesOn sp x.1.1) = (l.take k).countP (fun x => v.movesOn sp
        x.1.1) := by
      intro sp k
      apply List.countP_congr
      intro y hy
      rw [hon y (List.mem_of_mem_take hy) sp]
    have honx : ∀ sp, v.movesOn sp x.1.1 = (b.span == sp) := by intro sp; unfold movesOn; rw [hb]; rfl
    have hctr : ∀ sp (k : Nat), (v'.span sp).txnCounter + BitVec.ofNat 8 ((l.take k).countP fun x => v'.movesOn sp x.1.1) =
        (v.span sp).txnCounter + BitVec.ofNat 8 (((x :: l).take (k+1)).countP fun x => v.movesOn sp x.1.1) := by
      intro sp k
      rw [hcount, List.take_succ_cons, List.countP_cons, honx]
      by_cases hs : sp = b.span
      · subst hs; rw [hsi]; simp only [startedSpan, beq_self_eq_true, if_true]
        rw [BitVec.ofNat_add]
        rw [BitVec.add_assoc, BitVec.add_comm 1]; rfl
      · rw [hso sp hs]
        have : (b.span == sp) = false := by simpa using Ne.symm hs
        simp [this]
    refine ⟨fun n sp => match n with | 0 => (v.span sp).txQueue | n + 1 => queue n sp, r1.trans q1, r2.trans q2, r3.trans q3, r4.trans q4, r5.trans q5, ?_, ?_, ?_, ?_⟩
    · intro j hj
      rw [r6 j (fun y hy => hj y (by simp [hy])), hbo j (hj x (by simp))]
    · intro c hc
      rw [r7 c (fun y hy => hc y (by simp [hy])), hco c (hc x (by simp))]
    · intro sp
      refine ⟨rfl, ?_⟩
      rw [(r8 sp).2]
      have := hctr sp l.length
      rw [List.take_length, show (x :: l).take (l.length+1) = x :: l from by simp] at this
      rw [this]
      by_cases hs : sp = b.span
      · subst hs; rw [hsi]; rfl
      · rw [hso sp hs]; rfl
    · intro n y b' hy hb'
      cases n with
      | zero =>
        simp at hy; subst hy
        have : b' = b := by rw [hb] at hb'; exact (Option.some.inj hb').symm
        subst this
        have F := hE.f
        have nb : w.bridge x.1.2 = some e := by
          rw [r6 x.1.2 (fun y hy => (hp.1 y hy).2), hbi]
        have nc : w.circuit x.1.1.circuit = v.startedCircuit x.1.1 p x.1.2 (some g) := by
          rw [r7 _ (fun y hy => (hp.1 y hy).1), hci]; rfl
        refine ⟨e, F.2.2.2.2.2.2.2.2.2.2.2.2.2.2.1, nb, F.1, F.2.1, F.2.2.1, F.2.2.2.1, ?_, F.2.2.2.2.2.1, ?_,
            F.2.2.2.2.2.2.2.1, F.2.2.2.2.2.2.2.2.2.1,
           F.2.2.2.2.2.2.2.2.2.2.1, F.2.2.2.2.2.2.2.2.2.2.2.1, F.2.2.2.2.2.2.2.2.2.2.2.2.1, F.2.2.2.2.2.2.2.2.2.2.2.2.2.1, by rw [nc]; rfl, by rw [nc]; rfl, by rw [nc]; rfl, by rw [nc]; rfl, ?_, ?_, ?_⟩
        · rw [hpl, F.2.2.2.2.1]
        · rw [F.2.2.2.2.2.2.1]; simp
        · intro sp hsp
          show queue 0 sp = (v.span sp).txQueue
          rw [(r8 sp).1, hso sp hsp]
        · intro q hq
          have hq' : placeMessage (v.span b'.span).txQueue x.1.2 (v.offerMessage x.1.1 b') = some q := by
            rw [← hq]; unfold offerMessage; simp
          have pd := hE.pd
          rw [hq'] at pd
          refine ⟨?_, pd⟩
          show queue 0 b'.span = q
          rw [(r8 _).1, hsi]; unfold startedSpan; simp only [hq', Option.getD_some]
        · intro hq
          have hq' : placeMessage (v.span b'.span).txQueue x.1.2 (v.offerMessage x.1.1 b') = none := by
            rw [← hq]; unfold offerMessage; simp
          have pd := hE.pd
          rw [hq'] at pd
          refine ⟨?_, pd⟩
          show queue 0 b'.span = _
          rw [(r8 _).1, hsi]; unfold startedSpan; simp only [hq', Option.getD_none]
      | succ n =>
        have hy' : l[n]? = some y := by simpa using hy
        have hm := List.mem_of_getElem? hy'
        have := r9 n y b' hy' (by rw [(hmb y hm).1, hb'])
        rw [hctr, q4, q5] at this
        simp only [(hmb y hm).2, hco _ (Ne.symm (hp.1 y hm).1)] at this
        exact this

/-- A move that passes its start checks has a bearer slot on a span in service and a line position. -/
theorem startCheck_passes {m : MoveOrder} (hc : s.startCheck m = none) : ∃ b p, s.moveBearer m = some b ∧
    s.moveLine m = some p ∧ s.inService b.span = true := by
  unfold startCheck at hc
  cases hb : s.moveBearer m <;> cases hp : s.moveLine m <;> rw [hb, hp] at hc <;> simp only [] at hc
  · split at hc <;> (try split at hc) <;> simp at hc
  · split at hc <;> (try split at hc) <;> simp at hc
  · split at hc <;> (try split at hc) <;> simp at hc
  · refine ⟨_, _, rfl, rfl, ?_⟩
    cases hd : m.direction <;> simp only [hd] at hc <;> (repeat' split at hc) <;> simp_all

/-- Members that do not clash are of different circuits (R104). -/
theorem circuits_apart (l : List MoveOrder) (h : membersApart l = true) : l.Pairwise (fun x y => x.circuit ≠ y.circuit) := by
  induction l with
  | nil => exact .nil
  | cons x l ih =>
    simp only [membersApart, Bool.and_eq_true, List.all_eq_true] at h
    refine .cons ?_ (ih h.2)
    intro y hy
    have := h.1 y hy
    simp [membersClash] at this
    exact this.1.1
/-- All that the start of an EXPECT writes (R46). -/
theorem startExpect_form (s : State) (m : MoveOrder) (b : BearerSlot) (p : LinePos) (i : BridgeNo) (window : Nat) (ref :
    OrderRef) (hb : s.moveBearer m = some b) (hp : s.moveLine m = some p) :
   let k := s.circuit m.circuit; let lost := m.direction == .toFibre && !s.linePresent p
   let onto := m.direction == .toCopper && k.vacated == some p
   ∃ e a, s.startExpect i m window ref = (((s.markedToPath m b p).setAlign m.circuit a).setCircuit m.circuit { k with
           pathState := .bridged, bridgeIndex := some i, groupIndex := none, generation := k.generation + 1,
           vacated := if onto then none else k.vacated
           receive := if k.pathState = .stranded then .span else k.receive
           spanFeed := if k.pathState = .stranded then true else k.spanFeed
           lineFeed := !lost && k.lineFeed
           hold := if k.pathState = .stranded then 0 else k.hold }).setBridge i (some e) ∧ 
     e.circuit = m.circuit ∧ e.direction = m.direction ∧ e.role = .responder ∧ e.bearer = b ∧
         e.linePos = p ∧ e.phase = .awaitingOffer ∧ e.txn = none ∧ e.quick = false ∧ e.peerRolled = false ∧
         e.matchLimit = m.matchLimit ∧ e.deadline = some (s.after window) ∧ e.retryDue = none ∧ e.offset = none ∧
         e.forced = false ∧ e.repeats = 0 ∧ e.skipped = 0 ∧ e.pending = false ∧ e.ref = some ref ∧ e.group = none ∧
         e.fromLost = lost ∧ e.ontoVacated = onto := by
  intro k lost onto
  unfold startExpect
  rw [hb, hp]
  simp only
  have hport : ∀ c, (s.markedToPath m b p).linePresent c = s.linePresent c := by intro c; unfold markedToPath; split <;> rfl
  have hvac : s.ontoVacated m p = onto := rfl
  rw [hvac]
  generalize hE : ({ newBridge m b p .responder (some ref) none with deadline := some (s.after window), ontoVacated := onto } : Bridge) = E
  have F : E.circuit = m.circuit ∧ E.direction = m.direction ∧ E.role = .responder ∧ E.bearer = b ∧
         E.linePos = p ∧ E.phase = .awaitingOffer ∧ E.txn = none ∧ E.quick = false ∧ E.peerRolled = false ∧
         E.matchLimit = m.matchLimit ∧ E.deadline = some (s.after window) ∧ E.retryDue = none ∧ E.offset = none ∧
         E.forced = false ∧ E.repeats = 0 ∧ E.skipped = 0 ∧ E.pending = false ∧ E.ref = some ref ∧ E.group = none ∧
         E.fromLost = false ∧ E.ontoVacated = onto := by
    subst hE; simp [newBridge]
  have e1 := F.1
  have e2 := F.2.1
  have e3 := F.2.2.2.1
  have e4 : E.group = none := F.2.2.2.2.2.2.2.2.2.2.2.2.2.2.2.2.2.2.1
  have e5 : E.linePos = p := F.2.2.2.2.1
  have e6 : E.ontoVacated = onto := F.2.2.2.2.2.2.2.2.2.2.2.2.2.2.2.2.2.2.2.2
  have e7 : E.phase = .awaitingOffer := F.2.2.2.2.2.1
  have e8 : E.fromLost = false := F.2.2.2.2.2.2.2.2.2.2.2.2.2.2.2.2.2.2.2.1
  clear hE
  have B : ∃ a, s.bridgeStart i E = (((s.markedToPath m b p).setAlign m.circuit a).setCircuit m.circuit { k with
           pathState := .bridged, bridgeIndex := some i, groupIndex := none, generation := k.generation + 1,
           vacated := if onto then none else k.vacated
           receive := if k.pathState = .stranded then .span else k.receive
           spanFeed := if k.pathState = .stranded then true else k.spanFeed
           lineFeed := k.lineFeed
           hold := if k.pathState = .stranded then 0 else k.hold }).setBridge i (some E) := by
    unfold bridgeStart
    cases hd : m.direction
    · refine ⟨{ s.alignOf m.circuit with spanHistory := [] }, ?_⟩
      have ho : onto = false := by show (m.direction == .toCopper && _) = false; rw [hd]; rfl
      simp only [e1, e2, e3, e4, e5, e6, hd, freshPath, modCircuit_eq, modAlign_eq, markedToPath, ho]
      by_cases hs : (s.circuit m.circuit).pathState = .stranded
      · have hs' : k.pathState = .stranded := hs
        simp [hs, hs', useSlot, ho, k]
      · have hs' : ¬ k.pathState = .stranded := hs
        simp [hs, hs', useSlot, ho, k]
    · refine ⟨{ s.alignOf m.circuit with lineHistory := [] }, ?_⟩
      simp only [e1, e2, e3, e4, e5, e6, hd, freshPath, modCircuit_eq, modAlign_eq, markedToPath]
      by_cases hs : (s.circuit m.circuit).pathState = .stranded
      · have hs' : k.pathState = .stranded := hs
        simp [hs, hs', k]
      · have hs' : ¬ k.pathState = .stranded := hs
        simp [hs, hs', k]
  obtain ⟨a, ha⟩ := B
  rw [ha]
  generalize hk : ({ k with
           pathState := .bridged, bridgeIndex := some i, groupIndex := none, generation := k.generation + 1,
           vacated := if onto then none else k.vacated
           receive := if k.pathState = .stranded then .span else k.receive
           spanFeed := if k.pathState = .stranded then true else k.spanFeed
           lineFeed := k.lineFeed
           hold := if k.pathState = .stranded then 0 else k.hold } : Circuit) = k1
  unfold lossAtStart
  rw [withBridge_some _ (bridge_setBridge_same _ _ _)]
  have hl : (E.direction == .toFibre && ((((s.markedToPath m b p).setAlign m.circuit a).setCircuit m.circuit k1).setBridge i
      (some E)).fromPathLost E) = lost := by
    unfold fromPathLost
    rw [e2, e5]
    show _ = (m.direction == .toFibre && !s.linePresent p)
    cases hd : m.direction
    · show (true && !((s.markedToPath m b p).linePresent p)) = _
      rw [hport]; rfl
    · rfl
  rw [hl]
  cases hlo : lost
  · simp only [Bool.false_eq_true, if_false]
    refine ⟨E, a, ?_, ?_⟩
    · rw [← hk]; simp
    · simp only [F]; simp
  · simp only [if_true]
    have hst : m.direction = .toFibre := by
      have : (m.direction == .toFibre && !s.linePresent p) = true := hlo
      simp at this; exact this.1
    refine ⟨{ E with fromLost := true }, a, ?_, ?_⟩
    · unfold fromLineLost
      rw [withBridge_some _ (bridge_setBridge_same _ _ _)]
      simp only [e7, stopFromFeed, modCircuit_eq, e1, e2, hst, Circuit.feedFrom]
      rw [← hk]
      simp [setBridge_setCircuit]
    · simp only [F]; simp

end Sys2Proof.Machine.State
end

