-- ==== Sys2Proof/Laws/Takes.lean ====
section
/-! SUPPORT. What a change made to each runner does, and what a take does to the other runners at its address. -/

namespace Sys2Proof.Machine

open Sys2Proof

namespace State

variable (s : State)

/-- A change of each runner of a list changes each of them once, and no other. -/
theorem runner_each_modRunner (g : Fin 4 → Runner → Runner) (m : Fin 4) (l : List (Fin 4)) (hl : l.Nodup) :
    (each l (fun k t => t.modRunner k (g k)) s).runner m = if m ∈ l then g m (s.runner m) else s.runner m := by
  unfold each
  induction l generalizing s with
  | nil => rfl
  | cons k l ih =>
    have hk := List.nodup_cons.mp hl
    rw [List.foldl_cons, ih _ hk.2]
    simp only [modRunner_eq, runner_setRunner]
    by_cases h : k = m
    · subst h; simp [hk.1]
    · simp [h, Ne.symm h]

/-- The mark of a take, as a change of each runner (R28). -/
theorem markTake_eq (n : Fin 4) (a : Addr) : s.markTake n a = each (List.finRange 4) (fun k t =>
    t.modRunner k fun r => if k != n && r.cursor == a then { r with raced := true } else r) s := by
  unfold markTake
  congr 1
  funext k t
  rw [modRunner_eq, modRunner_eq]
  split
  · rfl
  · exact (setRunner_self _ rfl).symm

/-- A take marks every other runner whose cursor is at its address, and changes nothing else of the runners (R28). -/
theorem runner_markTake (n m : Fin 4) (a : Addr) : (s.markTake n a).runner m =
    if m = n then s.runner m else { s.runner m with raced := (s.runner m).raced || (s.runner m).cursor == a } := by
  rw [markTake_eq, runner_each_modRunner _ _ _ _ (List.nodup_finRange 4)]
  by_cases h : m = n
  · simp [h]
  · cases (s.runner m).cursor == a <;> simp [h]

/-- Whatever a change of one runner keeps, the mark of a take keeps. -/
theorem markTake_keeps {β : Type} (view : State → β) (h : ∀ t k x, view (t.setRunner k x) = view t) (n : Fin 4)
    (a : Addr) : view (s.markTake n a) = view s :=
  each_keeps view _ _ (fun k t => by split <;> simp [h]) s

@[simp] theorem smp_markTake (n : Fin 4) (a : Addr) : (s.markTake n a).smp = s.smp :=
  s.markTake_keeps smp (fun _ _ _ => rfl) n a

end State

end Sys2Proof.Machine
end

