-- ==== Sys2Proof/Tests/Slice0.lean ====
section
/-! SUPPORT. The model's own tests: the ill-formed commands, the worked examples of the spec, one step of some commands,
and, for every statement with hypotheses, a state and operands that meet each of its clauses. -/

namespace Sys2Proof.Tests

open Sys2Proof Sys2Proof.Machine

set_option Elab.async false

/-! ### Ill-formed commands -/

theorem test_known_nudge_codes_refused :
    ∀ k : Fin 5, (Instr.nudgeUnknownCode (BitVec.ofNat 4 (k.val + 1))).wellFormed = false := by decide

theorem test_unknown_nudge_codes :
    (Instr.nudgeUnknownCode 0).wellFormed = true ∧ (Instr.nudgeUnknownCode 6).wellFormed = true ∧
    (Instr.nudgeUnknownCode 15).wellFormed = true := by decide

theorem test_registers_that_take_writes_refused :
    (Instr.registerWriteDiscard 0x08 1).wellFormed = false ∧ (Instr.registerWriteDiscard 0x10 1).wellFormed = false ∧
    (Instr.registerWriteDiscard 0x20 1).wellFormed = false ∧ (Instr.registerWriteDiscard 0x28 1).wellFormed = false ∧
    (Instr.registerWriteDiscard 0x00 1).wellFormed = true ∧ (Instr.registerWriteDiscard 0x18 1).wellFormed = true := by
  decide

theorem test_pulse_lengths :
    periodFits (.clocked [⟨0, 0⟩] (tab 32 fun _ => 0)) = false ∧
    periodFits (.clocked [⟨0, 257⟩] (tab 32 fun _ => 0)) = false ∧
    periodFits (.clocked [⟨0, 1⟩, ⟨9, 256⟩] (tab 32 fun _ => 0)) = true := by decide

/-! ### Small states -/

/-- A site of rank 5 with both spans, signalling in slot 0 and idle code D5. -/
def site : SiteConfig :=
  { SiteConfig.unset with
    rank := 5, signallingPresent := true, spanAPresent := true, spanBPresent := true, idleCode := 0xD5 }

/-- The part in READY at frame 1000, as its configuration leaves it but for its spans, which are DISABLED. -/
def atRest : State := State.cold .ready 1000 site []

/-- Span A is in service and aligned. -/
def serving : State := atRest.modSpan .a fun k => { k with line := .inService, alignment := .aligned }

/-- Circuit 3 to bearer slot 7 of span A. -/
def toFibre : MoveOrder := ⟨3, .toFibre, .a, 7, none, none, false, 4000⟩

/-- The record of runner 0 at address 0x40. -/
def order : OrderRef := ⟨0, 0x40, false, 9, []⟩

/-- An entry of that move whose deadline and retry were due at frame 900. -/
def entry (phase : BridgePhase) (role : Role) : Bridge :=
  { State.newBridge toFibre ⟨.a, 7⟩ (LinePos.ofIndex 3) role (some order) none with
    phase := phase, txn := some 2, deadline := some 900, retryDue := some 900 }

/-- The part with one entry, in place 0, and its circuit BRIDGED. -/
def moving (e : Bridge) : State :=
  ((serving.setBridge 0 (some e)).modCircuit 3 fun k => { k with pathState := .bridged, bridgeIndex := some 0 }).setSlotEntry
    ⟨.a, 7⟩ ⟨.bridged 3, none⟩

/-- The part with runner 0 in a state. -/
def running (r : Runner) : State := atRest.setRunner 0 r

/-- The state a command leads to. -/
def after (c : Instr) (s : State) : State :=
  match exec c s with
  | .next t => t
  | .fault _ | .refused _ => s

/-! ### Worked examples of the spec -/

/-- The worked numbers of R11. -/
theorem test_seam_examples :
    seamNumbers 0 3 = ⟨3, 0, 0⟩ ∧ seamNumbers 0 (-5) = ⟨0, 5, 0⟩ ∧ seamNumbers 5 5 = ⟨0, 0, 0⟩ ∧
    seamNumbers 12 0 = ⟨0, 12, 0⟩ ∧ seamNumbers 12 (-3) = ⟨0, 15, 0⟩ ∧ seamNumbers 12 (-4) = ⟨0, 15, 1⟩ := by decide

/-- The deadline of R149: set 800 frames ahead at 4,294,967,000. -/
theorem test_deadline_example :
    let s := atRest.setCounter 4294967000
    s.after 800 = 504 ∧ (s.setCounter 4294967100).passed 504 = false ∧ (s.setCounter 503).passed 504 = false ∧
    (s.setCounter 504).passed 504 = true := by decide +kernel

/-- The two streams of 12 section 12.1. -/
theorem test_stream_examples : streamAccepted 0 = true ∧ streamAccepted (BitVec.allOnes 48) = false := by decide


/-! ### One step of some commands -/

theorem test_frame_tick_counts :
    (after (.frameTick .nothing .nothing) atRest).counter = 1001 ∧
    (after (.frameTick .nothing .nothing) State.reset).counter = 1 := by decide +kernel

theorem test_start_reads_block :
    let t := after (.nudgeStart 2) (atRest.setBlockBase 0x1000)
    (t.runner 2).state = .fetching ∧ t.smp.waiting = [⟨.runner 2, 0x1000, 128⟩] := by decide +kernel

theorem test_start_in_loading_refused : (after (.nudgeStart 0) State.reset).attn = 0b010000#6 := by decide +kernel

theorem test_guard_end_frees :
    let t := after (.releaseGuardEnd 0) (moving { entry .releasing .initiator with outcome := some .done })
    t.bridge 0 = none ∧ (t.circuit 3).pathState = .fibre ∧ (t.circuit 3).linePos = none ∧
    (t.circuit 3).vacated = some (LinePos.ofIndex 3) ∧ t.lineUse (LinePos.ofIndex 3) = .vacated 3 ∧
    (t.slotEntry ⟨.a, 7⟩).use = .assigned 3 := by decide +kernel

theorem test_offer_without_entry_declined :
    ((after (.offerArrival .a 9 4 1 .toFibre false) serving).span .a).txQueue =
      [⟨⟨.decline, 9, 4, 5, .toFibre, false, some .notExpected⟩, .answer⟩] := by decide +kernel

/-! ### The hypotheses of the statements are met: the machine -/

theorem test_meets_StepRunsFront : (atRest.setPending [.nudgeWarm, .readIssue]).pending = .nudgeWarm :: [.readIssue] := rfl

theorem test_meets_NoCommandStopsThePart : atRest.pending = [] := rfl

theorem test_meets_ResetValues : (after .resetnHeldLow atRest).resetLow = true ∧ Instr.nudgeWarm ≠ .resetnRelease := by
  decide +kernel

theorem test_meets_StepEnd_quiet :
    let e := running { Runner.cold with cursor := 64 }
    e.bridges = atRest.bridges ∧ e.groups = atRest.groups ∧ atRest.queue = [] ∧
    rowBody atRest 275 ≠ rowBody (State.finish atRest e) 275 := by decide +kernel

/-- A queue with one MIGRATE, and one with a second behind it. -/
def withHead (s : State) : State := s.setQueue [⟨order, .migrate toFibre⟩]
def withTwo (s : State) : State := s.setQueue [⟨order, .expect { toFibre with circuit := 4 } 9⟩, ⟨order, .migrate toFibre⟩]

theorem test_meets_StepEnd_examined :
    let s := withHead (moving (entry .awaitingOffer .responder))
    s.bridge 0 ≠ none ∧ (withHead atRest).bridge 0 = none ∧ (∀ g, atRest.group g = none) ∧
    (withTwo atRest).queue ≠ [] ∧ (withHead atRest).queue.head? ≠ (withTwo atRest).queue.head? ∧
    (moving (entry .awaitingOffer .responder)).bridges ≠ atRest.bridges := by decide +kernel

theorem test_freeing_starts_the_head :
    let s := (withHead ((moving { entry .awaitingOffer .responder with txn := none }).setBridge 1 none)).modPort 8 fun k =>
      { k with presence := .present }
    let t := after (.expectWindowExpiry 0) s
    t.queue = [] ∧ (t.bridge 0).map Bridge.phase = some .offering := by decide +kernel

theorem test_meets_EveryChangedRowIsDirty :
    let s := (running { Runner.cold with state := .parked }).setPending [.nudgeStop 0]
    ∃ t, step s = .next t ∧ rowBody s 275 ≠ rowBody t 275 := ⟨_, rfl, by decide +kernel⟩

/-- A state with a sent write, and an order whose settle is not complete in WARMING. -/
def settling : State :=
  ((atRest.setPhase .warming).setSettles [⟨0, order, .restarted, 1⟩]).setSmp
    { atRest.smp with writes := [⟨0x68, [], .result 0⟩], sent := some 1016 }

theorem test_meets_StepKeepsWorkMoving :
    settling.headSent ∧ settling.smp.writes ≠ [] ∧ settling.warmingOpen ∧ settling.phase = .warming ∧
    ∃ t, step (settling.setPending [.writeTimeout]) = .next t :=
  ⟨fun _ => rfl, by decide, fun _ => by decide, rfl, _, rfl⟩

/-- Limits that the ranges name are reached: a streak and a lost count, the last notice position, the credits of a whole
read, full waiting sets, a tag with a unit, a matcher whose run has matched, and a group with a member counted. -/
def atLimits : State :=
  let s := atRest.setRunner 1 { Runner.cold with streak := 8 }
  let s := s.setNte { s.nte with lost := 65535, credits := 8, bases := some ⟨0, 16, 0⟩, position := 15 }
  let s := s.setQueue (List.replicate 16 ⟨order, .migrate toFibre⟩)
  let s := s.setWatch (List.replicate 16 ⟨order, 3, .migrate toFibre, none, none⟩)
  let s := s.setTag 2 (.outstanding ⟨.notices, 0, 256⟩ 1 (List.replicate 32 0) 1016)
  let s := s.setBridge 0 (some { entry .matching .initiator with matcher := some ⟨[], [], [16], -15⟩ })
  s.setGroup 0 (some ⟨order, [⟨3, some 0, true, none⟩, ⟨4, some 1, false, none⟩], 1, .closed, .running, none⟩)

theorem test_meets_StepKeepsRanges : atLimits.InRange ∧ ∃ t, step (atLimits.setPending [.readIssue]) = .next t :=
  ⟨{  writes := by decide, notices := by decide, lost := by decide, spans := fun sp => by cases sp <;> decide
      ports := by decide +kernel, holds := by decide +kernel, ages := by decide +kernel, counts := by decide +kernel
      streaks := by decide +kernel, queue := by decide, watch := by decide, credits := by decide
      position := fun b h => by cases h; decide
      reads := ⟨fun _ h => (List.not_mem_nil h).elim, fun k => by
        have hk : ∀ k, atLimits.tag k = .free ∨
            atLimits.tag k = .outstanding ⟨.notices, 0, 256⟩ 1 (List.replicate 32 0) 1016 := by decide +kernel
        show (atLimits.tag k).fits
        rcases hk k with h | h <;> rw [h]
        · exact True.intro
        · exact ⟨fun _ => by decide, by decide⟩⟩
      matchers := fun i e h m hm => by
        have hi : ∀ i, (atLimits.bridge i).bind Bridge.matcher = none ∨
            (atLimits.bridge i).bind Bridge.matcher = some ⟨[], [], [16], -15⟩ := by decide +kernel
        have := hi i
        rw [h, Option.bind_some, hm] at this
        rcases this with h | h <;> cases h
        exact ⟨by decide, by decide, by decide⟩
      groups := fun g x h => by
        have hg : ∀ g x, x ∈ atLimits.group g → x.count = (x.members.filter fun m => !m.counted).length := by
          decide +kernel
        exact hg g x h }, _, rfl⟩

theorem test_meets_StepKeepsWorkMoving_queues :
    let s := serving.modSpan .a fun k => { k with txQueue := [⟨⟨.accept, 7, 2, 5, .toFibre, false, none⟩, .answer⟩] }
    s.queuesInService ∧ ∃ t, step (s.setPending [.spanErrors .a]) = .next t :=
  ⟨fun sp h => by
    cases sp
    · cases h
    · rfl, _, rfl⟩

/-- Circuit 3 on its move, as its start leaves it. -/
def started : State := atRest.bridgeStart 0 (entry .offering .initiator)

theorem test_meets_StepKeepsPositions :
    started.PositionsAgree ∧ started.bridge 0 ≠ none ∧ ∃ t, step (started.setPending [.noAnswerExpiry 0]) = .next t :=
  ⟨(State.cold_agree _ _ _ _).start
    { free := by decide +kernel, toFibre := fun _ => by decide +kernel, toCopper := fun h => by cases h },
    by decide +kernel, _, rfl⟩

theorem test_meets_OnlyTheirOwnCommandsChange : ∃ t, exec .nudgeWarm atRest = .next t := ⟨_, rfl⟩

theorem test_meets_ConfigStreamEnds :
    atRest.resetLow = false ∧ atRest.phase ≠ .loading ∧ State.reset.resetLow = false ∧ State.reset.phase = .loading ∧
    streamAccepted (BitVec.allOnes 48) = false ∧ streamAccepted 0 = true := by decide +kernel

theorem test_meets_WarmRestartRequests :
    State.reset.phase ≠ .ready ∧ atRest.resetLow = false ∧ atRest.phase = .ready := by decide +kernel

theorem test_meets_WarmRestartEntry :
    (∀ phase role, (moving (entry phase role)).bridge 0 = some (entry phase role)) ∧
    (entry .offering .initiator).group = none ∧ (entry .offering .initiator).ref = some order ∧
    ({ entry .rolled .responder with ref := none } : Bridge).ref = none ∧
    ({ entry .releasing .initiator with outcome := some .done } : Bridge).outcome = some .done ∧
    ({ entry .matching .initiator with group := some (0, 0) } : Bridge).group ≠ none :=
  ⟨fun _ _ => rfl, rfl, rfl, rfl, rfl, nofun⟩

/-- A RUNNING group with one member, in bridge place 0. -/
def grouped (e : Bridge) (count : Nat) : State :=
  (moving e).setGroup 0 (some ⟨order, [⟨3, some 0, false, none⟩], count, .closed, .running, none⟩)

theorem test_meets_WarmRestartEntry_group :
    let x : Group := ⟨order, [⟨3, some 0, false, none⟩], 1, .closed, .running, none⟩
    let s := grouped { entry .matching .initiator with group := some (0, 0), ref := none } 1
    let u := s.eachMember x fun i v => v.restartMember i
    s.group 0 = some x ∧ u.group 0 = some x ∧ ((s.restartGroup 0).bridge 0).map Bridge.phase = some .unwinding := by
  decide +kernel

/-! ### Registers, time and the frame -/

theorem test_meets_RunnerNudges_start :
    let stale := running { Runner.cold with reading := some .discarded }
    atRest.phase = .ready ∧ (atRest.runner 0).state = .stopped ∧ (atRest.runner 0).reading ≠ some .discarded ∧
    (stale.runner 0).state = .stopped ∧ (stale.runner 0).reading = some .discarded ∧
    ¬(State.reset.phase = .ready) := by decide +kernel

theorem test_meets_RunnerNudges_wake :
    let parked := fun d => running { Runner.cold with state := .parked, recheck := some d }
    ((parked 1000).runner 0).state = .parked ∧ ((parked 1000).runner 0).recheck = some 1000 ∧
    (parked 1000).passed 1000 = true ∧ (parked 1001).passed 1001 = false ∧ (atRest.runner 0).state ≠ .parked := by
  decide +kernel

/-- The Notice Engine with bases, and a read of its entries or none. -/
def engine (reading : Option Bool) (credits : Nat) : State :=
  atRest.setNte { atRest.nte with bases := some ⟨0x2000, 16, 0x3000⟩, reading := reading, credits := credits }

theorem test_meets_NoticeReads :
    (engine none 0).nte.bases = some ⟨0x2000, 16, 0x3000⟩ ∧ (engine none 0).nte.credits = 0 ∧
    (engine none 0).nte.reading = none ∧ (engine (some false) 0).nte.reading = some false ∧
    (engine none 1).nte.credits ≠ 0 ∧ atRest.nte.bases = none := by decide +kernel

theorem test_meets_NoticeReads_spans :
    min 8 (16 - 0) % 2 = 0 ∧ min 8 (16 - 13) % 2 = 1 ∧ min 8 (16 - 13) ≠ 1 ∧ min 8 (16 - 15) = 1 := by decide

/-- The engine with a notice pending and a read of two entries, the re-read asked for or not. -/
def reads (reread : Bool) : State :=
  (engine (some false) 0).setNte { (engine (some false) 0).nte with reread := reread, pending := [⟨1, .stranded 3⟩] }

theorem test_notice_read_credits :
    let free := List.replicate 64 (0 : Byte)
    let taken := List.replicate 32 (0 : Byte) ++ (1 : Byte) :: List.replicate 31 0
    ((reads false).noticeReadDone free).nte.credits = 2 ∧ ((reads false).noticeReadDone taken).nte.credits = 1 ∧
    ((reads false).noticeReadDone (1 :: List.replicate 63 0)).nte.recheck = some 1064 ∧
    ((reads true).noticeReadDone (1 :: List.replicate 63 0)).smp.waiting ≠ [] ∧
    ((engine (some false) 0).noticeReadDone (1 :: List.replicate 63 0)).nte.recheck = none := by decide +kernel

theorem test_meets_RegisterAccesses :
    (Instr.nudgeUnknownCode 6).wellFormed = true ∧ atRest.resetLow = false ∧
    (∀ n, (atRest.runner n).state = .stopped ∨ (atRest.runner n).state = .faulted) ∧
    (0x80 : Addr).toNat % 128 = 0 ∧ (0x40 : Addr).toNat % 128 ≠ 0 := by decide +kernel

theorem test_meets_RegisterAccesses_writes :
    discardedOffset 0x18 = true ∧ registerCommand 0x10 0x0301 = .nudgeStart 3 ∧ registerCommand 0x10 0x0302 = .nudgeStop 3 ∧
    registerCommand 0x10 0x0103 = .nudgeWake 1 ∧ registerCommand 0x10 0x0304 = .nudgeNotices ∧
    registerCommand 0x10 5 = .nudgeWarm ∧ registerCommand 0x10 0 = .nudgeUnknownCode 0 ∧
    registerCommand 0x10 6 = .nudgeUnknownCode 6 ∧ registerCommand 0x10 0x031F = .nudgeUnknownCode 15 := by decide

theorem test_meets_FrameTicks_deadlines : (1 ≤ 1 ∧ 1 ≤ 1048575 ∧ 0 < 2147483648 + 1) ∧ 2147483648 < 2147483648 + 1 := by decide

theorem test_meets_FrameTicks :
    State.reset.phase = .loading ∧ State.reset.resetLow = false ∧ atRest.phase = .ready ∧
    (atRest.setPhase .warming).phase = .warming ∧ (atRest.circuit 3).receive ≠ .none ∧
    (atRest.advanceCounter.readStores.deliver 3).lastDelivered = some 0xD5 ∧
    (atRest.port (officePort (officePortOf 3))).presence = .lost := by decide +kernel

/-- Circuit 3 receiving from its line position with a hold, or owing a repeat. -/
def held (hold repeats : Nat) : State :=
  (atRest.modCircuit 3 fun k => { k with hold := hold }).setAlign 3 ⟨[1, 2], [], repeats, some 9⟩

theorem test_meets_OfficeOctetDelivered :
    ((held 0 1).circuit 3).receive ≠ .none ∧ ((held 0 1).alignOf 3).repeatsDue ≠ 0 ∧
    ((held 0 1).alignOf 3).lastDelivered = some 9 ∧ ((held 0 0).circuit 3).receive = .line ∧
    ((held 0 0).alignOf 3).repeatsDue = 0 ∧ (held 0 0).linePath 3 = some (LinePos.ofIndex 3) ∧
    ((held 2 0).circuit 3).hold = 1 + 1 ∧ ((held 2 0).alignOf 3).lineHistory[1]? = some 2 ∧
    ((held 2 0).deliver 3).lastDelivered = some 2 := by decide +kernel

/-- Circuit 3 FIBRE on bearer slot 7 of span A, or STRANDED there. -/
def onFibre (path : PathState) : State :=
  (serving.modCircuit 3 fun k =>
    { k with pathState := path, linePos := none, vacated := some (LinePos.ofIndex 3), bearer := some ⟨.a, 7⟩,
             receive := if path = .fibre then .span else .none }).setLineUse (LinePos.ofIndex 3) (.vacated 3)

theorem test_meets_OfficeOctetDelivered_span :
    let s := (onFibre .fibre).setAlign 3 ⟨[], [4, 5], 0, none⟩
    (s.circuit 3).receive = .span ∧ (s.alignOf 3).repeatsDue = 0 ∧ s.spanPath 3 = some ⟨.a, 7⟩ ∧
    (s.circuit 3).hold = 0 ∧ ((s.modCircuit 3 fun k => { k with hold := 2 }).circuit 3).hold = 1 + 1 ∧
    (s.alignOf 3).spanHistory[1]? = some 5 := by decide +kernel

theorem test_meets_OfficeOctetDelivered_reads :
    let stored := atRest.modPort 8 fun k => { k with presence := .present, rxStore := [tab 32 fun _ => 1] }
    let empty := atRest.modPort 8 fun k => { k with presence := .present }
    (atRest.port 8).presence = .lost ∧ (stored.port 8).presence = .present ∧
    (stored.port 8).rxStore = (tab 32 fun _ => 1) :: [] ∧ (empty.port 8).presence = .present ∧ (empty.port 8).rxStore = [] ∧
    atRest.inService .a = false ∧ serving.inService .a = true ∧ (serving.span .a).store = [] ∧
    ((serving.modSpan .a fun k => { k with store := [idleBearer site] }).span .a).store = idleBearer site :: [] := by
  decide +kernel

/-- The site with every line port a DRIVE port. -/
def driven (s : State) : State := { s with cfg := { site with clockRoles := tab 8 fun _ => .drive } }

theorem test_meets_FrameSends :
    atRest.clockRole 8 = .follow ∧ (driven atRest).clockRole 8 = .drive ∧ (driven atRest).resetLow = false ∧
    (∀ g, serving.group g = none) ∧ (driven atRest).drivenSync 8 = some ⟨255, 1⟩ ∧
    (driven (atRest.setPhase .loading)).drivenSync 8 = none ∧ atRest.drivenSync 8 = none := by decide +kernel

theorem test_meets_FrameSends_unserved : ∀ i e, serving.bridge i = some e → e.pending = false := by
  intro i e h
  simp [serving, atRest, State.cold, State.modSpan, State.setSpan, State.bridge] at h

/-- A matcher with 15 equal pairs of varied octets at offset 0, and a run of 3 at offset 15 whose pair the next frame does
not complete. -/
def nearMatch : Matcher :=
  { toHistory := (List.range 15).map (BitVec.ofNat 8), fromHistory := (List.range 15).map (BitVec.ofNat 8),
    runs := List.replicate 15 0 ++ [15] ++ List.replicate 14 0 ++ [3], lowest := -15 }

theorem test_meets_MatcherCompares :
    nearMatch.runs.length = 31 ∧ nearMatch.runs[30]? = some 3 ∧
    ((compareFrame nearMatch 99 99).fromHistory[15]?).isSome = true ∧
    (compareFrame nearMatch 99 99).toHistory[16]? = none ∧
    matchFound (compareFrame nearMatch 99 99) = some 0 ∧ matchFound (compareFrame nearMatch 99 98) = none ∧
    (compareFrame nearMatch 99 98).runs[15]? = some 0 := by decide +kernel

theorem test_meets_MatcherCompares_entry :
    let e := { entry .matching .responder with matcher := some nearMatch }
    (moving e).bridge 0 = some e ∧ e.matcher = some nearMatch ∧ e.phase = .matching ∧ e.matchDue = none ∧
    matchFound (compareFrame nearMatch ((moving e).bearerOctet e.bearer) ((moving e).lineOctet e.linePos)) = some 0 ∧
    (entry .rolled .responder).phase ≠ .matching := by decide +kernel

theorem test_meets_OwnRoll_seam : 15 ≤ 15 ∧ max (-15) (((15 : Nat) : Int) - 15) ≤ 0 ∧ (15 : Int) ≤ 15 := by decide

theorem test_meets_MapOrders :
    let free := atRest.setLineUse (LinePos.ofIndex 9) .free
    let out := (atRest.mapUnequip 3).1
    ((onFibre .fibre).circuit 3).pathState ≠ .copper ∧ (atRest.circuit 3).pathState = .copper ∧
    (atRest.circuit 3).linePos = some (LinePos.ofIndex 3) ∧ LinePos.ofIndex 3 ≠ LinePos.ofIndex 9 ∧
    free.lineUse (LinePos.ofIndex 9) = .free ∧ atRest.lineUse (LinePos.ofIndex 9) ≠ .free ∧
    atRest.lineUse (LinePos.ofIndex 9) ≠ .vacated 3 ∧ (out.circuit 3).pathState = .unequipped ∧
    (atRest.circuit 3).generation ≠ 1 ∧ (atRest.circuit 3).generation = 0 ∧ out.lineUse (LinePos.ofIndex 3) = .free ∧
    ((onFibre .fibre).circuit 3).vacated = some (LinePos.ofIndex 3) ∧ (atRest.circuit 3).vacated = none := by
  decide +kernel

theorem test_meets_ForgetGivesUpPosition :
    let fibre := onFibre .fibre; let t := (fibre.mapForget 3).1
    let out := (atRest.mapUnequip 3).1
    (fibre.circuit 3).pathState = .fibre ∧ (fibre.circuit 3).vacated = some (LinePos.ofIndex 3) ∧
    ((onFibre .stranded).circuit 3).pathState = .stranded ∧ (atRest.circuit 3).vacated = none ∧
    ((moving (entry .matching .responder)).circuit 3).pathState = .bridged ∧ (out.circuit 3).pathState = .unequipped ∧
    t.lineUse (LinePos.ofIndex 3) = .free ∧ (t.circuit 4).pathState = .copper ∧
    (t.circuit 4).linePos ≠ some (LinePos.ofIndex 3) ∧ out.lineUse (LinePos.ofIndex 3) = .free ∧
    (((onFibre .stranded).mapForget 3).1.circuit 3).pathState = .stranded ∧
    ((onFibre .stranded).mapForget 3).1.lineUse (LinePos.ofIndex 3) = .free := by decide +kernel

/-- Circuit 3 as its move to bearer slot 7 of span A leaves it, and line port 0 PRESENT. -/
def movedThree : State :=
  (((serving.modPort 8 fun k => { k with presence := .present }).bridgeStart 0
    { entry .releasing .initiator with outcome := some .done }).freeAs 0 .done)

/-- Circuit 3 back to the position it gave up, named as the target. -/
def backToThree : MoveOrder := { toFibre with direction := .toCopper, target := some (LinePos.ofIndex 3) }

theorem test_meets_ForgetGivesUpPosition_agreeing :
    movedThree.PositionsAgree ∧ (movedThree.circuit 3).pathState = .fibre ∧
    (movedThree.circuit 3).vacated = some (LinePos.ofIndex 3) ∧ (movedThree.circuit 3).bearer = some ⟨.a, 7⟩ ∧
    let t := (movedThree.mapForget 3).1
    t.startCheck backToThree = none ∧ t.startCheck { backToThree with target := none } = some .badState ∧
    t.inService .a = true ∧ t.linePresent (LinePos.ofIndex 3) = true ∧ backToThree.expectedGeneration = none ∧
    (t.circuit 3).generation = 3 := by
  refine ⟨(Moves.refl.freeAs 0 .done).agree (State.PositionsAgree.start
    ((State.cold_agree .ready 1000 site []).same {}) { free := ?_, toFibre := fun _ => ?_, toCopper := fun h => ?_ }), ?_⟩
  · decide +kernel
  · decide +kernel
  · cases h
  · decide +kernel

theorem test_meets_StrandAndRecover :
    ((onFibre .fibre).circuit 3).pathState = .fibre ∧ ((onFibre .fibre).circuit 3).bearer = some ⟨.a, 7⟩ ∧
    (atRest.circuit 3).pathState ≠ .fibre ∧ (atRest.circuit 3).pathState ≠ .stranded ∧ (atRest.circuit 3).vacated = none ∧
    ((onFibre .stranded).circuit 3).pathState = .stranded ∧
    ((onFibre .stranded).circuit 3).vacated = some (LinePos.ofIndex 3) ∧
    ((onFibre .stranded).circuit 3).bearer = some ⟨.a, 7⟩ ∧
    (onFibre .stranded).lineUse (LinePos.ofIndex 3) = .vacated 3 ∧
    (onFibre .stranded).lineUse (LinePos.ofIndex 9) ≠ .free ∧
    (onFibre .stranded).lineUse (LinePos.ofIndex 9) ≠ .vacated 3 := by decide +kernel

/-! ### Spans and ports -/

theorem test_meets_MessagesAndFrames :
    (⟨.decline, 255, 255, 255, .toFibre, false, some .concluded⟩ : RollMessage).reason.isSome = true ∧
    (⟨.offer, 0, 0, 0, .toCopper, true, none⟩ : RollMessage).reason.isSome = false := by decide

theorem test_meets_SpanSends :
    (atRest.span .a).line = .disabled ∧ (serving.span .a).line = .inService ∧
    ∀ i e, serving.bridge i = some e → e.pending = false := by
  refine ⟨by decide, by decide, fun i e h => ?_⟩
  simp [serving, atRest, State.cold, State.modSpan, State.setSpan, State.bridge] at h

/-- A test of span A with one frame sent of two, and its last frame back as it was sent. -/
def proving (reference : Marker) : State :=
  atRest.modSpan .a fun k => { k with line := .proving, prove := some ⟨none, 2, 1, 0, .even, reference⟩ }

theorem test_meets_SpanSends_prove :
    let p : ProveRun := ⟨none, 2, 1, 0, .even, .even⟩
    ((proving .even).span .a).line = .proving ∧ ((proving .even).span .a).prove = some p ∧ p.sent < p.asked ∧
    p.reference = p.lastSent ∧ ((proving .odd).span .a).prove = some { p with reference := .odd } ∧
    ({ p with sent := 2 } : ProveRun).asked ≤ ({ p with sent := 2 } : ProveRun).sent ∧
    LoopReturn.asSent ≠ .nothing := by decide +kernel

/-- Span A aligned in a line state, with its counts one below their limits. -/
def counting (line : LineState) (reference : Marker := .even) : State :=
  atRest.modSpan .a fun k =>
    { k with line := line, alignment := .aligned, good := 3, errored := 3, train := 3, holdDown := 511,
             reference := reference }

/-- A TRAIN of rank 1, a REPLY of rank 1, a frame with a wrong check, and a CARRY. -/
def trainFrame : SpanFrame := plainFrame { site with rank := 1 } 1
def replyFrame : SpanFrame := plainFrame { site with rank := 1 } 2
def badFrame : SpanFrame := { trainFrame with check := ~~~trainFrame.check }
def goodCarry : SpanFrame := (carryFrame 0 .odd (idleBearer site) emptyControl).1

theorem test_meets_SpanFrameCounts_verdicts :
    judgeFrame .even trainFrame = (.train 1, .even) ∧ judgeFrame .even replyFrame = (.reply 1, .even) ∧
    judgeFrame .even badFrame = (.errored, .even) ∧
    judgeFrame .even goodCarry = (.carry (idleBearer site) emptyControl, .odd) ∧
    judgeFrame .even (plainFrame site 1) = (.train 5, .even) ∧
    judgeFrame .even (plainFrame site 2) = (.reply 5, .even) := by
  refine ⟨judgeFrame_train _ _ rfl, judgeFrame_reply _ _ rfl, judgeFrame_wrongCheck _ _ ?_, ?_, judgeFrame_train _ _ rfl,
    judgeFrame_reply _ _ rfl⟩
  · have h : ∀ x : BitVec 16, ~~~x ≠ x := fun x e => by
      have := congrArg (BitVec.getLsbD · 0) e
      simp at this
    simp only [badFrame, trainFrame, plainFrame, closeFrame, frameCheck, frameCovered]
    exact h _
  · exact (judgeFrame_carry _ _ rfl).trans rfl

theorem test_meets_SpanFrameCounts :
    (counting .seek).resetLow = false ∧ (counting .seek).phase = .ready ∧ ((counting .seek).span .a).alignment = .aligned ∧
    (∀ line, line ∈ [LineState.seek, .answer, .inService, .holdDown] → ((counting line).span .a).line = line ∧
      ((counting line).span .a).good < 4 ∧ ((counting line).span .a).errored < 4 ∧
      ((counting line).span .a).train < 4 ∧ ((counting line).span .a).holdDown < 512) ∧ (1 : Byte) ≠ site.rank := by
  decide +kernel

/-- A receiver that searches, and one that has found a delimiter. -/
theorem test_meets_SpanFrameCounts_alignment :
    let with_ := fun (x : Machine.Alignment) => (counting .seek).modSpan .a fun k => { k with alignment := x }
    ((with_ .searching).span .a).alignment = .searching ∧ ((with_ .trial).span .a).alignment = .trial ∧
    ((counting .disabled).span .a).line = .disabled ∧ ((counting .proving).span .a).line = .proving ∧
    ((after (.spanFrameReceived .a (.inPlace badFrame)) (with_ .searching)).span .a).alignment = .trial ∧
    ((after (.spanFrameReceived .a (.elsewhere badFrame)) (with_ .aligned)).span .a).alignment = .trial ∧
    ((after (.spanFrameReceived .a .nothing) (with_ .trial)).span .a).alignment = .searching := by decide +kernel

/-- Span A at a limit of its counts. -/
def atLimit (line : LineState) : State :=
  atRest.modSpan .a fun k => { k with line := line, good := 4, errored := 4, train := 4, holdDown := 512 }

/-- A test of span A whose frames are sent. -/
def proved (ref : Option OrderRef) : State :=
  atRest.modSpan .a fun k => { k with line := .proving, prove := some ⟨ref, 2, 2, 0, .even, .even⟩ }

theorem test_meets_SpanPassages :
    (∀ line, ((atLimit line).span .a).line = line ∧ ((atLimit line).span .a).good = 4 ∧
      ((atLimit line).span .a).errored = 4 ∧ ((atLimit line).span .a).train = 4 ∧
      ((atLimit line).span .a).holdDown = 512) ∧
    ((counting .seek).span .a).good < 4 ∧ ((proved (some order)).span .a).line = .proving ∧
    ((proved (some order)).span .a).prove = some ⟨some order, 2, 2, 0, .even, .even⟩ ∧
    ((proved none).span .a).prove = some ⟨none, 2, 2, 0, .even, .even⟩ := ⟨fun _ => ⟨rfl, rfl, rfl, rfl, rfl⟩, by decide, rfl, rfl, rfl⟩

theorem test_entry_into_service :
    let x := (after (.spanTrained .a) (atLimit .answer)).span .a
    x.store = [idleBearer site] ∧ x.balance = 0 ∧ x.lastSent = .even := by decide +kernel

theorem test_span_passages :
    ((after (.spanTrained .a) (atLimit .answer)).span .a).line = .inService ∧
    ((after (.spanErrors .a) (atLimit .answer)).span .a).holdCause = some .errors := by decide +kernel

/-- A slot of span A in use. -/
def usedSlot (s : State) : State := s.setSlotEntry ⟨.a, 255⟩ ⟨.assigned 3, none⟩

theorem test_meets_SpanOrders :
    ({ atRest with cfg := SiteConfig.unset } : State).spanPresent .a = false ∧ atRest.spanPresent .a = true ∧
    (atRest.span .a).line = .disabled ∧ (serving.span .a).line ≠ .disabled ∧ (serving.span .a).line = .inService ∧
    ((usedSlot atRest).slotEntry ⟨.a, 255⟩).use ≠ .free ∧ ((proved (some order)).span .a).line = .proving ∧
    ((proved (some order)).span .a).prove = some ⟨some order, 2, 2, 0, .even, .even⟩ ∧
    ((atLimit .seek).span .a).line ≠ .inService := by decide +kernel

theorem test_meets_SpanOrders_unused : ¬∃ b : BearerSlot, b.span = .a ∧ (serving.slotEntry b).use ≠ .free := by
  rintro ⟨⟨sp, n⟩, rfl, h⟩
  exact h (by simp [serving, atRest, State.cold, State.modSpan, State.setSpan, State.slotEntry, PerSpan.get])

/-- Port p with its counts one below their limits. -/
def port (p : PortNo) (presence : Presence) (loss recovery : Nat) (trial : Option (Fin 256)) : State :=
  (atRest.modPort p fun k =>
    { k with presence := presence, loss := loss, recovery := recovery, frameTiming := some 8, trialTiming := trial })

/-- A frame period with a pulse at a place, and one of a frame whose level changes. -/
def pulseAt (place : Fin 256) : PortPeriod := .clocked [⟨place, 1⟩] (tab 32 fun n => BitVec.ofNat 8 n.val)

theorem test_meets_PortFrameCounts :
    (port 0 .present 2 15 none).resetLow = false ∧ (port 0 .present 2 15 none).phase = .ready ∧
    ((port 0 .present 2 15 none).port 0).loss < 3 ∧ ((port 0 .present 2 15 none).port 0).recovery < 16 ∧
    judgePeriod .follow .short (some 8) (pulseAt 8) = .good ∧
    judgePeriod .follow .short (some 8) (pulseAt 9) = .misplaced ∧
    judgePeriod .follow .short (some 8) .stopped = .missing ∧
    (driven atRest).clockRole 8 = .drive ∧ judgePeriod .drive .short none (pulseAt 0) = .good ∧
    judgePeriod .drive .short none (.clocked [] (tab 32 fun _ => 0)) ≠ .good ∧ atRest.clockRole 0 = .follow ∧
    ((port 0 .lost 0 15 none).port 0).trialTiming = none ∧ findTrial .short (pulseAt 9) = some 9 ∧
    ((port 0 .lost 0 15 (some 9)).port 0).trialTiming = some 9 := by decide +kernel

theorem test_meets_PortFrameCounts_passages :
    ((port 8 .present 3 0 none).port 8).presence = .present ∧ ((port 8 .present 3 0 none).port 8).loss = 3 ∧
    ((port 8 .lost 0 16 (some 9)).port 8).presence = .lost ∧ ((port 8 .lost 0 16 (some 9)).port 8).recovery = 16 ∧
    (port 8 .lost 0 16 (some 9)).clockRole 8 = .follow ∧ ((port 8 .present 2 15 none).port 8).loss < 3 ∧
    ((port 8 .present 2 15 none).port 8).recovery < 16 := by decide +kernel

theorem test_meets_ElasticStores_span :
    let full := serving.modSpan .a fun k => { k with store := [idleBearer site, idleBearer site] }
    let marked := fun f => moving (entry .matching .responder) |>.modSpan .a fun k => { k with lastSlipNotice := f }
    (serving.span .a).store.length < 2 ∧ 2 ≤ (full.span .a).store.length ∧ serving.inService .a = true ∧
    (serving.span .a).store = [] ∧ ((marked (some (1000 - 7999))).counter - (1000 - 7999)).toNat < 8000 ∧
    ¬((marked (some (1000 - 8000))).counter - (1000 - 8000)).toNat < 8000 ∧ ((marked none).span .a).lastSlipNotice = none ∧
    (marked none).bridge 0 = some (entry .matching .responder) ∧ (entry .matching .responder).bearer.span = .a ∧
    (entry .rolled .responder).phase ≠ .matching ∧ serving.bridge 1 = none ∧
    (((marked (some (1000 - 7999))).spanSlip .a .deleting).nte.pending = []) ∧
    ((marked (some (1000 - 8000))).spanSlip .a .deleting).nte.pending = [⟨1000, .slip (.span .a) .deleting 1⟩] ∧
    (((serving.span .a).alignment ≠ .searching ∧ (serving.span .a).line = .inService) ∧ (atRest.span .a).line ≠ .inService) ∧
    ((counting .inService).span .a).line = .inService := by decide +kernel

theorem test_meets_ElasticStores_port :
    let has := fun (presence : Presence) (l : List PortFrame) => (port 8 presence 2 15 none).modPort 8 fun k =>
      { k with rxStore := l, txStore := l }
    let f : PortFrame := tab 32 fun _ => 1
    (driven atRest).clockRole 8 = .drive ∧ atRest.clockRole 8 = .follow ∧ ((has .present []).port 8).rxStore.length < 2 ∧
    2 ≤ ((has .present [f, f]).port 8).rxStore.length ∧ ((has .present []).port 8).presence = .present ∧
    ((has .present []).port 8).rxStore = [] ∧ (atRest.port 8).frameTiming = none ∧
    ((has .present []).port 8).frameTiming ≠ none ∧ ((has .present []).port 8).txStore = [] ∧
    ((has .present [f]).port 8).txStore = f :: [] ∧ lineNumber 8 = some (entry .matching .responder).linePos.port ∧
    ((has .lost []).port 8).loss < 3 ∧ ((has .lost []).port 8).recovery < 16 ∧ ((has .lost []).port 8).presence = .lost ∧
    officeNumber 0 = some 0 ∧ officeNumber 8 = none := by decide +kernel

theorem test_port_passages :
    ((after (.portLost 8) (port 8 .present 3 0 none)).port 8).presence = .lost ∧
    ((after (.portRecovered 8) (port 8 .lost 0 16 (some 9))).port 8).frameTiming = some 9 := by decide +kernel

theorem test_meets_PathLosses :
    ((atLimit .inService).span .a).line = .inService ∧ ((atLimit .inService).span .a).errored = 4 ∧
    ((atLimit .inService).span .a).train = 4 ∧ ((port 8 .present 3 0 none).port 8).presence = .present ∧
    ((port 8 .present 3 0 none).port 8).loss = 3 ∧ lineNumber 8 = some 0 ∧ officeNumber 0 = some 0 ∧
    ((port 8 .lost 0 16 (some 9)).port 8).recovery = 16 := by decide +kernel

theorem test_meets_PathLosses_entry :
    (∀ phase role, (moving (entry phase role)).bridge 0 = some (entry phase role)) ∧
    (entry .matching .responder).bearer.span ≠ .b ∧ (entry .matching .responder).linePos.port ≠ 1 ∧
    (entry .matching .responder).direction = .toFibre ∧
    ({ entry .matching .responder with direction := .toCopper } : Bridge).direction = .toCopper ∧
    (entry .offering .initiator).rolled = false ∧ ({ entry .offering .initiator with rolled := true } : Bridge).rolled = true ∧
    (entry .matching .responder).group = none ∧ (entry .matching .responder).ref = some order ∧
    ((moving (entry .unwinding .responder)).circuit 3).lineFeed = true ∧
    ((((moving (entry .unwinding .responder)).modCircuit 3 fun k => { k with lineFeed := false })).circuit 3).lineFeed = false := by
  refine ⟨fun _ _ => rfl, ?_⟩
  decide +kernel

theorem test_meets_SignallingMonitor :
    site.signallingPresent = true ∧ State.oddOnes 0x00 = false ∧ State.oddOnes 0x01 = true ∧
    (BitVec.extractLsb' 3 5 (0x01 : Byte)).toNat = site.signallingSlot.val ∧
    ((atRest.setMonitor 3 ⟨.idle, some .idle, 8000⟩).monitor 3).age = 8000 ∧
    ((atRest.setMonitor 3 ⟨.idle, some .idle, 7999⟩).monitor 3).age < 8000 := by decide +kernel

/-- A frame with a report of slot 3, SEIZED, in slot 0, and one whose report is of the signalling slot itself. -/
def reporting (octet : Byte) : PortFrame := tab 32 fun n => if n = 0 then octet else 1

theorem test_meets_SignallingMonitor_report :
    State.oddOnes 0x1A = true ∧ (BitVec.extractLsb' 3 5 (0x1A : Byte)).toNat = 3 ∧ (reporting 0x1A)[0] = 0x1A ∧
    ((port 0 .present 2 0 none).port (officePort 0)).presence = .present ∧
    ((port 0 .present 2 0 none).port (officePort 0)).loss < 3 ∧ SiteConfig.unset.signallingPresent = false ∧
    ((atRest.takeReport 0 (reporting 0x1A)).monitor 3).candidate = some .seized ∧
    (((atRest.setMonitor 3 ⟨.idle, some .seized, 8000⟩).takeReport 0 (reporting 0x1A)).monitor 3) =
      ⟨.unknown, some .seized, 0⟩ := by decide +kernel

/-! ### Frame timing -/

/-- The unit with office ports 2 and 1 listed, in this order, and both qualified. -/
def timing (mode : FtuMode) (revertive : Bool) : State :=
  atRest.setFtu { atRest.ftu with
    mode := mode, candidates := [.office 2, .office 1], revertive := revertive, counts := tab 18 fun _ => 8000 }

theorem test_meets_TimingSources_candidate :
    Source.office 2 ∈ (timing .freeRun false).ftu.candidates ∧ (timing .freeRun false).qualified (.office 2) = true ∧
    (timing (.locked (.office 1)) true).ftu.revertive = true ∧
    (timing (.locked (.office 1)) true).ftu.priority (.office 2) = some 0 ∧
    (timing (.locked (.office 1)) true).ftu.priority (.office 1) = some 1 ∧
    Source.office 3 ∉ (timing .holdover false).ftu.candidates ∧ atRest.qualified (.office 2) = false := by
  decide +kernel

theorem test_meets_TimingSources :
    (timing (.locked (.office 2)) true).ftu.mode = .locked (.office 2) ∧
    (timing .freeRun true).ftu.mode ≠ .locked (.office 2) ∧ (timing .holdover true).ftu.mode = .holdover ∧
    [Source.office 2, .office 1].find? (timing .freeRun true).qualified = some (.office 2) ∧
    [Source.office 2].find? atRest.qualified = none ∧ Source.office 3 ∉ [Source.office 2] ∧
    [Source.office 2, .office 1].findIdx? (· == .office 2) = some 0 ∧
    [Source.office 2, .office 1].findIdx? (· == .office 1) = some 1 := by decide +kernel

/-! ### The System Memory Port and the runners -/

/-- The memory port as given. -/
def memory (tag : Tag) (waiting : List ReadRequest) (writes : List PostedWrite) (claims : List WriteClaim) : State :=
  (atRest.setSmp { atRest.smp with
    waiting := waiting, writes := writes, claims := claims,
    sent := if writes.isEmpty then none else some 1000 }).setTag 0 tag

/-- A read of two units. -/
def twoUnits : ReadRequest := ⟨.runner 0, 0x40, 64⟩

theorem test_meets_MemoryReads_tags :
    (memory .free [twoUnits] [] []).smp.writes = [] ∧ (memory .free [twoUnits] [] []).smp.waiting = [twoUnits] ∧
    (memory .free [twoUnits] [] []).tag 0 = .free ∧ (memory .free [] [] []).smp.waiting = [] ∧
    (memory (.outstanding twoUnits 0 [] 1000) [] [] []).tag 0 = .outstanding twoUnits 0 [] 1000 ∧
    atRest.passed 1000 = true ∧ atRest.passed 1001 = false ∧
    (memory (.quarantined 1000) [] [] []).tag 0 = .quarantined 1000 := by decide +kernel

theorem test_meets_MemoryReads_units :
    (memory (.outstanding twoUnits 1 [] 1000) [] [] []).tag 0 = .outstanding twoUnits 1 [] 1000 ∧
    1 + 1 = twoUnits.length / 32 ∧ ¬(0 + 1 = twoUnits.length / 32) := by decide +kernel

/-- A posted write of a claimant. -/
def posted (c : Claimant) : PostedWrite := ⟨0x40, [], c⟩

theorem test_meets_PlacesGranted :
    let claim := fun c => memory .free [] [] [c]
    let full := memory .free [] (List.replicate 8 (posted .notice)) []
    (claim (.result 0 (posted (.result 0)))).smp.writes.length < 8 ∧
    (claim (.result 0 (posted (.result 0)))).smp.claims = .result 0 (posted (.result 0)) :: [] ∧
    (claim (.take 0)).smp.claims = .take 0 :: [] ∧ (claim (.settled 0 0)).smp.claims = .settled 0 0 :: [] ∧
    ((claim (.settled 0 0)).setSettles [⟨0, order, .done, 0⟩]).findSettle 0 = some ⟨0, order, .done, 0⟩ ∧
    order.quiet = false ∧ ({ order with quiet := true } : OrderRef).quiet = true ∧
    ((claim (.settled 0 0)).setSettles [⟨0, { order with quiet := true }, .done, 0⟩]).findSettle 0 =
      some ⟨0, { order with quiet := true }, .done, 0⟩ ∧ (claim (.settled 0 0)).nte.pending.length < 16 ∧ 8 ≤ full.smp.writes.length := by decide +kernel

/-- Runner 0 with a claim that waits and a result write it keeps, or with only the kept one. -/
def keepingClaims (claims : List WriteClaim) (held : List (List WriteClaim)) : State :=
  (memory .free [] (List.replicate 7 (posted .notice)) claims).setHeld 0 held

theorem test_meets_PlacesGranted_kept :
    let w := posted (.result 0); let waits := keepingClaims [.result 0 w] []; let other := keepingClaims [.result 1 w] []
    (∃ c ∈ waits.smp.claims, c.runner = 0) ∧ (∀ c ∈ other.smp.claims, c.runner ≠ 0) ∧ other.smp.claims ≠ [] ∧
    waits.heldClaims 0 = [] ∧ (keepingClaims [] [[.take 0]]).heldClaims 0 = [.take 0] :: [] ∧
    (WriteClaim.take 0).runner = 0 ∧ (keepingClaims [] []).smp.claims = [] := by
  refine ⟨⟨_, List.mem_singleton.mpr rfl, rfl⟩, ?_⟩
  decide +kernel

/-- A runner that waits for one place keeps the results of its next record, and makes their claims when it has the
place. -/
theorem test_kept_claims_follow :
    let w := posted (.result 0); let s := keepingClaims [.result 0 w, .take 1] []
    let t := s.settleOrder order .done []
    t.smp.claims = s.smp.claims ∧ (t.heldClaims 0).length = 1 ∧
    ((after .writePlaceGrant t).smp.claims.map WriteClaim.runner) = [1, 0] ∧ (after .writePlaceGrant t).heldClaims 0 = [] := by
  decide +kernel

theorem test_meets_WriteAnswers_claimants :
    (posted (.taken 0)).claimant = .taken 0 ∧ (posted (.settled 0)).claimant = .settled 0 ∧
    (memory .free [] [posted (.result 0)] []).findSettle 0 = none ∧
    (((memory .free [] [posted (.result 0)] []).setSettles [⟨0, order, .done, 2⟩]).findSettle 0).map Settle.writesLeft =
      some 2 ∧ atRest.passed 1000 = true ∧ atRest.passed 1001 = false := by decide +kernel

theorem test_meets_WriteAnswers :
    (memory .free [] [posted .notice] []).smp.sent = some 1000 ∧
    (memory .free [] [posted .notice] []).smp.writes = posted .notice :: [] ∧
    (posted (.row 3)).claimant = .row 3 ∧ (posted (.result 0)).claimant = .result 0 ∧
    settling.findSettle 0 = some ⟨0, order, .restarted, 1⟩ ∧ atRest.smp.sent = none := by decide +kernel

theorem test_meets_RunnerFetches :
    ((running { Runner.cold with cursor := 64 }).runner 0).cursor.toNat % 64 = 0 ∧
    ((running { Runner.cold with cursor := 63 }).runner 0).cursor.toNat % 64 ≠ 0 ∧
    firstUnit .little (List.replicate 64 0) = .notArmed ∧
    firstUnit .little ([1, 0, 0, 0, 11, 1] ++ List.replicate 10 0 ++ [0x80] ++ List.replicate 47 0) = .next 0x80 ∧
    Runner.cold.raced = false ∧ Runner.cold.streak ≠ 8 ∧ ({ Runner.cold with streak := 8 } : Runner).streak = 8 ∧
    (0x80 : Addr).toNat % 64 = 0 := by decide +kernel

/-- A Control Block with its notice area at 0x2000, 16 entries, its status table at 0x3000 and chain head 0 as given. -/
def controlBlock (head : Byte) : List Byte :=
  head :: List.replicate 31 0 ++ [0, 0x20, 0, 0, 0, 0, 0, 0] ++ [16, 0, 0, 0, 0, 0, 0, 0] ++ [0, 0x30, 0, 0, 0, 0, 0, 0] ++
    List.replicate 72 0

theorem test_meets_RunnerFetches_block :
    blockBases .little (controlBlock 0x40) = some ⟨0x2000, 16, 0x3000⟩ ∧ blockBases .little (List.replicate 128 0) = none ∧
    atRest.nte.bases = none ∧ (engine none 0).nte.bases ≠ none ∧ fieldAt .little (controlBlock 0x40) 0 8 = 0x40 ∧
    fieldAt .little (controlBlock 0x20) 0 8 % 64 ≠ 0 := by decide +kernel

/-- A MIGRATE of circuit 3 to bearer slot 7 of span A, and a FENCE. -/
def migrateRecord : List Byte :=
  [1, 0, 0, 0, 1, 1, 0, 0] ++ List.replicate 8 0 ++ [3, 0, 0, 7] ++ List.replicate 44 0
def fenceRecord : List Byte := [1, 0, 0, 0, 10, 1] ++ List.replicate 58 0

/-- The first unit of a GROUP of two members, and a record of no known kind. -/
def groupRecord : List Byte := [1, 0, 0, 0, 3, 2] ++ List.replicate 10 0 ++ [2] ++ List.replicate 47 0
def unknownRecord : List Byte := [1, 0, 0, 0, 200, 1] ++ List.replicate 58 0

/-- A record of a kind and a unit count, with octets at their offsets and every other octet 0. -/
def record (kind units : Byte) (octets : List (Nat × Byte)) : List Byte :=
  octets.foldl (fun l x => l.set x.1 x.2) ([1, 0, 0, 0, kind, units] ++ List.replicate (64 * max 1 units.toNat - 6) 0)

/-- The move, with its match limit at the field value 800. -/
def shortMove : MoveOrder := { toFibre with matchLimit := 800 }

/-- Each kind at the ends of the ranges of its fields: the order it spells, and MALFORMED just beyond. -/
theorem test_meets_RecordsValidated_moves :
    let move := fun (kind : Byte) (l : List (Nat × Byte)) => recordOf site (record kind 1 ([(0x10, 3), (0x13, 7)] ++ l))
    move 1 [(0x18, 0x20), (0x19, 3)] = .order (.migrate shortMove false 0) 1 ∧
    move 1 [(0x18, 0x1F), (0x19, 3)] = .malformed 1 ∧ move 1 [(0x1E, 0x10)] = .malformed 1 ∧
    move 1 [(0x1C, 0xFF), (0x1D, 0xFF), (0x1E, 0x0F)] = .order (.migrate toFibre false 1048575) 1 ∧
    move 1 [(0x11, 2)] = .malformed 1 ∧ move 1 [(0x12, 2)] = .malformed 1 ∧
    move 1 [(0x11, 1), (0x12, 2), (0x06, 0x1E), (0x14, 0x23), (0x0C, 9)] =
      .order (.migrate ⟨3, .toCopper, .a, 0, some ⟨1, 3⟩, some 9, true, 4000⟩ true 0) 1 ∧
    move 2 [] = .malformed 1 ∧ move 2 [(0x1C, 1), (0x06, 0x10)] = .order (.expect toFibre 1) 1 := by decide +kernel

theorem test_meets_RecordsValidated_groups :
    let two := fun (l : List (Nat × Byte)) => recordOf site (record 3 2 ([(0x10, 2), (0x40, 3), (0x42, 7)] ++ l))
    two [(0x48, 4), (0x4A, 8)] = .order (.group [toFibre, { toFibre with circuit := 4, slot := 8 }]) 2 ∧
    two [(0x48, 3), (0x4A, 8)] = .malformed 2 ∧ two [(0x48, 4), (0x4A, 7)] = .malformed 2 ∧
    two [(0x48, 4), (0x49, 1), (0x4A, 7)] = .order (.group [toFibre, ⟨4, .toCopper, .a, 0, none, none, false, 4000⟩]) 2 ∧
    recordOf site (record 3 1 [(0x10, 0)]) = .malformed 1 ∧ recordOf site (record 3 6 [(0x10, 33)]) = .malformed 1 ∧
    recordOf site (record 3 1 [(0x10, 2)]) = .malformed 1 := by decide +kernel

theorem test_meets_RecordsValidated_others :
    let of := fun (kind : Byte) (l : List (Nat × Byte)) => recordOf site (record kind 1 l)
    of 4 [(0x10, 3), (0x11, 2)] = .order (.abandon 3 .forward) 1 ∧ of 4 [(0x11, 3)] = .malformed 1 ∧
    of 5 [(0x10, 3), (0x1C, 5)] = .order (.trim 3 5) 1 ∧ of 5 [(0x1E, 0x10)] = .malformed 1 ∧
    of 6 [(0x11, 0)] = .malformed 1 ∧ of 6 [(0x11, 2)] = .malformed 1 ∧ of 6 [(0x11, 4)] = .malformed 1 ∧
    of 6 [(0x10, 3), (0x11, 3)] = .order (.map .forget 3 none none) 1 ∧
    of 6 [(0x10, 3), (0x06, 4), (0x14, 0x23)] = .order (.map .setLine 3 (some ⟨1, 3⟩) none) 1 ∧
    of 7 [(0x10, 3)] = .order (.recover 3 none none) 1 ∧ of 8 [(0x11, 2)] = .malformed 1 ∧
    of 8 [(0x10, 1), (0x11, 2), (0x18, 1)] = .order (.span .b .prove 1) 1 ∧ of 8 [(0x10, 2)] = .malformed 1 ∧
    of 8 [(0x11, 3)] = .malformed 1 ∧ of 10 [] = .fence ∧ of 12 [] = .malformed 1 ∧ of 0 [] = .malformed 1 := by
  decide +kernel

theorem test_meets_RecordsValidated_sources :
    let of := fun (cfg : SiteConfig) (l : List (Nat × Byte)) => recordOf cfg (record 9 1 l)
    of site [(0x10, 4), (0x11, 1), (0x12, 7), (0x13, 0x40), (0x14, 0x80), (0x15, 0x81)] =
      .order (.timing [.office 7, .line 0, .span .a, .span .b] true) 1 ∧
    of site [] = .malformed 1 ∧ of site [(0x10, 5)] = .malformed 1 ∧ of site [(0x10, 2)] = .malformed 1 ∧
    of site [(0x10, 1), (0x11, 2)] = .malformed 1 ∧ of site [(0x10, 1), (0x12, 0x82)] = .malformed 1 ∧
    of SiteConfig.unset [(0x10, 1), (0x12, 0x80)] = .malformed 1 ∧
    of { site with clockRoles := tab 8 fun _ => .drive } [(0x10, 1), (0x12, 0x40)] = .malformed 1 := by decide +kernel

theorem test_meets_RecordsValidated_units :
    64 ≤ migrateRecord.length ∧ firstUnit .little (record 11 1 [(0x10, 0x80)]) = .next 0x80 ∧
    firstUnit .little (record 3 1 [(0x10, 2)]) = .complete ∧ firstUnit .little (record 11 2 []) = .complete ∧
    firstUnit .little (record 1 1 [(0, 2)]) = .notArmed := by decide +kernel

theorem test_meets_RunnerFetches_units :
    firstUnit .little migrateRecord = .complete ∧ firstUnit .little groupRecord = .more 1 ∧
    firstUnit .little migrateRecord ≠ .notArmed ∧ ({ Runner.cold with raced := true } : Runner).raced = true ∧
    ({ Runner.cold with reading := some (.remainder groupRecord) } : Runner).reading = some (.remainder groupRecord) ∧
    recordOf site unknownRecord = .malformed 1 ∧ recordOf site fenceRecord = .fence := by decide +kernel

theorem test_meets_RunnerFetches_offers :
    let r := running { Runner.cold with cursor := 0x40, openCount := 1 }
    let full := r.setQueue (List.replicate 16 ⟨order, .migrate { toFibre with circuit := 4 }⟩)
    let crowded := r.setSmp { r.smp with claims := [.take 1] }
    full.recordWaits 0 (recordOf site migrateRecord) = some .queuePlace ∧
    r.recordWaits 0 (recordOf site fenceRecord) = some .fence ∧
    crowded.recordWaits 0 (recordOf site migrateRecord) = none ∧ crowded.smp.claims ≠ [] ∧ r.smp.claims = [] ∧
    ((r.offer 0 unknownRecord false).runner 0).cursor = 0x80 ∧
    (r.offer 0 unknownRecord false).settles.map Settle.code = [.malformed] := by decide +kernel

/-- Runner 0 waiting with units, told or not. -/
def waiting (rec : List Byte) (why : WaitFor) (told : Bool) (openCount : Nat) : State :=
  running { Runner.cold with
    state := .waiting, held := some ⟨rec, why⟩, told := told, cursor := 0x40, openCount := openCount }

theorem test_meets_HeldRecordsRetried :
    let w := waiting migrateRecord .queuePlace true 0
    let full := w.setQueue (List.replicate 16 ⟨order, .migrate toFibre⟩)
    (w.runner 0).state = .waiting ∧ (w.runner 0).held = some ⟨migrateRecord, .queuePlace⟩ ∧ (w.runner 0).raced = false ∧
    recordOf site migrateRecord = .order (.migrate toFibre false 0) 1 ∧ w.busy 3 = false ∧ (w.runner 0).told = true ∧
    w.queueRoom = true ∧ w.smp.writes.length < 8 ∧ w.smp.claims = [] ∧ (w.runner 0).cursor.toNat % 64 = 0 ∧
    (w.setQueue (List.replicate 16 ⟨order, .migrate { toFibre with circuit := 4 }⟩)).queueRoom = false ∧
    (w.setQueue (List.replicate 16 ⟨order, .migrate { toFibre with circuit := 4 }⟩)).busy 3 = false ∧
    full.queueRoom = false ∧ ((waiting migrateRecord .queuePlace false 0).runner 0).told = false ∧
    recordOf site fenceRecord = .fence ∧ ((waiting fenceRecord .fence false 0).runner 0).openCount = 0 ∧
    ((waiting fenceRecord .fence false 1).runner 0).openCount ≠ 0 := by decide +kernel

theorem test_meets_HeldRecordsRetried_orders :
    let idle := atRest.setMonitor 3 ⟨.idle, some .idle, 0⟩
    let holding := atRest.modCircuit 3 fun k => { k with hold := 2 }
    (moving (entry .matching .responder)).busy 3 = true ∧ atRest.busy 3 = false ∧ atRest.activity 3 ≠ .idle ∧
    idle.activity 3 = .idle ∧ [toFibre].findIdx? (fun x => (moving (entry .matching .responder)).busy x.circuit) = some 0 ∧
    (∀ x ∈ [toFibre], ¬atRest.busy x.circuit = true) ∧ (holding.circuit 3).hold ≠ 0 ∧ holding.activity 3 ≠ .idle ∧
    ¬((atRest.circuit 3).hold ≠ 0) ∧
    ((({ Runner.cold with raced := true } : Runner)).raced = true) := by decide +kernel

/-! ### Admission and the bridge table -/

/-- The move at the head of the queue. -/
def queued (s : State) : State := s.setQueue [⟨order, .migrate toFibre⟩]

theorem test_meets_AdmissionStarts :
    let ready := queued (serving.modPort 8 fun k => { k with presence := .present })
    let down := queued atRest
    ready.queue = [⟨order, .migrate toFibre⟩] ∧ ready.bridge 0 = none ∧ (∀ j : BridgeNo, j < 0 → ready.bridge j ≠ none) ∧
    (∀ g, ready.group g = none) ∧ down.startCheck toFibre = some .spanDown ∧ ready.startCheck toFibre = none ∧
    ready.moveBearer toFibre = some ⟨.a, 7⟩ ∧ ready.moveLine toFibre = some (LinePos.ofIndex 3) ∧
    ready.linePresent (LinePos.ofIndex 3) = true := by decide +kernel

/-- Entry 0 and group entry 0 are in use, by circuit 9; `s` has its head's move start beside them. -/
def besideGroup (s : State) : State :=
  (s.setBridge 0 (some { entry .matching .responder with circuit := 9, bearer := ⟨.b, 1⟩, group := some (0, 0) })).setGroup 0
    (some ⟨order, [⟨9, some 0, false, none⟩], 1, .closed, .running, none⟩)

theorem test_meets_AdmissionStarts_beside :
    let s := besideGroup (queued (serving.modPort 8 fun k => { k with presence := .present }))
    let full := s.setTxQueue .a (List.replicate 32 ⟨⟨.offer, 9, 2, 5, .toFibre, false, none⟩, .answer⟩)
    let offer : RollMessage := ⟨.offer, 7, 0, 5, .toFibre, false, none⟩
    s.group 0 ≠ none ∧ s.bridge 1 = none ∧ (∀ j : BridgeNo, j < 1 → s.bridge j ≠ none) ∧ s.startCheck toFibre = none ∧
    placeMessage (s.span .a).txQueue 1 offer = some [⟨offer, .entry 1⟩] ∧ placeMessage (full.span .a).txQueue 1 offer = none ∧
    ((after .admissionStart full).bridge 1).map Bridge.pending = some true ∧
    ((after .admissionStart s).span .a).txQueue = [⟨offer, .entry 1⟩] := by decide +kernel

/-- A TO_FIBRE move whose line port is LOST at its start: the span is in service and the line port is not PRESENT. -/
theorem test_meets_AdmissionStarts_lost :
    let s := queued serving; let e := serving.setQueue [⟨order, .expect toFibre 100⟩]
    s.startCheck toFibre = none ∧ s.linePresent (LinePos.ofIndex 3) = false ∧ toFibre.direction = .toFibre ∧
    ((after .admissionStart s).bridge 0).map Bridge.rolled = some true ∧
    ((after .admissionStart e).bridge 0).map Bridge.fromLost = some true := by decide +kernel

/-- An EXPECT or a GROUP at the head of the queue, with span A in service and line port 0 PRESENT. -/
def headed (b : QueueBody) : State :=
  (serving.modPort 8 fun k => { k with presence := .present }).setQueue [⟨order, b⟩]

/-- Circuit 4 back to its vacated position, from bearer slot 9 of span A. -/
def toCopper : MoveOrder := { toFibre with circuit := 4, direction := .toCopper }

/-- Circuit 4 STRANDED on that slot. -/
def strandedFour (s : State) : State :=
  (s.modCircuit 4 fun k => { k with pathState := .stranded, linePos := none, vacated := some (LinePos.ofIndex 4),
                                    bearer := some ⟨.a, 9⟩, hold := 0, receive := .none }).setLineUse (LinePos.ofIndex 4)
    (.vacated 4)

theorem test_meets_ExpectAndGroupStart_expect :
    let s := headed (.expect toFibre 100); let b := strandedFour (headed (.expect toCopper 100))
    s.queue = [⟨order, .expect toFibre 100⟩] ∧ s.bridge 0 = none ∧ (∀ g, s.group g = none) ∧ s.startCheck toFibre = none ∧
    s.startCheck { toFibre with span := .b } = some .spanDown ∧ s.moveBearer toFibre = some ⟨.a, 7⟩ ∧
    s.moveLine toFibre = some (LinePos.ofIndex 3) ∧ s.linePresent (LinePos.ofIndex 3) = true ∧
    b.startCheck toCopper = none ∧ b.moveBearer toCopper = some ⟨.a, 9⟩ ∧
    b.moveLine toCopper = some (LinePos.ofIndex 4) := by decide +kernel

theorem test_meets_ExpectAndGroupStart_group :
    let members := [toFibre, toCopper]
    let s := strandedFour (headed (.group members))
    let full := (List.finRange 47).foldl (fun u i => u.setBridge ⟨i.val, by omega⟩ (some (entry .matching .responder))) s
    s.queue = [⟨order, .group members⟩] ∧ members ≠ [] ∧ (∀ g, s.group g = none) ∧ members.length ≤ s.freeBridges.length ∧
    (∀ m ∈ members, s.startCheck m = none) ∧ membersApart members = true ∧ full.freeBridges.length < members.length ∧
    [toFibre, { toFibre with circuit := 9, span := .b }].findIdx? (fun x => (s.startCheck x).isSome) = some 1 := by
  decide +kernel

theorem test_meets_ExpectAndGroupStart_beside :
    let s := besideGroup (strandedFour (headed (.group [toFibre, toCopper])))
    let used := (List.finRange 4).foldl (fun u g => u.setGroup g (s.group 0)) s
    s.group 1 = none ∧ (∀ h : Fin 4, h < 1 → s.group h ≠ none) ∧ [toFibre, toCopper].length ≤ s.freeBridges.length ∧
    (∀ m ∈ [toFibre, toCopper], s.startCheck m = none) ∧ s.freeBridges[1]? = some 2 ∧ (∀ g, used.group g ≠ none) ∧
    ((after .admissionStart s).group 1).map Group.count = some 2 ∧
    ((after .admissionStart s).span .a).txQueue.map QueuedMessage.owner = [.entry 1, .entry 2] := by decide +kernel

theorem test_expect_and_group_start :
    let t := after .admissionStart (strandedFour (headed (.expect toCopper 100)))
    let u := after .admissionStart (strandedFour (headed (.group [toFibre, toCopper])))
    (t.bridge 0).map Bridge.phase = some .awaitingOffer ∧ (t.circuit 4).receive = .span ∧ (t.circuit 4).vacated = none ∧
    (u.group 0).map Group.count = some 2 ∧ (u.bridge 1).bind Bridge.group = some (0, 1) ∧
    (u.bridge 1).bind Bridge.txn = some 1 := by decide +kernel

/-- A watch entry of circuit 3, ready or not, with a deadline. -/
def watching (ready : Option FrameNo) (deadline : Option FrameNo) : State :=
  atRest.setWatch [⟨order, 3, .migrate toFibre, deadline, ready⟩]

/-- Circuits 3, 4 and 5 wait, all ready: 3 later than the others, which have one mark. -/
def threeReady : State :=
  atRest.setWatch [⟨order, 3, .migrate toFibre, none, some 995⟩, ⟨order, 5, .migrate { toFibre with circuit := 5 }, none, some 990⟩,
    ⟨order, 4, .migrate { toFibre with circuit := 4 }, none, some 990⟩]

theorem test_meets_WatchListLeft_earliest :
    threeReady.firstReady = some ⟨order, 4, .migrate { toFibre with circuit := 4 }, none, some 990⟩ ∧
    (threeReady.counter - 995).toNat < (threeReady.counter - 990).toNat := by decide +kernel

theorem test_meets_WatchListLeft :
    let w : WatchEntry := ⟨order, 3, .migrate toFibre, some 1000, some 990⟩
    (watching (some 990) (some 1000)).queue.length < 16 ∧ (watching (some 990) (some 1000)).firstReady = some w ∧
    (watching (some 990) (some 1000)).watchOf 3 = some w ∧ w.deadline = some 1000 ∧ atRest.passed 1000 = true ∧
    (watching none none).firstReady = none ∧ (watching none none).watchOf 4 = none ∧
    (watching none (some 1001)).due (some 1001) = false := by decide +kernel

theorem test_meets_AbandonOrders :
    let s := moving (entry .rolled .responder)
    (atRest.queue.find? fun q => q.circuits.contains 3) = none ∧ atRest.watchOf 3 = none ∧
    (atRest.circuit 3).bridgeIndex = none ∧
    ((withHead atRest).queue.find? fun q => q.circuits.contains 3) = some ⟨order, .migrate toFibre⟩ ∧
    (watching none none).watchOf 3 = some ⟨order, 3, .migrate toFibre, none, none⟩ ∧ (s.circuit 3).bridgeIndex = some 0 ∧
    s.bridge 0 = some (entry .rolled .responder) ∧ (s.queue.find? fun q => q.circuits.contains 3) = none ∧
    s.watchOf 3 = none ∧ (entry .rolled .responder).fromLost = false ∧
    ({ entry .rolled .responder with fromLost := true } : Bridge).fromLost = true := by decide +kernel

theorem test_meets_TrimOrders :
    let holding := atRest.modCircuit 3 fun k => { k with hold := 15 }
    let idle := holding.setMonitor 3 ⟨.idle, some .idle, 0⟩
    (moving (entry .matching .responder)).busy 3 = true ∧ atRest.busy 3 = false ∧ (atRest.circuit 3).hold = 0 ∧
    holding.busy 3 = false ∧ (holding.circuit 3).hold ≠ 0 ∧ holding.activity 3 ≠ .idle ∧ idle.busy 3 = false ∧
    idle.activity 3 = .idle ∧ (atRest.setWatch [⟨order, 3, .trim, none, none⟩]).watchOf 3 =
      some ⟨order, 3, .trim, none, none⟩ := by decide +kernel

theorem test_trim_keeps_owed_repeats :
    let owing := atRest.modAlign 3 fun a => { a with repeatsDue := 2 }
    ((owing.dispatch order (.trim 3 0)).alignOf 3).repeatsDue = 2 := by decide +kernel

theorem test_meets_EntryDeadlines :
    (∀ phase role, (moving (entry phase role)).bridge 0 = some (entry phase role)) ∧
    (entry .matching .responder).deadline = some 900 ∧ (moving (entry .matching .responder)).passed 900 = true ∧
    (entry .matching .responder).matchDue = none ∧ (entry .matching .responder).quickDue = none ∧
    (899 - 900 : FrameNo).msb = true ∧ (900 - 900 : FrameNo).msb = false ∧ (moving (entry .releasing .initiator)).due (some 900) = true ∧
    (moving (entry .releasing .initiator)).due (some 1001) = false := by
  refine ⟨fun _ _ => rfl, ?_⟩
  decide +kernel

theorem test_meets_EntryDeadlines_retries :
    (moving (entry .offering .initiator)).due (entry .offering .initiator).retryDue = true ∧
    (moving (entry .offering .initiator)).due (some 1001) = false ∧ (entry .rolled .responder).role = .responder := by
  decide +kernel

theorem test_meets_EntryDeadlines_nothing :
    atRest.bridge 0 = none ∧ (entry .matching .responder).phase ≠ .offering ∧
    ({ entry .matching .responder with matchDue := some 899 } : Bridge).matchDue = some 899 ∧
    (moving { entry .matching .responder with deadline := none }).due none = false ∧
    (entry .rolled .initiator).role = .initiator := by decide +kernel

theorem test_meets_OwnRoll :
    let e := { entry .matching .responder with matchDue := some 999, offset := some (-15) }
    (moving e).bridge 0 = some e ∧ e.phase = .matching ∧ e.matchDue = some 999 ∧ e.offset = some (-15) ∧
    ({ e with quickDue := some 999 } : Bridge).quickDue = some 999 ∧ (entry .matching .initiator).matchDue = none ∧
    (entry .matching .initiator).quickDue = none := by decide +kernel

theorem test_meets_OwnRoll_release :
    let e := { entry .rolled .initiator with peerRolled := true }
    let member := grouped { e with group := some (0, 0) } 1
    let opened := member.setGroup 0 (some ⟨order, [⟨3, some 0, true, none⟩], 0, .opened, .releasing, none⟩)
    e.role = .initiator ∧ e.group = none ∧ (member.group 0).map Group.gate = some .closed ∧
    (opened.group 0).map Group.gate = some .opened ∧
    ({ e with peerRolled := false, forced := true, fromLost := true } : Bridge).forced = true ∧
    (moving e).inService e.bearer.span = true ∧ (((moving e).releaseDecision 0).bridge 0).bind Bridge.outcome = some .done ∧
    ((moving e).modSpan .a fun k => { k with line := .seek }).inService e.bearer.span = false ∧
    ((moving { e with fromLost := true }).releaseDecision 0).bridge 0 = none := by decide +kernel

theorem test_meets_UnwindBegins :
    let e := { entry .rolled .initiator with rolled := true, offset := some 3 }
    (moving e).bridge 0 = some e ∧ e.rolled = true ∧ (entry .unwinding .initiator).phase = .unwinding := by
  decide +kernel

theorem test_meets_UnwindBegins_ends :
    let down := (moving (entry .unwinding .initiator)).modSpan .a fun k => { k with line := .seek }
    (moving (entry .unwinding .initiator)).inService .a = true ∧ (entry .unwinding .initiator).declined = false ∧
    down.inService .a = false ∧ down.bridge 0 = some (entry .unwinding .initiator) ∧
    ({ entry .unwinding .initiator with declined := true, freeOnPlace := true } : Bridge).freeOnPlace = true ∧
    (entry .unwinding .initiator).freeOnPlace = false ∧ (entry .matching .initiator).rolled = false ∧
    (((moving (entry .matching .initiator)).unwind 0 .declined (some .busy) true false).bridge 0).bind Bridge.deadline =
      some 1064 := by decide +kernel

theorem test_meets_EntryFreed :
    (moving (entry .releasing .initiator)).bridge 0 = some (entry .releasing .initiator) ∧
    (entry .releasing .initiator).txn = some 2 ∧ (entry .releasing .initiator).direction = .toFibre ∧
    ({ entry .releasing .initiator with direction := .toCopper } : Bridge).direction = .toCopper ∧
    ({ entry .awaitingOffer .responder with txn := none } : Bridge).txn = none ∧
    (entry .releasing .initiator).group = none ∧ (entry .releasing .initiator).ref = some order ∧
    ({ entry .releasing .initiator with ref := none } : Bridge).ref = none := by decide +kernel

theorem test_unwound_to_copper_is_vacated_again :
    let s := after .admissionStart (strandedFour (headed (.expect toCopper 100)))
    let t := s.freeAs 0 .expired
    s.lineUse (LinePos.ofIndex 4) = .occupied 4 ∧ (s.circuit 4).vacated = none ∧
    t.lineUse (LinePos.ofIndex 4) = .vacated 4 ∧ (t.circuit 4).vacated = some (LinePos.ofIndex 4) := by decide +kernel

/-! ### The Roll Protocol, notices and groups -/

/-- A message of slot 7 in a queue. -/
def waitingMessage (owner : MessageOwner) : QueuedMessage := ⟨⟨.offer, 7, 2, 5, .toFibre, false, none⟩, owner⟩

theorem test_meets_MessagePlaced :
    let m : RollMessage := ⟨.abandon, 7, 2, 5, .toFibre, false, some .ordered⟩
    waitingMessage .freedEntry ∈ [waitingMessage .freedEntry] ∧ (waitingMessage .answer).message.slot = m.slot ∧
    ([waitingMessage .answer].map fun x => x.message.slot).Nodup ∧ (waitingMessage .answer).owner ≠ .freedEntry ∧
    ∀ x ∈ [waitingMessage .answer], x.message.slot ≠ 8 := by decide

theorem test_meets_MessagePlaced_handing :
    let e := entry .unwinding .initiator; let s := moving e
    let full := s.setTxQueue .a (List.replicate 32 (waitingMessage .answer))
    let blocked := s.setTxQueue .a [waitingMessage .freedEntry]
    s.bridge 0 = some e ∧ s.entryMessage e = some ⟨.abandon, 7, 2, 5, .toFibre, false, none⟩ ∧ s.inService .a = true ∧
    e.pending = false ∧ (full.span .a).txQueue.length = 32 ∧ e.freeOnPlace = false ∧ s.entryMessage (entry .matching .initiator) = none ∧
    placeMessage (s.span .a).txQueue 0 ⟨.abandon, 7, 2, 5, .toFibre, false, none⟩ =
      some [⟨⟨.abandon, 7, 2, 5, .toFibre, false, none⟩, .entry 0⟩] ∧
    placeMessage (blocked.span .a).txQueue 0 ⟨.abandon, 7, 2, 5, .toFibre, false, none⟩ = none ∧
    ((blocked.handMessage 0).bridge 0).map Bridge.pending = some true := by decide +kernel

theorem test_meets_MessagePlaced_serving :
    let e := { entry .unwinding .initiator with pending := true }; let s := moving e
    let full := s.setTxQueue .a (List.replicate 32 (waitingMessage .answer))
    let calm := moving { entry .matching .initiator with pending := true }
    e.pending = true ∧ (s.span .a).txQueue.length < 32 ∧ 32 ≤ (full.span .a).txQueue.length ∧
    calm.entryMessage { entry .matching .initiator with pending := true } = none ∧
    ((calm.serveEntry .a 0).bridge 0).map Bridge.pending = some false ∧
    (((calm.setTxQueue .a (List.replicate 32 (waitingMessage .answer))).serveEntry .a 0).bridge 0).map Bridge.pending =
      some true ∧ e.bearer.span ≠ .b := by decide +kernel

theorem test_meets_MessagePlaced_answer :
    let s := serving.setTxQueue .a [waitingMessage .answer]
    let full := serving.setTxQueue .a (List.replicate 32 (waitingMessage .answer))
    (s.span .a).txQueue.length < 32 ∧ (∀ x ∈ (s.span .a).txQueue, x.message.slot ≠ 8) ∧
    (∃ x ∈ (s.span .a).txQueue, x.message.slot = 7) ∧ 32 ≤ (full.span .a).txQueue.length := by decide +kernel

/-- Span A with messages kept. -/
def keeping (l : List RollMessage) (s : State) : State := s.modSpan .a fun k => { k with arrivals := l }

theorem test_meets_ArrivalsInOrder :
    let m : RollMessage := ⟨.accept, 7, 2, 1, .toFibre, false, none⟩
    let later : RollMessage := ⟨.rolled, 7, 2, 1, .toFibre, false, none⟩
    (keeping [m, later] serving).arrivalDue .a later = false ∧ (keeping [m, later] serving).arrivalDue .a m = true ∧
    serving.arrivalDue .a later = true ∧ atRest.inService .a = false ∧ (5 : Byte) = site.rank := by decide +kernel

theorem test_meets_AcceptArrives :
    let s := moving (entry .offering .initiator)
    s.resetLow = false ∧ s.inService .a = true ∧ (1 : Byte) ≠ site.rank ∧
    s.arrivalDue .a ⟨.accept, 7, 2, 1, .toFibre, false, none⟩ = true ∧
    (s.popArrival .a).entryOn ⟨.a, 7⟩ = some (0, entry .offering .initiator) ∧
    (serving.popArrival .a).entryOn ⟨.a, 7⟩ = none ∧
    ({ entry .offering .initiator with rolled := true } : Bridge).rolled = true := by decide +kernel

theorem test_accept_opens_matching :
    ((after (.acceptArrival .a 7 2 1) ((moving (entry .offering .initiator)).modPort 8 fun k =>
      { k with presence := .present })).bridge 0).map Bridge.phase = some .matching := by decide +kernel

theorem test_meets_OfferArrives :
    (∀ phase role, ((moving (entry phase role)).popArrival .a).entryOn ⟨.a, 7⟩ = some (0, entry phase role)) ∧
    (∀ phase role, (moving (entry phase role)).arrivalDue .a ⟨.offer, 7, 2, 1, .toFibre, false, none⟩ = true) ∧
    (entry .awaitingOffer .responder).direction = .toFibre ∧ (entry .offering .initiator).group = none ∧
    (1 : Byte) < site.rank ∧ site.rank < (9 : Byte) := by
  refine ⟨fun _ _ => rfl, fun _ _ => rfl, ?_⟩
  decide +kernel

theorem test_meets_OfferArrives_matching :
    let e := entry .awaitingOffer .responder
    let present := (moving e).modPort 8 fun k => { k with presence := .present }
    (moving e).bridge 0 = some e ∧ e.rolled = false ∧ ({ e with rolled := true } : Bridge).rolled = true ∧
    e.direction = .toFibre ∧ (moving e).linePresent e.linePos = false ∧ present.linePresent e.linePos = true ∧
    present.bridge 0 = some e ∧ e.fromLost = false ∧ ({ e with fromLost := true } : Bridge).fromLost = true ∧
    ((present.enterMatching 0).bridge 0).map Bridge.phase = some .matching ∧
    (((moving e).enterMatching 0).bridge 0).map Bridge.phase = some .rolled := by decide +kernel

/-- A group member in OFFERING meets an OFFER of the other direction with MISMATCH (log 17), and one of its own with
BUSY. -/
theorem test_offer_at_a_member :
    let s := moving { entry .offering .initiator with group := some (0, 0) }
    ((after (.offerArrival .a 7 9 9 .toCopper false) s).span .a).txQueue.map (fun x => x.message.reason) = [some .mismatch] ∧
    ((after (.offerArrival .a 7 9 9 .toFibre false) s).span .a).txQueue.map (fun x => x.message.reason) = [some .busy] := by
  decide +kernel

theorem test_meets_OtherArrivals :
    (∀ phase role, (moving (entry phase role)).entryOn ⟨.a, 7⟩ = some (0, entry phase role)) ∧
    (entry .rolled .responder).fromLost = false ∧ (entry .rolled .responder).txn = some 2 := ⟨fun _ _ => rfl, rfl, rfl⟩

theorem test_meets_OtherArrivals_abandon :
    let e := { entry .rolled .initiator with rolled := true, offset := some 3 }
    (moving e).bridge 0 = some e ∧ e.rolled = true ∧ (entry .matching .responder).rolled = false ∧
    e.direction = .toFibre ∧ ({ e with direction := .toCopper } : Bridge).direction = .toCopper ∧
    ((moving e).peerAbandon 0 .ordered).bridge 0 = none ∧
    ((moving (entry .releasing .initiator)).peerAbandon 0 .ordered).bridge 0 ≠ none := by decide +kernel

/-- Bearer slot 7 of span A free after circuit 3's move, with its record. -/
def recorded (role : Role) (outcome : MigrationEnd) : State :=
  (serving.modCircuit 3 fun k => { k with lastMigration := some ⟨⟨.a, 7⟩, 2, role, outcome⟩ }).setSlotEntry ⟨.a, 7⟩
    ⟨.free, some 3⟩

theorem test_meets_RecordAnswers :
    serving.recordFor ⟨.a, 7⟩ 2 = none ∧ serving.entryOn ⟨.a, 7⟩ = none ∧ serving.inService .a = true ∧
    serving.arrivalDue .a ⟨.release, 7, 2, 1, .toFibre, false, none⟩ = true ∧
    (recorded .initiator .released).recordFor ⟨.a, 7⟩ 2 = some ⟨⟨.a, 7⟩, 2, .initiator, .released⟩ ∧
    (recorded .responder .unwound).recordFor ⟨.a, 7⟩ 2 = some ⟨⟨.a, 7⟩, 2, .responder, .unwound⟩ := by decide +kernel

theorem test_meets_NoticeEngine :
    let full := (engine none 1).setNte { (engine none 1).nte with lost := 2, pending := List.replicate 16 ⟨1, .stranded 3⟩ }
    (engine none 1).nte.bases = some ⟨0x2000, 16, 0x3000⟩ ∧ (engine none 1).smp.claims = [] ∧
    (engine none 1).smp.writes.length < 8 ∧ (engine none 1).nte.credits ≠ 0 ∧ (engine none 1).nte.lost = 0 ∧
    full.nte.lost ≠ 0 ∧ 16 ≤ full.nte.pending.length ∧ (engine none 1).nte.pending.length < 16 ∧
    (engine none 1).postingDue = false ∧ (engine none 1).smp.waiting = [] ∧ (engine none 0).due (some 1000) = true ∧
    (engine none 0).due none = false := by decide +kernel

theorem test_meets_NoticeEngine_dirty : (engine none 1).nte.dirty = 0 :: (List.range 275).map (· + 1) := by
  decide +kernel

theorem test_meets_WrittenOctets :
    0 + 3 < [(1 : Byte), 2, 3, 4].length ∧ fieldAt .little [1, 2, 3, 4] 0 4 = 0x04030201 ∧
    fieldAt .big [1, 2, 3, 4] 0 4 = 0x01020304 ∧ 3 < 4 ∧
    (let l := atRest.resultWrites 0 { order with memberList := List.replicate 64 9 } .declined (List.replicate 16 0)
       (List.replicate 5 (7, 3))
     l.length = 3 ∧ l[0]?.map PostedWrite.addr = some 0x68 ∧ l[2]?.map PostedWrite.addr = some 0xA0 ∧
     l[2]?.map PostedWrite.data = some ([9, 9, 9, 9, 9, 7, 3] ++ List.replicate 25 9)) ∧
    (timing (.locked (.office 1)) true).ftu.mode = .locked (.office 1) ∧
    ([Source.office 2, .office 1] : List Source)[1]? = some (.office 1) ∧ 65535 ≤ 65535 := by decide +kernel

theorem test_meets_RowOctets :
    255 = (255 : CircuitNo).val ∧ 271 = 256 + (15 : PortNo).val ∧ 275 < 276 ∧
    rowBytes (moving { entry .matching .responder with offset := some (-15) }) 3 0x0201 =
      [1, 2, 0, 1, 0, 1, 3, 0, 0, 0, 0, 0, 0, 0, 4, 0, 0, 2, 1, 2, 0xF1, 0, 0, 0, 0x69, 0] ++ List.replicate 6 0 ∧
    (timing (.locked (.office 1)) true).ftu.candidates[0]? = some (.office 2) ∧
    (rowBytes (timing (.locked (.office 1)) true) 274 0).take 5 = [0, 0, 1, 1, 1] ∧
    (rowBytes atRest 274 0).take 5 = [0, 0, 0, 0xFF, 0xFF] := by decide +kernel

theorem test_meets_GroupAdvances :
    let failed := grouped { entry .unwinding .initiator with outcome := some .declined } 1
    let rolled := grouped { entry .rolled .initiator with peerRolled := true } 1
    let x : Group := ⟨order, [⟨3, some 0, false, none⟩], 1, .closed, .running, none⟩
    failed.group 0 = some x ∧ x.members.findIdx? failed.memberFailed = some 0 ∧
    rolled.group 0 = some x ∧ x.members.findIdx? rolled.memberFailed = none ∧
    (x.members.filter fun m => !m.counted && rolled.memberCounts m).length = 1 ∧ x.count ≤ 1 ∧
    (x.members.filter fun m => !m.counted && (grouped (entry .matching .initiator) 1).memberCounts m).length < x.count := by decide +kernel

/-- A group all of whose members have ended, the first of them DECLINED. -/
theorem test_meets_GroupAdvances_end :
    let v : FreedValues := ⟨1, .copper, .initiator, some 2, none, 0, 0, 0, some .busy⟩
    let m : GroupMember := ⟨3, none, true, some (.declined, v)⟩
    let x : Group := ⟨order, [m], 0, .closed, .unwinding, some 0⟩
    let s := atRest.setGroup 0 (some x)
    s.group 0 = some x ∧ m.ended = some (.declined, v) ∧ (∀ m ∈ x.members, m.ended ≠ none) ∧
    (grouped (entry .matching .initiator) 1).group 0 ≠ none ∧ (moving (entry .rolled .initiator)).bridge 0 ≠ none ∧
    (s.endGroup 0).settles.map Settle.code = [.declined] := by decide +kernel

end Sys2Proof.Tests
end

section
/-! PROOFS. MAP FORGET (R17): what it writes, what it leaves the circuit to claim, and who may claim a FREE position. -/

namespace Sys2Proof.Machine

open Sys2Proof

namespace State

variable {s : State} {c : CircuitNo} {p : LinePos}

/-! ### What FORGET writes -/

/-- The state that a FORGET of circuit c leaves when it is carried out (R17). -/
def forgotten (s : State) (c : CircuitNo) : State :=
  (s.freeLine (s.circuit c).vacated).setCircuit c
    { s.circuit c with vacated := none, generation := (s.circuit c).generation + 1 }

theorem mapForget_of_vacated {v : LinePos}
    (hst : (s.circuit c).pathState = .copper ∨ (s.circuit c).pathState = .fibre ∨ (s.circuit c).pathState = .stranded)
    (hv : (s.circuit c).vacated = some v) : s.mapForget c = (s.forgotten c, .done, 0) := by
  have hfits : ((s.circuit c).pathState == .copper || (s.circuit c).pathState == .fibre ||
      (s.circuit c).pathState == .stranded) = true := by
    rcases hst with h | h | h <;> simp [h]
  simp [mapForget, forgotten, hfits, hv]

theorem mapForget_refused
    (h : (s.circuit c).pathState = .bridged ∨ (s.circuit c).pathState = .unequipped ∨ (s.circuit c).vacated = none) :
    s.mapForget c = (s, .badState, 0) := by
  rcases h with h | h | h <;> simp [mapForget, h]

theorem forgotten_circuit_same :
    (s.forgotten c).circuit c =
      { s.circuit c with vacated := none, generation := (s.circuit c).generation + 1 } :=
  circuit_setCircuit_same _ _ _

theorem forgotten_circuit_ne {d : CircuitNo} (hd : d ≠ c) : (s.forgotten c).circuit d = s.circuit d := by
  rw [forgotten, circuit_setCircuit_ne _ _ _ _ hd.symm, freeLine_circuit]

theorem forgotten_lineUse {v : LinePos} (hv : (s.circuit c).vacated = some v) (q : LinePos) :
    (s.forgotten c).lineUse q = if q = v then .free else s.lineUse q := by
  rw [forgotten, lineUse_setCircuit, freeLine_lineUse, hv]
  simp only [Option.some.injEq, eq_comm]

theorem forgotten_rest : { s.forgotten c with circuits := s.circuits, lineOcc := s.lineOcc } = s := by
  unfold forgotten
  cases (s.circuit c).vacated <;> rfl

/-! ### What RECOVER and a TO_COPPER migration ask for -/

theorem recover_without_position (h : (s.circuit c).vacated = none) :
    s.recover c none = (s, .badState, 0) := by
  simp [recover, h]

/-- A chain of checks finds nothing when its first check finds nothing and neither does the rest. -/
theorem check_eq_none_iff {α : Type} {P : Prop} [Decidable P] {x : α} {rest : Option α} :
    (if P then some x else rest) = none ↔ ¬P ∧ rest = none := by
  by_cases h : P <;> simp [h]

/-- The start checks of a TO_COPPER migration, all of R43's for that direction. -/
theorem startCheck_toCopper_iff {m : MoveOrder} (hd : m.direction = .toCopper) :
    s.startCheck m = none ↔
      s.generationMatches m.circuit m.expectedGeneration = true ∧
      ((s.circuit m.circuit).pathState = .fibre ∨ (s.circuit m.circuit).pathState = .stranded) ∧
      ∃ b p, (s.circuit m.circuit).bearer = some b ∧ (m.target <|> (s.circuit m.circuit).vacated) = some p ∧
        s.inService b.span = true ∧ s.targetOpen m.circuit p = true ∧ s.linePresent p = true := by
  have hb : s.moveBearer m = (s.circuit m.circuit).bearer := by simp [moveBearer, hd]
  have hp : s.moveLine m = (m.target <|> (s.circuit m.circuit).vacated) := by simp [moveLine, hd]
  have hst : s.moveState m = true ↔
      ((s.circuit m.circuit).pathState = .fibre ∨ (s.circuit m.circuit).pathState = .stranded) := by
    simp [moveState, hd]
  unfold startCheck
  rw [← hst, ← hb, ← hp]
  cases s.moveBearer m <;> cases s.moveLine m <;> simp [hd, check_eq_none_iff]

/-- With no vacated position to fall back on, and no position VACATED by its circuit, a TO_COPPER migration that passes
its start checks names a target, and the target is FREE (R37, R43). -/
theorem target_free_of_startCheck {m : MoveOrder} (hd : m.direction = .toCopper)
    (hv : (s.circuit m.circuit).vacated = none) (hl : ∀ q, s.lineUse q ≠ .vacated m.circuit)
    (h : s.startCheck m = none) : ∃ q, m.target = some q ∧ s.lineUse q = .free := by
  obtain ⟨-, -, -, q, -, hq, -, hopen, -⟩ := (startCheck_toCopper_iff hd).1 h
  refine ⟨q, by simpa [hv] using hq, ?_⟩
  simpa [targetOpen, hl q] using hopen

/-- Where the positions agree (R6), FORGET leaves no position VACATED by its circuit. -/
theorem forgotten_not_vacated (h : s.PositionsAgree) (hn : (s.circuit c).pathState ≠ .bridged) (q : LinePos) :
    (s.forgotten c).lineUse q ≠ .vacated c := by
  have hagree : (s.forgotten c).PositionsAgree := h.forget _ hn
  intro hq
  have := (hagree.vacated c q).2 hq
  rw [forgotten_circuit_same] at this
  cases this

/-! ### The claims on a FREE position -/

theorem targetOpen_of_free (h : s.lineUse p = .free) (c : CircuitNo) : s.targetOpen c p = true := by
  simp [targetOpen, h]

theorem placeOnLine_claims (s : State) (c : CircuitNo) (p : LinePos) :
    (s.placeOnLine c p).lineUse p = .occupied c ∧ ((s.placeOnLine c p).circuit c).linePos = some p := by
  constructor
  · rw [placeOnLine_lineUse, if_pos rfl]
  · rw [placeOnLine_circuit, if_pos rfl]; rfl

theorem mapSetLine_of_open (hst : (s.circuit c).pathState = .copper) (hp : (s.circuit c).linePos ≠ some p)
    (ho : s.targetOpen c p = true) :
    s.mapSetLine c p = ((s.freeLine (s.circuit c).linePos).placeOnLine c p, .done, (s.circuit c).hold) := by
  simp [mapSetLine, hst, hp, ho]

theorem mapEquip_of_free (hst : (s.circuit c).pathState = .unequipped) (hp : s.lineUse p = .free) :
    s.mapEquip c p = (s.placeOnLine c p, .done, 0) := by
  simp [mapEquip, hst, hp]

/-- A RECOVER onto an open position places the circuit on it (R18); its slot, if it has one, is freed before. -/
theorem recover_onto_open (hst : (s.circuit c).pathState = .stranded) (ho : s.targetOpen c p = true) :
    ∃ u : State, s.recover c (some p) = (u.placeOnLine c p, .done, 0) := by
  cases hb : (s.circuit c).bearer with
  | none => exact ⟨s.modCircuit c fun k => { k with bearer := none }, by simp [recover, hst, ho, hb]⟩
  | some b => exact ⟨(s.freeSlot b c).modCircuit c fun k => { k with bearer := none }, by simp [recover, hst, ho, hb]⟩

theorem startCheck_onto_free {m : MoveOrder} {b : BearerSlot} (hd : m.direction = .toCopper)
    (ht : m.target = some p) (hst : (s.circuit m.circuit).pathState = .fibre ∨
      (s.circuit m.circuit).pathState = .stranded) (hb : (s.circuit m.circuit).bearer = some b)
    (hs : s.inService b.span = true) (hl : s.linePresent p = true) (hp : s.lineUse p = .free)
    (hg : m.expectedGeneration = none ∨ m.expectedGeneration = some (s.circuit m.circuit).generation) :
    s.startCheck m = none := by
  have hgen : s.generationMatches m.circuit m.expectedGeneration = true := by
    rcases hg with h | h <;> simp [generationMatches, h]
  exact (startCheck_toCopper_iff hd).2
    ⟨hgen, hst, b, p, hb, by simp [ht], hs, targetOpen_of_free hp _, hl⟩

end State

open State

/-- Settles O24. What FORGET leaves is `State.forgotten`; the claims after it turn on the agreement of positions and
occupancy (R6), which FORGET keeps, and on the start checks of a TO_COPPER migration. -/
theorem forgetGivesUpPosition : Obligations.ForgetGivesUpPosition := by
  refine ⟨fun s c => ⟨fun ref target => ?dispatch, fun v hst hv => ?carriedOut, mapForget_refused⟩,
    fun s d p hfree => ⟨fun hst hne => ?setLine, fun hst => ?equip, fun hst => ?recover, ?migrate⟩⟩
  case dispatch => cases target <;> rfl
  case carriedOut =>
    refine ⟨s.forgotten c, mapForget_of_vacated hst hv, forgotten_lineUse hv, forgotten_circuit_same,
      fun _ => forgotten_circuit_ne, forgotten_rest, recover_without_position ?_, ?_⟩
    · rw [forgotten_circuit_same]
    · rintro hagree m rfl hdir hstart
      have hn : (s.circuit m.circuit).pathState ≠ .bridged := by
        rcases hst with h | h | h <;> simp [h]
      exact target_free_of_startCheck hdir (by rw [forgotten_circuit_same]) (forgotten_not_vacated hagree hn) hstart
  case setLine =>
    rw [mapSetLine_of_open hst hne (targetOpen_of_free hfree d)]
    exact ⟨rfl, placeOnLine_claims _ d p⟩
  case equip =>
    rw [mapEquip_of_free hst hfree]
    exact ⟨rfl, placeOnLine_claims _ d p⟩
  case recover =>
    obtain ⟨u, hu⟩ := recover_onto_open hst (targetOpen_of_free hfree d)
    rw [hu]
    exact ⟨rfl, placeOnLine_claims u d p⟩
  case migrate =>
    rintro m b rfl hdir ht hst hb hs hl hg
    exact startCheck_onto_free hdir ht hst hb hs hl hfree hg

end Sys2Proof.Machine
end

section
/-! PROOFS. ATTN, ATTN_MASK and the ATTNn pin (R169). -/

namespace Sys2Proof.Machine

open Sys2Proof

/-- Two words of one width share a set bit exactly when their conjunction is not zero. -/
theorem and_bne_zero_iff {w : Nat} (x y : BitVec w) :
    (x &&& y != 0#w) = true ↔ ∃ k, k < w ∧ x.getLsbD k = true ∧ y.getLsbD k = true := by
  have hzero : x &&& y = 0#w ↔ ∀ k, k < w → (x.getLsbD k && y.getLsbD k) = false := by
    simp [BitVec.eq_of_getLsbD_eq_iff]
  rw [bne_iff_ne, Ne, hzero]
  simp

theorem exec_attnWrite (v : BitVec 64) (s : State) : exec (.attnWrite v) s = act s (·.writeAttn v) := rfl

theorem exec_attnMaskWrite (v : BitVec 64) (s : State) : exec (.attnMaskWrite v) s = act s (·.writeAttnMask v) := rfl

namespace State

variable (s : State)

@[simp] theorem readRegister_attn : s.readRegister 0x20#64 = s.attn.zeroExtend 64 := rfl

@[simp] theorem readRegister_attnMask : s.readRegister 0x28#64 = s.attnMask.zeroExtend 64 := rfl

/-- ATTNn is asserted exactly while some cause is both set and enabled (R169). -/
theorem attnAsserted_iff :
    s.attnAsserted = true ↔ ∃ k, k < 6 ∧ s.attn.getLsbD k = true ∧ s.attnMask.getLsbD k = true :=
  and_bne_zero_iff s.attn s.attnMask

end State

/-- Settles O18. The two writes are effects of the form `act`, in every phase; the pin turns on a nonzero conjunction of
the two registers being a bit that both have set. -/
theorem attention : Obligations.Attention := by
  refine ⟨fun v s hreset => ⟨?clear, ?enable⟩,
    fun s => ⟨s.readRegister_attn, s.readRegister_attnMask, s.attnAsserted_iff⟩⟩
  case clear => rw [exec_attnWrite, act_running hreset, State.writeAttn]
  case enable => rw [exec_attnMaskWrite, act_running hreset, State.writeAttnMask]

end Sys2Proof.Machine
end

section
/-! PROOFS. The machine and its step: the front of the queue, idling, and that no command stops the part. -/

namespace Sys2Proof.Machine

open Sys2Proof

/-- Every command but the two of RESETn has the form `act`. -/
theorem exec_eq_act {c : Instr} (hr : c ≠ .resetnRelease) (hh : c ≠ .resetnHeldLow) (s : State) :
    ∃ effect, exec c s = act s effect := by
  cases c
  case resetnRelease => exact absurd rfl hr
  case resetnHeldLow => exact absurd rfl hh
  all_goals exact ⟨_, by simp only [exec]; rfl⟩

/-- Settles O1: `step` reads its command off the front of the queue. -/
theorem stepRunsFront : Obligations.StepRunsFront := by
  intro c rest s h
  rw [step, h]

/-- Settles O2: the two commands of RESETn answer by definition, every other has the form `act`. -/
theorem noCommandStopsThePart : Obligations.NoCommandStopsThePart := by
  refine ⟨fun s h => by rw [step, h], fun c s => ?_⟩
  by_cases hr : c = .resetnRelease
  · exact ⟨_, by rw [hr]; rfl⟩
  by_cases hh : c = .resetnHeldLow
  · exact ⟨_, by rw [hh]; rfl⟩
  obtain ⟨effect, h⟩ := exec_eq_act hr hh s
  exact ⟨_, h⟩

end Sys2Proof.Machine
end

section
/-! PROOFS. The end of a step: the parts it is made of, what it leaves alone, and what holds after it whatever the step
did. -/

namespace Sys2Proof.Machine

open Sys2Proof

namespace State

variable (b s : State)

/-! ### What holds after the end of any step -/

theorem sendHead_headSent : s.sendHead.headSent := by
  unfold sendHead headSent
  split
  · simp
  · next h =>
    intro hw
    rcases hs : s.smp.sent with _ | d
    · rcases hq : s.smp.writes with _ | ⟨w, rest⟩
      · exact absurd hq hw
      · exact absurd hq (h w rest hs)
    · rfl

/-- Whatever a step has done, the head of the posted-write queue is sent at its end (R160). -/
theorem finish_headSent : (finish b s).headSent := sendHead_headSent _

theorem endWarming_warmingOpen : s.endWarming.warmingOpen := by
  unfold endWarming warmingOpen
  split
  · simp
  · next h => simp_all

/-- Whatever a step has done, WARMING stands at its end only while a settle is left (R174). -/
theorem finish_warmingOpen : (finish b s).warmingOpen := by
  have h := endWarming_warmingOpen (examineHead b (advanceGroups b s))
  simpa [warmingOpen, finish] using h

/-- Whatever a step has done, a row whose content has changed is dirty at its end (R168). -/
theorem finish_marks {r : Nat} (hr : r < 276) (h : rowBody b r ≠ rowBody (finish b s) r) :
    r ∈ (finish b s).nte.dirty := by
  unfold finish at h ⊢
  rw [rowBody_markRows] at h
  exact markRows_marks _ _ r hr h

end State

/-! ### What a command can answer -/

/-- A command begins a cold start, holds the part, does nothing while the part is held, or ends as every step does. -/
theorem exec_cases {c : Instr} {s t : State} (h : exec c s = .next t) :
    (c = .resetnRelease ∧ t = State.cold .loading 0 SiteConfig.unset s.pending) ∨ t = { s with resetLow := true } ∨
      t = s ∨ ∃ u, t = State.finish s u := by
  by_cases hr : c = .resetnRelease
  · subst hr; cases h; exact .inl ⟨rfl, rfl⟩
  by_cases hh : c = .resetnHeldLow
  · subst hh; cases h; exact .inr (.inl rfl)
  obtain ⟨effect, he⟩ := exec_eq_act hr hh s
  rw [he] at h
  rcases act_next h with ⟨-, rfl⟩ | ⟨-, rfl⟩
  · exact .inr (.inr (.inl rfl))
  · exact .inr (.inr (.inr ⟨_, rfl⟩))

/-- A step idles or runs a command on the state with the queue's rest. -/
theorem step_cases {s t : State} (h : step s = .next t) :
    t = s ∨ ∃ c rest, exec c (s.setPending rest) = .next t := by
  unfold step at h
  split at h
  · cases h; exact .inl rfl
  · next c rest _ => exact .inr ⟨c, rest, h⟩

/-- Settles O5: a step idles, begins a cold start, which makes every row dirty, or ends by marking the rows. -/
theorem everyChangedRowIsDirty : Obligations.EveryChangedRowIsDirty := by
  intro s t h r hr hne
  obtain rfl | ⟨c, rest, hc⟩ := step_cases h
  · exact absurd rfl hne
  rw [← State.rowBody_setPending s rest] at hne
  rcases exec_cases hc with ⟨-, rfl⟩ | rfl | rfl | ⟨u, rfl⟩
  · simpa using hr
  · exact absurd (State.rowBody_held _ r).symm hne
  · exact absurd rfl hne
  · exact State.finish_marks _ _ hr hne

/-- Every command but a cold start ends as every step does, and so sends its head and ends an idle WARMING. -/
theorem step_keeps_headSent_warmingOpen : ∀ s t : State, s.headSent → s.warmingOpen → step s = .next t → t.headSent ∧ t.warmingOpen := by
  intro s t hs hw h
  obtain rfl | ⟨c, rest, hc⟩ := step_cases h
  · exact ⟨hs, hw⟩
  rcases exec_cases hc with ⟨-, rfl⟩ | rfl | rfl | ⟨u, rfl⟩
  · exact ⟨fun h => absurd rfl h, nofun⟩
  · exact ⟨hs, hw⟩
  · exact ⟨hs, hw⟩
  · exact ⟨State.finish_headSent _ _, State.finish_warmingOpen _ _⟩

end Sys2Proof.Machine
end

section
/-! PROOFS. The parts that the end of a step is made of, and when each of them acts. -/

namespace Sys2Proof.Machine

open Sys2Proof

namespace State

variable (b s : State)

/-! ### The parts of the end -/

theorem finish_settledPart_examined : (finish b s).settledPart = (examineHead b (advanceGroups b s)).settledPart := by
  simp [finish]

theorem freedSince_iff : freedSince b s = true ↔
    (∃ i, b.bridge i ≠ none ∧ s.bridge i = none) ∨ ∃ g, b.group g ≠ none ∧ s.group g = none := by
  simp [freedSince, Option.isSome_iff_ne_none]

theorem headLeft_iff : headLeft b s = true ↔ ∃ q rest, b.queue = q :: rest ∧ s.queue.head? ≠ some q := by
  unfold headLeft
  cases b.queue <;> simp

theorem noGroups_iff : s.noGroups = true ↔ ∀ g, s.group g = none := by
  simp [noGroups]

theorem sameMoves_iff : sameMoves b s = true ↔ b.bridges = s.bridges ∧ b.groups = s.groups := by
  simp [sameMoves]

theorem examineHead_of_examined (h : freedSince b s = true ∨ headLeft b s = true) :
    examineHead b s = s.startHeads s.queue.length := by
  unfold examineHead
  rw [if_pos (by simpa using h)]

theorem advanceGroups_moved (hm : s.bridges ≠ b.bridges ∨ s.groups ≠ b.groups) (hg : ∃ g, s.group g ≠ none) :
    advanceGroups b s = each (List.finRange 4) (fun g t => (t.runGroup g).endGroup g) s := by
  have hn : s.noGroups ≠ true := by
    rw [Ne, noGroups_iff]
    exact fun h => hg.elim fun g hg => hg (h g)
  have hs : sameMoves b s ≠ true := by
    rw [Ne, sameMoves_iff]
    exact fun h => hm.elim (fun hb => hb h.1.symm) fun hq => hq h.2.symm
  unfold advanceGroups
  rw [if_neg (by simp [hn, hs])]

theorem endWarming_phase :
    s.endWarming.phase = if s.phase = .warming ∧ s.settles = [] then .ready else s.phase := by
  unfold endWarming
  by_cases h : s.phase = .warming ∧ s.settles = []
  · rw [if_pos (by simpa using h), if_pos h, setPhase_phase]
  · rw [if_neg (by simpa using h), if_neg h]

theorem sendHead_sent : s.sendHead.smp.sent =
    if s.smp.sent = none ∧ s.smp.writes ≠ [] then some (s.counter + 16) else s.smp.sent := by
  unfold sendHead
  cases hs : s.smp.sent <;> cases hw : s.smp.writes <;> simp [hs, after, Config.writeFrames]

end State

/-- Settles O4: the examination turns on `freedSince` and `headLeft`, the groups on `sameMoves` and `noGroups`; the other
parts are laws of `finish`. -/
theorem stepEnd : Obligations.StepEnd := by
  refine ⟨fun s e => ⟨fun h => ?examined, fun h => ?unexamined, fun h => ?still, fun hm hg => ?moved,
      State.finish_steady e s, fun r hr h => State.finish_marks s e hr h⟩,
    fun s e hb hg hq => ?_, fun s hr => State.exec_admissionStart hr⟩
  case examined =>
    rw [State.finish_settledPart_examined, State.examineHead_of_examined]
    rwa [State.freedSince_iff, State.headLeft_iff, or_assoc]
  case unexamined =>
    rw [← or_assoc, ← State.freedSince_iff, ← State.headLeft_iff, not_or, Bool.not_eq_true, Bool.not_eq_true] at h
    rw [State.finish_settledPart_examined, State.examineHead_idle h.1 h.2]
  case still =>
    rcases h with ⟨hb, hg⟩ | hn
    · exact State.advanceGroups_same hb hg
    · exact State.advanceGroups_noGroups ((State.noGroups_iff e).2 hn)
  case moved => exact State.advanceGroups_moved s e hm hg
  have hh : State.headLeft s e = false := by
    rw [← Bool.not_eq_true, State.headLeft_iff]
    rintro ⟨q, rest, hs, hne⟩
    rcases hq with hq | hq
    · rw [hs] at hq; cases hq
    · rw [hq, hs] at hne; exact hne rfl
  have hx : State.examineHead s (State.advanceGroups s e) = e := by
    rw [State.advanceGroups_same hb hg, State.examineHead_idle (State.freedSince_same hb hg) hh]
  refine ⟨State.finish_settledPart hb hg hh, ?_, ?_⟩
  · simp only [State.finish, hx, State.markRows_phase, State.sendHead_phase, State.tellRunners_phase,
      State.pollNotices_phase, State.endWarming_phase]
  · simp only [State.finish, hx, State.markRows_smp, State.sendHead_sent, State.tellRunners_smp, State.tellRunners_counter,
      State.pollNotices_sent, State.pollNotices_writes, State.pollNotices_counter, State.endWarming_smp,
      State.endWarming_counter]

end Sys2Proof.Machine
end

section
/-! PROOFS. What every step keeps: the places of the part's quantities, the agreement of positions, and the rows that
are dirty; and that reset meets the invariants. -/

namespace Sys2Proof.Machine

open Sys2Proof

/-! ### From the writes of a step to an invariant -/

namespace Moves

variable {a s : State}

/-- What does not look at positions reads the same in states that differ in positions only. -/
theorem read_of_unplaced {t u : State} {β : Type} (view : State → β) (hv : ∀ v : State, view v.unplaced = view v)
    (h : t.unplaced = u.unplaced) : view t = view u := (hv t).symm.trans ((congrArg view h).trans (hv u))

/-- What was within a bound stays within it when it grows within the bound only. -/
theorem within {x y n : Nat} (h : x ≤ n ∨ x ≤ y) (hy : y ≤ n) : x ≤ n := h.elim id fun h => Nat.le_trans h hy

/-- Writes within their ranges leave every quantity in its range. -/
theorem inRange (h : Moves a s) (ha : a.InRange) : s.InRange := by
  induction h with
  | refl => exact ha
  | setCircuit c x _ hx _ ih =>
    refine { ih with holds := fun d => ?_ }
    rw [State.circuit_setCircuit]; split
    · exact within hx (ih.holds c)
    · exact ih.holds d
  | @place u t _ ht hh hb _ ih =>
    have hsp : ∀ sp, t.span sp = u.span sp := fun sp => read_of_unplaced (fun v => v.span sp) (fun _ => rfl) ht
    have hpt : ∀ p, t.port p = u.port p := fun p => read_of_unplaced (fun v => v.port p) (fun _ => rfl) ht
    have hmo : ∀ c, t.monitor c = u.monitor c := fun c => read_of_unplaced (fun v => v.monitor c) (fun _ => rfl) ht
    have hru : ∀ n, t.runner n = u.runner n := fun n => read_of_unplaced (fun v => v.runner n) (fun _ => rfl) ht
    have hgr : ∀ g, t.group g = u.group g := fun g => read_of_unplaced (fun v => v.group g) (fun _ => rfl) ht
    have hsmp : t.smp = u.smp := read_of_unplaced State.smp (fun _ => rfl) ht
    have hnte : t.nte = u.nte := read_of_unplaced State.nte (fun _ => rfl) ht
    have hftu : t.ftu = u.ftu := read_of_unplaced State.ftu (fun _ => rfl) ht
    have hq : t.queue = u.queue := read_of_unplaced State.queue (fun _ => rfl) ht
    have hw : t.watch = u.watch := read_of_unplaced State.watch (fun _ => rfl) ht
    exact { writes := hsmp ▸ ih.writes, notices := hnte ▸ ih.notices, lost := hnte ▸ ih.lost,
            spans := fun sp => hsp sp ▸ ih.spans sp, ports := fun p => hpt p ▸ ih.ports p,
            holds := fun c => within (hh c) (ih.holds c), ages := fun c => hmo c ▸ ih.ages c,
            counts := hftu ▸ ih.counts, streaks := fun n => hru n ▸ ih.streaks n, queue := hq ▸ ih.queue,
            watch := hw ▸ ih.watch, position := hnte ▸ ih.position, credits := hnte ▸ ih.credits, reads := hsmp ▸ ih.reads,
            matchers := fun i e he => (hb i e he).elim (fun hn m hm => by rw [hn] at hm; cases hm) (ih.matchers i e)
            groups := fun g x hx => ih.groups g x (hgr g ▸ hx) }
  | setQueue x _ _ hl ih => exact { ih with queue := within hl ih.queue }
  | setWatch x _ hl ih => exact { ih with watch := within hl ih.watch }
  | setBridge i x _ he _ hm ih =>
    refine { ih with matchers := fun j y hy => ?_ }
    rw [State.bridge_setBridge] at hy; split at hy
    · cases hy; exact hm (ih.matchers _ _ he)
    · exact ih.matchers j y hy
  | setGroup g x _ hx ih =>
    refine { ih with groups := fun k y hy => ?_ }
    rw [State.group_setGroup] at hy; split at hy
    · exact hx (ih.groups g) y hy
    · exact ih.groups k y hy
  | setSpan sp x _ hx ih =>
    refine { ih with spans := fun k => ?_ }
    rw [State.span_setSpan]; split
    · obtain ⟨hg, he, ht, hd, hs, hq⟩ := ih.spans sp
      exact ⟨within hx.good hg, within hx.errored he, within hx.train ht, within hx.holdDown hd, within hx.store hs,
        within hx.room hq⟩
    · exact ih.spans k
  | setPort p x _ hx ih =>
    refine { ih with ports := fun k => ?_ }
    rw [State.port_setPort]; split
    · obtain ⟨hl, hr, hs, ht⟩ := ih.ports p
      exact ⟨within hx.loss hl, within hx.recovery hr, within hx.rxStore hs, within hx.txStore ht⟩
    · exact ih.ports k
  | setMonitor c x _ hx ih =>
    refine { ih with ages := fun d => ?_ }
    rw [State.monitor_setMonitor]; split
    · exact within hx (ih.ages c)
    · exact ih.ages d
  | setFtu x _ hx ih => exact { ih with counts := fun i => within (hx i) (ih.counts i) }
  | setRunner n x _ hx ih =>
    refine { ih with streaks := fun m => ?_ }
    rw [State.runner_setRunner]; split
    · exact hx (ih.streaks n)
    · exact ih.streaks m
  | setSmp x _ hx ih => exact { ih with writes := within hx.room ih.writes, reads := hx.fits ih.reads }
  | setNte x _ hx hc ih =>
    exact { ih with notices := within hx.room ih.notices, lost := within hx.lost ih.lost,
                    position := hx.position ih.position, credits := within (hc ha.reads) ih.credits }
  | age x _ hx ih => exact { ih with ages := fun c => within (hx c) (ih.ages c) }
  | setPhase _ _ ih | setAttn _ _ ih | setAlign _ _ _ ih | setSettles _ _ ih | setNextSettle _ _ ih
  | switch _ _ _ _ ih | take _ _ ih => exact { ih with }

/-- A transmit queue is filled only in service, so that writes keep the queues of the others empty. -/
theorem queuesInService (h : Moves a s) (ha : a.queuesInService) : s.queuesInService := by
  induction h with
  | refl => exact ha
  | @place u t _ ht _ _ _ ih =>
    intro sp
    have hsp : t.span sp = u.span sp := read_of_unplaced (fun v => v.span sp) (fun _ => rfl) ht
    have := ih sp
    unfold State.inService at this ⊢
    exact hsp ▸ this
  | setSpan sp x _ hx ih =>
    intro k
    unfold State.inService
    rw [State.span_setSpan]; split
    · intro hl
      have hl : x.line ≠ .inService := by simpa using hl
      rcases hx.service with hq | hq | ⟨hq, hk⟩
      · exact hq
      · exact absurd hq hl
      · refine hk (ih sp ?_)
        rcases hq with h | h
        · simpa [State.inService, ← h] using hl
        · simpa [State.inService] using h
    · exact ih k
  | _ => rename_i ih; exact ih

end Moves

/-- A property of states is kept by every step when the writes of `Moves` keep it, a cold start has it, and it does not
depend on the counter, BLOCK_BASE, ATTN_MASK, the hold of RESETn and the waiting commands. -/
theorem step_keeps {P : State → Prop} (moves : ∀ {a s}, Moves a s → P a → P s)
    (cold : ∀ p n x q, P (State.cold p n x q)) (clock : ∀ s : State, P s → P s.advanceCounter)
    (block : ∀ (s : State) v, P s → P (s.setBlockBase v)) (mask : ∀ (s : State) v, P s → P (s.setAttnMask v))
    (held : ∀ s : State, P s → P { s with resetLow := true }) (pending : ∀ (s : State) q, P s → P (s.setPending q))
    {s t : State} (hs : P s) (h : step s = .next t) : P t := by
  obtain rfl | ⟨c, rest, hc⟩ := step_cases h
  · exact hs
  · obtain ⟨b, ho, hm⟩ := exec_moves hc
    refine moves hm ?_
    have hp := pending s rest hs
    cases ho with
    | same => exact hp
    | clock => exact clock _ hp
    | block v => exact block _ v hp
    | mask v => exact mask _ _ hp
    | held => exact held _ hp
    | reset => exact cold _ _ _ _
    | stream => exact cold _ _ _ _

/-! ### A cold start -/

theorem State.cold_inRange (p : Phase) (n : FrameNo) (x : SiteConfig) (q : List Instr) :
    (State.cold p n x q).InRange := by
  constructor
  case spans => intro sp; cases sp <;> simp [State.span, PerSpan.get, State.cold, SpanState.cold]
  case position => intro b hb; simp [State.cold] at hb
  case reads => exact ⟨by simp [State.cold], fun k => by simp [State.cold, Tag.fits]⟩
  case matchers => intro i e h; simp [State.bridge, State.cold] at h
  case groups => intro g y h; simp [State.group, State.cold] at h
  all_goals simp [State.cold, State.port, Port.cold, State.circuit, Circuit.cold, State.monitor, State.runner, Runner.cold]

theorem State.cold_queuesInService (p : Phase) (n : FrameNo) (x : SiteConfig) (q : List Instr) :
    (State.cold p n x q).queuesInService := by
  intro sp _
  cases sp <;> simp [State.span, PerSpan.get, State.cold, SpanState.cold]

/-! ### The obligations -/

/-- Settles O7, by the induction over the writes of a step. -/
theorem stepKeepsRanges : Obligations.StepKeepsRanges := by
  refine fun s t hs h => step_keeps Moves.inRange State.cold_inRange ?_ ?_ ?_ ?_ ?_ hs h
  all_goals intro u; intros; exact { ‹u.InRange› with }

/-- Settles O8, by the induction over the writes of a step. -/
theorem stepKeepsPositions : Obligations.StepKeepsPositions := by
  refine fun s t hs h => step_keeps Moves.agree State.cold_agree ?_ ?_ ?_ ?_ ?_ hs h
  all_goals intro u; intros; exact State.PositionsAgree.same ‹u.PositionsAgree› {}

theorem step_keeps_queuesInService : ∀ s t : State, s.queuesInService → step s = .next t → t.queuesInService := by
  refine fun s t hs h => step_keeps Moves.queuesInService State.cold_queuesInService ?_ ?_ ?_ ?_ ?_ hs h
  all_goals intro u; intros; exact ‹u.queuesInService›

/-- Settles O6: the first two hold after any end of a step, the third is kept by the writes of `Moves`. -/
theorem stepKeepsWorkMoving : Obligations.StepKeepsWorkMoving :=
  ⟨step_keeps_headSent_warmingOpen, step_keeps_queuesInService⟩

/-- Settles O10: no write of `Moves` touches these, and each origin names the command that does. -/
theorem onlyTheirOwnCommandsChange : Obligations.OnlyTheirOwnCommandsChange := by
  intro c s t h
  obtain ⟨b, ho, hm⟩ := exec_moves h
  rw [hm.pending_eq, hm.cfg_eq, hm.counter_eq, hm.blockBase_eq, hm.attnMask_eq]
  cases ho with
  | same => exact ⟨rfl, fun _ _ => rfl, fun _ _ => rfl, fun _ _ _ => rfl, fun _ _ _ => rfl⟩
  | held => exact ⟨rfl, fun _ _ => rfl, fun _ _ => rfl, fun _ _ _ => rfl, fun _ _ _ => rfl⟩
  | clock x y hc => exact ⟨rfl, fun _ _ => rfl, fun _ hn => absurd hc (hn x y), fun _ _ _ => rfl, fun _ _ _ => rfl⟩
  | block v hc => exact ⟨rfl, fun _ _ => rfl, fun _ _ => rfl, fun _ _ hn => absurd hc (hn v), fun _ _ _ => rfl⟩
  | mask v hc => exact ⟨rfl, fun _ _ => rfl, fun _ _ => rfl, fun _ _ _ => rfl, fun _ _ hn => absurd hc (hn v)⟩
  | reset hc => exact ⟨rfl, fun hn => absurd hc hn, fun hn => absurd hc hn, fun hn => absurd hc hn, fun hn => absurd hc hn⟩
  | stream v hc =>
    exact ⟨rfl, fun _ hn => absurd hc (hn v), fun _ _ => rfl, fun _ hn => absurd hc (hn v), fun _ hn => absurd hc (hn v)⟩

end Sys2Proof.Machine
end

section
/-! PROOFS. RESETn and the values that reset leaves. -/

namespace Sys2Proof.Machine

open Sys2Proof

namespace State

/-! ### The reads of the reset state -/

theorem reset_circuit (c : CircuitNo) : State.reset.circuit c = Circuit.cold c := tab_getElem ..

theorem reset_slotEntry (b : BearerSlot) : State.reset.slotEntry b = ⟨.free, none⟩ := by
  obtain ⟨sp, n⟩ := b
  cases sp <;> exact tab_getElem ..

theorem reset_bridge (i : BridgeNo) : State.reset.bridge i = none := tab_getElem ..

theorem reset_group (g : Fin 4) : State.reset.group g = none := tab_getElem ..

theorem reset_span (sp : Span) : State.reset.span sp = SpanState.cold .disabled 0 := by cases sp <;> rfl

theorem reset_port (p : PortNo) : State.reset.port p = Port.cold (if p.val < 8 then 0x55#8 else 0) := tab_getElem ..

theorem reset_monitor (c : CircuitNo) : State.reset.monitor c = ⟨.unknown, none, 0⟩ := tab_getElem ..

theorem reset_runner (n : Fin 4) : State.reset.runner n = Runner.cold := tab_getElem ..

theorem reset_tag (t : Fin 4) : State.reset.tag t = .free := tab_getElem ..

/-- Circuit c occupies line position c div 32 / c mod 32, whose number is c (R1, R4). -/
theorem reset_lineUse (c : CircuitNo) : State.reset.lineUse ⟨officePortOf c, officeSlotOf c⟩ = .occupied c := by
  have hi : LinePos.index ⟨officePortOf c, officeSlotOf c⟩ = c := Fin.ext (Nat.div_add_mod c.val 32)
  simp only [lineUse, hi]
  exact tab_getElem ..

end State

/-- Settles O3. While held, every command is of the form `act` or holds again. -/
theorem resetValues : Obligations.ResetValues := by
  refine ⟨⟨fun c s hl hr => ?held, fun s => ⟨rfl, rfl⟩⟩, rfl, rfl, rfl, rfl, rfl, State.reset_circuit,
    State.reset_lineUse, State.reset_slotEntry, rfl, rfl, State.reset_bridge, State.reset_group, fun sp => ?span,
    fun p => ?port, State.reset_monitor, rfl, rfl, rfl, fun n => ?runner, State.reset_tag, rfl, rfl, rfl, rfl, rfl, rfl, rfl,
    rfl, rfl, rfl, State.cold_dirty ..⟩
  case held =>
    by_cases hh : c = .resetnHeldLow
    · subst hh
      cases s
      cases hl
      rfl
    · obtain ⟨effect, he⟩ := exec_eq_act hr hh s
      rw [he, act_held hl]
  case span => rw [State.reset_span]; exact ⟨rfl, rfl, rfl⟩
  case port => rw [State.reset_port]; exact ⟨rfl, rfl, rfl⟩
  case runner => rw [State.reset_runner]; exact ⟨rfl, rfl, rfl, rfl, rfl, rfl, rfl⟩

/-- Settles O9: the invariants hold after any cold start. -/
theorem resetMeetsInvariants : Obligations.ResetMeetsInvariants :=
  ⟨fun h => absurd rfl h, nofun, State.cold_inRange .., State.cold_queuesInService _ _ _ _, State.cold_agree ..⟩

end Sys2Proof.Machine
end

section
/-! PROOFS. The two tests of the configuration stream, and what each field of an accepted one gives (R172, R173). -/

namespace Sys2Proof.Machine

open Sys2Proof

/-! ### A field of the stream, bit by bit -/

/-- Bit j of a field, counted from its first, is the stream's bit j places after the field's first. -/
theorem streamField_getLsbD (b : BitVec 48) {first n j : Nat} (hf : 1 ≤ first) (hn : first + n ≤ 49) (hj : j < n) :
    (streamField b first n).getLsbD (n - 1 - j) = streamBit b (first + j) := by
  have hi : 49 - first - n + (n - 1 - j) = 48 - (first + j) := by omega
  simp [streamField, streamBit, hi, show n - 1 - j < n by omega]

theorem streamField_eq_zero_iff (b : BitVec 48) {first n : Nat} (hf : 1 ≤ first) (hn : first + n ≤ 49) :
    streamField b first n = 0 ↔ ∀ k, first ≤ k → k < first + n → streamBit b k = false := by
  constructor
  · intro h k hk hkn
    obtain ⟨j, rfl⟩ := Nat.exists_eq_add_of_le hk
    rw [← streamField_getLsbD b hf hn (by omega), h]
    exact BitVec.getLsbD_zero
  · intro h
    refine BitVec.eq_of_getLsbD_eq fun i hi => ?_
    have hb := streamField_getLsbD b hf hn (j := n - 1 - i) (by omega)
    rw [show n - 1 - (n - 1 - i) = i by omega] at hb
    exact (hb.trans (h _ (by omega) (by omega))).trans BitVec.getLsbD_zero.symm

/-- An octet is the sum of the weights of its bits, the most significant first. -/
theorem octet_eq_sum (v : BitVec 8) :
    v.toNat = ((List.range 8).map fun k => if v.getLsbD (7 - k) then 2 ^ (7 - k) else 0).sum := by
  revert v; decide

/-- An octet field of the stream is the sum of the weights of its bits. -/
theorem streamField_toNat (b : BitVec 48) {first : Nat} (hf : 1 ≤ first) (hn : first + 8 ≤ 49) :
    (streamField b first 8).toNat =
      ((List.range 8).map fun k => if streamBit b (first + k) then 2 ^ (7 - k) else 0).sum := by
  rw [octet_eq_sum]
  congr 1
  refine List.map_congr_left fun k hk => ?_
  rw [← streamField_getLsbD b hf hn (List.mem_range.1 hk)]

/-- A stream passes when bits 36 to 40 are 0 and bits 41 to 48 count the one-bits before them (R172). -/
theorem streamAccepted_iff (b : BitVec 48) : streamAccepted b = true ↔
    streamField b 36 5 = 0 ∧ (streamField b 41 8).toNat = streamOnes b 40 := by
  simp [streamAccepted]

/-- The office idle code inverts the bits of even place of the line-side code (R173). -/
theorem officeIdle_getLsbD (cfg : SiteConfig) (k : Fin 8) :
    cfg.officeIdle.getLsbD k.val = if k.val % 2 = 0 then !cfg.idleCode.getLsbD k.val else cfg.idleCode.getLsbD k.val := by
  have h55 : (0x55#8).getLsbD k.val = decide (k.val % 2 = 0) := by revert k; decide
  rw [SiteConfig.officeIdle, BitVec.getLsbD_xor, h55]
  by_cases h : k.val % 2 = 0 <;> simp [h]

/-- Settles O11. The tests are the two of `streamAccepted_iff`, each said by the bits of the stream; each field of the
configuration is a field or a bit of the stream by definition. -/
theorem configurationStream : Obligations.ConfigurationStream := by
  refine ⟨⟨fun b => ?accepted, by decide, by decide⟩, fun b => ⟨fun k => ?rank, fun k => ?slot, rfl, ?office, ?line,
    fun k => ?role, ?order, fun k => ?idle, officeIdle_getLsbD _, rfl, rfl⟩⟩
  case accepted =>
    rw [streamAccepted_iff, streamField_eq_zero_iff b (by decide) (by decide),
      streamField_toNat b (by decide) (by decide)]
    refine and_congr (forall_congr' fun n => ?_) Iff.rfl
    rw [show n < 36 + 5 ↔ n ≤ 40 by omega]
  case rank => exact streamField_getLsbD b (by decide) (by decide) k.isLt
  case slot => exact streamField_getLsbD b (by decide) (by decide) k.isLt
  case idle => exact streamField_getLsbD b (by decide) (by decide) k.isLt
  case office => simp only [SiteConfig.ofStream]; cases streamBit b 15 <;> simp
  case line => simp only [SiteConfig.ofStream]; cases streamBit b 16 <;> simp
  case order => simp only [SiteConfig.ofStream]; cases streamBit b 25 <;> simp
  case role => simp only [SiteConfig.ofStream, tab_getElem]; cases streamBit b (17 + k.val) <;> simp

end Sys2Proof.Machine
end

section
/-! PROOFS. The end of the configuration stream (R172, R173): a part at rest, and the state an accepted stream leaves. -/

namespace Sys2Proof.Machine

open Sys2Proof

namespace State

variable {s : State}

/-! ### A change of line state outside service -/

/-- A change between line states that are not IN_SERVICE writes the span and hands its notice (R122). -/
theorem changeLine_outside {sp : Span} {entered : LineState} (cause : SpanCause) (hold : Option HoldCause)
    (hl : (s.span sp).line ≠ .inService) (he : entered ≠ .inService) :
    s.changeLine sp entered cause hold =
      (s.setSpan sp { s.span sp with
        line := entered, cause := some cause, holdCause := hold <|> (s.span sp).holdCause, good := 0, errored := 0,
        train := 0, holdDown := if entered == .holdDown then 0 else (s.span sp).holdDown }).handNotice
      (.spanState sp (s.span sp).line entered cause hold) := by
  simp [changeLine, hl, he]

/-! ### A part at rest at the end of a step -/

theorem tellRunners_none (h : ∀ n, (s.runner n).state ≠ .waiting) : s.tellRunners = s := by
  unfold tellRunners
  refine each_induct (fun t => t = s) _ _ (fun n t ht => ?_) s rfl
  subst ht
  rw [modRunner_eq]
  exact setRunner_self _ (by simp [h n])

/-- A part in READY that has nothing in its queue, no group, no bases, no write, no waiting runner and every row dirty is
left as it is by the end of a step. -/
theorem finish_atRest (b : State) (hq : s.queue = []) (hg : ∀ g, s.group g = none) (hp : s.phase = .ready)
    (hb : s.nte.bases = none) (hr : ∀ n, (s.runner n).state ≠ .waiting) (hw : s.smp.writes = [])
    (hd : ∀ r, r < 276 → r ∈ s.nte.dirty) : finish b s = s := by
  have hadv : advanceGroups b s = s := advanceGroups_noGroups ((noGroups_iff s).2 hg)
  have hend : s.endWarming = s := by simp [endWarming, hp]
  have hpoll : s.pollNotices = s := by simp [pollNotices, hb]
  have hsend : s.sendHead = s := by simp [sendHead, hw]
  have hmark : markRows b s = s := by
    have hf : (List.range Config.statusRows).filter
        (fun r => !s.nte.dirty.contains r && rowBody b r != rowBody s r) = [] := by
      rw [List.filter_eq_nil_iff]
      exact fun r h => by simp [hd r (List.mem_range.1 h)]
    rw [markRows, hf, List.append_nil]
    rfl
  rw [finish, hadv, examineHead_empty hq, hend, hpoll, tellRunners_none hr, hsend, hmark]

/-! ### The state that an accepted stream leaves -/

/-- A span as an accepted stream leaves it (R133). -/
def streamSpan (cfg : SiteConfig) (present : Bool) : SpanState :=
  { SpanState.cold (if present then .seek else .disabled) cfg.idleCode with
    cause := if present then some .order else none }

/-- The notice that a span posts at the end of an accepted stream, when it is present (R133). -/
def streamNotice (n : FrameNo) (sp : Span) (present : Bool) : List Notice :=
  if present then [⟨n, .spanState sp .disabled .seek .order none⟩] else []

/-- A span in its cold-start state takes what an accepted stream asks of it. -/
theorem seekIfPresent_cold {sp : Span} (hk : s.span sp = SpanState.cold .disabled s.cfg.idleCode)
    (hn : s.nte.pending.length < 16) :
    s.seekIfPresent sp = (s.setSpan sp (streamSpan s.cfg (s.spanPresent sp))).setNte
      { s.nte with pending := s.nte.pending ++ streamNotice s.counter sp (s.spanPresent sp) } := by
  unfold seekIfPresent
  cases hp : s.spanPresent sp
  · have hself : s.setSpan sp (streamSpan s.cfg false) = s := by
      rw [show streamSpan s.cfg false = s.span sp from hk.symm]
      cases sp <;> rfl
    rw [hself, streamNotice, if_neg (by decide), if_neg (by decide), List.append_nil]
    rfl
  · rw [if_pos rfl, changeLine_outside .order none (by rw [hk]; exact nofun) (by decide),
      handNotice_room (s.setSpan sp _) _ hn, hk]
    rfl

/-- What an accepted stream leaves: a cold start in READY, with what it asks of the spans and their notices (R173). -/
def streamState (s : State) (b : BitVec 48) : State :=
  let c := SiteConfig.ofStream b
  let k := State.cold .ready s.counter c s.pending
  { k with
    spans := ⟨streamSpan c c.spanAPresent, streamSpan c c.spanBPresent⟩
    nte := { k.nte with
      pending := streamNotice s.counter .a c.spanAPresent ++ streamNotice s.counter .b c.spanBPresent } }

theorem streamNotice_length (n : FrameNo) (sp : Span) (p : Bool) : (streamNotice n sp p).length ≤ 1 := by
  cases p
  · exact Nat.zero_le 1
  · exact Nat.le_refl 1

theorem seekBoth_cold (ha : s.span .a = SpanState.cold .disabled s.cfg.idleCode)
    (hb : s.span .b = SpanState.cold .disabled s.cfg.idleCode) (hn : s.nte.pending = []) :
    (s.seekIfPresent .a).seekIfPresent .b =
      { s with
        spans := ⟨streamSpan s.cfg (s.spanPresent .a), streamSpan s.cfg (s.spanPresent .b)⟩
        nte := { s.nte with
          pending := streamNotice s.counter .a (s.spanPresent .a) ++ streamNotice s.counter .b (s.spanPresent .b) } } := by
  rw [seekIfPresent_cold ha (by rw [hn]; decide), hn, List.nil_append]
  generalize hx : streamSpan s.cfg (s.spanPresent .a) = x
  generalize hy : ({ s.nte with pending := streamNotice s.counter .a (s.spanPresent .a) } : Nte) = y
  have hb' : ((s.setSpan .a x).setNte y).span .b = SpanState.cold .disabled s.cfg.idleCode := hb
  have hl : y.pending.length < 16 := by
    rw [← hy]
    exact Nat.lt_of_le_of_lt (streamNotice_length s.counter .a _) (by decide)
  rw [seekIfPresent_cold (s := (s.setSpan .a x).setNte y) hb' hl]
  subst hy
  rfl

theorem applyStream_eq (s : State) (b : BitVec 48) : s.applyStream b = s.streamState b := seekBoth_cold rfl rfl rfl

theorem idleOf_eq (s : State) (p : PortNo) : s.idleOf p = if p.val < 8 then s.cfg.officeIdle else s.cfg.idleCode := by
  unfold idleOf lineNumber
  by_cases h : p.val < 8
  · rw [if_pos h, dif_neg (by omega)]
  · rw [if_neg h, dif_pos (by omega)]

theorem streamState_port (s : State) (b : BitVec 48) (p : PortNo) :
    (s.streamState b).port p = { State.reset.port p with lastRead := tab 32 fun _ => (s.streamState b).idleOf p } := by
  rw [reset_port, idleOf_eq]
  exact tab_getElem ..

theorem streamSpan_eq (cfg : SiteConfig) (p : Bool) : streamSpan cfg p = { SpanState.cold .disabled 0 with
    line := if p then .seek else .disabled
    cause := if p then some .order else none
    lastRead := tab 256 fun _ => cfg.idleCode } := by
  cases p <;> rfl

theorem streamState_span (s : State) (b : BitVec 48) (sp : Span) :
    (s.streamState b).span sp = { State.reset.span sp with
      line := if (s.streamState b).spanPresent sp then .seek else .disabled
      cause := if (s.streamState b).spanPresent sp then some .order else none
      lastRead := tab 256 fun _ => (s.streamState b).cfg.idleCode } := by
  rw [reset_span]
  cases sp <;> exact streamSpan_eq ..

/-- The notices of the present spans, span A's first (log 4). -/
theorem streamNotice_append (n : FrameNo) (f : Span → Bool) :
    streamNotice n .a (f .a) ++ streamNotice n .b (f .b) =
      ([Span.a, Span.b].filter f).map fun sp => ⟨n, .spanState sp .disabled .seek .order none⟩ := by
  cases ha : f .a <;> cases hb : f .b <;> simp [streamNotice, ha, hb]

theorem streamState_nte (s : State) (b : BitVec 48) : (s.streamState b).nte = { State.reset.nte with
    pending := ([Span.a, Span.b].filter (s.streamState b).spanPresent).map fun sp =>
      ⟨s.counter, .spanState sp .disabled .seek .order none⟩ } := by
  rw [← streamNotice_append]
  rfl

theorem streamState_dirty (s : State) (b : BitVec 48) : (s.streamState b).nte.dirty = List.range 276 := by
  simp only [streamState, State.cold]

/-- The end of the step adds nothing to what an accepted stream leaves. -/
theorem finish_streamState (s : State) (b : BitVec 48) : finish s (s.streamState b) = s.streamState b := by
  refine finish_atRest s rfl reset_group rfl rfl (fun n => ?_) rfl (fun r hr => ?_)
  · have hn : (s.streamState b).runner n = Runner.cold := tab_getElem ..
    rw [hn]
    exact nofun
  · rw [streamState_dirty]
    exact List.mem_range.2 hr

end State

theorem exec_configStreamEnd {s : State} (h : s.resetLow = false) (b : BitVec 48) :
    exec (.configStreamEnd b) s =
      .next (State.finish s (if s.phase == .loading then s.endStream b else s)) := act_running h _

/-- Settles O12. An accepted stream leaves `State.streamState`, which the end of the step does not change. -/
theorem configStreamEnds : Obligations.ConfigStreamEnds := by
  intro b s h
  refine ⟨fun hp => ?elsewhere, fun hp ha => ?fails, fun hp ha => ⟨s.streamState b, ?applied, ?_⟩⟩
  case elsewhere => rw [exec_configStreamEnd h, if_neg (by simpa using hp)]
  case fails => rw [exec_configStreamEnd h, if_pos (by simpa using hp), State.endStream, if_neg (by simp [ha])]
  case applied =>
    rw [exec_configStreamEnd h, if_pos (by simpa using hp), State.endStream, if_pos ha, State.applyStream_eq,
      State.finish_streamState]
  exact ⟨rfl, rfl, rfl, rfl, rfl, rfl, rfl, rfl, rfl, rfl, rfl, rfl, rfl, rfl, rfl, rfl, rfl, rfl, rfl, rfl,
    fun c => ⟨tab_getElem .., tab_getElem .., tab_getElem ..⟩, State.streamState_port s b, State.streamState_span s b,
    State.streamState_nte s b⟩

end Sys2Proof.Machine
end

section
/-! PROOFS. NUDGE START, STOP and WAKE, and the recheck of a PARKED runner (R26 to R28). -/

namespace Sys2Proof.Machine

open Sys2Proof

namespace State

variable {s : State} {n : Fin 4}

theorem raise_refused (s : State) : s.raise .refused = s.setAttn (s.attn ||| 0b010000#6) := rfl

theorem runnerHalted_iff (s : State) (n : Fin 4) :
    s.runnerHalted n = true ↔ (s.runner n).state = .stopped ∨ (s.runner n).state = .faulted := by
  simp [runnerHalted]

/-- A START with no discarded read outstanding reads the Control Block at once (R26). -/
theorem startRunner_reads (h : (s.runner n).reading ≠ some .discarded) :
    s.startRunner n = (s.setRunner n { s.runner n with
        fault := .none, streak := 0, state := .fetching, reading := some .controlBlock }).setSmp
      { s.smp with waiting := s.smp.waiting ++ [⟨.runner n, s.blockBase, 128⟩] } := by
  simp [startRunner, h, readBlock, requestRead]

/-- A START waits for a discarded read to be over (R26). -/
theorem startRunner_waits (h : (s.runner n).reading = some .discarded) :
    s.startRunner n = s.setRunner n { s.runner n with
      fault := .none, streak := 0, state := .fetching, startPending := true } := by
  simp [startRunner, h]

theorem readWaits_eq (s : State) (r : Reader) : s.readWaits r = s.smp.waiting.any fun q => q.reader == r := rfl

/-- What STOP makes of a runner's read: one not yet issued is withdrawn, one in flight is to be discarded (R27). -/
theorem stopReading_eq (s : State) (n : Fin 4) : s.stopReading n =
    (s.setSmp { s.smp with waiting := s.smp.waiting.filter fun q => q.reader != .runner n }).setRunner n
      { s.runner n with reading := if s.smp.waiting.any (fun q => q.reader == .runner n) then none
          else (s.runner n).reading.map fun _ => .discarded } := by
  unfold stopReading
  rw [readWaits_eq]
  split
  · simp [withdrawRead]
  · next h =>
    have hf : (s.smp.waiting.filter fun q => q.reader != .runner n) = s.smp.waiting := by
      rw [List.filter_eq_self]
      intro q hq
      simp only [List.any_eq_true, not_exists, not_and] at h
      simpa using h q hq
    rw [hf]
    rfl

end State

/-- What a command of the form `act` answers while RESETn is released. -/
theorem exec_running {c : Instr} {s : State} {effect : State → State} (h : s.resetLow = false)
    (hc : exec c s = act s effect) : exec c s = .next (State.finish s (effect s)) := hc.trans (act_running h effect)

theorem exec_nudgeStart (n : Fin 4) (s : State) : exec (.nudgeStart n) s = act s fun s =>
    if s.phase == .ready && s.runnerHalted n then s.startRunner n else s.raise .refused := rfl

theorem exec_nudgeStop (n : Fin 4) (s : State) : exec (.nudgeStop n) s = act s fun s => s.stopRunner n := rfl

theorem exec_nudgeWake (n : Fin 4) (s : State) : exec (.nudgeWake n) s = act s fun s =>
    if (s.runner n).state == .parked then s.fetch n else s := rfl

theorem exec_recheckExpiry (n : Fin 4) (s : State) : exec (.recheckExpiry n) s = act s fun s =>
    if (s.runner n).state == .parked && s.due (s.runner n).recheck then s.fetch n else s := rfl

/-- Settles O15. -/
theorem runnerNudges : Obligations.RunnerNudges := by
  refine ⟨fun n s h => ?start, fun n s h => ?stop, fun n s h => ?fetch⟩
  case start =>
    have hacc : (s.phase == .ready && s.runnerHalted n) = true ↔
        s.phase = .ready ∧ ((s.runner n).state = .stopped ∨ (s.runner n).state = .faulted) := by
      rw [Bool.and_eq_true, beq_iff_eq, s.runnerHalted_iff]
    refine ⟨fun ha hr => ?_, fun ha hr => ?_, fun ha => ?_⟩
    · rw [exec_running h (exec_nudgeStart n s), if_pos (hacc.2 ha), State.startRunner_reads hr]
    · rw [exec_running h (exec_nudgeStart n s), if_pos (hacc.2 ha), State.startRunner_waits hr]
    · rw [exec_running h (exec_nudgeStart n s), if_neg (mt hacc.1 ha), State.raise_refused]
  case stop =>
    rw [exec_running h (exec_nudgeStop n s)]
    simp [State.stopRunner, State.stopReading_eq]
  case fetch =>
    refine ⟨fun hp => ?_, fun hp => ?_, fun d hp hd ht => ?_, fun d hd ht => ?_, fun hp => ?_⟩
    · rw [exec_running h (exec_nudgeWake n s), if_pos (by simpa using hp)]
    · rw [exec_running h (exec_nudgeWake n s), if_neg (by simpa using hp)]
    · rw [exec_running h (exec_recheckExpiry n s), if_pos (by simp [hp, hd, State.due, ht])]
    · rw [exec_running h (exec_recheckExpiry n s), if_neg (by simp [hd, State.due, ht])]
    · rw [exec_running h (exec_recheckExpiry n s), if_neg (by rcases hp with hp | hp <;> simp [hp, State.due])]

end Sys2Proof.Machine
end

section
/-! PROOFS. The reads of the notice area: when NUDGE NOTICES asks for one, what it covers, and the credits it gives
(R166). -/

namespace Sys2Proof.Machine

open Sys2Proof

namespace State

variable {s : State}

theorem readNotices_eq {b : Bases} (hb : s.nte.bases = some b) : s.readNotices =
    (s.setNte { s.nte with reading := some (noticeReadSpan b s.nte.position).2.2, recheck := none }).setSmp { s.smp with
      waiting := s.smp.waiting ++ [⟨.notices,
        b.noticeBase + BitVec.ofNat 64 (32 * (noticeReadSpan b s.nte.position).1),
        32 * (noticeReadSpan b s.nte.position).2.1⟩] } := by
  simp [readNotices, hb, requestRead]

theorem readNotices_credits (s : State) : s.readNotices.nte.credits = s.nte.credits := by
  unfold readNotices
  split <;> rfl

/-- The entries that a read covers: all up to the end of the ring, or one fewer, or the last with one before it. -/
theorem noticeReadSpan_cases (b : Bases) (position : Nat) :
    let k := min 8 (b.entries - position)
    (k % 2 = 0 → noticeReadSpan b position = (position, k, false)) ∧
    (k % 2 = 1 → k ≠ 1 → noticeReadSpan b position = (position, k - 1, false)) ∧
    (k = 1 → noticeReadSpan b position = (position - 1, 2, true)) := by
  intro k
  unfold noticeReadSpan
  refine ⟨fun h => ?_, fun h hk => ?_, fun h => ?_⟩
  · rw [if_pos (by simpa using h)]
  · rw [if_neg (by simpa using h), if_pos (by omega)]
  · have hk : min 8 (b.entries - position) = 1 := h
    rw [hk, if_neg (by decide), if_neg (by decide)]

/-- The free run is the longest run of entries from the front whose hand-over word reads FREE. -/
theorem freeRun_spec (o : ByteOrder) (n : Nat) (bytes : List Byte) :
    freeRun o n bytes ≤ n ∧ (∀ k, k < freeRun o n bytes → fieldAt o (bytes.drop (32 * k)) 0 4 = 0) ∧
      (freeRun o n bytes < n → fieldAt o (bytes.drop (32 * freeRun o n bytes)) 0 4 ≠ 0) := by
  induction n generalizing bytes with
  | zero => exact ⟨Nat.le_refl 0, fun k hk => absurd hk (Nat.not_lt_zero k), fun h => absurd h (Nat.not_lt_zero _)⟩
  | succ n ih =>
    have hnext : ∀ k, bytes.drop (32 * (k + 1)) = (bytes.drop 32).drop (32 * k) := fun k => by
      rw [List.drop_drop]; congr 1; omega
    by_cases h : fieldAt o bytes 0 4 = 0
    · obtain ⟨hle, hfree, hend⟩ := ih (bytes.drop 32)
      have hr : freeRun o (n + 1) bytes = freeRun o n (bytes.drop 32) + 1 := by rw [freeRun, if_pos (by simpa using h)]
      rw [hr]
      refine ⟨by omega, fun k hk => ?_, fun hlt => ?_⟩
      · cases k with
        | zero => exact h
        | succ k => rw [hnext]; exact hfree k (by omega)
      · rw [hnext]; exact hend (by omega)
    · have hr : freeRun o (n + 1) bytes = 0 := by rw [freeRun, if_neg (by simpa using h)]
      rw [hr]
      exact ⟨Nat.zero_le _, fun k hk => absurd hk (Nat.not_lt_zero k), fun _ => h⟩

theorem noticeWaits_iff (s : State) : s.noticeWaits = true ↔ s.nte.pending ≠ [] ∨ s.nte.lost ≠ 0 := by
  simp [noticeWaits]

theorem noticeRecheckDue_eq (s : State) :
    s.noticeRecheckDue = if s.nte.pending ≠ [] ∨ s.nte.lost ≠ 0 then some (s.counter + 64) else none := by
  unfold noticeRecheckDue
  by_cases h : s.nte.pending ≠ [] ∨ s.nte.lost ≠ 0
  · rw [if_pos h, if_pos ((noticeWaits_iff s).2 h)]; rfl
  · rw [if_neg h, if_neg (mt (noticeWaits_iff s).1 h)]

/-- The entries of a completed read, without the one that is disregarded (R166). -/
def readEntries (s : State) (data : List Byte) : List Byte :=
  if s.nte.reading = some true then data.drop 32 else data

/-- The credits that a completed read gives (R166). -/
def readCredits (s : State) (data : List Byte) : Nat :=
  freeRun s.cfg.byteOrder ((s.readEntries data).length / 32) (s.readEntries data)

theorem noticeReadDone_eq (s : State) (data : List Byte) : s.noticeReadDone data =
    if s.readCredits data ≠ 0 then
      s.setNte { s.nte with credits := s.readCredits data, reading := none, reread := false, recheck := none }
    else if s.nte.reread = true then
      (s.setNte { s.nte with credits := s.readCredits data, reading := none, reread := false }).readNotices
    else s.setNte { s.nte with credits := s.readCredits data, reading := none, recheck := s.noticeRecheckDue } := by
  simp only [noticeReadDone, readCredits, readEntries, beq_iff_eq, bne_iff_ne, setNte_nte, setNte_setNte]
  rfl

theorem noticeReadDone_credits (s : State) (data : List Byte) :
    (s.noticeReadDone data).nte.credits = s.readCredits data := by
  rw [noticeReadDone_eq]
  split
  · rfl
  · split
    · exact readNotices_credits _
    · rfl

end State

theorem exec_nudgeNotices (s : State) : exec .nudgeNotices s = act s fun s =>
    if s.nte.bases.isSome && s.nte.credits == 0 then
      if s.nte.reading.isSome then s.setNte { s.nte with reread := true } else s.readNotices
    else s := rfl

/-- Settles O16. -/
theorem noticeReads : Obligations.NoticeReads := by
  refine ⟨fun s h => ⟨fun b hb hc hr => ?_, fun b f hb hc hr => ?_, fun hn => ?_⟩, State.noticeReadSpan_cases,
    fun s b hb => State.readNotices_eq hb, fun s data => ?done, fun s => ⟨rfl, rfl, fun hw => ?_⟩⟩
  · rw [exec_running h (exec_nudgeNotices s), if_pos (by simp [hb, hc]), if_neg (by simp [hr])]
  · rw [exec_running h (exec_nudgeNotices s), if_pos (by simp [hb, hc]), if_pos (by simp [hr])]
  · rw [exec_running h (exec_nudgeNotices s), if_neg (by rcases hn with hn | hn <;> simp [hn])]
  case done =>
    intro t entries word waits
    have hc : t.nte.credits = s.readCredits data := State.noticeReadDone_credits s data
    obtain ⟨hle, hfree, hend⟩ := State.freeRun_spec s.cfg.byteOrder ((s.readEntries data).length / 32) (s.readEntries data)
    have ht : t = _ := State.noticeReadDone_eq s data
    rw [hc]
    refine ⟨hle, hfree, hend, fun h0 => ?_, fun h0 hr => ?_, fun h0 hr hw => ?_, fun h0 hr hw => ?_⟩
    · rw [ht, if_pos h0]
    · rw [ht, if_neg (fun h => h h0), if_pos hr, h0]
    · rw [ht, if_neg (fun h => h h0), if_neg (by simp [hr]), h0, State.noticeRecheckDue_eq, if_pos hw]
    · rw [ht, if_neg (fun h => h h0), if_neg (by simp [hr]), h0, State.noticeRecheckDue_eq, if_neg hw]
  · exact (State.noticeRecheckDue_eq s).trans (if_pos hw)

end Sys2Proof.Machine
end

section
/-! PROOFS. The registers: which command a write is, what the discarded writes and the write to BLOCK_BASE do, and what the
registers read (R25, R35, R36, R163). -/

namespace Sys2Proof.Machine

open Sys2Proof

/-! ### Which command a register write is -/

theorem discardedOffset_iff (offset : BitVec 64) : discardedOffset offset = true ↔
    offset.toNat ≠ 0x08 ∧ offset.toNat ≠ 0x10 ∧ offset.toNat ≠ 0x20 ∧ offset.toNat ≠ 0x28 := by
  have hne : ∀ n : BitVec 64, (offset != n) = true ↔ offset.toNat ≠ n.toNat := fun n => by
    rw [bne_iff_ne, Ne, ← BitVec.toNat_inj]
  simp only [discardedOffset, Bool.and_eq_true, hne, and_assoc]
  exact Iff.rfl

theorem registerCommand_discarded {offset : BitVec 64} (h : discardedOffset offset = true) (v : BitVec 64) :
    registerCommand offset v = .registerWriteDiscard offset v := by
  obtain ⟨h8, h10, h20, h28⟩ := (discardedOffset_iff offset).1 h
  unfold registerCommand
  split <;> first | contradiction | rfl

/-- A code of four bits that is not 1 to 5 is unknown (R25). -/
theorem unknownNudgeCode_iff (code : BitVec 4) : unknownNudgeCode code = true ↔ code.toNat = 0 ∨ 5 < code.toNat := by
  revert code; decide

/-- What a write to NUDGE is, by its code (R25, 13.5). -/
theorem nudgeCommand_cases (v : BitVec 64) :
    let code := (v.extractLsb' 0 4).toNat; let n : Fin 4 := (v.extractLsb' 8 2).toFin
    (code = 1 → nudgeCommand v = .nudgeStart n) ∧ (code = 2 → nudgeCommand v = .nudgeStop n) ∧
    (code = 3 → nudgeCommand v = .nudgeWake n) ∧ (code = 4 → nudgeCommand v = .nudgeNotices) ∧
    (code = 5 → nudgeCommand v = .nudgeWarm) ∧
    (code = 0 ∨ 5 < code → nudgeCommand v = .nudgeUnknownCode (v.extractLsb' 0 4)) := by
  unfold nudgeCommand
  refine ⟨fun h => ?_, fun h => ?_, fun h => ?_, fun h => ?_, fun h => ?_, fun h => ?_⟩
  case refine_6 => split <;> first | rfl | omega
  all_goals rw [h]; rfl

theorem nudgeCommand_wellFormed (v : BitVec 64) : (nudgeCommand v).wellFormed = true := by
  obtain ⟨h1, h2, h3, h4, h5, h0⟩ := nudgeCommand_cases v
  generalize hc : (v.extractLsb' 0 4).toNat = code at h1 h2 h3 h4 h5 h0
  have hall : code = 1 ∨ code = 2 ∨ code = 3 ∨ code = 4 ∨ code = 5 ∨ (code = 0 ∨ 5 < code) := by omega
  rcases hall with h | h | h | h | h | h
  · rw [h1 h]; rfl
  · rw [h2 h]; rfl
  · rw [h3 h]; rfl
  · rw [h4 h]; rfl
  · rw [h5 h]; rfl
  · rw [h0 h]; exact (unknownNudgeCode_iff _).2 (hc ▸ h)

theorem registerCommand_wellFormed (offset v : BitVec 64) : (registerCommand offset v).wellFormed = true := by
  by_cases h : discardedOffset offset = true
  · rw [registerCommand_discarded h]
    exact h
  · rw [discardedOffset_iff] at h
    have hall : offset.toNat = 0x08 ∨ offset.toNat = 0x10 ∨ offset.toNat = 0x20 ∨ offset.toNat = 0x28 := by omega
    unfold registerCommand
    rcases hall with h | h | h | h <;> rw [h]
    · rfl
    · exact nudgeCommand_wellFormed v
    · rfl
    · rfl

/-! ### What the registers read -/

/-- A field placed in a register at bit k, bit by bit. -/
theorem field_getLsbD {w : Nat} (x : BitVec w) (k : Nat) {j : Nat} (hj : j < 64) :
    (x.zeroExtend 64 <<< k).getLsbD j = (decide (k ≤ j) && x.getLsbD (j - k)) := by
  by_cases h : k ≤ j
  · simp [hj, h, Nat.not_lt.2 h]
  · simp [h, Nat.lt_of_not_le h]

/-- The code of a runner's state takes no more than four bits (13.1). -/
theorem runnerState_code_getLsbD (x : RunnerState) {i : Nat} (h : 4 ≤ i) : x.code.getLsbD i = false := by
  by_cases h8 : i < 8
  · have hall : ∀ j : Fin 8, 4 ≤ j.val → x.code.getLsbD j.val = false := by cases x <;> decide
    exact hall ⟨i, h8⟩ h
  · exact BitVec.getLsbD_of_ge _ _ (Nat.le_of_not_lt h8)

namespace State

variable (s : State)

theorem ident_getLsbD {j : Nat} (hj : j < 64) : s.ident.getLsbD j = (Config.familyCode.getLsbD j ||
    (decide (16 ≤ j) && Config.revision.getLsbD (j - 16)) || (decide (24 ≤ j) && (Phase.code s.phase).getLsbD (j - 24)) ||
    (decide (32 ≤ j) && s.cfg.rank.getLsbD (j - 32))) := by
  have h0 : (Config.familyCode.zeroExtend 64).getLsbD j = Config.familyCode.getLsbD j := by simp [hj]
  rw [ident, BitVec.getLsbD_or, BitVec.getLsbD_or, BitVec.getLsbD_or, h0, field_getLsbD _ _ hj, field_getLsbD _ _ hj,
    field_getLsbD _ _ hj]

theorem runState_getLsbD {j : Nat} (hj : j < 64) : s.runState.getLsbD j = ((s.runner 0).state.code.getLsbD j ||
    (decide (4 ≤ j) && (s.runner 1).state.code.getLsbD (j - 4)) ||
    (decide (8 ≤ j) && (s.runner 2).state.code.getLsbD (j - 8)) ||
    (decide (12 ≤ j) && (s.runner 3).state.code.getLsbD (j - 12)) ||
    (decide (16 ≤ j) && (Phase.code s.phase).getLsbD (j - 16))) := by
  have h3 : (3 : Fin 4).val = 3 := rfl
  simp only [runState, BitVec.getLsbD_or, field_getLsbD _ _ hj]
  simp [h3]

/-- The four fields of IDENT (13.5). -/
theorem ident_fields : s.ident.extractLsb' 0 16 = 0x3172#16 ∧ s.ident.extractLsb' 16 8 = 1#8 ∧
    s.ident.extractLsb' 24 8 = Phase.code s.phase ∧ s.ident.extractLsb' 32 8 = s.cfg.rank := by
  refine ⟨BitVec.eq_of_getLsbD_eq fun i hi => ?family, BitVec.eq_of_getLsbD_eq fun i hi => ?revision,
    BitVec.eq_of_getLsbD_eq fun i hi => ?phase, BitVec.eq_of_getLsbD_eq fun i hi => ?rank⟩
  all_goals rw [BitVec.getLsbD_extractLsb', ident_getLsbD s (by omega), decide_eq_true hi, Bool.true_and]
  case family =>
    rw [decide_eq_false (show ¬16 ≤ 0 + i by omega), decide_eq_false (show ¬24 ≤ 0 + i by omega),
      decide_eq_false (show ¬32 ≤ 0 + i by omega)]
    simp [Config.familyCode]
  case revision =>
    rw [BitVec.getLsbD_of_ge Config.familyCode _ (by omega), decide_eq_false (show ¬24 ≤ 16 + i by omega),
      decide_eq_false (show ¬32 ≤ 16 + i by omega)]
    simp [Config.revision]
  case phase =>
    rw [BitVec.getLsbD_of_ge Config.familyCode _ (by omega), BitVec.getLsbD_of_ge Config.revision _ (by omega),
      decide_eq_false (show ¬32 ≤ 24 + i by omega)]
    simp
  case rank =>
    rw [BitVec.getLsbD_of_ge Config.familyCode _ (by omega), BitVec.getLsbD_of_ge Config.revision _ (by omega),
      BitVec.getLsbD_of_ge s.phase.code _ (by omega)]
    simp

theorem runState_runner_getLsbD (n : Fin 4) {j : Nat} (hj : j < 4) :
    s.runState.getLsbD (4 * n.val + j) = (s.runner n).state.code.getLsbD j := by
  have hz : ∀ (m : Fin 4) {i : Nat}, 4 ≤ i → (s.runner m).state.code.getLsbD i = false :=
    fun m _ h => runnerState_code_getLsbD _ h
  rw [runState_getLsbD s (by omega), decide_eq_false (show ¬16 ≤ 4 * n.val + j by omega)]
  match n with
  | 0 => simp [show ¬4 ≤ j by omega, show ¬8 ≤ j by omega, show ¬12 ≤ j by omega]
  | 1 => simp [hz 0 (show 4 ≤ 4 + j by omega), show ¬8 ≤ 4 + j by omega, show ¬12 ≤ 4 + j by omega]
  | 2 => simp [hz 1 (show 4 ≤ 8 + j - 4 by omega), show ¬12 ≤ 8 + j by omega]
  | 3 =>
    have h3 : (3 : Fin 4).val = 3 := rfl
    simp [h3, hz 0 (show 4 ≤ 12 + j by omega), hz 1 (show 4 ≤ 12 + j - 4 by omega), hz 2 (show 4 ≤ 12 + j - 8 by omega)]

/-- The four bits of a runner in RUNSTATE are the code of its state (13.5). -/
theorem runState_runner (n : Fin 4) : (s.runState.extractLsb' (4 * n.val) 4).toNat = (s.runner n).state.code.toNat := by
  have hbits : s.runState.extractLsb' (4 * n.val) 4 = (s.runner n).state.code.truncate 4 := by
    refine BitVec.eq_of_getLsbD_eq fun i hi => ?_
    rw [BitVec.getLsbD_extractLsb', runState_runner_getLsbD s n hi]
    simp
  rw [hbits]
  cases (s.runner n).state <;> rfl

theorem runState_phase : s.runState.extractLsb' 16 8 = Phase.code s.phase := by
  refine BitVec.eq_of_getLsbD_eq fun i hi => ?_
  have hz : ∀ (m : Fin 4) {i : Nat}, 4 ≤ i → (s.runner m).state.code.getLsbD i = false :=
    fun m _ h => runnerState_code_getLsbD _ h
  rw [BitVec.getLsbD_extractLsb', runState_getLsbD s (by omega), hz 0 (by omega), hz 1 (by omega), hz 2 (by omega),
    hz 3 (by omega)]
  simp [hi]

theorem readRegister_none {o : BitVec 64} (h0 : o ≠ 0x00#64) (h8 : o ≠ 0x08#64) (h18 : o ≠ 0x18#64) (h20 : o ≠ 0x20#64)
    (h28 : o ≠ 0x28#64) : s.readRegister o = 0 := by
  have hn : ∀ x : BitVec 64, o ≠ x → o.toNat ≠ x.toNat := fun x => mt BitVec.eq_of_toNat_eq
  have := hn _ h0; have := hn _ h8; have := hn _ h18; have := hn _ h20; have := hn _ h28
  unfold readRegister
  split <;> first | contradiction | rfl

/-! ### The writes to BLOCK_BASE and the discarded writes -/

/-- BLOCK_BASE takes a multiple of 128 while every runner is halted (R36). -/
theorem writeBlockBase_eq (v : BitVec 64) : s.writeBlockBase v =
    if (∀ n, (s.runner n).state = .stopped ∨ (s.runner n).state = .faulted) ∧ v.toNat % 128 = 0 then s.setBlockBase v
    else s.setAttn (s.attn ||| 0b010000#6) := by
  unfold writeBlockBase
  by_cases h : (∀ n, (s.runner n).state = .stopped ∨ (s.runner n).state = .faulted) ∧ v.toNat % 128 = 0
  · rw [if_pos h, if_pos (by simpa [runnerHalted_iff] using h)]
  · rw [if_neg h, if_neg (by simpa [runnerHalted_iff] using h)]
    rfl

end State

theorem exec_nudgeUnknownCode (code : BitVec 4) (s : State) : exec (.nudgeUnknownCode code) s = act s fun s =>
    if unknownNudgeCode code then s.raise .refused else s := rfl

theorem exec_registerWriteDiscard (offset v : BitVec 64) (s : State) :
    exec (.registerWriteDiscard offset v) s = act s fun s => s := rfl

theorem exec_blockBaseWrite (v : BitVec 64) (s : State) :
    exec (.blockBaseWrite v) s = act s fun s => s.writeBlockBase v := rfl

/-- Settles O17. -/
theorem registerAccesses : Obligations.RegisterAccesses := by
  refine ⟨⟨fun code offset value s h => ⟨fun hw => ?unknown, ?discard⟩, fun v s h => ⟨fun ht => ?taken, fun ht => ?refused⟩⟩,
    fun offset v => ⟨rfl, rfl, rfl, fun h => registerCommand_discarded h v, registerCommand_wellFormed offset v,
      nudgeCommand_cases v⟩, fun s => ?reads⟩
  case unknown => rw [exec_running h (exec_nudgeUnknownCode code s), if_pos (by exact hw), State.raise_refused]
  case discard => rw [exec_running h (exec_registerWriteDiscard offset value s)]
  case taken => rw [exec_running h (exec_blockBaseWrite v s), State.writeBlockBase_eq, if_pos ht]
  case refused => rw [exec_running h (exec_blockBaseWrite v s), State.writeBlockBase_eq, if_neg ht]
  case reads =>
    obtain ⟨hf, hr, hp, hk⟩ := s.ident_fields
    exact ⟨hf, hr, hp, hk, rfl, s.runState_runner, s.runState_phase, fun o => s.readRegister_none⟩

end Sys2Proof.Machine
end


section
/-! PROOFS. Time (R149), and what one frame of the frame clock keeps and changes (R7, R8, R138, R144, R148, R150). -/

namespace Sys2Proof.Machine

open Sys2Proof

/-! ### Deadlines -/

/-- The lower half of the differences of two frame numbers are those that have passed. -/
theorem msb_sub_eq_false_iff (c : FrameNo) (n k : Nat) (hn : n < 2147483648) (hk : k < 2147483648 + n) :
    ((c + BitVec.ofNat 32 k) - (c + BitVec.ofNat 32 n)).msb = false ↔ n ≤ k := by
  have hd : (c + BitVec.ofNat 32 k) - (c + BitVec.ofNat 32 n) = BitVec.ofNat 32 k - BitVec.ofNat 32 n := by
    rw [BitVec.sub_eq_iff_eq_add]
    rw [BitVec.add_comm c (BitVec.ofNat 32 n), ← BitVec.add_assoc, BitVec.sub_add_cancel, BitVec.add_comm]
  rw [hd, BitVec.msb_eq_false_iff_two_mul_lt, BitVec.toNat_sub, BitVec.toNat_ofNat, BitVec.toNat_ofNat]
  omega

theorem passed_iff (s : State) (n k : Nat) (hn : n < 2147483648) (hk : k < 2147483648 + n) :
    (s.setCounter (s.counter + BitVec.ofNat 32 k)).passed (s.after n) = true ↔ n ≤ k := by
  rw [← msb_sub_eq_false_iff s.counter n k hn hk]
  simp [State.passed, State.after]

namespace State

/-! ### What the reads of the elastic stores keep (R131, R138, R140) -/

/-- A port as the read of its store may leave it: its store, its frame read last and its slip reports change. -/
def PortRead (old new : Port) : Prop :=
  { new with rxStore := old.rxStore, lastRead := old.lastRead, slips := old.slips,
             lastSlipNotice := old.lastSlipNotice } = old

/-- A span as the read of its store may leave it. -/
def SpanRead (old new : SpanState) : Prop :=
  { new with store := old.store, lastRead := old.lastRead, slips := old.slips,
             lastSlipNotice := old.lastSlipNotice } = old

/-- What does not look at the stores, at the matchers and at what a notice leaves is kept by the reads. -/
structure ReadProof {β : Type} (view : State → β) : Prop where
  port : ∀ (t : State) p x, PortRead (t.port p) x → view (t.setPort p x) = view t := by intros; rfl
  span : ∀ (t : State) sp x, SpanRead (t.span sp) x → view (t.setSpan sp x) = view t := by intros; rfl
  matcher : ∀ (t : State) i e m, t.bridge i = some e → view (t.setBridge i (some { e with matcher := m })) = view t := by
    intros; rfl
  notice : ∀ (t : State) b, view (t.handNotice b) = view t := by intros; simp

namespace ReadProof

variable {β : Type} {view : State → β} (h : ReadProof view) (s : State)
include h

theorem restartMatchers (f : Bridge → Bool) : view (s.restartMatchers f) = view s := by
  refine each_keeps view _ _ (fun i t => ?_) s
  unfold modBridge
  cases he : t.bridge i with
  | none => rfl
  | some e =>
    dsimp only
    split
    · exact h.matcher t i e _ he
    · rw [setBridge_self _ he]

theorem portSlip (p : PortNo) (k : SlipKind) : view (s.portSlip p k) = view s := by
  have hcount : view (s.modPort p fun k => { k with slips := k.slips + 1 }) = view s := h.port s p _ rfl
  have htold : view (match lineNumber p with
      | some n => (s.modPort p fun k => { k with slips := k.slips + 1 }).restartMatchers fun e => e.linePos.port == n
      | none => s.modPort p fun k => { k with slips := k.slips + 1 }) = view s := by
    split
    · rw [h.restartMatchers, hcount]
    · exact hcount
  unfold State.portSlip
  dsimp only
  split
  · rw [h.notice, modPort_eq]
    exact (h.port _ _ _ (by rfl)).trans htold
  · exact htold

theorem spanSlip (sp : Span) (k : SlipKind) : view (s.spanSlip sp k) = view s := by
  unfold State.spanSlip
  dsimp only
  split
  · rw [h.notice, modSpan_eq]
    refine (h.span _ _ _ (by rfl)).trans ?_
    rw [h.restartMatchers, modSpan_eq]
    exact h.span _ _ _ (by rfl)
  · rw [h.restartMatchers, modSpan_eq]
    exact h.span _ _ _ (by rfl)

theorem readPort (p : PortNo) : view (s.readPort p) = view s := by
  unfold State.readPort
  dsimp only
  split
  · rfl
  · split
    · rw [h.portSlip]
      exact h.port _ _ _ (by rfl)
    · exact h.port _ _ _ (by rfl)

theorem readSpan (sp : Span) : view (s.readSpan sp) = view s := by
  unfold State.readSpan
  dsimp only
  split
  · split
    · rw [h.spanSlip]
      exact h.span _ _ _ (by rfl)
    · exact h.span _ _ _ (by rfl)
  · rfl

theorem readStores : view s.readStores = view s := by
  unfold State.readStores
  rw [h.readSpan, h.readSpan]
  exact each_keeps view _ _ (fun p t => h.readPort t p) s

end ReadProof

theorem portRead_presence {old new : Port} (h : PortRead old new) : new.presence = old.presence := by rw [← h]

theorem spanRead_line {old new : SpanState} (h : SpanRead old new) : new.line = old.line := by rw [← h]

theorem readProof_presence (p : PortNo) : ReadProof fun s => (s.port p).presence where
  port t q x hx := by
    rw [port_setPort]
    split
    · next e => subst e; exact portRead_presence hx
    · rfl

theorem readProof_line (sp : Span) : ReadProof fun s => (s.span sp).line where
  span t q x hx := by
    rw [span_setSpan]
    split
    · next e => subst e; exact spanRead_line hx
    · rfl

theorem readStores_cfg (s : State) : s.readStores.cfg = s.cfg := ReadProof.readStores {} s
theorem readStores_circuits (s : State) : s.readStores.circuits = s.circuits := ReadProof.readStores {} s
theorem readStores_lineOcc (s : State) : s.readStores.lineOcc = s.lineOcc := ReadProof.readStores {} s
theorem readStores_officeIn (s : State) : s.readStores.officeIn = s.officeIn := ReadProof.readStores {} s
theorem readStores_monitors (s : State) : s.readStores.monitors = s.monitors := ReadProof.readStores {} s
theorem readStores_ftu (s : State) : s.readStores.ftu = s.ftu := ReadProof.readStores {} s
theorem readStores_counter (s : State) : s.readStores.counter = s.counter := ReadProof.readStores {} s
theorem readStores_groups (s : State) : s.readStores.groups = s.groups := ReadProof.readStores {} s
theorem readStores_queue (s : State) : s.readStores.queue = s.queue := ReadProof.readStores {} s

/-! ### What the sends of a frame keep (R116, R136, R140) -/


end State

end Sys2Proof.Machine
end

section
/-! PROOFS. What the sends and the matchers of a frame keep, and the end of a frame (R7, R116, R136, R140, R148). -/

namespace Sys2Proof.Machine

open Sys2Proof

namespace State

/-! ### What the sends of a frame keep (R116, R129, R136, R140) -/

/-- A span as a send may leave it: what it sends with its balance and marker, the transmit queue and the test change. -/
def SpanSent (old new : SpanState) : Prop :=
  { new with sending := old.sending, balance := old.balance, lastSent := old.lastSent, txQueue := old.txQueue,
             prove := old.prove, proveChecked := old.proveChecked, proveErrored := old.proveErrored } = old

/-- A port as a send may leave it. -/
def PortSent (old new : Port) : Prop :=
  { new with sending := old.sending, txStore := old.txStore, txSlips := old.txSlips } = old

/-- What does not look at what a span sends nor at what the moving of circuits changes is kept by the spans' sends. -/
structure SpanSendProof {β : Type} (view : State → β) : Prop where
  span : ∀ (t : State) sp x, SpanSent (t.span sp) x → view (t.setSpan sp x) = view t := by intros; rfl
  still : ∀ t : State, view t.still = view t := by intros; rfl

theorem keeps_of_still {β : Type} {view : State → β} (h : ∀ t, view t.still = view t) {t u : State}
    (e : t.still = u.still) : view t = view u := by rw [← h t, e, h u]

theorem SpanSendProof.sendSpan {β : Type} {view : State → β} (h : SpanSendProof view) (s : State) (sp : Span)
    (loop : LoopReturn) : view (s.sendSpan sp loop) = view s := by
  have hprove : ∀ t : State, view (t.proveFrame sp loop) = view t := by
    intro t
    unfold State.proveFrame
    dsimp only
    split
    · rfl
    · split
      · exact h.span _ _ _ (by rfl)
      · rfl
  unfold State.sendSpan
  split
  · exact h.span _ _ _ (by rfl)
  · exact h.span _ _ _ (by rfl)
  · exact h.span _ _ _ (by rfl)
  · exact h.span _ _ _ (by rfl)
  · unfold State.sendCarry
    refine (keeps_of_still h.still (still_servePending _ _)).trans ?_
    exact h.span _ _ _ (by rfl)
  · rw [hprove]
    exact h.span _ _ _ (by rfl)

/-- What does not look at what a port sends either is kept by the ports' sends. -/
theorem sendPort_keeps {β : Type} {view : State → β}
    (h : ∀ (t : State) p x, PortSent (t.port p) x → view (t.setPort p x) = view t) (s : State) (p : PortNo) :
    view (s.sendPort p) = view s := by
  unfold State.sendPort
  split
  · exact h _ _ _ (by rfl)
  · exact h _ _ _ (by rfl)

/-! ### The matchers -/

/-- The matcher of an entry after the octets of this frame. -/
def comparedMatcher (s : State) (e : Bridge) (m : Matcher) : Matcher :=
  match e.direction with
  | .toFibre => compareFrame m (s.bearerOctet e.bearer) (s.lineOctet e.linePos)
  | .toCopper => compareFrame m (s.lineOctet e.linePos) (s.bearerOctet e.bearer)

/-- An entry with its matcher's new frame: a match found is noted when none has been found before. -/
def matchNoted (s : State) (e : Bridge) (m : Matcher) : Bridge :=
  match e.matchDue, matchFound m with
  | none, some d => { e with matcher := some m, offset := some d, matchDue := some s.counter }
  | _, _ => { e with matcher := some m }

/-- The entry that `matchEntry` leaves of one. -/
def matchedEntry (s : State) (e : Bridge) : Bridge :=
  match e.phase, e.matcher with
  | .matching, some m => s.matchNoted e (s.comparedMatcher e m)
  | _, _ => e

theorem matchedEntry_matching (s : State) {e : Bridge} {m : Matcher} (hp : e.phase = .matching)
    (hm : e.matcher = some m) : s.matchedEntry e = s.matchNoted e (s.comparedMatcher e m) := by
  unfold matchedEntry
  rw [hp, hm]

theorem matchedEntry_idle (s : State) {e : Bridge} (h : ∀ m, e.phase = .matching → e.matcher ≠ some m) :
    s.matchedEntry e = e := by
  unfold matchedEntry
  split
  · next m hp hm => exact absurd hm (h m hp)
  · rfl

theorem matchEntry_eq (s : State) (i : BridgeNo) :
    s.matchEntry i = s.setBridge i ((s.bridge i).map s.matchedEntry) := by
  unfold State.matchEntry withBridge
  cases he : s.bridge i with
  | none => exact (setBridge_self _ he).symm
  | some e =>
    dsimp only [Option.map_some]
    split
    · next m hp hm =>
      rw [matchedEntry_matching s hp hm]
      unfold matchNoted comparedMatcher
      cases e.direction <;> cases e.matchDue <;> dsimp only <;> split <;> simp_all
    · next hne => rw [matchedEntry_idle s hne, setBridge_self _ he]

end State

end Sys2Proof.Machine
end

section
/-! PROOFS. One frame of the frame clock (R7, R8, R136, R138, R140, R144, R148 to R150). -/

namespace Sys2Proof.Machine

open Sys2Proof

namespace State

variable (a b : LoopReturn) (s : State)

/-- The frame after the reads of the stores and the spans' sends. -/
def spansSent (s : State) (a b : LoopReturn) : State :=
  (s.advanceCounter.readStores.switchFrame.sendSpan .a a).sendSpan .b b

/-- The frame after the ports' sends too. -/
def portsSent (s : State) (a b : LoopReturn) : State :=
  each (List.finRange 16) (fun p t => t.sendPort p) (s.spansSent a b)

/-- The frame after the office octets are taken and the matchers have compared. -/
def matched (s : State) (a b : LoopReturn) : State := (s.portsSent a b).takeOffice.matchAll

theorem runFrame_eq : s.runFrame a b = (s.matched a b).ageReports.countQualification := rfl

theorem still_matchEntry (i : BridgeNo) : (s.matchEntry i).still = s.still := by rw [matchEntry_eq]; rfl

theorem still_matchAll : s.matchAll.still = s.still := still_each s _ _ fun i t => still_matchEntry t i

section
variable {β : Type} {view : State → β} {s}

/-- What the reads, the switch, the sends and the matchers do not touch is after the frame's matching as it was. -/
theorem spansSent_sees (hs : SpanSendProof view) :
    view (s.spansSent a b) = view (s.advanceCounter.readStores).switchFrame := by
  unfold spansSent
  rw [hs.sendSpan, hs.sendSpan]

theorem spansSent_keeps (hr : ReadProof view) (hs : SpanSendProof view)
    (hc : ∀ t x, view (t.setCounter x) = view t := by intros; rfl)
    (hw : ∀ t : State, view t.switchFrame = view t := by intros; rfl) : view (s.spansSent a b) = view s := by
  rw [spansSent_sees a b hs, hw, hr.readStores]
  exact hc _ _

theorem portsSent_keeps (hp : ∀ (t : State) p x, PortSent (t.port p) x → view (t.setPort p x) = view t := by intros; rfl) :
    view (s.portsSent a b) = view (s.spansSent a b) :=
  each_keeps view _ _ (fun p t => sendPort_keeps hp t p) _

theorem matched_keeps (hs : ∀ t : State, view t.still = view t := by intros; rfl)
    (ho : ∀ t : State, view t.takeOffice = view t := by intros; rfl) : view (s.matched a b) = view (s.portsSent a b) :=
  (keeps_of_still hs (still_matchAll _)).trans (ho _)

end

/-! ### What the sends see of the state that was read -/

theorem spanSendProof_officeOctet (c : CircuitNo) : SpanSendProof fun s => s.officeOctet c := {}
theorem spanSendProof_lineOut : SpanSendProof fun s => s.lineOut := {}
theorem spanSendProof_officeOut : SpanSendProof fun s => s.officeOut := {}
theorem spanSendProof_cfg : SpanSendProof fun s => s.cfg := {}

theorem portSent_reads {old new : Port} (h : PortSent old new) :
    new.presence = old.presence ∧ new.lastRead = old.lastRead := by
  rw [← h]; exact ⟨rfl, rfl⟩

theorem portOffer_setPort (t : State) (p q : PortNo) (x : Port) (h : PortSent (t.port p) x) :
    (t.setPort p x).portOffer q = t.portOffer q := by
  obtain ⟨hpres, hlast⟩ := portSent_reads h
  have hk : ((t.setPort p x).port q).presence = (t.port q).presence ∧
      ((t.setPort p x).port q).lastRead = (t.port q).lastRead := by
    rw [port_setPort]
    split
    · next e => subst e; exact ⟨hpres, hlast⟩
    · exact ⟨rfl, rfl⟩
  unfold portOffer
  rw [hk.1, hk.2]
  rfl

theorem officeOctet_switchFrame (c : CircuitNo) : s.switchFrame.officeOctet c = s.officeOctet c := rfl

theorem matched_officeIn (c : CircuitNo) :
    (s.matched a b).officeIn[c.val] = (s.advanceCounter.readStores).officeOctet c := by
  have hsame : (s.matched a b).officeIn = (s.portsSent a b).takeOffice.officeIn :=
    keeps_of_still (view := officeIn) (fun _ => rfl) (still_matchAll (s.portsSent a b).takeOffice)
  have hports : (s.portsSent a b).officeOctet c = (s.spansSent a b).officeOctet c :=
    portsSent_keeps a b (view := fun t => t.officeOctet c) fun t p x h => by
      unfold officeOctet; rw [portOffer_setPort t p _ x h]
  rw [hsame]
  simp only [takeOffice, tab_getElem]
  rw [hports]
  exact (spansSent_sees a b (spanSendProof_officeOctet c)).trans (officeOctet_switchFrame _ c)

theorem matched_lineOut : (s.matched a b).lineOut = tab 256 (s.advanceCounter.readStores).lineCarries := by
  rw [matched_keeps a b (view := lineOut), portsSent_keeps a b (view := lineOut), spansSent_sees a b (view := lineOut) {}]
  rfl

theorem matched_officeOut : (s.matched a b).officeOut = tab 256 fun c =>
    ((s.advanceCounter.readStores).deliver c).lastDelivered.getD s.cfg.officeIdle := by
  rw [matched_keeps a b (view := officeOut), portsSent_keeps a b (view := officeOut), spansSent_sees a b (view := officeOut) {},
    ← show s.advanceCounter.readStores.cfg = s.cfg from readStores_cfg _]
  simp only [switchFrame, tab_getElem]

/-- What neither the reads nor the rest of a frame up to the matchers touches. -/
theorem matched_same {β : Type} {view : State → β} (hr : ReadProof view) (hs : SpanSendProof view)
    (hc : ∀ t x, view (t.setCounter x) = view t := by intros; rfl)
    (hw : ∀ t : State, view t.switchFrame = view t := by intros; rfl)
    (hp : ∀ (t : State) p x, PortSent (t.port p) x → view (t.setPort p x) = view t := by intros; rfl)
    (ho : ∀ t : State, view t.takeOffice = view t := by intros; rfl) : view (s.matched a b) = view s := by
  rw [matched_keeps a b hs.still ho, portsSent_keeps a b hp, spansSent_keeps a b hr hs hc hw]

theorem matched_cfg : (s.matched a b).cfg = s.cfg := matched_same a b s (view := cfg) {} {}
theorem matched_monitors : (s.matched a b).monitors = s.monitors := matched_same a b s (view := monitors) {} {}
theorem matched_ftu : (s.matched a b).ftu = s.ftu := matched_same a b s (view := ftu) {} {}

theorem matched_counter : (s.matched a b).counter = s.counter + 1 := by
  rw [matched_keeps a b (view := counter), portsSent_keeps a b (view := counter), spansSent_sees a b (view := counter) {}]
  rw [show ∀ t : State, t.switchFrame.counter = t.counter from fun _ => rfl, readStores_counter]
  rfl

theorem matched_presence (p : PortNo) : ((s.matched a b).port p).presence = (s.port p).presence :=
  matched_same a b s (view := fun t => (t.port p).presence) (readProof_presence p) {}
    (hp := fun t q x h => by
      rw [port_setPort]
      split
      · next e => subst e; exact (portSent_reads h).1
      · rfl)

theorem spanSent_line {old new : SpanState} (h : SpanSent old new) : new.line = old.line := by rw [← h]

theorem spanSendProof_line (sp : Span) : SpanSendProof fun t => (t.span sp).line where
  span t q x h := by
    rw [span_setSpan]
    split
    · next e => subst e; exact spanSent_line h
    · rfl
  still t := by cases sp <;> rfl

theorem matched_line (sp : Span) : ((s.matched a b).span sp).line = (s.span sp).line :=
  matched_same a b s (view := fun t => (t.span sp).line) (readProof_line sp) (spanSendProof_line sp)

theorem healthy_of_same {s t : State} (hcfg : t.cfg = s.cfg)
    (hport : ∀ p, (t.port p).presence = (s.port p).presence) (hline : ∀ sp, (t.span sp).line = (s.span sp).line)
    (x : Source) : t.healthy x = s.healthy x := by
  cases x <;> simp only [healthy, inService, clockRole, hcfg, hport, hline]

theorem healthy_ageReports (x : Source) : s.ageReports.healthy x = s.healthy x := by cases x <;> rfl

theorem matched_healthy (x : Source) : (s.matched a b).ageReports.healthy x = s.healthy x :=
  (healthy_ageReports _ x).trans <| healthy_of_same (matched_cfg a b s) (matched_presence a b s) (matched_line a b s) x

theorem readStores_circuit (c : CircuitNo) : s.readStores.circuit c = s.circuit c :=
  ReadProof.readStores (view := fun t => t.circuit c) {} s

theorem lineCarries_readStores (p : Fin 256) : s.readStores.lineCarries p = s.lineCarries p := by
  simp only [lineCarries, readStores_lineOcc, readStores_officeIn, readStores_cfg, readStores_circuit]

theorem lineCarries_advanceCounter (p : Fin 256) : s.advanceCounter.lineCarries p = s.lineCarries p := rfl

theorem lost_officeOctet (c : CircuitNo) (h : (s.port (officePort (officePortOf c))).presence = .lost) :
    s.officeOctet c = s.cfg.officeIdle := by
  have hnum : ∀ k, lineNumber (officePort k) = none := by decide
  unfold officeOctet portOffer
  rw [h]
  dsimp only
  unfold idlePortFrame idleOf
  rw [tab_getElem, hnum]

theorem silent_delivered (c : CircuitNo) (h : (s.circuit c).receive = .none) :
    (s.deliver c).lastDelivered = some s.cfg.officeIdle := by
  simp [deliver, h]

/-! ### The report ages and the qualification counts end the frame -/

theorem ended_counter : s.ageReports.countQualification.counter = s.counter := rfl
theorem ended_lineOut : s.ageReports.countQualification.lineOut = s.lineOut := rfl
theorem ended_officeOut : s.ageReports.countQualification.officeOut = s.officeOut := rfl
theorem ended_officeIn : s.ageReports.countQualification.officeIn = s.officeIn := rfl
theorem ended_monitor (c : CircuitNo) : s.ageReports.countQualification.monitor c = s.ageReports.monitor c := rfl

theorem ageReports_monitor (c : CircuitNo) : s.ageReports.monitor c =
    if s.cfg.signallingPresent && !s.signalling c && (s.monitor c).age < 8000 then
      { s.monitor c with age := (s.monitor c).age + 1 } else s.monitor c := by
  simp only [ageReports, monitor, tab_getElem]
  rfl

theorem countQualification_counts (i : Fin 18) : s.countQualification.ftu.counts[i.val] =
    if s.healthy (Source.ofIndex i) && s.ftu.counts[i.val] < 8000 then s.ftu.counts[i.val] + 1
    else s.ftu.counts[i.val] := by
  simp only [countQualification, setFtu_ftu, tab_getElem]
  rfl

theorem ageReports_ftu : s.ageReports.ftu = s.ftu := rfl

theorem signalling_of_cfg {s t : State} (h : t.cfg = s.cfg) (c : CircuitNo) : t.signalling c = s.signalling c := by
  simp only [signalling, h]

theorem running_iff : s.running = true ↔ s.phase = .ready ∨ s.phase = .warming := by
  simp [running]

end State

theorem exec_frameTick (a b : LoopReturn) (s : State) : exec (.frameTick a b) s =
    act s fun s => if s.running then s.runFrame a b else s.advanceCounter := rfl

theorem exec_frameTick_running (a b : LoopReturn) {s : State} (h : s.resetLow = false)
    (hp : s.phase = .ready ∨ s.phase = .warming) : exec (.frameTick a b) s =
      .next (State.finish s (s.matched a b).ageReports.countQualification) := by
  rw [exec_running h (exec_frameTick a b s), if_pos ((State.running_iff s).mpr hp), State.runFrame_eq]

theorem exec_frameTick_loading (a b : LoopReturn) {s : State} (h : s.resetLow = false)
    (hp : s.phase = .loading ∨ s.phase = .configFault) : exec (.frameTick a b) s =
      .next (State.finish s (s.setCounter (s.counter + 1))) := by
  have hr : ¬ s.running = true := by
    rw [State.running_iff]
    rcases hp with hp | hp <;> simp [hp]
  rw [exec_running h (exec_frameTick a b s), if_neg hr]
  rfl

/-- Settles O19. -/
theorem frameTicks : Obligations.FrameTicks := by
  unfold Obligations.FrameTicks
  refine ⟨fun s n k _ hn hk => passed_iff s n k (by omega) hk,
    fun a b s h hp => exec_frameTick_loading a b h hp, fun a b s h hp => ?_⟩
  have hmon : ∀ c, (s.matched a b).monitor c = s.monitor c := fun c =>
    congrArg (fun v : Vector Monitor 256 => v[c.val]) (State.matched_monitors a b s)
  refine ⟨_, exec_frameTick_running a b h hp, ?_, ?_, ?_, ?_, ?_, ?_, ?_, ?_⟩
  · rw [State.finish_counter, State.ended_counter, State.matched_counter]
  · intro p
    simp only [State.finish_lineOut, State.ended_lineOut, State.matched_lineOut, tab_getElem]
    rw [State.lineCarries_readStores, State.lineCarries_advanceCounter]
    rfl
  · intro c hc
    have hu : (s.advanceCounter.readStores.circuit c).receive = .none := by
      rw [State.readStores_circuit]
      exact hc
    simp only [State.finish_officeOut, State.ended_officeOut, State.matched_officeOut, tab_getElem,
      State.silent_delivered _ _ hu, Option.getD_some]
    rw [State.readStores_cfg]
    rfl
  · intro c x _ hx
    simp only [State.finish_officeOut, State.ended_officeOut, State.matched_officeOut, tab_getElem]
    rw [hx]
    rfl
  · intro c
    simp only [State.finish_officeIn, State.ended_officeIn]
    exact State.matched_officeIn a b s c
  · intro c hc
    have hpres : (s.advanceCounter.readStores.port (officePort (officePortOf c))).presence = .lost :=
      ((State.readProof_presence _).readStores s.advanceCounter).trans hc
    simp only [State.finish_officeIn, State.ended_officeIn]
    rw [State.matched_officeIn, State.lost_officeOctet _ _ hpres, State.readStores_cfg]
    rfl
  · intro c
    rw [State.finish_monitor, State.ended_monitor, State.ageReports_monitor, hmon, State.matched_cfg,
      State.signalling_of_cfg (State.matched_cfg a b s)]
  · intro i
    simp only [State.finish_ftu]
    rw [State.countQualification_counts, State.matched_healthy, State.ageReports_ftu, State.matched_ftu]

end Sys2Proof.Machine
end

section
/-! PROOFS. The octet delivered to the office, and the reads of the elastic stores (R8, R9, R11, R131, R138, R140). -/

namespace Sys2Proof.Machine

open Sys2Proof

namespace State

theorem deliver_repeats (s : State) (c : CircuitNo) {x : Byte} (hr : (s.circuit c).receive ≠ .none)
    (hd : (s.alignOf c).repeatsDue ≠ 0) (hx : (s.alignOf c).lastDelivered = some x) :
    (s.deliver c).lastDelivered = some x := by
  simp [deliver, hr, hd, hx]

theorem deliver_line (s : State) (c : CircuitNo) (hr : (s.circuit c).receive = .line)
    (hd : (s.alignOf c).repeatsDue = 0) : (s.deliver c).lastDelivered = some
      ((extend (s.alignOf c).lineHistory ((s.linePath c).map s.lineOctet)).getD (s.circuit c).hold s.cfg.idleCode) := by
  simp [deliver, hr, hd]

theorem deliver_span (s : State) (c : CircuitNo) (hr : (s.circuit c).receive = .span)
    (hd : (s.alignOf c).repeatsDue = 0) : (s.deliver c).lastDelivered = some
      ((extend (s.alignOf c).spanHistory ((s.spanPath c).map s.bearerOctet)).getD (s.circuit c).hold s.cfg.idleCode) := by
  simp [deliver, hr, hd]

theorem extend_getD_zero (l : List Byte) (b d : Byte) : (extend l (some b)).getD 0 d = b := rfl

theorem extend_getD_succ {l : List Byte} {n : Nat} {x : Byte} (b d : Byte) (hn : n < 15) (hx : l[n]? = some x) :
    (extend l (some b)).getD (n + 1) d = x := by
  have hl : Config.holdLimit = 15 := rfl
  simp [extend, List.getD_eq_getElem?_getD, hn, hx, hl]

/-! ### The read of a port's store -/

theorem setPort_self (s : State) (p : PortNo) : s.setPort p (s.port p) = s := by simp [setPort, port]

theorem setSpan_self (s : State) (sp : Span) : s.setSpan sp (s.span sp) = s := by cases sp <;> rfl

theorem storeRead_empty {α : Type} {l : List α} (last : α) (h : l = []) : storeRead l last = (l, last, true) := by
  subst h
  rfl

theorem readPort_lost (s : State) (p : PortNo) (h : (s.port p).presence = .lost) : s.readPort p = s := by
  simp [readPort, h]

theorem readPort_next (s : State) (p : PortNo) {f : PortFrame} {rest : List PortFrame}
    (h : (s.port p).presence = .present) (hs : (s.port p).rxStore = f :: rest) :
    s.readPort p = s.setPort p { s.port p with rxStore := rest, lastRead := f } := by
  simp [readPort, h, hs, storeRead]

theorem readPort_empty (s : State) (p : PortNo) (h : (s.port p).presence = .present) (hs : (s.port p).rxStore = []) :
    s.readPort p = if s.clockRole p = .follow then s.portSlip p .repeating else s := by
  unfold readPort
  dsimp only
  rw [storeRead_empty _ hs]
  split
  · next hl => rw [h] at hl; contradiction
  · change (if (true && s.clockRole p == .follow) = true then (s.setPort p (s.port p)).portSlip p .repeating
      else s.setPort p (s.port p)) = _
    rw [setPort_self]
    simp

/-- A slip of a port, counted and told to the matchers. -/
def portSlipTold (s : State) (p : PortNo) : State :=
  match lineNumber p with
  | some n => (s.modPort p fun k => { k with slips := k.slips + 1 }).restartMatchers fun e => e.linePos.port == n
  | none => s.modPort p fun k => { k with slips := k.slips + 1 }

theorem portSlip_eq (s : State) (p : PortNo) (kind : SlipKind) : s.portSlip p kind =
    if s.slipNoticeFree (s.port p).lastSlipNotice then
      ((s.portSlipTold p).modPort p fun k => { k with lastSlipNotice := some s.counter }).handNotice
        (.slip (portSource p) kind ((s.port p).slips + 1))
    else s.portSlipTold p := rfl

theorem portSlipTold_port (s : State) (p : PortNo) :
    (s.portSlipTold p).port p = { s.port p with slips := (s.port p).slips + 1 } := by
  unfold portSlipTold
  split
  · rw [keeps_of_still (view := fun t => t.port p) (fun _ => rfl) (still_restartMatchers _ _)]
    simp
  · simp

/-- What a slip of a port leaves of it. -/
theorem portSlip_port (s : State) (p : PortNo) (k : SlipKind) :
    ∃ x, (s.portSlip p k).port p = { s.port p with slips := (s.port p).slips + 1, lastSlipNotice := x } := by
  rw [portSlip_eq]
  split
  · rw [keeps_of_still (view := fun t => t.port p) (fun _ => rfl) (still_handNotice _ _), modPort_eq,
      port_setPort_same, portSlipTold_port]
    exact ⟨_, rfl⟩
  · rw [portSlipTold_port]
    exact ⟨_, rfl⟩

/-! ### The read of a span's store -/

theorem readSpan_outOfService (s : State) (sp : Span) (h : s.inService sp = false) : s.readSpan sp = s := by
  simp [readSpan, h]

theorem readSpan_next (s : State) (sp : Span) {f : BearerFrame} {rest : List BearerFrame}
    (h : s.inService sp = true) (hs : (s.span sp).store = f :: rest) :
    s.readSpan sp = s.setSpan sp { s.span sp with store := rest, lastRead := f } := by
  simp [readSpan, h, hs, storeRead]

theorem readSpan_empty (s : State) (sp : Span) (h : s.inService sp = true) (hs : (s.span sp).store = []) :
    s.readSpan sp = s.spanSlip sp .repeating := by
  unfold readSpan
  rw [if_pos h]
  dsimp only
  rw [storeRead_empty _ hs]
  exact congrArg (fun t : State => t.spanSlip sp .repeating) (setSpan_self s sp)

/-- A span's state is kept but for its transmit queue by what moves circuits, and by a matcher's restart wholly. -/
theorem span_restartMatchers (s : State) (f : Bridge → Bool) (sp : Span) : (s.restartMatchers f).span sp = s.span sp := by
  refine each_keeps (fun t => t.span sp) _ _ (fun i t => ?_) s
  unfold modBridge
  split <;> rfl

theorem span_handNotice (s : State) (b : NoticeBody) (sp : Span) : (s.handNotice b).span sp = s.span sp := by
  unfold handNotice
  split <;> rfl

theorem spanSlip_span (s : State) (sp : Span) (k : SlipKind) :
    ∃ x, (s.spanSlip sp k).span sp = { s.span sp with slips := (s.span sp).slips + 1, lastSlipNotice := x } := by
  unfold spanSlip
  dsimp only
  split
  · rw [span_handNotice, modSpan_eq, span_setSpan_same, span_restartMatchers, modSpan_eq, span_setSpan_same]
    exact ⟨_, rfl⟩
  · rw [span_restartMatchers, modSpan_eq, span_setSpan_same]
    exact ⟨_, rfl⟩

end State

/-- Settles O20. -/
theorem officeOctetDelivered : Obligations.OfficeOctetDelivered := by
  unfold Obligations.OfficeOctetDelivered
  refine ⟨fun s c => ⟨fun hr hd x hx => State.deliver_repeats s c hr hd hx, fun hr hd p hp => ⟨fun h0 => ?_, ?_⟩,
    fun hr hd b hb => ⟨fun h0 => ?_, ?_⟩, rfl⟩, fun s p => ⟨fun hl => ⟨State.readPort_lost s p hl, ?_⟩, fun hp => ?_,
    fun f rest hp hs => State.readPort_next s p hp hs, fun hp hs => ?_⟩, fun s sp =>
    ⟨State.readSpan_outOfService s sp, fun f rest h hs => State.readSpan_next s sp h hs, fun h hs => ?_⟩⟩
  · rw [State.deliver_line s c hr hd, h0, hp]
    rfl
  · intro n x hn hlt hx
    rw [State.deliver_line s c hr hd, hn, hp]
    exact congrArg some (State.extend_getD_succ _ _ hlt hx)
  · rw [State.deliver_span s c hr hd, h0, hb]
    rfl
  · intro n x hn hlt hx
    rw [State.deliver_span s c hr hd, hn, hb]
    exact congrArg some (State.extend_getD_succ _ _ hlt hx)
  · simp [State.portOffer, hl, State.idlePortFrame]
  · simp [State.portOffer, hp]
  · rw [State.readPort_empty s p hp hs]
    split
    · obtain ⟨x, hx⟩ := State.portSlip_port s p .repeating
      rw [hx]
      exact ⟨hs, rfl, rfl⟩
    · exact ⟨hs, rfl, rfl⟩
  · rw [State.readSpan_empty s sp h hs]
    obtain ⟨x, hx⟩ := State.spanSlip_span s sp .repeating
    rw [hx]
    exact ⟨hs, rfl, rfl⟩

end Sys2Proof.Machine
end

section
/-! PROOFS. What a frame sends and what its matchers compare (R7, R63, R64, R116, R134 to R136, R138, R140). -/

namespace Sys2Proof.Machine

open Sys2Proof

/-- A fold over distinct indices does at an index what its own change does, when a change reads and writes no more than
what is seen at its index. -/
theorem each_at {ι γ : Type} (view : ι → State → γ) (f : ι → State → State)
    (hne : ∀ i j t, i ≠ j → view j (f i t) = view j t)
    (hsame : ∀ i t u, view i t = view i u → view i (f i t) = view i (f i u))
    {l : List ι} (hl : l.Nodup) {x : ι} (hx : x ∈ l) (s : State) : view x (each l f s) = view x (f x s) := by
  have hout : ∀ (l : List ι) (t : State), x ∉ l → view x (each l f t) = view x t := by
    intro l
    induction l with
    | nil => exact fun t _ => rfl
    | cons y l ih =>
      intro t hy
      rw [List.mem_cons, not_or] at hy
      exact (ih (f y t) hy.2).trans (hne y x t (Ne.symm hy.1))
  induction l generalizing s with
  | nil => cases hx
  | cons y l ih =>
    obtain ⟨hy, hnd⟩ := List.nodup_cons.mp hl
    rcases List.mem_cons.mp hx with rfl | hx
    · exact hout l _ hy
    · have hyx : y ≠ x := fun e => hy (e ▸ hx)
      exact (ih hnd hx (f y s)).trans (hsame x _ _ (hne y x s hyx))

namespace SpanState

/-- A running test after its next prove frame (R129). -/
def provedNext (k : SpanState) (p : ProveRun) (loop : LoopReturn) : SpanState :=
  let sent := carryFrame p.balance (Marker.flip p.lastSent) (proveBearer p.sent) emptyControl
  let judged := match loop with
    | .asSent => Machine.proveErrored p.reference (proveBearer p.sent) sent.1
    | .returned f => Machine.proveErrored p.reference (proveBearer p.sent) f
    | .nothing => (true, p.reference)
  { k with
    prove := some { p with sent := p.sent + 1, balance := sent.2, lastSent := Marker.flip p.lastSent,
                           reference := judged.2 }
    proveChecked := k.proveChecked + 1
    proveErrored := if judged.1 then k.proveErrored + 1 else k.proveErrored }

/-- A span in PROVING after a frame of its test, until those asked for are sent (R129). -/
def proved (k : SpanState) (loop : LoopReturn) : SpanState :=
  k.prove.elim k fun p => if p.sent < p.asked then k.provedNext p loop else k

/-- A span in service after it has sent its CARRY (R116, R118, R119). -/
def carried (k : SpanState) (bearer : BearerFrame) : SpanState :=
  let sent := carryFrame k.balance (Marker.flip k.lastSent) bearer
    ((k.txQueue.head?.map fun x => x.message.control).getD emptyControl)
  { k with balance := sent.2, lastSent := Marker.flip k.lastSent, sending := some sent.1, txQueue := k.txQueue.tail }

/-- A span after it has sent what a line state asks, its waiting entries aside (R122). -/
def sentIn (k : SpanState) (line : LineState) (cfg : SiteConfig) (bearer : BearerFrame) (loop : LoopReturn) :
    SpanState :=
  match line with
  | .disabled => { k with sending := none }
  | .seek | .holdDown => { k with sending := some (plainFrame cfg 1) }
  | .answer => { k with sending := some (plainFrame cfg 2) }
  | .inService => k.carried bearer
  | .proving => { k with sending := some (plainFrame cfg 1) }.proved loop

/-- A span after it has sent, its waiting entries aside (R122). -/
def sent (k : SpanState) (cfg : SiteConfig) (bearer : BearerFrame) (loop : LoopReturn) : SpanState :=
  k.sentIn k.line cfg bearer loop

end SpanState

namespace State

variable (s : State)

theorem proveFrame_eq (sp : Span) (loop : LoopReturn) :
    s.proveFrame sp loop = s.setSpan sp ((s.span sp).proved loop) := by
  unfold proveFrame SpanState.proved
  dsimp only
  cases (s.span sp).prove with
  | none => exact (setSpan_self s sp).symm
  | some p =>
    by_cases h : p.sent < p.asked
    · dsimp only [Option.elim_some]
      rw [if_pos h, if_pos h]
      cases loop <;> rfl
    · dsimp only [Option.elim_some]
      rw [if_neg h, if_neg h, setSpan_self]

theorem sendCarry_eq (sp : Span) :
    s.sendCarry sp = (s.setSpan sp ((s.span sp).carried (s.bearerField sp))).servePending sp := by
  unfold sendCarry SpanState.carried
  dsimp only
  cases hq : (s.span sp).txQueue <;> rfl

/-- A span's send is what `sent` says of the span, and then, in service, the room given to its waiting entries. -/
theorem sendSpan_eq (sp : Span) (loop : LoopReturn) : s.sendSpan sp loop =
    let t := s.setSpan sp ((s.span sp).sent s.cfg (s.bearerField sp) loop)
    if (s.span sp).line = .inService then t.servePending sp else t := by
  unfold sendSpan SpanState.sent
  cases (s.span sp).line
  case inService => exact sendCarry_eq s sp
  case proving =>
    dsimp only
    rw [proveFrame_eq, modSpan_eq, span_setSpan_same, setSpan_setSpan]
    rfl
  all_goals rfl

/-! ### Without a waiting entry -/

/-- No entry waits to place a message. -/
def NonePending (s : State) : Prop := ∀ i e, s.bridge i = some e → e.pending = false

variable {s} in
theorem NonePending.servePending (h : s.NonePending) (sp : Span) : s.servePending sp = s := by
  have hentry : ∀ i, s.serveEntry sp i = s := by
    intro i
    unfold serveEntry withBridge
    split
    · rfl
    · next e he => simp [h i e he]
  exact each_induct (fun t => t = s) _ _ (fun i t ht => by rw [ht, hentry]) s rfl

variable {s} in
theorem NonePending.sendSpan (h : s.NonePending) (sp : Span) (loop : LoopReturn) :
    s.sendSpan sp loop = s.setSpan sp ((s.span sp).sent s.cfg (s.bearerField sp) loop) := by
  have ht : (s.setSpan sp ((s.span sp).sent s.cfg (s.bearerField sp) loop)).NonePending := h
  rw [sendSpan_eq]
  dsimp only
  rw [ht.servePending, ite_self]

/-- What an entry shows besides its matcher is kept by the reads. -/
theorem readProof_entry {β : Type} (f : Bridge → β) (i : BridgeNo)
    (hf : ∀ e m, f { e with matcher := m } = f e := by intros; rfl) : ReadProof fun t => (t.bridge i).map f where
  matcher t j x m hx := by
    rw [bridge_setBridge]
    split
    · next e =>
      subst e
      rw [hx]
      exact congrArg some (hf x m)
    · rfl

variable {s} in
theorem NonePending.readStores (h : s.NonePending) : s.readStores.NonePending := by
  intro i e he
  have hview := (readProof_entry Bridge.pending i).readStores s
  rw [he] at hview
  cases hs : s.bridge i with
  | none => rw [hs] at hview; cases hview
  | some x =>
    rw [hs] at hview
    exact (Option.some.inj hview).trans (h i x hs)

theorem readStores_entry (i : BridgeNo) : s.readStores.bridge i = none ↔ s.bridge i = none := by
  have hview := (readProof_entry (fun _ => ()) i).readStores s
  cases hs : s.bridge i <;> cases hr : s.readStores.bridge i <;> simp_all

/-! ### The frame without a waiting entry -/

variable (a b : LoopReturn)

theorem bearerField_switchFrame (sp : Span) : s.switchFrame.bearerField sp = s.bearerField sp := rfl

theorem bearerField_setSpan (x : SpanState) (sp sp' : Span) : (s.setSpan sp x).bearerField sp' = s.bearerField sp' := rfl

variable {s} in
/-- The spans after both have sent are the spans that each has sent alone. -/
theorem NonePending.spansSent (h : s.NonePending) : s.spansSent a b =
    let u := s.advanceCounter.readStores
    (u.switchFrame.setSpan .a ((u.span .a).sent u.cfg (u.bearerField .a) a)).setSpan .b
      ((u.span .b).sent u.cfg (u.bearerField .b) b) := by
  have hu : s.advanceCounter.readStores.NonePending := NonePending.readStores (s := s.advanceCounter) h
  unfold State.spansSent
  generalize s.advanceCounter.readStores = u at hu
  have hv : u.switchFrame.NonePending := hu
  rw [hv.sendSpan]
  have hw : (u.switchFrame.setSpan .a ((u.switchFrame.span .a).sent u.switchFrame.cfg
      (u.switchFrame.bearerField .a) a)).NonePending := hu
  rw [hw.sendSpan]
  rfl

theorem switchFrame_bridges : s.switchFrame.bridges = s.bridges := rfl

variable {s} in
theorem NonePending.spansSent_bridges (h : s.NonePending) :
    (s.spansSent a b).bridges = (s.advanceCounter.readStores).bridges := by
  rw [h.spansSent]
  dsimp only
  rw [setSpan_bridges, setSpan_bridges, switchFrame_bridges]

theorem portsSent_bridges : (s.portsSent a b).bridges = (s.spansSent a b).bridges :=
  portsSent_keeps a b (view := bridges)

theorem portsSent_spans : (s.portsSent a b).spans = (s.spansSent a b).spans :=
  portsSent_keeps a b (view := spans)

theorem portsSent_counter : (s.portsSent a b).counter = (s.spansSent a b).counter :=
  portsSent_keeps a b (view := counter)

/-- A matcher's comparison sees of the state what the stores have read, and the counter. -/
theorem matchedEntry_of_same {s t : State} (hl : t.lineOctet = s.lineOctet) (hb : t.bearerOctet = s.bearerOctet)
    (hc : t.counter = s.counter) (e : Bridge) : t.matchedEntry e = s.matchedEntry e := by
  unfold matchedEntry comparedMatcher matchNoted
  rw [hl, hb, hc]

/-- The entry at an index after the matchers have compared. -/
theorem matchAll_bridge (i : BridgeNo) : s.matchAll.bridge i = (s.bridge i).map s.matchedEntry := by
  have hsame : ∀ t u : State, t.still = u.still → ∀ e, t.matchedEntry e = u.matchedEntry e := by
    intro t u h e
    refine matchedEntry_of_same ?_ ?_ ?_ e
    · exact keeps_of_still (view := lineOctet) (fun _ => rfl) h
    · refine keeps_of_still (view := bearerOctet) (fun t => ?_) h
      funext x
      obtain ⟨sp, n⟩ := x
      cases sp <;> rfl
    · exact keeps_of_still (view := counter) (fun _ => rfl) h
  have h := each_at (view := fun j (t : State) => (t.bridge j, t.still)) (fun i (t : State) => t.matchEntry i)
    (fun j k t hjk => by
      refine Prod.ext ?_ (still_matchEntry t j)
      dsimp only
      rw [matchEntry_eq, bridge_setBridge, if_neg hjk])
    (fun j t u htu => by
      obtain ⟨hbridge, hstill⟩ := Prod.mk.inj htu
      refine Prod.ext ?_ ((still_matchEntry t j).trans (hstill.trans (still_matchEntry u j).symm))
      dsimp only
      rw [matchEntry_eq, matchEntry_eq, bridge_setBridge_same, bridge_setBridge_same, hbridge,
        funext (hsame t u hstill)])
    (List.nodup_finRange 48) (List.mem_finRange i) s
  have hfst := congrArg Prod.fst h
  refine hfst.trans ?_
  simp only [matchEntry_eq, bridge_setBridge_same]

end State

end Sys2Proof.Machine
end

section
/-! PROOFS. What a frame sends and what its matchers compare, at the end of the frame's step (R7, R63, R64, R116, R134 to
R136, R138, R140). -/

namespace Sys2Proof.Machine

open Sys2Proof

/-- A port after it has sent, or its transmit store has taken, the Channel Map's frame (R136, R140). -/
def Port.sent (k : Port) (role : ClockRole) (output : PortFrame) : Port :=
  match role with
  | .drive => { k with sending := some output }
  | .follow =>
    { k with
      txStore := (storeWrite k.txStore output).1
      txSlips := if (storeWrite k.txStore output).2 then k.txSlips + 1 else k.txSlips }

namespace State

variable (s : State) (a b : LoopReturn)

theorem sendPort_eq (p : PortNo) : s.sendPort p = s.setPort p ((s.port p).sent (s.clockRole p) (s.portOutput p)) := by
  unfold sendPort Port.sent
  cases s.clockRole p <;> rfl

theorem portOutput_of_same {s t : State} (ho : t.officeOut = s.officeOut) (hl : t.lineOut = s.lineOut) (p : PortNo) :
    t.portOutput p = s.portOutput p := by
  unfold portOutput
  rw [ho, hl]

theorem clockRole_of_cfg {s t : State} (h : t.cfg = s.cfg) (p : PortNo) : t.clockRole p = s.clockRole p := by
  unfold clockRole
  rw [h]

/-- The port at a number after every port has sent. -/
theorem portsSent_port (p : PortNo) : (s.portsSent a b).port p =
    ((s.spansSent a b).port p).sent ((s.spansSent a b).clockRole p) ((s.spansSent a b).portOutput p) := by
  have h := each_at (view := fun q (t : State) => (t.port q, t.cfg, t.officeOut, t.lineOut))
    (fun q (t : State) => t.sendPort q)
    (fun q r t hqr => by
      rw [sendPort_eq, port_setPort, if_neg hqr]
      rfl)
    (fun q t u htu => by
      obtain ⟨hport, hseen⟩ := Prod.mk.inj htu
      obtain ⟨hcfg, hout⟩ := Prod.mk.inj hseen
      obtain ⟨hoffice, hline⟩ := Prod.mk.inj hout
      rw [sendPort_eq, sendPort_eq, port_setPort_same, port_setPort_same, hport, clockRole_of_cfg hcfg,
        portOutput_of_same hoffice hline]
      exact Prod.ext rfl hseen)
    (List.nodup_finRange 16) (List.mem_finRange p) (s.spansSent a b)
  have hfst := congrArg Prod.fst h
  refine hfst.trans ?_
  simp only [sendPort_eq, port_setPort_same]

theorem matchAll_keeps {β : Type} {view : State → β}
    (h : ∀ (t : State) i x, view (t.setBridge i x) = view t := by intros; rfl) : view s.matchAll = view s :=
  each_keeps view _ _ (fun i t => by rw [matchEntry_eq]; exact h t i _) s

theorem takeOffice_ports : s.takeOffice.ports = s.ports := rfl
theorem takeOffice_spans : s.takeOffice.spans = s.spans := rfl
theorem takeOffice_bridges : s.takeOffice.bridges = s.bridges := rfl
theorem takeOffice_groups : s.takeOffice.groups = s.groups := rfl

theorem matched_ports : (s.matched a b).ports = (s.portsSent a b).ports := by
  unfold matched
  rw [matchAll_keeps _ (view := ports), takeOffice_ports]

theorem matched_spans : (s.matched a b).spans = (s.spansSent a b).spans := by
  unfold matched
  rw [matchAll_keeps _ (view := spans), takeOffice_spans, portsSent_spans]

theorem ended_ports : s.ageReports.countQualification.ports = s.ports := rfl
theorem ended_spans : s.ageReports.countQualification.spans = s.spans := rfl
theorem ended_bridge (i : BridgeNo) : s.ageReports.countQualification.bridge i = s.bridge i := rfl
theorem ended_groups : s.ageReports.countQualification.groups = s.groups := rfl
theorem ended_queue : s.ageReports.countQualification.queue = s.queue := rfl

/-! ### The end of a frame's step with no entry waiting and no group in use -/

theorem portsSent_groups : (s.portsSent a b).groups = (s.spansSent a b).groups :=
  portsSent_keeps a b (view := groups)

theorem switchFrame_groups : s.switchFrame.groups = s.groups := rfl

variable {s} in
theorem NonePending.matched_groups (h : s.NonePending) : (s.matched a b).groups = s.groups := by
  unfold matched
  rw [matchAll_keeps _ (view := groups), takeOffice_groups, portsSent_groups, h.spansSent]
  dsimp only
  rw [setSpan_groups, setSpan_groups, switchFrame_groups, readStores_groups]
  rfl

theorem matched_queue : (s.matched a b).queue = s.queue := matched_same a b s (view := queue) {} {}

variable {s} in
theorem NonePending.matched_bridge (h : s.NonePending) (i : BridgeNo) : (s.matched a b).bridge i =
    ((s.advanceCounter.readStores).bridge i).map (s.portsSent a b).takeOffice.matchedEntry := by
  have hb : (s.portsSent a b).takeOffice.bridges = (s.advanceCounter.readStores).bridges := by
    rw [takeOffice_bridges, portsSent_bridges, h.spansSent_bridges]
  unfold matched
  rw [matchAll_bridge]
  exact congrArg (fun v : Vector (Option Bridge) 48 => v[i.val].map _) hb

variable {s} in
theorem NonePending.frame_settledPart (h : s.NonePending) (hg : ∀ g, s.group g = none) :
    (finish s (s.matched a b).ageReports.countQualification).settledPart =
      (s.matched a b).ageReports.countQualification.settledPart := by
  have hgroup : ∀ g, (s.matched a b).ageReports.countQualification.group g = none := fun g =>
    (congrArg (fun v : Vector (Option Group) 4 => v[g.val])
      ((ended_groups _).trans (h.matched_groups a b))).trans (hg g)
  have hbridge : ∀ i, (s.matched a b).ageReports.countQualification.bridge i = none → s.bridge i = none := by
    intro i hi
    rw [ended_bridge, h.matched_bridge, Option.map_eq_none_iff] at hi
    exact (readStores_entry s.advanceCounter i).mp hi
  have hqueue : (s.matched a b).ageReports.countQualification.queue = s.queue :=
    (ended_queue _).trans (matched_queue s a b)
  generalize (s.matched a b).ageReports.countQualification = z at hgroup hbridge hqueue
  have hfreed : freedSince s z = false := by
    rw [← Bool.not_eq_true, freedSince_iff]
    rintro (⟨i, hi, hz⟩ | ⟨g, hg', -⟩)
    · exact hi (hbridge i hz)
    · exact hg' (hg g)
  rw [finish_settledPart_examined, advanceGroups_noGroups ((noGroups_iff z).mpr hgroup),
    examineHead_idle hfreed (headLeft_same hqueue)]

end State

end Sys2Proof.Machine
end

section
/-! PROOFS. The frames sent and the matchers of one frame, settled (R7, R63, R64, R116, R134 to R136, R138, R140). -/

namespace Sys2Proof.Machine

open Sys2Proof

namespace State

variable (s : State) (a b : LoopReturn)

/-! ### The line sync (R135, R136) -/

theorem syncStyle_of_drive {p : PortNo} (h : s.clockRole p = .drive) : s.syncStyle p = s.cfg.lineSync := by
  unfold clockRole at h
  unfold syncStyle
  split at h
  · rfl
  · cases h

theorem drivenSync_iff {p : PortNo} : s.drivenSync p =
    if (s.phase = .ready ∨ s.phase = .warming) ∧ s.resetLow = false ∧ s.clockRole p = .drive then
      some (if s.cfg.lineSync = .long then ⟨0, 8⟩ else ⟨255, 1⟩) else none := by
  have hcond : (s.running && !s.resetLow && s.clockRole p == .drive) = true ↔
      (s.phase = .ready ∨ s.phase = .warming) ∧ s.resetLow = false ∧ s.clockRole p = .drive := by
    rw [← running_iff]
    simp [and_assoc]
  unfold drivenSync
  by_cases h : (s.running && !s.resetLow && s.clockRole p == .drive) = true
  · rw [if_pos h, if_pos (hcond.mp h), syncStyle_of_drive s (hcond.mp h).2.2]
    cases s.cfg.lineSync <;> rfl
  · rw [if_neg h, if_neg (fun h' => h (hcond.mpr h'))]

/-! ### The ports -/

theorem portOutput_office (k : Fin 8) (n : Fin 32) :
    (s.portOutput (officePort k))[n.val] = s.officeOut[(circuitAt k n).val] := by
  have hk : officeNumber (officePort k) = some k := by revert k; decide
  unfold portOutput
  rw [tab_getElem, hk]

theorem portOutput_line (k : Fin 8) (n : Fin 32) :
    (s.portOutput (linePort k))[n.val] = s.lineOut[(LinePos.index ⟨k, n⟩).val] := by
  have ho : officeNumber (linePort k) = none := by revert k; decide
  have hk : lineNumber (linePort k) = some k := by revert k; decide
  unfold portOutput
  rw [tab_getElem, ho, hk]

theorem matched_portOutput (p : PortNo) :
    (s.matched a b).portOutput p = (s.spansSent a b).portOutput p := by
  refine portOutput_of_same ?_ ?_ p
  · rw [matched_keeps a b (view := officeOut), portsSent_keeps a b (view := officeOut)]
  · rw [matched_keeps a b (view := lineOut), portsSent_keeps a b (view := lineOut)]

theorem matched_port (p : PortNo) : (s.matched a b).port p =
    ((s.spansSent a b).port p).sent (s.clockRole p) ((s.matched a b).portOutput p) := by
  have hcfg : (s.spansSent a b).cfg = s.cfg := spansSent_keeps a b (view := cfg) {} {}
  rw [matched_portOutput, ← clockRole_of_cfg hcfg, ← portsSent_port]
  exact congrArg (fun v : Vector Port 16 => v[p.val]) (matched_ports s a b)

theorem portRead_transmit {old new : Port} (h : PortRead old new) :
    new.txStore = old.txStore ∧ new.txSlips = old.txSlips := by
  rw [← h]; exact ⟨rfl, rfl⟩

/-- The reads leave a port's transmit side as it is. -/
theorem spansSent_transmit (p : PortNo) :
    ((s.spansSent a b).port p).txStore = (s.port p).txStore ∧
      ((s.spansSent a b).port p).txSlips = (s.port p).txSlips := by
  have h : (((s.spansSent a b).port p).txStore, ((s.spansSent a b).port p).txSlips) =
      ((s.port p).txStore, (s.port p).txSlips) :=
    spansSent_keeps a b (view := fun t => ((t.port p).txStore, (t.port p).txSlips))
      { port := fun t q x hx => by
          obtain ⟨hstore, hslips⟩ := portRead_transmit hx
          rw [port_setPort]
          split
          · next e => subst e; rw [hstore, hslips]
          · rfl } {}
  exact Prod.mk.inj h

theorem storeWrite_spec {α : Type} (l : List α) (x : α) :
    (storeWrite l x).1 = (if l.length < 2 then l ++ [x] else l.tail ++ [x]) ∧
      (storeWrite l x).2 = decide (¬ l.length < 2) := by
  unfold storeWrite
  by_cases h : l.length < 2
  · rw [if_neg (by omega), if_pos h]
    simp [h]
  · rw [if_pos (by omega), if_neg h]
    simp only [true_and]
    simpa using h

theorem ended_port (p : PortNo) : s.ageReports.countQualification.port p = s.port p := rfl
theorem ended_span (sp : Span) : s.ageReports.countQualification.span sp = s.span sp := rfl
theorem ended_portOutput (p : PortNo) : s.ageReports.countQualification.portOutput p = s.portOutput p := rfl

theorem span_of_spans {s t : State} (h : t.spans = s.spans) (sp : Span) : t.span sp = s.span sp := by
  unfold span
  rw [h]

/-! ### The matchers see the frame that was read -/

theorem spanSent_lastRead {old new : SpanState} (h : SpanSent old new) : new.lastRead = old.lastRead := by rw [← h]

theorem spanSendProof_bearerOctet (x : BearerSlot) : SpanSendProof fun t => t.bearerOctet x where
  span t q y h := by
    have hline := spanSent_line h
    have hlast := spanSent_lastRead h
    unfold bearerOctet inService
    rw [span_setSpan]
    split
    · next e => subst e; simp only [hline, hlast]; rfl
    · rfl
  still t := by
    obtain ⟨sp, n⟩ := x
    cases sp <;> rfl

theorem takeOffice_lineOctet (p : LinePos) : s.takeOffice.lineOctet p = s.lineOctet p := rfl
theorem takeOffice_bearerOctet (x : BearerSlot) : s.takeOffice.bearerOctet x = s.bearerOctet x := rfl
theorem switchFrame_lineOctet (p : LinePos) : s.switchFrame.lineOctet p = s.lineOctet p := rfl
theorem switchFrame_bearerOctet (x : BearerSlot) : s.switchFrame.bearerOctet x = s.bearerOctet x := rfl
theorem takeOffice_counter : s.takeOffice.counter = s.counter := rfl
theorem switchFrame_counter : s.switchFrame.counter = s.counter := rfl

theorem portsSent_matchedEntry (e : Bridge) :
    (s.portsSent a b).takeOffice.matchedEntry e = (s.advanceCounter.readStores).matchedEntry e := by
  refine matchedEntry_of_same (funext fun p => ?_) (funext fun x => ?_) ?_ e
  · rw [takeOffice_lineOctet, portsSent_keeps a b (view := fun t => t.lineOctet p) fun t q y h => by
      unfold lineOctet; rw [portOffer_setPort t q _ y h]]
    exact (spansSent_sees a b (view := fun t => t.lineOctet p) {}).trans (switchFrame_lineOctet _ p)
  · rw [takeOffice_bearerOctet, portsSent_keeps a b (view := fun t => t.bearerOctet x)]
    exact (spansSent_sees a b (spanSendProof_bearerOctet x)).trans (switchFrame_bearerOctet _ x)
  · rw [takeOffice_counter, portsSent_keeps a b (view := counter), spansSent_sees a b (view := counter) {},
      switchFrame_counter]

variable {s} in
/-- The entry at an index after a frame with no entry waiting. -/
theorem NonePending.matched_matchEntry (h : s.NonePending) (i : BridgeNo) :
    (s.matched a b).bridge i = ((s.advanceCounter.readStores).matchEntry i).bridge i := by
  rw [h.matched_bridge, matchEntry_eq, bridge_setBridge_same, funext (portsSent_matchedEntry s a b)]

variable {s} in
/-- The spans after a frame with no entry waiting. -/
theorem NonePending.matched_span (h : s.NonePending) :
    (s.matched a b).span .a = ((s.advanceCounter.readStores).sendSpan .a a).span .a ∧
      (s.matched a b).span .b = ((s.advanceCounter.readStores).sendSpan .b b).span .b := by
  have hu : (s.advanceCounter.readStores).NonePending := NonePending.readStores (s := s.advanceCounter) h
  have hspan := span_of_spans (matched_spans s a b)
  rw [hspan, hspan, h.spansSent, hu.sendSpan, hu.sendSpan]
  generalize s.advanceCounter.readStores = u
  exact ⟨rfl, rfl⟩

theorem finish_portOutput (before : State) (p : PortNo) : (finish before s).portOutput p = s.portOutput p :=
  portOutput_of_same (finish_officeOut s before) (finish_lineOut s before) p

theorem span_of_settledPart {s t : State} (h : t.settledPart = s.settledPart) (sp : Span) : t.span sp = s.span sp :=
  span_of_spans (by have hs := congrArg State.spans h; exact hs) sp

theorem bridge_of_settledPart {s t : State} (h : t.settledPart = s.settledPart) (i : BridgeNo) :
    t.bridge i = s.bridge i := by
  have hb : t.bridges = s.bridges := by have hs := congrArg State.bridges h; exact hs
  unfold bridge
  rw [hb]

end State

/-- Settles O21. -/
theorem frameSends : Obligations.FrameSends := by
  unfold Obligations.FrameSends
  refine ⟨fun s p => ⟨fun h => ?_, fun h => ?_⟩, fun a b s h hp =>
    ⟨_, exec_frameTick_running a b h hp, ?_, ?_, ?_, ?_, ?_⟩⟩
  · rw [State.drivenSync_iff, if_pos h]
  · rw [State.drivenSync_iff, if_neg h]
  · intro k n
    rw [State.portOutput_office, State.finish_officeOut]
  · intro k n
    rw [State.portOutput_line, State.finish_lineOut]
  · intro p hd
    rw [State.finish_port, State.ended_port, State.matched_port, hd, State.finish_portOutput, State.ended_portOutput]
    rfl
  · intro p hf
    obtain ⟨hstore, hslips⟩ := State.spansSent_transmit s a b p
    obtain ⟨hlist, hfull⟩ := State.storeWrite_spec (s.port p).txStore ((s.matched a b).portOutput p)
    rw [State.finish_port, State.ended_port, State.matched_port, hf, State.finish_portOutput, State.ended_portOutput]
    dsimp only [Port.sent]
    rw [hstore, hslips, hlist, hfull]
    refine ⟨rfl, ?_⟩
    by_cases h2 : (s.port p).txStore.length < 2
    · simp [h2]
    · simp [h2]
  · intro hn hg
    have hspans : ∀ sp, (State.finish s (s.matched a b).ageReports.countQualification).span sp =
        (s.matched a b).span sp := fun sp =>
      (State.span_of_settledPart (State.NonePending.frame_settledPart a b hn hg) sp).trans (State.ended_span _ sp)
    rw [hspans, hspans]
    exact State.NonePending.matched_span a b hn

namespace State

theorem matchNoted_found (s : State) {e : Bridge} {m : Matcher} {d : Int} (hd : e.matchDue = none)
    (hf : matchFound m = some d) :
    s.matchNoted e m = { e with matcher := some m, offset := some d, matchDue := some s.counter } := by
  unfold matchNoted
  split
  · next d' _ hf' => rw [Option.some.inj (hf'.symm.trans hf)]
  · next hne => exact (hne d hd hf).elim

theorem matchNoted_none (s : State) {e : Bridge} {m : Matcher} (h : e.matchDue ≠ none ∨ matchFound m = none) :
    s.matchNoted e m = { e with matcher := some m } := by
  unfold matchNoted
  split
  · next d hd hf =>
    rcases h with h | h
    · exact absurd hd h
    · rw [hf] at h; cases h
  · rfl

end State

/-! ### The comparisons of a matcher (R63, R64) -/

theorem offsets_getElem? {k : Nat} (h : k < 31) : offsets[k]? = some ((k : Int) - 15) := by
  simp [offsets, h]

theorem compareFrame_run (m : Matcher) (x y : Byte) {k old : Nat} (hk : k < 31) (ho : m.runs[k]? = some old) :
    (compareFrame m x y).runs[k]? = some
      (runAfter (compareFrame m x y).toHistory (compareFrame m x y).fromHistory ((k : Int) - 15) old) := by
  have hz : (offsets.zip m.runs)[k]? = some ((k : Int) - 15, old) :=
    List.getElem?_zip_eq_some.mpr ⟨offsets_getElem? hk, ho⟩
  simp only [compareFrame, List.getElem?_map, hz, Option.map_some]

theorem compareFrame_runs_length (m : Matcher) (x y : Byte) (h : m.runs.length = 31) :
    (compareFrame m x y).runs.length = 31 := by
  simp [compareFrame, offsets, h]

theorem runAfter_pair {l r : List Byte} {d : Int} {run : Nat} {u v : Byte} (hu : l[(-d).toNat]? = some u)
    (hv : r[d.toNat]? = some v) : runAfter l r d run = if u = v then min (run + 1) 16 else 0 := by
  simp only [runAfter, pairAt, hu, hv, beq_iff_eq]
  rfl

theorem runAfter_none {l r : List Byte} {d : Int} {run : Nat} (h : l[(-d).toNat]? = none ∨ r[d.toNat]? = none) :
    runAfter l r d run = run := by
  have hp : pairAt l r d = none := by
    unfold pairAt
    rcases h with h | h
    · rw [h]
    · rw [h]
      cases l[(-d).toNat]? <;> rfl
  rw [runAfter, hp]

/-- Two values stand among the first 16 octets of an offset's run. -/
theorem variedRun_iff (l : List Byte) (d : Int) : variedRun l d = true ↔
    ∃ u ∈ (l.drop (-d).toNat).take 16, ∃ v ∈ (l.drop (-d).toNat).take 16, u ≠ v := by
  have hlen : Config.matchRun = 16 := rfl
  unfold variedRun
  rw [hlen]
  cases (l.drop (-d).toNat).take 16 with
  | nil => simp
  | cons x rest =>
    simp only [List.any_eq_true, bne_iff_ne]
    constructor
    · rintro ⟨v, hv, hne⟩
      exact ⟨v, List.mem_cons_of_mem _ hv, x, List.mem_cons_self, hne⟩
    · rintro ⟨u, hu, v, hv, hne⟩
      by_cases hux : u = x
      · refine ⟨v, ?_, fun e => hne (hux.trans e.symm)⟩
        rcases List.mem_cons.mp hv with e | hv
        · exact absurd (hux.trans e.symm) hne
        · exact hv
      · exact ⟨u, (List.mem_cons.mp hu).resolve_left hux, hux⟩

/-- The offset fulfils both conditions of a match. -/
def Hits (m : Matcher) (c : Int) : Prop :=
  -15 ≤ c ∧ c ≤ 15 ∧ m.lowest ≤ c ∧ m.runs[(c + 15).toNat]? = some 16 ∧
    ∃ u ∈ (m.toHistory.drop (-c).toNat).take 16, ∃ v ∈ (m.toHistory.drop (-c).toNat).take 16, u ≠ v

theorem mem_offsets_zip {runs : List Nat} (c : Int) (r : Nat) :
    (c, r) ∈ offsets.zip runs ↔ -15 ≤ c ∧ c ≤ 15 ∧ runs[(c + 15).toNat]? = some r := by
  rw [List.mem_iff_getElem?]
  simp only [List.getElem?_zip_eq_some]
  constructor
  · rintro ⟨k, hc, hr⟩
    have hk : k < 31 := by
      obtain ⟨hlt, -⟩ := List.getElem?_eq_some_iff.mp hc
      simpa [offsets] using hlt
    rw [offsets_getElem? hk] at hc
    obtain rfl := Option.some.inj hc
    have hback : ((k : Int) - 15 + 15).toNat = k := by omega
    exact ⟨by omega, by omega, by rw [hback]; exact hr⟩
  · rintro ⟨hlo, hhi, hr⟩
    refine ⟨(c + 15).toNat, ?_, hr⟩
    rw [offsets_getElem? (by omega)]
    exact congrArg some (by omega)

/-- The list of the offsets that fulfil both conditions. -/
def hitList (m : Matcher) : List (Int × Nat) :=
  (offsets.zip m.runs).filter fun x => m.lowest ≤ x.1 && x.2 == Config.matchRun && variedRun m.toHistory x.1

theorem matchFound_eq (m : Matcher) : matchFound m = match hitList m with
    | [x] => some x.1
    | _ => none := rfl

theorem mem_hitList (m : Matcher) (x : Int × Nat) : x ∈ hitList m ↔ x.2 = 16 ∧ Hits m x.1 := by
  obtain ⟨c, r⟩ := x
  have hrun : Config.matchRun = 16 := rfl
  simp only [hitList, List.mem_filter, mem_offsets_zip, Bool.and_eq_true, decide_eq_true_eq, beq_iff_eq, variedRun_iff,
    hrun, Hits]
  constructor
  · rintro ⟨⟨hlo, hhi, hr⟩, ⟨hl, rfl⟩, hv⟩
    exact ⟨rfl, hlo, hhi, hl, hr, hv⟩
  · rintro ⟨rfl, hlo, hhi, hl, hr, hv⟩
    exact ⟨⟨hlo, hhi, hr⟩, ⟨hl, rfl⟩, hv⟩

theorem hitList_nodup (m : Matcher) : (hitList m).Nodup := by
  have hoff : offsets.Nodup := by decide
  refine List.Pairwise.filter _ (List.Pairwise.of_map (S := (· ≠ ·)) Prod.fst
    (fun a b hne heq => hne (congrArg Prod.fst heq)) ?_)
  have hmap : (offsets.zip m.runs).map Prod.fst = offsets.take m.runs.length := by
    refine List.ext_getElem? fun k => ?_
    simp only [List.getElem?_map, List.getElem?_take, List.zip, List.getElem?_zipWith]
    by_cases hk : k < m.runs.length
    · cases offsets[k]? <;> simp [hk]
    · cases offsets[k]? <;> simp [hk]
  rw [hmap]
  exact List.Pairwise.sublist (List.take_sublist _ _) hoff

/-- A match is the one offset that fulfils both conditions. -/
theorem matchFound_iff (m : Matcher) (d : Int) :
    matchFound m = some d ↔ Hits m d ∧ ∀ c, Hits m c → c = d := by
  have hmem := mem_hitList m
  have hnd := hitList_nodup m
  rw [matchFound_eq]
  constructor
  · intro h
    split at h
    · next x hx =>
      obtain rfl := Option.some.inj h
      refine ⟨((hmem x).mp (by rw [hx]; exact List.mem_singleton_self x)).2, fun c hc => ?_⟩
      have hin := (hmem (c, 16)).mpr ⟨rfl, hc⟩
      rw [hx, List.mem_singleton] at hin
      exact congrArg Prod.fst hin
    · cases h
  · rintro ⟨hd, huniq⟩
    have hall : ∀ x ∈ hitList m, x = (d, 16) := fun x hx => by
      obtain ⟨h16, hc⟩ := (hmem x).mp hx
      exact Prod.ext (huniq _ hc) h16
    have hlist : hitList m = [(d, 16)] := by
      have hin := (hmem (d, 16)).mpr ⟨rfl, hd⟩
      cases hl : hitList m with
      | nil => rw [hl] at hin; cases hin
      | cons x rest =>
        rw [hl] at hnd hall
        have hrest : rest = [] := List.eq_nil_iff_forall_not_mem.mpr fun y hy =>
          (List.nodup_cons.mp hnd).1 ((hall x List.mem_cons_self).trans (hall y (List.mem_cons_of_mem _ hy)).symm ▸ hy)
        rw [hrest, hall x List.mem_cons_self]
    rw [hlist]

/-- Settles O22. -/
theorem matcherCompares : Obligations.MatcherCompares := by
  unfold Obligations.MatcherCompares
  refine ⟨fun m x y hm => ⟨rfl, compareFrame_runs_length m x y hm, rfl, rfl, fun k old hk ho => ⟨fun u v hu hv => ?_,
    fun hnone => ?_⟩⟩, fun m d _ => matchFound_iff m d, fun s i e m he hm => ?_, fun a b s h hp hn hg =>
    ⟨_, exec_frameTick_running a b h hp, fun i => ?_⟩⟩
  · rw [compareFrame_run m x y hk ho, runAfter_pair hu hv]
  · rw [compareFrame_run m x y hk ho, runAfter_none hnone]
  · refine ⟨fun hphase => ?_, fun d hphase hdue hfound => ?_, fun hphase hnot => ?_⟩
    · rw [State.matchEntry_eq, he, Option.map_some, State.matchedEntry_idle s fun _ hp => absurd hp hphase,
        State.setBridge_self s he]
    · have hf : matchFound (s.comparedMatcher e m) = some d := hfound
      rw [State.matchEntry_eq, he, Option.map_some, State.matchedEntry_matching s hphase hm,
        State.matchNoted_found s hdue hf]
      rfl
    · have hf : e.matchDue ≠ none ∨ matchFound (s.comparedMatcher e m) = none := hnot
      rw [State.matchEntry_eq, he, Option.map_some, State.matchedEntry_matching s hphase hm,
        State.matchNoted_none s hf]
      rfl
  · rw [State.bridge_of_settledPart (State.NonePending.frame_settledPart a b hn hg) i, State.ended_bridge]
    exact State.NonePending.matched_matchEntry a b hn i

end Sys2Proof.Machine
end


section
/-! PROOFS. MAP and RECOVER (R12 to R16, R18), and the stranding of a span's circuits (R13). -/

namespace Sys2Proof.Machine

open Sys2Proof

namespace State

variable (s : State) (c : CircuitNo) (p : LinePos)

/-! ### What the orders write -/

/-- A change touches the circuits, their alignment stores and the line positions, and of the circuits circuit c alone. -/
def ChangesOnly (s : State) (c : CircuitNo) (t : State) : Prop :=
  { t with circuits := s.circuits, align := s.align, lineOcc := s.lineOcc } = s ∧
    ∀ d, d ≠ c → t.circuit d = s.circuit d ∧ t.alignOf d = s.alignOf d

/-- Nothing is held for circuit c any more, and no repeat is owed (R11, R15, R16). -/
def Discards (s : State) (c : CircuitNo) (t : State) : Prop :=
  t.alignOf c = { s.alignOf c with lineHistory := [], spanHistory := [], repeatsDue := 0 }

theorem freeLine_alignOf (q : Option LinePos) (d : CircuitNo) : (s.freeLine q).alignOf d = s.alignOf d := by
  cases q <;> rfl

theorem discardHeld_alignOf (d : CircuitNo) : (s.discardHeld c).alignOf d =
    if c = d then { s.alignOf c with lineHistory := [], spanHistory := [], repeatsDue := 0 } else s.alignOf d := by
  unfold discardHeld modAlign
  rw [alignOf_setAlign]

theorem placeOnLine_alignOf (d : CircuitNo) : (s.placeOnLine c p).alignOf d =
    if c = d then { s.alignOf c with lineHistory := [], spanHistory := [], repeatsDue := 0 } else s.alignOf d := by
  unfold placeOnLine
  rw [discardHeld_alignOf]
  rfl

theorem placeOnLine_discards : s.Discards c (s.placeOnLine c p) := by
  unfold Discards
  rw [placeOnLine_alignOf, if_pos rfl]

theorem placeOnLine_changesOnly : s.ChangesOnly c (s.placeOnLine c p) := by
  refine ⟨rfl, fun d hd => ⟨?_, ?_⟩⟩
  · rw [placeOnLine_circuit, if_neg (Ne.symm hd)]
  · rw [placeOnLine_alignOf, if_neg (Ne.symm hd)]

theorem freeLine_changesOnly (q : Option LinePos) : s.ChangesOnly c (s.freeLine q) := by
  refine ⟨by cases q <;> rfl, fun d _ => ⟨?_, freeLine_alignOf s q d⟩⟩
  cases q <;> rfl

variable {s c p} in
theorem ChangesOnly.trans {t u : State} (h : s.ChangesOnly c t) (h' : t.ChangesOnly c u) : s.ChangesOnly c u := by
  obtain ⟨hrest, hcirc⟩ := h
  obtain ⟨hrest', hcirc'⟩ := h'
  refine ⟨?_, fun d hd => ⟨(hcirc' d hd).1.trans (hcirc d hd).1, (hcirc' d hd).2.trans (hcirc d hd).2⟩⟩
  rw [← hrest'] at hrest
  exact hrest

/-! ### SET_LINE, UNEQUIP and EQUIP -/

variable {s c p}

theorem targetOpen_iff : s.targetOpen c p = true ↔ s.lineUse p = .free ∨ s.lineUse p = .vacated c := by
  simp [targetOpen]

theorem mapSetLine_badState (h : (s.circuit c).pathState ≠ .copper) : s.mapSetLine c p = (s, .badState, 0) := by
  simp [mapSetLine, h]

theorem mapSetLine_present (h : (s.circuit c).pathState = .copper) (hp : (s.circuit c).linePos = some p) :
    s.mapSetLine c p = (s, .done, 0) := by
  simp [mapSetLine, h, hp]

theorem mapSetLine_taken (h : (s.circuit c).pathState = .copper) (hp : (s.circuit c).linePos ≠ some p)
    (hf : s.lineUse p ≠ .free) (hv : s.lineUse p ≠ .vacated c) : s.mapSetLine c p = (s, .slotTaken, 0) := by
  simp [mapSetLine, h, hp, targetOpen, hf, hv]

theorem mapUnequip_badState (h : (s.circuit c).pathState ≠ .copper) : s.mapUnequip c = (s, .badState, 0) := by
  simp [mapUnequip, h]

/-- The state that UNEQUIP leaves of a COPPER circuit (R16). -/
def unequipped (s : State) (c : CircuitNo) : State :=
  (((s.freeLine (s.circuit c).linePos).freeLine (s.circuit c).vacated).setCircuit c (Circuit.silent
    { s.circuit c with pathState := .unequipped, linePos := none, vacated := none,
                       generation := (s.circuit c).generation + 1 })).discardHeld c

theorem mapUnequip_done (h : (s.circuit c).pathState = .copper) :
    s.mapUnequip c = (s.unequipped c, .done, (s.circuit c).hold) := by
  simp [mapUnequip, unequipped, h]

theorem unequipped_circuit (s : State) (c d : CircuitNo) : (s.unequipped c).circuit d =
    if c = d then Circuit.silent { s.circuit c with
      pathState := .unequipped, linePos := none, vacated := none, generation := (s.circuit c).generation + 1 }
    else s.circuit d := by
  unfold unequipped discardHeld
  rw [modAlign, circuit_setAlign, circuit_setCircuit, freeLine_circuit, freeLine_circuit]

theorem unequipped_lineUse (s : State) (c : CircuitNo) (q : LinePos) : (s.unequipped c).lineUse q =
    if (s.circuit c).linePos = some q ∨ (s.circuit c).vacated = some q then .free else s.lineUse q := by
  unfold unequipped discardHeld
  rw [modAlign, lineUse_setAlign, lineUse_setCircuit, freeLine_lineUse, freeLine_lineUse]
  by_cases h : (s.circuit c).linePos = some q <;> by_cases h' : (s.circuit c).vacated = some q <;> simp [h, h']

theorem unequipped_alignOf (s : State) (c d : CircuitNo) : (s.unequipped c).alignOf d =
    if c = d then { s.alignOf c with lineHistory := [], spanHistory := [], repeatsDue := 0 } else s.alignOf d := by
  unfold unequipped
  rw [discardHeld_alignOf]
  simp only [alignOf_setCircuit, freeLine_alignOf]

theorem unequipped_changesOnly (s : State) (c : CircuitNo) : s.ChangesOnly c (s.unequipped c) := by
  refine ⟨?_, fun d hd => ⟨?_, ?_⟩⟩
  · unfold unequipped
    cases (s.circuit c).linePos <;> cases (s.circuit c).vacated <;> rfl
  · rw [unequipped_circuit, if_neg (Ne.symm hd)]
  · rw [unequipped_alignOf, if_neg (Ne.symm hd)]

theorem mapEquip_badState (h : (s.circuit c).pathState ≠ .unequipped) : s.mapEquip c p = (s, .badState, 0) := by
  simp [mapEquip, h]

theorem mapEquip_taken (h : (s.circuit c).pathState = .unequipped) (hf : s.lineUse p ≠ .free) :
    s.mapEquip c p = (s, .slotTaken, 0) := by
  simp [mapEquip, h, hf]

theorem generationMatches_iff {g : Option Half} :
    s.generationMatches c g = true ↔ g = none ∨ g = some (s.circuit c).generation := by
  cases g <;> simp [generationMatches]

/-- The circuit that stands on a line position it has been placed on (R15, R16, R18). -/
theorem placeOnLine_circuit_same (s : State) (c : CircuitNo) (p : LinePos) : (s.placeOnLine c p).circuit c =
    { s.circuit c with
      pathState := .copper, linePos := some p, receive := .line, lineFeed := true, spanFeed := false, hold := 0,
      generation := (s.circuit c).generation + 1,
      vacated := if (s.circuit c).vacated = some p then none else (s.circuit c).vacated } := by
  rw [placeOnLine_circuit, if_pos rfl]
  rfl

/-! ### The settling of a MAP or RECOVER -/

theorem settleMap_eq (ref : OrderRef) (c : CircuitNo) (t : State) (code : ResultCode) (dropped : Nat) :
    settleMap ref c (t, code, dropped) =
      t.settleOrder ref code (mapValues t.cfg.byteOrder (t.circuit c) dropped) := rfl

end State

/-- Settles O23. -/
theorem mapOrders : Obligations.MapOrders := by
  unfold Obligations.MapOrders
  refine ⟨fun s ref x c p target g => ⟨rfl, rfl, fun t code dropped => ⟨rfl, ?_, ?_⟩, fun n hn hne => ?_, fun hg => ?_⟩,
    fun s c p => ⟨State.mapSetLine_badState, State.mapSetLine_present, State.mapSetLine_taken,
      fun old hst hold hne ho => ?_, State.mapUnequip_badState, fun hst => ?_, State.mapEquip_badState,
      State.mapEquip_taken, fun hst hf => ?_⟩⟩
  · rw [State.settleMap_eq, State.settleOrder_settles]
    rfl
  · rw [State.settleMap_eq, State.settleOrder_circuits]
  · have hm : ¬ s.generationMatches c g = true := by
      rw [State.generationMatches_iff, hn]
      simpa using hne
    simp [State.mapOrder, State.recoverOrder, hm]
  · have hm : s.generationMatches c g = true := State.generationMatches_iff.mpr hg
    simp [State.mapOrder, State.recoverOrder, hm]
  · have hlp : (s.circuit c).linePos ≠ some p := fun e => hne (Option.some.inj (hold.symm.trans e))
    refine ⟨_, State.mapSetLine_of_open hst hlp (State.targetOpen_iff.mpr ho), ?_, ?_, fun q hq hqo => ?_, ?_, ?_, ?_⟩
    · rw [State.placeOnLine_lineUse, if_neg (Ne.symm hne), State.freeLine_lineUse, if_pos hold]
    · rw [State.placeOnLine_lineUse, if_pos rfl]
    · rw [State.placeOnLine_lineUse, if_neg (Ne.symm hq), State.freeLine_lineUse, if_neg]
      exact fun e => hqo (Option.some.inj (e.symm.trans hold))
    · rw [State.placeOnLine_circuit_same, State.freeLine_circuit, hst]
    · exact (State.placeOnLine_discards _ c p).trans (by rw [State.freeLine_alignOf])
    · exact (s.freeLine_changesOnly c _).trans (State.placeOnLine_changesOnly _ c p)
  · refine ⟨_, State.mapUnequip_done hst, ?_, State.unequipped_lineUse s c, ?_, State.unequipped_changesOnly s c⟩
    · rw [State.unequipped_circuit, if_pos rfl]
      rfl
    · exact (State.unequipped_alignOf s c c).trans (if_pos rfl)
  · refine ⟨_, State.mapEquip_of_free hst hf, fun q => ?_, State.placeOnLine_circuit_same s c p,
      s.placeOnLine_discards c p, s.placeOnLine_changesOnly c p⟩
    rw [State.placeOnLine_lineUse]
    simp only [eq_comm]

end Sys2Proof.Machine
end

section
/-! PROOFS. The stranding of a span's circuits (R13) and RECOVER (R18). -/

namespace Sys2Proof.Machine

open Sys2Proof

namespace State

variable (s : State) (c : CircuitNo) (p : LinePos)

/-- A circuit and its alignment store after the FIBRE circuits of a span have been stranded (R13). -/
theorem strandAll_reads (sp : Span) : ((s.strandAll sp).circuit c, (s.strandAll sp).alignOf c) =
    if (s.circuit c).pathState = .fibre ∧ (s.circuit c).bearer.map BearerSlot.span = some sp then
      (Circuit.silent { s.circuit c with pathState := .stranded, generation := (s.circuit c).generation + 1 },
       { s.alignOf c with lineHistory := [], spanHistory := [], repeatsDue := 0 })
    else (s.circuit c, s.alignOf c) := by
  have h := each_at (view := fun d (t : State) => (t.circuit d, t.alignOf d)) (fun d (t : State) => t.strand sp d)
    (fun d e t hde => by rw [strand_reads, if_neg fun h => hde h.1])
    (fun d t u htu => by
      obtain ⟨hcirc, halign⟩ := Prod.mk.inj htu
      rw [strand_reads, strand_reads, hcirc, halign])
    (List.nodup_finRange 256) (List.mem_finRange c) s
  refine h.trans ?_
  rw [strand_reads]
  simp only [true_and]

theorem strand_lineOcc (sp : Span) : (s.strand sp c).lineOcc = s.lineOcc := by
  unfold strand
  dsimp only
  split
  · rw [handNotice_lineOcc]
    rfl
  · rfl

theorem strand_spanOcc (sp : Span) : (s.strand sp c).spanOcc = s.spanOcc := by
  unfold strand
  dsimp only
  split
  · rw [handNotice_spanOcc]
    rfl
  · rfl

theorem strandAll_lineOcc (sp : Span) : (s.strandAll sp).lineOcc = s.lineOcc :=
  each_keeps lineOcc _ _ (fun c t => strand_lineOcc t c sp) s

theorem strandAll_spanOcc (sp : Span) : (s.strandAll sp).spanOcc = s.spanOcc :=
  each_keeps spanOcc _ _ (fun c t => strand_spanOcc t c sp) s

/-! ### RECOVER -/

variable {s c p}

theorem recover_badState {target : Option LinePos} (h : (s.circuit c).pathState ≠ .stranded) :
    s.recover c target = (s, .badState, 0) := by
  simp [recover, h]

/-- RECOVER goes to the target it names, or to the circuit's vacated position (R18). -/
theorem recover_onto {target : Option LinePos} (ht : target = some p ∨ target = none ∧ (s.circuit c).vacated = some p) :
    s.recover c target = s.recover c (some p) := by
  rcases ht with rfl | ⟨rfl, hv⟩
  · rfl
  · simp [recover, hv]

theorem recover_taken (h : (s.circuit c).pathState = .stranded) (hf : s.lineUse p ≠ .free)
    (hv : s.lineUse p ≠ .vacated c) : s.recover c (some p) = (s, .slotTaken, 0) := by
  simp [recover, h, targetOpen, hf, hv]

/-- The state in which a STRANDED circuit on a bearer slot is placed on its line position (R18). -/
def unslotted (s : State) (c : CircuitNo) (b : BearerSlot) : State :=
  (s.freeSlot b c).modCircuit c fun k => { k with bearer := none }

theorem recover_done {b : BearerSlot} (h : (s.circuit c).pathState = .stranded) (hb : (s.circuit c).bearer = some b)
    (ho : s.targetOpen c p = true) : s.recover c (some p) = ((s.unslotted c b).placeOnLine c p, .done, 0) := by
  simp [recover, h, hb, ho, unslotted]

theorem unslotted_circuit (s : State) (c : CircuitNo) (b : BearerSlot) (d : CircuitNo) :
    (s.unslotted c b).circuit d = if c = d then { s.circuit c with bearer := none } else s.circuit d := by
  unfold unslotted freeSlot
  rw [modCircuit_eq, circuit_setCircuit, circuit_setSlotEntry]
  rfl

theorem unslotted_slotEntry (s : State) (c : CircuitNo) (b x : BearerSlot) :
    (s.unslotted c b).slotEntry x = if b = x then ⟨.free, some c⟩ else s.slotEntry x := by
  unfold unslotted freeSlot
  rw [modCircuit_eq, slotEntry_setCircuit, slotEntry_setSlotEntry]

theorem unslotted_lineUse (s : State) (c : CircuitNo) (b : BearerSlot) (q : LinePos) :
    (s.unslotted c b).lineUse q = s.lineUse q := rfl

theorem unslotted_alignOf (s : State) (c : CircuitNo) (b : BearerSlot) (d : CircuitNo) :
    (s.unslotted c b).alignOf d = s.alignOf d := rfl

theorem unslotted_changes (s : State) (c : CircuitNo) (b : BearerSlot) :
    { s.unslotted c b with circuits := s.circuits, spanOcc := s.spanOcc } = s := rfl

theorem unslotted_rest (s : State) (c : CircuitNo) (b : BearerSlot) (p : LinePos) :
    { (s.unslotted c b).placeOnLine c p with
      circuits := s.circuits, align := s.align, lineOcc := s.lineOcc, spanOcc := s.spanOcc } = s := by
  obtain ⟨hplace, -⟩ := placeOnLine_changesOnly (s.unslotted c b) c p
  have hslot := unslotted_changes s c b
  have halign : (s.unslotted c b).align = s.align := rfl
  have hline : (s.unslotted c b).lineOcc = s.lineOcc := rfl
  generalize s.unslotted c b = u at *
  generalize u.placeOnLine c p = t at *
  rw [halign, hline] at hplace
  rw [← hplace] at hslot
  exact hslot

end State

/-- Settles O25. -/
theorem strandAndRecover : Obligations.StrandAndRecover := by
  unfold Obligations.StrandAndRecover
  refine ⟨fun s sp c => ⟨fun b hf hb hsp => ?_, fun hnot => ?_, State.still_strandAll s sp, s.strandAll_lineOcc sp,
    s.strandAll_spanOcc sp⟩, fun s c target => ⟨State.recover_badState, fun ht hv => ?_, fun p hst ht => ⟨fun hf hv => ?_,
    fun b hb ho => ?_⟩⟩⟩
  · have h := s.strandAll_reads c sp
    rw [if_pos ⟨hf, by rw [hb, ← hsp]; rfl⟩] at h
    obtain ⟨hcirc, halign⟩ := Prod.mk.inj h
    exact ⟨hcirc, halign⟩
  · have h := s.strandAll_reads c sp
    rw [if_neg] at h
    · exact Prod.mk.inj h
    · rintro ⟨hf, hmap⟩
      obtain ⟨b, hb, hsp⟩ := Option.map_eq_some_iff.mp hmap
      exact hnot.elim (fun h => h hf) (fun h => h b hb hsp)
  · rw [ht, State.recover_without_position hv]
  · rw [State.recover_onto ht, State.recover_taken hst hf hv]
  · refine ⟨_, (State.recover_onto ht).trans (State.recover_done hst hb (State.targetOpen_iff.mpr ho)), ?_, ?_, ?_, ?_,
      fun d hd => ⟨?_, ?_⟩, fun q hq => ?_, fun x hx => ?_, s.unslotted_rest c b p⟩
    · rw [State.placeOnLine_lineUse, if_pos rfl]
    · rw [State.placeOnLine_slotEntry, State.unslotted_slotEntry, if_pos rfl]
    · rw [State.placeOnLine_circuit_same, State.unslotted_circuit, if_pos rfl]
    · exact (State.placeOnLine_discards _ c p).trans (by rw [State.unslotted_alignOf])
    · rw [State.placeOnLine_circuit, if_neg (Ne.symm hd), State.unslotted_circuit, if_neg (Ne.symm hd)]
    · rw [State.placeOnLine_alignOf, if_neg (Ne.symm hd), State.unslotted_alignOf]
    · rw [State.placeOnLine_lineUse, if_neg (Ne.symm hq), State.unslotted_lineUse]
    · rw [State.placeOnLine_slotEntry, State.unslotted_slotEntry, if_neg (Ne.symm hx)]

end Sys2Proof.Machine
end

section
/-! PROOFS. Roll messages and span frames (R82, R116 to R120, 13.4). -/

namespace Sys2Proof.Machine

open Sys2Proof

/-! ### Roll messages -/

theorem messageKind_ofOctet_code (k : MessageKind) : MessageKind.ofOctet k.code = some k := by cases k <;> rfl

theorem octet_toFin (n : Fin 256) : (octet n.val).toFin = n := by
  refine Fin.ext ?_
  simp only [octet, BitVec.toFin_ofNat, Fin.val_ofNat]
  omega

/-- The operand octet of a DECLINE and of an ABANDON shows the reason. -/
theorem reasonOperand_reads (r : Reason) :
    Reason.ofCode ((Reason.code r).toNat <<< 4 % 256 / 16) = some r := by
  cases r <;> rfl

theorem ofControl_offer (slot : Fin 256) (txn rank : Byte) (d : Direction) (q : Bool) :
    RollMessage.ofControl (RollMessage.control ⟨.offer, slot, txn, rank, d, q, none⟩) =
      some ⟨.offer, slot, txn, rank, d, q, none⟩ := by
  simp [RollMessage.ofControl, RollMessage.control, messageKind_ofOctet_code, MessageKind.hasReason, octet_toFin]
  cases d <;> cases q <;> decide

theorem ofControl_reason (k : MessageKind) (hk : k.hasReason = true) (hne : k ≠ .offer) (slot : Fin 256)
    (txn rank : Byte) (r : Reason) :
    RollMessage.ofControl (RollMessage.control ⟨k, slot, txn, rank, .toFibre, false, some r⟩) =
      some ⟨k, slot, txn, rank, .toFibre, false, some r⟩ := by
  simp [RollMessage.ofControl, RollMessage.control, messageKind_ofOctet_code, octet_toFin, hk, hne, optOctet,
    reasonOperand_reads]

theorem ofControl_plain (k : MessageKind) (hk : k.hasReason = false) (hne : k ≠ .offer) (slot : Fin 256)
    (txn rank : Byte) :
    RollMessage.ofControl (RollMessage.control ⟨k, slot, txn, rank, .toFibre, false, none⟩) =
      some ⟨k, slot, txn, rank, .toFibre, false, none⟩ := by
  simp [RollMessage.ofControl, RollMessage.control, messageKind_ofOctet_code, octet_toFin, hk, hne]

theorem hasReason_iff (k : MessageKind) : k.hasReason = true ↔ k = .decline ∨ k = .abandon := by
  cases k <;> decide

theorem ofControl_control (m : RollMessage) (hr : m.reason.isSome = true ↔ m.kind = .decline ∨ m.kind = .abandon)
    (ho : m.kind ≠ .offer → m.direction = .toFibre ∧ m.quick = false) : RollMessage.ofControl m.control = some m := by
  obtain ⟨kind, slot, txn, rank, direction, quick, reason⟩ := m
  rw [← hasReason_iff] at hr
  by_cases hk : kind = .offer
  · subst hk
    cases reason with
    | none => exact ofControl_offer slot txn rank direction quick
    | some r => exact absurd (hr.mp rfl) (by simp [MessageKind.hasReason])
  · obtain ⟨rfl, rfl⟩ := ho hk
    cases reason with
    | none => exact ofControl_plain kind (by simpa using hr) hk slot txn rank
    | some r => exact ofControl_reason kind (hr.mp rfl) hk slot txn rank r

/-! ### Span frames -/

theorem flip_flip (m : Marker) : m.flip.flip = m := by cases m <;> rfl

theorem flip_ne (m : Marker) : m ≠ m.flip := by cases m <;> decide

theorem invertIf_invertIf {n : Nat} (on : Bool) (v : Vector Byte n) : invertIf on (invertIf on v) = v := by
  cases on with
  | false => rfl
  | true =>
    refine Vector.ext fun i hi => ?_
    simp [invertIf]

/-- A CARRY is sent inverted when the balance and its disparity have the same sign (R118). -/
def carryInverts (balance d : Int) : Bool := (0 < balance && 0 < d) || (balance < 0 && d < 0)

theorem carryFrame_marks (m : Marker) (on : Bool) :
    (bitAt 0 (m == .odd) ||| bitAt 1 on).getLsbD 0 = (m == .odd) ∧
      (bitAt 0 (m == .odd) ||| bitAt 1 on).getLsbD 1 = on := by
  cases m <;> cases on <;> decide

theorem frameInverted_carryFrame (balance : Int) (m : Marker) (bearer : Vector Byte 256) (control : Vector Byte 5) :
    frameInverted (carryFrame balance m bearer control).1 = carryInverts balance (disparity bearer control) :=
  (carryFrame_marks m _).2

theorem frameMarker_carryFrame (balance : Int) (m : Marker) (bearer : Vector Byte 256) (control : Vector Byte 5) :
    frameMarker (carryFrame balance m bearer control).1 = m := by
  have h : (carryFrame balance m bearer control).1.marks.getLsbD 0 = (m == .odd) := (carryFrame_marks m _).1
  unfold frameMarker
  rw [h]
  cases m <;> rfl

theorem carryFrame_balance (balance : Int) (m : Marker) (bearer : Vector Byte 256) (control : Vector Byte 5) :
    (carryFrame balance m bearer control).2 = if carryInverts balance (disparity bearer control) then
      balance - disparity bearer control else balance + disparity bearer control := rfl

/-- A CARRY is judged good by a receiver that expects its marker, and restored to its fields (R118 to R120). -/
theorem judgeFrame_carryFrame (balance : Int) (m : Marker) (bearer : Vector Byte 256) (control : Vector Byte 5) :
    judgeFrame m.flip (carryFrame balance m bearer control).1 = (.carry bearer control, m) := by
  have hform : ∃ f : SpanFrame, (carryFrame balance m bearer control).1 = closeFrame f ∧ f.kind = 3 ∧
      frameMarker f = m ∧ frameInverted f = carryInverts balance (disparity bearer control) ∧
      f.bearer = invertIf (carryInverts balance (disparity bearer control)) bearer ∧
      f.control = invertIf (carryInverts balance (disparity bearer control)) control :=
    ⟨_, rfl, rfl, frameMarker_carryFrame balance m bearer control,
      frameInverted_carryFrame balance m bearer control, rfl, rfl⟩
  obtain ⟨f, hf, hkind, hmark, hinv, hbearer, hcontrol⟩ := hform
  have hne : (m == m.flip) = false := by simpa using flip_ne m
  rw [hf, judgeFrame_carry _ _ hkind, hmark, hinv, hbearer, hcontrol, invertIf_invertIf, invertIf_invertIf, hne]
  rfl

theorem ones_le (b : Byte) : ones b ≤ 8 := by
  unfold ones
  exact Nat.le_trans (List.length_filter_le _ _) (by simp)

theorem sum_ones_le (l : List Byte) : (l.map ones).sum ≤ 8 * l.length := by
  induction l with
  | nil => simp
  | cons b l ih =>
    have hb := ones_le b
    simp only [List.map_cons, List.sum_cons, List.length_cons]
    omega

theorem disparity_bounds (bearer : Vector Byte 256) (control : Vector Byte 5) :
    -2088 ≤ disparity bearer control ∧ disparity bearer control ≤ 2088 := by
  have h := sum_ones_le (bearer.toList ++ control.toList)
  have hlen : (bearer.toList ++ control.toList).length = 261 := by simp
  rw [hlen] at h
  unfold disparity
  omega

theorem carryInverts_iff (balance d : Int) :
    carryInverts balance d = true ↔ (0 < balance ∧ 0 < d) ∨ (balance < 0 ∧ d < 0) := by
  simp [carryInverts]

/-- Settles O26. -/
theorem messagesAndFrames : Obligations.MessagesAndFrames := by
  unfold Obligations.MessagesAndFrames
  refine ⟨ofControl_control, ⟨judgeFrame_carryFrame, fun cfg m =>
    ⟨judgeFrame_train m _ rfl, judgeFrame_reply m _ rfl⟩⟩, fun balance m bearer control => ?_⟩
  obtain ⟨hlo, hhi⟩ := disparity_bounds bearer control
  have hinv := carryInverts_iff balance (disparity bearer control)
  dsimp only
  rw [frameInverted_carryFrame, carryFrame_balance]
  refine ⟨hinv, rfl, hlo, hhi, fun hblo hbhi => ?_⟩
  split
  · next h =>
    have := hinv.mp h
    omega
  · next h =>
    have hnot : ¬((0 < balance ∧ 0 < disparity bearer control) ∨ (balance < 0 ∧ disparity bearer control < 0)) :=
      fun e => h (hinv.mpr e)
    omega

end Sys2Proof.Machine
end

section
/-! PROOFS. What a span sends in a frame (R116, R118, R119, R122, R129). -/

namespace Sys2Proof.Machine

open Sys2Proof

namespace State

variable (s : State)

/-- Giving room to the waiting entries changes of a span its transmit queue alone. -/
theorem servePending_span (sp sp' : Span) : ∃ q, (s.servePending sp).span sp' = { s.span sp' with txQueue := q } := by
  have hspan := keeps_of_still (view := fun t : State => { t.span sp' with txQueue := [] })
    (fun t => by cases sp' <;> rfl) (still_servePending s sp)
  dsimp only at hspan
  refine ⟨((s.servePending sp).span sp').txQueue, ?_⟩
  generalize (s.servePending sp).span sp' = x at hspan
  have h := congrArg (fun y : SpanState => { y with txQueue := x.txQueue }) hspan
  exact h

theorem sendSpan_span (sp : Span) (loop : LoopReturn) (h : (s.span sp).line ≠ .inService) :
    (s.sendSpan sp loop).span sp = (s.span sp).sent s.cfg (s.bearerField sp) loop := by
  rw [sendSpan_eq]
  dsimp only
  rw [if_neg h, span_setSpan_same]

theorem sendSpan_inService (sp : Span) (loop : LoopReturn) (h : (s.span sp).line = .inService) :
    ∃ q, (s.sendSpan sp loop).span sp = { (s.span sp).carried (s.bearerField sp) with txQueue := q } := by
  rw [sendSpan_eq]
  dsimp only
  rw [if_pos h]
  obtain ⟨q, hq⟩ := servePending_span (s.setSpan sp ((s.span sp).sent s.cfg (s.bearerField sp) loop)) sp sp
  refine ⟨q, ?_⟩
  rw [hq, span_setSpan_same, SpanState.sent, h]
  rfl

theorem sent_inService (k : SpanState) (cfg : SiteConfig) (bearer : BearerFrame) (loop : LoopReturn)
    (h : k.line = .inService) : k.sent cfg bearer loop = k.carried bearer := by
  rw [SpanState.sent, h]
  rfl

/-- The CARRY of a span in service is good to a receiver that holds the marker sent before (R119). -/
theorem carried_judged (k : SpanState) (bearer : BearerFrame) :
    ∃ f, (k.carried bearer).sending = some f ∧ judgeFrame k.lastSent f =
      (.carry bearer ((k.txQueue.head?.map fun x => x.message.control).getD emptyControl), Marker.flip k.lastSent) := by
  refine ⟨_, rfl, ?_⟩
  have h := judgeFrame_carryFrame k.balance k.lastSent.flip bearer
    ((k.txQueue.head?.map fun x => x.message.control).getD emptyControl)
  rw [flip_flip] at h
  exact h

end State

/-! ### The test frames (R129) -/

theorem proveBearer_eq (n : Nat) : (tab 256 fun x => BitVec.ofNat 8 ((n + x.val) % 256)) = proveBearer n := by
  refine Vector.ext fun i hi => ?_
  rw [proveBearer, tab_getElem, tab_getElem]
  refine BitVec.eq_of_toNat_eq ?_
  simp only [BitVec.toNat_ofNat]
  omega

theorem proveErrored_carry {m : Marker} {sent x : Vector Byte 256} {y : Vector Byte 5} {f : SpanFrame}
    (h : (judgeFrame m f).1 = .carry x y) : proveErrored m sent f = (x != sent, (judgeFrame m f).2) := by
  unfold proveErrored
  split
  · next x' y' n hj =>
    rw [hj] at h ⊢
    injection h with hx _
    rw [hx]
  · next v n hne hj =>
    rw [hj] at h
    exact (hne x y h).elim

theorem proveErrored_other {m : Marker} {sent : Vector Byte 256} {f : SpanFrame}
    (h : ∀ x y, (judgeFrame m f).1 ≠ .carry x y) : proveErrored m sent f = (true, (judgeFrame m f).2) := by
  unfold proveErrored
  split
  · next x y n hj => exact absurd (congrArg Prod.fst hj) (h x y)
  · next n _ hj => rw [hj]

namespace SpanState

/-- A test after a prove frame found errored or not, with the reference marker it leaves. -/
def counted (k : SpanState) (p : ProveRun) (bad : Bool) (reference : Marker) : SpanState :=
  { k with
    prove := some { p with
      sent := p.sent + 1
      balance := (carryFrame p.balance (Marker.flip p.lastSent) (proveBearer p.sent) emptyControl).2
      lastSent := Marker.flip p.lastSent, reference := reference }
    proveChecked := k.proveChecked + 1
    proveErrored := if bad then k.proveErrored + 1 else k.proveErrored }

variable (k : SpanState) (p : ProveRun)

theorem provedNext_nothing : k.provedNext p .nothing = k.counted p true p.reference := rfl

theorem provedNext_returned (f : SpanFrame) : k.provedNext p (.returned f) =
    k.counted p (Machine.proveErrored p.reference (proveBearer p.sent) f).1
      (Machine.proveErrored p.reference (proveBearer p.sent) f).2 := rfl

theorem provedNext_asSent : k.provedNext p .asSent = k.provedNext p (.returned
    (carryFrame p.balance (Marker.flip p.lastSent) (proveBearer p.sent) emptyControl).1) := rfl

theorem provedNext_good (h : p.reference = p.lastSent) :
    k.provedNext p .asSent = k.counted p false (Marker.flip p.lastSent) := by
  have hj := judgeFrame_carryFrame p.balance p.lastSent.flip (proveBearer p.sent) emptyControl
  rw [flip_flip, ← h] at hj
  rw [provedNext_asSent, provedNext_returned, ← h, proveErrored_carry (congrArg Prod.fst hj), hj]
  simp

theorem proved_some (loop : LoopReturn) (hp : k.prove = some p) :
    k.proved loop = if p.sent < p.asked then k.provedNext p loop else k := by
  unfold proved
  rw [hp]
  rfl

theorem sent_proving (cfg : SiteConfig) (bearer : BearerFrame) (loop : LoopReturn) (h : k.line = .proving)
    (hp : k.prove = some p) : k.sent cfg bearer loop =
      if p.sent < p.asked then { k with sending := some (plainFrame cfg 1) }.provedNext p loop
      else { k with sending := some (plainFrame cfg 1) } := by
  exact (congrArg (fun l => k.sentIn l cfg bearer loop) h).trans
    (proved_some { k with sending := some (plainFrame cfg 1) } p loop hp)

theorem proved_sending (loop : LoopReturn) : (k.proved loop).sending = k.sending := by
  unfold proved
  cases k.prove with
  | none => rfl
  | some p =>
    dsimp only [Option.elim_some]
    split <;> rfl

end SpanState

/-- Settles O27. -/
theorem spanSends : Obligations.SpanSends := by
  unfold Obligations.SpanSends
  refine ⟨fun s sp loop => ⟨fun h => ?_, fun h => ?_, fun h => ?_, fun h => ⟨?_, ?_, fun hn => ?_⟩⟩,
    fun s sp b hb => ?_, fun s sp loop p h hp => ⟨fun hdone => ?_, fun hmore => ⟨?_, ?_, ?_⟩⟩⟩
  · rw [State.sendSpan_span s sp loop (by rw [h]; decide), SpanState.sent, h]
    rfl
  · have hne : (s.span sp).line ≠ .inService := by rcases h with h | h | h <;> rw [h] <;> decide
    rw [State.sendSpan_span s sp loop hne, SpanState.sent]
    rcases h with h | h | h <;> rw [h]
    · rfl
    · rfl
    · exact SpanState.proved_sending _ loop
  · rw [State.sendSpan_span s sp loop (by rw [h]; decide), SpanState.sent, h]
    rfl
  · obtain ⟨q, hq⟩ := s.sendSpan_inService sp loop h
    rw [hq]
    rfl
  · obtain ⟨q, hq⟩ := s.sendSpan_inService sp loop h
    obtain ⟨f, hf, hj⟩ := State.carried_judged (s.span sp) (s.bearerField sp)
    exact ⟨f, by rw [hq]; exact hf, hj⟩
  · rw [State.NonePending.sendSpan hn, State.span_setSpan_same, State.sent_inService _ _ _ _ h]
    rfl
  · subst hb
    rw [State.bearerField, tab_getElem]
    rfl
  · rw [State.sendSpan_span s sp loop (by rw [h]; decide), SpanState.sent_proving _ p _ _ _ h hp,
      if_neg (by omega)]
  · rintro rfl
    rw [State.sendSpan_span s sp _ (by rw [h]; decide), SpanState.sent_proving _ p _ _ _ h hp, if_pos hmore,
      SpanState.provedNext_nothing, proveBearer_eq]
    rfl
  · rintro rfl href
    rw [State.sendSpan_span s sp _ (by rw [h]; decide), SpanState.sent_proving _ p _ _ _ h hp, if_pos hmore,
      SpanState.provedNext_good _ _ href, proveBearer_eq]
    rfl
  · intro f hf
    have hloop : (s.sendSpan sp loop).span sp = { s.span sp with sending := some (plainFrame s.cfg 1) }.provedNext p
        (.returned f) := by
      rw [State.sendSpan_span s sp _ (by rw [h]; decide), SpanState.sent_proving _ p _ _ _ h hp, if_pos hmore]
      rcases hf with rfl | ⟨rfl, rfl⟩
      · rfl
      · rw [SpanState.provedNext_asSent, proveBearer_eq]
    rw [hloop, SpanState.provedNext_returned, proveBearer_eq]
    refine ⟨fun x y hv => ?_, fun hv => ?_⟩
    · rw [proveErrored_carry hv]
      refine ⟨fun hx => ?_, fun hx => ?_⟩
      · rw [show (x != proveBearer p.sent) = false from by simpa using hx]
        rfl
      · rw [show (x != proveBearer p.sent) = true from by simpa using hx]
        rfl
    · rw [proveErrored_other hv]
      rfl

end Sys2Proof.Machine
end

section
/-! PROOFS. Line states: what a change of one writes, and what a frame period counts (R119 to R127). -/

namespace Sys2Proof.Machine

open Sys2Proof

namespace SpanState

/-- A span that enters a line state (R122, R127). -/
def entering (k : SpanState) (line : LineState) (cause : SpanCause) (hold : Option HoldCause) : SpanState :=
  { k with line := line, cause := some cause, holdCause := hold <|> k.holdCause, good := 0, errored := 0, train := 0,
           holdDown := if line = .holdDown then 0 else k.holdDown }

/-- A span less its elastic store with its slips, and what the end of a step may change of it. -/
def countPart (k : SpanState) : SpanState :=
  { k with store := [], slips := 0, lastSlipNotice := none, txQueue := [], txnCounter := 0 }

end SpanState

namespace State

variable (s : State) (sp : Span)

/-! ### Changes of line state -/

/-- A change of line state less its notice. -/
def lineMoved (s : State) (sp : Span) (line : LineState) (cause : SpanCause) (hold : Option HoldCause) : State :=
  let t := s.setSpan sp ((s.span sp).entering line cause hold)
  let t := if (s.span sp).line = .inService then t.spanLost sp else t
  if line = .inService then t.spanEntered sp else t

theorem changeLine_eq (line : LineState) (cause : SpanCause) (hold : Option HoldCause) :
    s.changeLine sp line cause hold =
      (s.lineMoved sp line cause hold).handNotice (.spanState sp (s.span sp).line line cause hold) := by
  unfold changeLine lineMoved SpanState.entering
  simp only [beq_iff_eq, modSpan_eq]

theorem lineMoved_quiet {line : LineState} (cause : SpanCause) (hold : Option HoldCause)
    (hl : (s.span sp).line ≠ .inService) (he : line ≠ .inService) :
    s.lineMoved sp line cause hold = s.setSpan sp ((s.span sp).entering line cause hold) := by
  unfold lineMoved
  dsimp only
  rw [if_neg hl, if_neg he]

theorem lineMoved_lost {line : LineState} (cause : SpanCause) (hold : Option HoldCause)
    (hl : (s.span sp).line = .inService) (he : line ≠ .inService) :
    s.lineMoved sp line cause hold = (s.setSpan sp ((s.span sp).entering line cause hold)).spanLost sp := by
  unfold lineMoved
  dsimp only
  rw [if_pos hl, if_neg he]

theorem lineMoved_trained (cause : SpanCause) (hold : Option HoldCause) (hl : (s.span sp).line ≠ .inService) :
    s.lineMoved sp .inService cause hold =
      (s.setSpan sp ((s.span sp).entering .inService cause hold)).spanEntered sp := by
  unfold lineMoved
  dsimp only
  rw [if_neg hl, if_pos rfl]

/-- What does not look at the Frame Timing Unit nor at what a notice leaves is kept when a source is lost. -/
theorem sourceUnhealthy_keeps {β : Type} {view : State → β} (x : Source)
    (hf : ∀ (t : State) f, view (t.setFtu f) = view t := by intros; rfl)
    (hn : ∀ (t : State) b, view (t.handNotice b) = view t := by intros; simp) :
    view (s.sourceUnhealthy x) = view s := by
  have hchange : ∀ (t : State) m c, view (t.changeTiming m c) = view t := by
    intro t m c
    unfold changeTiming
    dsimp only
    split
    · rfl
    · rw [hn, hf]
  unfold sourceUnhealthy lockOrHold
  dsimp only
  split
  · split <;> rw [hchange, hf]
  · exact hf _ _

/-- What moves circuits changes of a span its transmit queue alone. -/
theorem span_of_still {t u : State} (h : t.still = u.still) (sp : Span) :
    { t.span sp with txQueue := [] } = { u.span sp with txQueue := [] } :=
  keeps_of_still (view := fun t : State => { t.span sp with txQueue := [] }) (fun t => by cases sp <;> rfl) h

theorem spanLost_span : { (s.spanLost sp).span sp with txQueue := [] } =
    { s.span sp with txQueue := [], store := [], arrivals := [] } := by
  unfold spanLost
  dsimp only
  rw [sourceUnhealthy_keeps _ (view := fun t => t.span sp) (hn := fun t b => span_handNotice t b sp),
    span_of_still (still_resolveSpanLoss _ _), span_of_still (still_strandAll _ _), modSpan_eq, span_setSpan_same]
  have h := span_of_still (still_emptyTransmit s sp) sp
  generalize (s.emptyTransmit sp).span sp = x at h
  have hc := congrArg (fun y : SpanState => { y with store := [], arrivals := [] }) h
  exact hc

theorem spanEntered_span : (s.spanEntered sp).span sp =
    { s.span sp with balance := 0, lastSent := .even, store := [idleBearer s.cfg], lastRead := idleBearer s.cfg,
                     arrivals := [] } := by
  unfold spanEntered
  rw [modSpan_eq, span_setSpan_same]

/-- What the change of a line state leaves of its span, whatever it resolves. -/
theorem lineMoved_span (line : LineState) (cause : SpanCause) (hold : Option HoldCause) :
    let x := (s.lineMoved sp line cause hold).span sp
    x.line = line ∧ x.cause = some cause ∧ x.good = 0 ∧ x.errored = 0 ∧ x.train = 0 ∧ x.prove = (s.span sp).prove ∧
      x.proveChecked = (s.span sp).proveChecked ∧ x.proveErrored = (s.span sp).proveErrored := by
  dsimp only
  have hlost : ∀ t : State, { ((if (s.span sp).line = .inService then t.spanLost sp else t).span sp) with
      txQueue := [], store := [], arrivals := [] } = { t.span sp with txQueue := [], store := [], arrivals := [] } := by
    intro t
    split
    · have h := congrArg (fun y : SpanState => { y with store := [], arrivals := [] }) (spanLost_span t sp)
      exact h
    · rfl
  have hset := hlost (s.setSpan sp ((s.span sp).entering line cause hold))
  rw [span_setSpan_same] at hset
  unfold lineMoved
  dsimp only
  generalize (if (s.span sp).line = .inService then
    (s.setSpan sp ((s.span sp).entering line cause hold)).spanLost sp
    else s.setSpan sp ((s.span sp).entering line cause hold)) = u at hset
  have hu : ∀ {β : Type} (f : SpanState → β), (∀ k : SpanState, f { k with txQueue := [], store := [], arrivals := [] } = f k) →
      f (u.span sp) = f ((s.span sp).entering line cause hold) := by
    intro β f hf
    have h := congrArg f hset
    rw [hf, hf] at h
    exact h
  split
  · rw [spanEntered_span]
    exact ⟨hu SpanState.line fun _ => rfl, hu SpanState.cause fun _ => rfl, hu SpanState.good fun _ => rfl,
      hu SpanState.errored fun _ => rfl, hu SpanState.train fun _ => rfl, hu SpanState.prove fun _ => rfl,
      hu SpanState.proveChecked fun _ => rfl, hu SpanState.proveErrored fun _ => rfl⟩
  · exact ⟨hu SpanState.line fun _ => rfl, hu SpanState.cause fun _ => rfl, hu SpanState.good fun _ => rfl,
      hu SpanState.errored fun _ => rfl, hu SpanState.train fun _ => rfl, hu SpanState.prove fun _ => rfl,
      hu SpanState.proveChecked fun _ => rfl, hu SpanState.proveErrored fun _ => rfl⟩

/-- The span after the end of the step, as far as it is counted. -/
theorem finish_countPart (before : State) : ((finish before s).span sp).countPart = (s.span sp).countPart := by
  have h := congrArg SpanState.countPart (finish_span s before sp)
  exact h

end State

end Sys2Proof.Machine
end

section
/-! PROOFS. The counts of a span's frame period (R119 to R121, R123 to R126). -/

namespace Sys2Proof.Machine

open Sys2Proof

/-- The frame that a frame period brings to a receiver to judge (R121). -/
def framed (a : Alignment) (rx : SpanPeriod) : Option SpanFrame :=
  match a, rx with
  | .aligned, .inPlace f | .trial, .inPlace f => some f
  | _, _ => none

theorem alignPeriod_frame (a : Alignment) (rx : SpanPeriod) : (alignPeriod a rx).2 = framed a rx := by
  cases a <;> cases rx <;> rfl

namespace SpanState

/-- A span with its errored frame counted (R120). -/
def erroredNoted (k : SpanState) (v : Verdict) : SpanState :=
  if v = .errored then { k with erroredFrames := k.erroredFrames + 1 } else k

/-- The roll message that a judged frame period adds to the arrivals (R83). -/
def taken (k : SpanState) (rank : Byte) (v : Verdict) : List RollMessage :=
  match k.line, v with
  | .inService, .carry _ control =>
    match RollMessage.ofControl control with
    | some m => if m.rank = rank then [] else [m]
    | none => []
  | _, _ => []

/-- A span after a verdict, its elastic store aside (R120, R123 to R126). -/
def acted (k : SpanState) (rank : Byte) (v : Verdict) : SpanState :=
  let k := erroredNoted k v
  if State.rankClash k rank v then k.entering .holdDown .rankClash (some .rankClash)
  else { State.countFrame k rank v with arrivals := k.arrivals ++ k.taken rank v }

/-- A span after a frame period, by its line state, its elastic store aside. -/
def periodIn (k : SpanState) (line : LineState) (rank : Byte) (a : Alignment) (v : Verdict) (m : Marker) : SpanState :=
  match line with
  | .proving => { k with alignment := a }
  | .disabled => { k with alignment := a, reference := m }
  | .seek | .answer | .inService | .holdDown => { k with alignment := a, reference := m }.acted rank v

end SpanState

namespace State

variable (s : State) (sp : Span)

theorem writeSpanStore_countPart (f : BearerFrame) :
    ((s.writeSpanStore sp f).span sp).countPart = (s.span sp).countPart := by
  unfold writeSpanStore
  dsimp only
  split
  · obtain ⟨x, hx⟩ := spanSlip_span (s.modSpan sp fun k => { k with store := (storeWrite (s.span sp).store f).1 }) sp
      .deleting
    rw [hx, modSpan_eq, span_setSpan_same]
    rfl
  · rw [modSpan_eq, span_setSpan_same]
    rfl

theorem takeMessage_span (control : Vector Byte 5) : (s.takeMessage sp control).span sp =
    { s.span sp with arrivals := (s.span sp).arrivals ++
      match RollMessage.ofControl control with
      | some m => if m.rank = s.cfg.rank then [] else [m]
      | none => [] } := by
  unfold takeMessage
  cases RollMessage.ofControl control with
  | none => simp
  | some m =>
    by_cases h : m.rank = s.cfg.rank
    · simp [h]
    · simp [h]

theorem countFrame_line (k : SpanState) (rank : Byte) (v : Verdict) : (countFrame k rank v).line = k.line := by
  unfold countFrame
  (repeat' split) <;> rfl

theorem countFrame_arrivals (k : SpanState) (rank : Byte) (v : Verdict) :
    (countFrame k rank v).arrivals = k.arrivals := by
  unfold countFrame
  (repeat' split) <;> rfl

theorem rankClash_line {k : SpanState} {rank : Byte} {v : Verdict} (h : rankClash k rank v = true) :
    k.line = .seek ∨ k.line = .answer := by
  unfold rankClash at h
  split at h
  · simp only [Bool.and_eq_true, Bool.or_eq_true, beq_iff_eq] at h
    exact h.1
  · simp only [Bool.and_eq_true, Bool.or_eq_true, beq_iff_eq] at h
    exact h.1
  · cases h
  · cases h

theorem rankClash_of_line {k x : SpanState} (h : x.line = k.line) (rank : Byte) (v : Verdict) :
    rankClash x rank v = rankClash k rank v := by
  unfold rankClash
  rw [h]

theorem erroredNoted_line (k : SpanState) (v : Verdict) : (SpanState.erroredNoted k v).line = k.line := by
  unfold SpanState.erroredNoted
  split <;> rfl

theorem erroredNoted_eq (v : Verdict) :
    (if v == .errored then s.modSpan sp fun k => { k with erroredFrames := k.erroredFrames + 1 } else s) =
      s.setSpan sp (SpanState.erroredNoted (s.span sp) v) := by
  unfold SpanState.erroredNoted
  by_cases h : v = .errored
  · rw [if_pos (beq_iff_eq.mpr h), if_pos h]
    rfl
  · rw [if_neg (fun e => h (beq_iff_eq.mp e)), if_neg h, setSpan_self]

theorem actOnVerdict_unfold (v : Verdict) : s.actOnVerdict sp v =
    let u := s.setSpan sp (SpanState.erroredNoted (s.span sp) v)
    if rankClash (s.span sp) s.cfg.rank v then u.changeLine sp .holdDown .rankClash (some .rankClash)
    else
      let t := u.setSpan sp (countFrame (u.span sp) s.cfg.rank v)
      if (s.span sp).line == .inService then
        match v with
        | .carry bearer control => (t.takeMessage sp control).writeSpanStore sp bearer
        | .errored | .train _ | .reply _ => t.writeSpanStore sp (idleBearer s.cfg)
      else t := by
  unfold actOnVerdict
  dsimp only
  rw [erroredNoted_eq]
  rfl

theorem actOnVerdict_countPart (v : Verdict) :
    ((s.actOnVerdict sp v).span sp).countPart = ((s.span sp).acted s.cfg.rank v).countPart := by
  have hline := erroredNoted_line (s.span sp) v
  rw [actOnVerdict_unfold, ← rankClash_of_line hline]
  change _ = (if rankClash (SpanState.erroredNoted (s.span sp) v) s.cfg.rank v then _ else _ : SpanState).countPart
  dsimp only
  rw [span_setSpan_same]
  generalize SpanState.erroredNoted (s.span sp) v = k at hline
  by_cases hc : rankClash k s.cfg.rank v = true
  · have hne : ((s.setSpan sp k).span sp).line ≠ .inService := by
      rw [span_setSpan_same]
      rcases rankClash_line hc with h | h <;> rw [h] <;> decide
    rw [if_pos hc, if_pos hc, changeLine_eq, span_handNotice, lineMoved_quiet _ _ _ _ hne (by decide),
      span_setSpan_same, span_setSpan_same]
  · rw [if_neg hc, if_neg hc, setSpan_setSpan, ← hline]
    by_cases hs : k.line = .inService
    · rw [if_pos (beq_iff_eq.mpr hs)]
      unfold SpanState.taken
      rw [hs]
      cases v with
      | carry x y =>
        dsimp only
        rw [writeSpanStore_countPart, takeMessage_span, span_setSpan_same, countFrame_arrivals]
        rfl
      | errored =>
        dsimp only
        rw [writeSpanStore_countPart, span_setSpan_same, List.append_nil, ← countFrame_arrivals k s.cfg.rank .errored]
      | train r =>
        dsimp only
        rw [writeSpanStore_countPart, span_setSpan_same, List.append_nil, ← countFrame_arrivals k s.cfg.rank (.train r)]
      | reply r =>
        dsimp only
        rw [writeSpanStore_countPart, span_setSpan_same, List.append_nil, ← countFrame_arrivals k s.cfg.rank (.reply r)]
    · have ht : k.taken s.cfg.rank v = [] := by
        unfold SpanState.taken
        split
        · next h => exact absurd h hs
        · rfl
      rw [if_neg (fun e => hs (beq_iff_eq.mp e)), span_setSpan_same, ht, List.append_nil, ← countFrame_arrivals k s.cfg.rank v]

/-- A passage is due only at a limit of the counts (R123, R125, R126). -/
theorem duePassage_below (hg : (s.span sp).good < 4) (he : (s.span sp).errored < 4) (ht : (s.span sp).train < 4)
    (hh : (s.span sp).holdDown < 512) : s.duePassage sp = s := by
  have hrun : Config.lineRun = 4 := rfl
  have hfour : Config.holdDownFrames = 512 := rfl
  have hg' : ((s.span sp).good == Config.lineRun) = false := by simpa [hrun] using Nat.ne_of_lt hg
  have he' : ((s.span sp).errored == Config.lineRun) = false := by simpa [hrun] using Nat.ne_of_lt he
  have ht' : ((s.span sp).train == Config.lineRun) = false := by simpa [hrun] using Nat.ne_of_lt ht
  have hh' : ((s.span sp).holdDown == Config.holdDownFrames) = false := by simpa [hfour] using Nat.ne_of_lt hh
  unfold duePassage spanTrained spanErrors peerRestart holdDownRecovered
  simp only [hg', he', ht', hh', Bool.and_false, Bool.false_eq_true, if_false, ite_self]
  split <;> rfl

/-- The verdict of a frame period with its reference marker (R120, R121). -/
def periodVerdict (k : SpanState) (rx : SpanPeriod) : Verdict × Marker :=
  (framed k.alignment rx).elim (.errored, k.reference) (judgeFrame k.reference)

theorem spanPeriod_countPart (rx : SpanPeriod) (hdue : s.duePassage sp = s) :
    ((s.spanPeriod sp rx).span sp).countPart = ((s.span sp).periodIn (s.span sp).line s.cfg.rank
      (alignPeriod (s.span sp).alignment rx).1 (periodVerdict (s.span sp) rx).1
      (periodVerdict (s.span sp) rx).2).countPart := by
  unfold spanPeriod periodVerdict
  rw [hdue, ← alignPeriod_frame]
  dsimp only
  have hacted : ∀ (a : Alignment) (v : Verdict) (m : Marker),
      (((s.modSpan sp fun k => { k with alignment := a, reference := m }).actOnVerdict sp v).span sp).countPart =
        ({ s.span sp with alignment := a, reference := m }.acted s.cfg.rank v).countPart := by
    intro a v m
    rw [actOnVerdict_countPart, modSpan_eq, span_setSpan_same]
    rfl
  cases (alignPeriod (s.span sp).alignment rx).2 with
  | none =>
    dsimp only [Option.elim_none]
    cases (s.span sp).line
    all_goals dsimp only [SpanState.periodIn]
    case disabled => rw [modSpan_eq, span_setSpan_same]
    case proving => rw [modSpan_eq, span_setSpan_same]
    all_goals exact hacted _ _ _
  | some f =>
    dsimp only [Option.elim_some]
    cases (s.span sp).line
    all_goals dsimp only [SpanState.periodIn]
    case disabled => rw [modSpan_eq, span_setSpan_same]
    case proving => rw [modSpan_eq, span_setSpan_same]
    all_goals exact hacted _ _ _

end State

end Sys2Proof.Machine
end

section
/-! PROOFS. The counts of a span's frame period, settled (R119 to R121, R123 to R126). -/

namespace Sys2Proof.Machine

open Sys2Proof

namespace SpanState

variable (k : SpanState)

theorem entering_line (line : LineState) (c : SpanCause) (h : Option HoldCause) : (k.entering line c h).line = line := rfl

/-- What a clash of ranks in SEEK or ANSWER leaves (R124). -/
theorem acted_clash {rank : Byte} {v : Verdict} (h : State.rankClash k rank v = true) :
    k.acted rank v = (k.erroredNoted v).entering .holdDown .rankClash (some .rankClash) := by
  unfold acted
  dsimp only
  rw [if_pos ((State.rankClash_of_line (State.erroredNoted_line k v) rank v).trans h)]

theorem acted_counted {rank : Byte} {v : Verdict} (h : State.rankClash k rank v = false) : k.acted rank v =
    { State.countFrame (k.erroredNoted v) rank v with
      arrivals := (k.erroredNoted v).arrivals ++ (k.erroredNoted v).taken rank v } := by
  unfold acted
  dsimp only
  rw [if_neg]
  rw [State.rankClash_of_line (State.erroredNoted_line k v) rank v, h]
  decide

theorem acted_alignment (rank : Byte) (v : Verdict) : (k.acted rank v).alignment = k.alignment := by
  have hn : (k.erroredNoted v).alignment = k.alignment := by unfold erroredNoted; split <;> rfl
  have hc : ∀ x : SpanState, (State.countFrame x rank v).alignment = x.alignment := by
    intro x
    unfold State.countFrame
    (repeat' split) <;> rfl
  cases h : State.rankClash k rank v with
  | true => rw [acted_clash k h]; exact hn
  | false => rw [acted_counted k h]; exact (hc _).trans hn

theorem acted_reference (rank : Byte) (v : Verdict) : (k.acted rank v).reference = k.reference := by
  have hn : (k.erroredNoted v).reference = k.reference := by unfold erroredNoted; split <;> rfl
  have hc : ∀ x : SpanState, (State.countFrame x rank v).reference = x.reference := by
    intro x
    unfold State.countFrame
    (repeat' split) <;> rfl
  cases h : State.rankClash k rank v with
  | true => rw [acted_clash k h]; exact hn
  | false => rw [acted_counted k h]; exact (hc _).trans hn

theorem acted_erroredFrames (rank : Byte) (v : Verdict) : (k.acted rank v).erroredFrames =
    if v = .errored then k.erroredFrames + 1 else k.erroredFrames := by
  have hn : (k.erroredNoted v).erroredFrames = if v = .errored then k.erroredFrames + 1 else k.erroredFrames := by
    unfold erroredNoted
    split <;> rfl
  have hc : ∀ x : SpanState, (State.countFrame x rank v).erroredFrames = x.erroredFrames := by
    intro x
    unfold State.countFrame
    (repeat' split) <;> rfl
  cases h : State.rankClash k rank v with
  | true => rw [acted_clash k h]; exact hn
  | false => rw [acted_counted k h]; exact (hc _).trans hn

theorem acted_line (rank : Byte) (v : Verdict) : (k.acted rank v).line =
    if State.rankClash k rank v then .holdDown else k.line := by
  cases h : State.rankClash k rank v with
  | true => rw [acted_clash k h]; rfl
  | false =>
    rw [acted_counted k h]
    exact (State.countFrame_line _ rank v).trans (State.erroredNoted_line k v)

/-- The counts of a span after a frame period without a clash of ranks. -/
theorem acted_counts {rank : Byte} {v : Verdict} (h : State.rankClash k rank v = false) :
    (k.acted rank v).good = (State.countFrame k rank v).good ∧
      (k.acted rank v).errored = (State.countFrame k rank v).errored ∧
      (k.acted rank v).train = (State.countFrame k rank v).train ∧
      (k.acted rank v).holdDown = (State.countFrame k rank v).holdDown ∧
      (k.acted rank v).peerRank = (State.countFrame k rank v).peerRank ∧
      (k.acted rank v).arrivals = k.arrivals ++ k.taken rank v := by
  rw [acted_counted k h]
  by_cases hv : v = .errored
  · subst hv
    unfold erroredNoted State.countFrame taken
    rw [if_pos rfl]
    dsimp only
    cases k.line <;> exact ⟨rfl, rfl, rfl, rfl, rfl, rfl⟩
  · unfold erroredNoted
    rw [if_neg hv]
    exact ⟨rfl, rfl, rfl, rfl, rfl, rfl⟩

theorem runUp_below {n : Nat} (h : n < 4) : State.runUp n = n + 1 := by
  have hrun : Config.lineRun = 4 := rfl
  unfold State.runUp
  omega

end SpanState

/-- The receiver's alignment after a frame period (R121). -/
theorem alignPeriod_spec (a : Alignment) (rx : SpanPeriod) :
    ((framed a rx).isSome = true → (alignPeriod a rx).1 = .aligned) ∧
      (∀ f, a = .searching → rx = .inPlace f → (alignPeriod a rx).1 = .trial) ∧
      (∀ f, rx = .elsewhere f → (alignPeriod a rx).1 = .trial) ∧
      (rx = .nothing → (alignPeriod a rx).1 = .searching) := by
  refine ⟨fun h => ?_, fun f ha hr => ?_, fun f hr => ?_, fun hr => ?_⟩
  · unfold framed at h
    split at h
    · rfl
    · rfl
    · cases h
  · subst ha hr; rfl
  · subst hr; cases a <;> rfl
  · subst hr; cases a <;> rfl

namespace State

theorem periodVerdict_eq (k : SpanState) (rx : SpanPeriod) :
    (periodVerdict k rx).1 = ((framed k.alignment rx).map fun f => (judgeFrame k.reference f).1).getD .errored ∧
      (periodVerdict k rx).2 =
        ((framed k.alignment rx).map fun f => (judgeFrame k.reference f).2).getD k.reference := by
  unfold periodVerdict
  cases framed k.alignment rx <;> exact ⟨rfl, rfl⟩

theorem rankClash_carry (k : SpanState) (rank : Byte) (x : Vector Byte 256) (y : Vector Byte 5) :
    rankClash k rank (.carry x y) = false := rfl

theorem rankClash_errored (k : SpanState) (rank : Byte) : rankClash k rank .errored = false := rfl

theorem rankClash_other (k : SpanState) {rank r : Byte} (h : r ≠ rank) :
    rankClash k rank (.train r) = false ∧ rankClash k rank (.reply r) = false := by
  simp [rankClash, h]

theorem rankClash_outside (k : SpanState) (rank : Byte) (v : Verdict) (h : k.line ≠ .seek) (h' : k.line ≠ .answer) :
    rankClash k rank v = false := by
  rw [← Bool.not_eq_true]
  exact fun hc => (rankClash_line hc).elim h h'

end State

theorem periodIn_live (k : SpanState) (rank : Byte) (a : Alignment) (v : Verdict) (m : Marker)
    (hd : k.line ≠ .disabled) (hp : k.line ≠ .proving) :
    k.periodIn k.line rank a v m = { k with alignment := a, reference := m }.acted rank v := by
  have hall : ∀ l : LineState, l ≠ .disabled → l ≠ .proving →
      k.periodIn l rank a v m = { k with alignment := a, reference := m }.acted rank v := by
    intro l hd hp
    cases l
    case disabled => exact absurd rfl hd
    case proving => exact absurd rfl hp
    all_goals rfl
  exact hall k.line hd hp

theorem countFrame_received (k : SpanState) (rank : Byte) (a : Alignment) (v : Verdict) (m : Marker) :
    State.countFrame { k with alignment := a, reference := m } rank v =
      { State.countFrame k rank v with alignment := a, reference := m } := by
  rcases k with ⟨line⟩
  unfold State.countFrame
  cases line <;> cases v <;> dsimp only <;> split <;> rfl

section
variable {x k : SpanState} {rank : Byte} {a : Alignment} {v : Verdict} {m : Marker}
  (h : x.countPart = (k.periodIn k.line rank a v m).countPart)
include h

theorem counted_field {β : Type} (f : SpanState → β) (hf : ∀ z : SpanState, f z.countPart = f z) :
    f x = f (k.periodIn k.line rank a v m) := by
  rw [← hf, h, hf]

theorem counted_alignment : x.alignment = a := by
  rw [counted_field h SpanState.alignment fun _ => rfl]
  by_cases hd : k.line = .disabled
  · exact congrArg SpanState.alignment (congrArg (fun l => k.periodIn l rank a v m) hd)
  · by_cases hp : k.line = .proving
    · exact congrArg SpanState.alignment (congrArg (fun l => k.periodIn l rank a v m) hp)
    · rw [periodIn_live k rank a v m hd hp, SpanState.acted_alignment]

/-- A frame period in DISABLED and in PROVING counts nothing (R120). -/
theorem counted_quiet (hl : k.line = .disabled ∨ k.line = .proving) :
    x.alignment = a ∧ x.line = k.line ∧ x.erroredFrames = k.erroredFrames ∧ x.good = k.good ∧
      x.errored = k.errored ∧ x.train = k.train ∧ x.holdDown = k.holdDown ∧ x.arrivals = k.arrivals ∧
      (k.line = .disabled → x.reference = m) := by
  have hform : ∃ r, k.periodIn k.line rank a v m = { k with alignment := a, reference := r } ∧
      (k.line = .disabled → r = m) := by
    rcases hl with hl | hl
    · exact ⟨m, congrArg (fun l => k.periodIn l rank a v m) hl, fun _ => rfl⟩
    · exact ⟨k.reference, congrArg (fun l => k.periodIn l rank a v m) hl, fun e => by rw [hl] at e; cases e⟩
  obtain ⟨r, hr, hm⟩ := hform
  have hf := @counted_field x k rank a v m h
  rw [hr] at hf
  exact ⟨hf SpanState.alignment fun _ => rfl, hf SpanState.line fun _ => rfl,
    hf SpanState.erroredFrames fun _ => rfl, hf SpanState.good fun _ => rfl, hf SpanState.errored fun _ => rfl,
    hf SpanState.train fun _ => rfl, hf SpanState.holdDown fun _ => rfl, hf SpanState.arrivals fun _ => rfl,
    fun e => (hf SpanState.reference fun _ => rfl).trans (hm e)⟩

/-- A frame period in the other line states (R120, R121, R124). -/
theorem counted_live (hd : k.line ≠ .disabled) (hp : k.line ≠ .proving) :
    x.alignment = a ∧ x.reference = m ∧
      x.erroredFrames = (if v = .errored then k.erroredFrames + 1 else k.erroredFrames) ∧
      x.line = if State.rankClash k rank v then .holdDown else k.line := by
  have hform := periodIn_live k rank a v m hd hp
  have hf := @counted_field x k rank a v m h
  rw [hform] at hf
  exact ⟨(hf SpanState.alignment fun _ => rfl).trans (SpanState.acted_alignment _ rank v),
    (hf SpanState.reference fun _ => rfl).trans (SpanState.acted_reference _ rank v),
    (hf SpanState.erroredFrames fun _ => rfl).trans (SpanState.acted_erroredFrames _ rank v),
    (hf SpanState.line fun _ => rfl).trans (SpanState.acted_line _ rank v)⟩

/-- The run counts after a frame period without a clash of ranks (R123, R125, R126). -/
theorem counted_runs (hd : k.line ≠ .disabled) (hp : k.line ≠ .proving) (hc : State.rankClash k rank v = false) :
    x.good = (State.countFrame k rank v).good ∧ x.errored = (State.countFrame k rank v).errored ∧
      x.train = (State.countFrame k rank v).train ∧ x.holdDown = (State.countFrame k rank v).holdDown ∧
      x.peerRank = (State.countFrame k rank v).peerRank ∧ x.arrivals = k.arrivals ++ k.taken rank v := by
  have hform := periodIn_live k rank a v m hd hp
  have hf := @counted_field x k rank a v m h
  rw [hform] at hf
  obtain ⟨hg, he, ht, hh, hpr, ha⟩ := SpanState.acted_counts { k with alignment := a, reference := m } hc
  rw [countFrame_received] at hg he ht hh hpr
  exact ⟨(hf SpanState.good fun _ => rfl).trans hg, (hf SpanState.errored fun _ => rfl).trans he,
    (hf SpanState.train fun _ => rfl).trans ht, (hf SpanState.holdDown fun _ => rfl).trans hh,
    (hf SpanState.peerRank fun _ => rfl).trans hpr, (hf SpanState.arrivals fun _ => rfl).trans ha⟩

end

theorem exec_spanFrameReceived (sp : Span) (rx : SpanPeriod) (s : State) : exec (.spanFrameReceived sp rx) s =
    act s fun s => if s.running then s.spanPeriod sp rx else s := rfl

/-- What a frame period leaves of its span: the frame judged, if any, gives the verdict and the marker (R119 to R121). -/
theorem exec_spanFrame {sp : Span} {rx : SpanPeriod} {s : State} (h : s.resetLow = false)
    (hp : s.phase = .ready ∨ s.phase = .warming) (hdue : s.duePassage sp = s) :
    ∃ t, exec (.spanFrameReceived sp rx) s = .next t ∧ (t.span sp).countPart = ((s.span sp).periodIn (s.span sp).line
      s.cfg.rank (alignPeriod (s.span sp).alignment rx).1 (State.periodVerdict (s.span sp) rx).1
      (State.periodVerdict (s.span sp) rx).2).countPart :=
  ⟨_, by rw [exec_running h (exec_spanFrameReceived sp rx s), if_pos ((State.running_iff s).mpr hp)],
    (State.finish_countPart (s.spanPeriod sp rx) sp s).trans (s.spanPeriod_countPart sp rx hdue)⟩

/-- Settles O28. -/
theorem spanFrameCounts : Obligations.SpanFrameCounts := by
  unfold Obligations.SpanFrameCounts
  intro sp rx s k judged v h hp hg he ht hh
  obtain ⟨t, ht', hcount⟩ := exec_spanFrame (rx := rx) h hp (s.duePassage_below sp hg he ht hh)
  refine ⟨t, ht', ?_⟩
  obtain ⟨hv, hm⟩ := State.periodVerdict_eq k rx
  have hv : (State.periodVerdict (s.span sp) rx).1 = v := hv
  have hm : (State.periodVerdict (s.span sp) rx).2 =
      (judged.map fun f => (judgeFrame k.reference f).2).getD k.reference := hm
  rw [hv, hm] at hcount
  have halign : (judged.isSome = true → (alignPeriod k.alignment rx).1 = .aligned) ∧
      (∀ f, k.alignment = .searching → rx = .inPlace f → (alignPeriod k.alignment rx).1 = .trial) ∧
      (∀ f, rx = .elsewhere f → (alignPeriod k.alignment rx).1 = .trial) ∧
      (rx = .nothing → (alignPeriod k.alignment rx).1 = .searching) := alignPeriod_spec k.alignment rx
  change (t.span sp).countPart = (k.periodIn k.line s.cfg.rank (alignPeriod k.alignment rx).1 v _).countPart at hcount
  have hg : k.good < 4 := hg
  have he : k.errored < 4 := he
  have ht : k.train < 4 := ht
  have hh : k.holdDown < 512 := hh
  clear_value v judged k
  generalize t.span sp = x at *
  generalize s.cfg.rank = rank at *
  have hx : x.alignment = (alignPeriod k.alignment rx).1 := counted_alignment hcount
  have hrun : ∀ l, k.line = l → l ≠ .disabled → l ≠ .proving → State.rankClash k rank v = false →
      x.good = (State.countFrame k rank v).good ∧ x.errored = (State.countFrame k rank v).errored ∧
      x.train = (State.countFrame k rank v).train ∧ x.holdDown = (State.countFrame k rank v).holdDown ∧
      x.peerRank = (State.countFrame k rank v).peerRank ∧ x.arrivals = k.arrivals ++ k.taken rank v :=
    fun l hl hd hpr hc => counted_runs hcount (hl ▸ hd) (hl ▸ hpr) hc
  have hlimit : ∀ n, n < 512 → min (n + 1) Config.holdDownFrames = n + 1 := fun n hn => Nat.min_eq_left hn
  refine ⟨fun hj => hx.trans (halign.1 hj), fun f ha hr => hx.trans (halign.2.1 f ha hr),
    fun f hr => hx.trans (halign.2.2.1 f hr), fun hr => hx.trans (halign.2.2.2 hr), fun hpr => ?_, fun hd hpr => ?_,
    fun hq => ?_, ?_, fun hl r hr hv' => ?_, fun hl hv' => ?_, fun hl r hr hv' => ?_, fun hl r hr hv' => ?_,
    fun hl hv' => ?_, fun hl hv' => ?_, fun hl hv' => ?_, fun hl hv' => ?_, fun hl hv' => ?_, fun y z hl hv' => ?_,
    fun hl hv' => ?_, fun hl hv' => ?_, fun hl hv' => ?_⟩
  · by_cases hd : k.line = .disabled
    · obtain ⟨-, -, -, -, -, -, -, -, href⟩ := counted_quiet hcount (.inl hd)
      exact href hd
    · obtain ⟨-, href, -⟩ := counted_live hcount hd hpr
      exact href
  · obtain ⟨-, -, hframes, -⟩ := counted_live hcount hd hpr
    exact hframes
  · obtain ⟨-, -, hframes, hgood, herr, htrain, hhold, -⟩ := counted_quiet hcount hq
    exact ⟨hframes, hgood, herr, htrain, hhold⟩
  · by_cases hq : k.line = .disabled ∨ k.line = .proving
    · obtain ⟨-, hline, -⟩ := counted_quiet hcount hq
      have hc : State.rankClash k rank v = false := State.rankClash_outside k rank v
        (by rcases hq with h | h <;> rw [h] <;> decide) (by rcases hq with h | h <;> rw [h] <;> decide)
      rw [hline, hc]
      rfl
    · obtain ⟨-, -, -, hline⟩ := counted_live hcount (fun e => hq (.inl e)) fun e => hq (.inr e)
      exact hline
  · obtain ⟨htr, hre⟩ := State.rankClash_other k hr
    rcases hv' with hv' | hv' <;> rw [hv'] at hrun
    · obtain ⟨hgood, -, -, -, hpeer, -⟩ := hrun _ hl (by decide) (by decide) htr
      rw [hgood, hpeer]
      simp [State.countFrame, hl, SpanState.runUp_below hg]
    · obtain ⟨hgood, -, -, -, hpeer, -⟩ := hrun _ hl (by decide) (by decide) hre
      rw [hgood, hpeer]
      simp [State.countFrame, hl, SpanState.runUp_below hg]
  · rcases hv' with hv' | ⟨y, z, hv'⟩ <;> rw [hv'] at hrun
    · obtain ⟨hgood, -⟩ := hrun _ hl (by decide) (by decide) rfl
      rw [hgood]
      simp [State.countFrame, hl]
    · obtain ⟨hgood, -⟩ := hrun _ hl (by decide) (by decide) rfl
      rw [hgood]
      simp [State.countFrame, hl]
  · rw [hv'] at hrun
    obtain ⟨hgood, herr, -⟩ := hrun _ hl (by decide) (by decide) (State.rankClash_other k hr).1
    rw [hgood, herr]
    simp [State.countFrame, hl]
  · rw [hv'] at hrun
    obtain ⟨hgood, herr, -⟩ := hrun _ hl (by decide) (by decide) (State.rankClash_other k hr).2
    rw [hgood, herr]
    simp [State.countFrame, hl, SpanState.runUp_below hg]
  · obtain ⟨y, z, hv'⟩ := hv'
    rw [hv'] at hrun
    obtain ⟨hgood, herr, -⟩ := hrun _ hl (by decide) (by decide) rfl
    rw [hgood, herr]
    simp [State.countFrame, hl, SpanState.runUp_below hg]
  · rw [hv'] at hrun
    obtain ⟨hgood, herr, -⟩ := hrun _ hl (by decide) (by decide) rfl
    rw [hgood, herr]
    simp [State.countFrame, hl, SpanState.runUp_below he]
  · rw [hv'] at hrun
    obtain ⟨-, herr, htrain, -⟩ := hrun _ hl (by decide) (by decide) rfl
    rw [herr, htrain]
    simp [State.countFrame, hl, SpanState.runUp_below he]
  · obtain ⟨r, hv'⟩ := hv'
    obtain ⟨-, herr, htrain, -⟩ := hrun _ hl (by decide) (by decide)
      (State.rankClash_outside k rank v (by rw [hl]; decide) (by rw [hl]; decide))
    rw [herr, htrain, hv']
    simp [State.countFrame, hl, SpanState.runUp_below ht]
  · obtain ⟨y, z, hv'⟩ := hv'
    rw [hv'] at hrun
    obtain ⟨-, herr, htrain, -⟩ := hrun _ hl (by decide) (by decide) rfl
    rw [herr, htrain]
    simp [State.countFrame, hl]
  · rw [hv'] at hrun
    obtain ⟨-, -, -, -, -, harr⟩ := hrun _ hl (by decide) (by decide) rfl
    rw [harr]
    simp only [SpanState.taken, hl] <;> rfl
  · obtain ⟨r, hv'⟩ := hv'
    obtain ⟨-, herr, htrain, -⟩ := hrun _ hl (by decide) (by decide)
      (State.rankClash_outside k rank v (by rw [hl]; decide) (by rw [hl]; decide))
    rw [herr, htrain, hv']
    simp [State.countFrame, hl]
  · obtain ⟨-, -, -, hhold, -⟩ := hrun _ hl (by decide) (by decide)
      (State.rankClash_outside k rank v (by rw [hl]; decide) (by rw [hl]; decide))
    rw [hhold]
    rcases hv' with hv' | hv' | hv' <;> simp [State.countFrame, hl, hv']
  · obtain ⟨-, -, -, hhold, -⟩ := hrun _ hl (by decide) (by decide)
      (State.rankClash_outside k rank v (by rw [hl]; decide) (by rw [hl]; decide))
    rw [hhold]
    rcases hv' with ⟨r, hr, hv' | hv'⟩ | ⟨y, z, hv'⟩ <;> simp [State.countFrame, hlimit _ hh, *]

end Sys2Proof.Machine
end


section
/-! PROOFS. The passages of a span at the limits of its counts, and the end of a PROVE (R122, R123, R125 to R127, R130). -/

namespace Sys2Proof.Machine

open Sys2Proof

namespace State

variable (s : State) (sp : Span)

theorem spanTrained_seek (h : (s.span sp).line = .seek) (hg : (s.span sp).good = 4) :
    s.spanTrained sp = s.changeLine sp .answer .trained none := by
  simp [spanTrained, h, hg, show Config.lineRun = 4 from rfl]

theorem spanTrained_answer (h : (s.span sp).line = .answer) (hg : (s.span sp).good = 4) :
    s.spanTrained sp = s.changeLine sp .inService .trained none := by
  simp [spanTrained, h, hg, show Config.lineRun = 4 from rfl]

theorem spanErrors_due (h : (s.span sp).line = .answer ∨ (s.span sp).line = .inService)
    (he : (s.span sp).errored = 4) : s.spanErrors sp = s.changeLine sp .holdDown .errors (some .errors) := by
  rcases h with h | h <;> simp [spanErrors, h, he, show Config.lineRun = 4 from rfl]

theorem peerRestart_due (h : (s.span sp).line = .inService) (ht : (s.span sp).train = 4) :
    s.peerRestart sp = s.changeLine sp .seek .peerRestart none := by
  simp [peerRestart, h, ht, show Config.lineRun = 4 from rfl]

theorem holdDownRecovered_due (h : (s.span sp).line = .holdDown) (hh : (s.span sp).holdDown = 512) :
    s.holdDownRecovered sp = s.changeLine sp .seek .recovered none := by
  simp [holdDownRecovered, h, hh, show Config.holdDownFrames = 512 from rfl]

theorem spanTrained_below (h : (s.span sp).good < 4) : s.spanTrained sp = s := by
  simp [spanTrained, show Config.lineRun = 4 from rfl, Nat.ne_of_lt h]

theorem spanErrors_below (h : (s.span sp).errored < 4) : s.spanErrors sp = s := by
  simp [spanErrors, show Config.lineRun = 4 from rfl, Nat.ne_of_lt h]

theorem peerRestart_below (h : (s.span sp).train < 4) : s.peerRestart sp = s := by
  simp [peerRestart, show Config.lineRun = 4 from rfl, Nat.ne_of_lt h]

theorem holdDownRecovered_below (h : (s.span sp).holdDown < 512) : s.holdDownRecovered sp = s := by
  simp [holdDownRecovered, show Config.holdDownFrames = 512 from rfl, Nat.ne_of_lt h]

/-- The span at the end of a step, less what the end of a step may change of it. -/
theorem finish_spanField {β : Type} (before : State) (f : SpanState → β)
    (hf : ∀ k : SpanState, f { k with txQueue := [], txnCounter := 0 } = f k := by intros; rfl) :
    f ((finish before s).span sp) = f (s.span sp) := by
  have h := congrArg f (finish_span s before sp)
  rw [hf, hf] at h
  exact h

/-- A change of line state at the end of its step. -/
theorem finish_changeLine (before : State) (line : LineState) (cause : SpanCause) (hold : Option HoldCause) :
    let t := finish before (s.changeLine sp line cause hold)
    t = finish before ((s.lineMoved sp line cause hold).handNotice (.spanState sp (s.span sp).line line cause hold)) ∧
      (t.span sp).line = line ∧ (t.span sp).cause = some cause ∧ (t.span sp).good = 0 ∧ (t.span sp).errored = 0 ∧
      (t.span sp).train = 0 := by
  obtain ⟨hline, hcause, hgood, herr, htrain, -⟩ := lineMoved_span s sp line cause hold
  have hspan : (s.changeLine sp line cause hold).span sp = (s.lineMoved sp line cause hold).span sp := by
    rw [changeLine_eq, span_handNotice]
  refine ⟨by rw [changeLine_eq], ?_, ?_, ?_, ?_, ?_⟩
  · rw [finish_spanField _ _ _ SpanState.line, hspan, hline]
  · rw [finish_spanField _ _ _ SpanState.cause, hspan, hcause]
  · rw [finish_spanField _ _ _ SpanState.good, hspan, hgood]
  · rw [finish_spanField _ _ _ SpanState.errored, hspan, herr]
  · rw [finish_spanField _ _ _ SpanState.train, hspan, htrain]

/-- Entry into IN_SERVICE moves no circuit and no bridge. -/
theorem lineMoved_trained_same {β : Type} {view : State → β} (cause : SpanCause) (hold : Option HoldCause)
    (hl : (s.span sp).line ≠ .inService) (hs : ∀ (t : State) x, view (t.setSpan sp x) = view t := by intros; rfl) :
    view (s.lineMoved sp .inService cause hold) = view s := by
  rw [lineMoved_trained s sp cause hold hl]
  unfold spanEntered
  rw [modSpan_eq, hs, hs]

end State

theorem exec_spanTrained (sp : Span) (s : State) : exec (.spanTrained sp) s = act s (·.spanTrained sp) := rfl
theorem exec_spanErrors (sp : Span) (s : State) : exec (.spanErrors sp) s = act s (·.spanErrors sp) := rfl
theorem exec_peerRestart (sp : Span) (s : State) : exec (.peerRestart sp) s = act s (·.peerRestart sp) := rfl
theorem exec_holdDownRecovered (sp : Span) (s : State) :
    exec (.holdDownRecovered sp) s = act s (·.holdDownRecovered sp) := rfl
theorem exec_proveEnd (sp : Span) (s : State) : exec (.proveEnd sp) s = act s (·.proveEnd sp) := rfl

/-- A passage at the end of its step: the state entered, its cause and its notice, and the run counts at 0. -/
theorem enters_changeLine {s : State} {sp : Span} {c : Instr} {line : LineState} {cause : SpanCause}
    {hold : Option HoldCause} {f : State → State} (h : s.resetLow = false) (hc : exec c s = act s f)
    (hf : f s = s.changeLine sp line cause hold) : ∃ u t : State, exec c s = .next t ∧
      t = State.finish s (u.handNotice (.spanState sp (s.span sp).line line cause hold)) ∧
      (t.span sp).line = line ∧ (t.span sp).cause = some cause ∧ (t.span sp).good = 0 ∧ (t.span sp).errored = 0 ∧
      (t.span sp).train = 0 :=
  ⟨s.lineMoved sp line cause hold, _, by rw [exec_running h hc, hf], s.finish_changeLine sp s line cause hold⟩

/-- The span, and the bridges and circuits, after the entry into IN_SERVICE (R127). -/
theorem finish_enteredInService (s : State) (sp : Span) (hl : (s.span sp).line = .answer) :
    let t := State.finish s (s.changeLine sp .inService .trained none)
    let x := t.span sp
    let idle := tab 256 fun _ => s.cfg.idleCode
    x.balance = 0 ∧ x.lastSent = .even ∧ x.store = [idle] ∧ x.lastRead = idle ∧ x.arrivals = [] ∧
      t.circuits = s.circuits ∧ t.bridges = s.bridges := by
  have hne : (s.span sp).line ≠ .inService := by rw [hl]; decide
  have hspan : ∃ y : SpanState, (s.changeLine sp .inService .trained none).span sp =
      { y with balance := 0, lastSent := .even, store := [idleBearer s.cfg], lastRead := idleBearer s.cfg,
               arrivals := [] } := by
    rw [State.changeLine_eq, State.span_handNotice, State.lineMoved_trained _ _ _ _ hne, State.spanEntered_span]
    exact ⟨_, rfl⟩
  have hsame : (State.finish s (s.changeLine sp .inService .trained none)).settledPart =
      (s.changeLine sp .inService .trained none).settledPart := by
    refine State.finish_settledPart ?_ ?_ (State.headLeft_same ?_)
    · rw [State.changeLine_eq, State.handNotice_bridges, State.lineMoved_trained_same _ _ (view := State.bridges) _ _ hne]
    · rw [State.changeLine_eq, State.handNotice_groups, State.lineMoved_trained_same _ _ (view := State.groups) _ _ hne]
    · rw [State.changeLine_eq, State.handNotice_queue, State.lineMoved_trained_same _ _ (view := State.queue) _ _ hne]
  have hcirc : (s.changeLine sp .inService .trained none).circuits = s.circuits := by
    rw [State.changeLine_eq, State.handNotice_circuits,
      State.lineMoved_trained_same _ _ (view := State.circuits) _ _ hne]
  have hbridges : (s.changeLine sp .inService .trained none).bridges = s.bridges := by
    rw [State.changeLine_eq, State.handNotice_bridges,
      State.lineMoved_trained_same _ _ (view := State.bridges) _ _ hne]
  generalize s.changeLine sp .inService .trained none = u at *
  obtain ⟨y, hy⟩ := hspan
  have hfield : ∀ {β : Type} (f : SpanState → β),
      (∀ k : SpanState, f { k with txQueue := [], txnCounter := 0 } = f k) →
      f ((State.finish s u).span sp) = f { y with
        balance := 0, lastSent := .even, store := [idleBearer s.cfg], lastRead := idleBearer s.cfg, arrivals := [] } :=
    fun f hf => (u.finish_spanField sp s f hf).trans (congrArg f hy)
  have hc := congrArg State.circuits hsame
  have hb := congrArg State.bridges hsame
  exact ⟨hfield SpanState.balance fun _ => rfl, hfield SpanState.lastSent fun _ => rfl,
    hfield SpanState.store fun _ => rfl, hfield SpanState.lastRead fun _ => rfl,
    hfield SpanState.arrivals fun _ => rfl, hc.trans hcirc, hb.trans hbridges⟩

/-- The state that PROVE_END leaves before the end of its step (R130). -/
def State.testEnded (s : State) (sp : Span) : State :=
  ((s.changeLine sp .seek .proveEnd none).settleProve sp .done).endProve sp

theorem State.proveEnd_due {s : State} {sp : Span} {p : ProveRun} (hl : (s.span sp).line = .proving)
    (hp : (s.span sp).prove = some p) (hs : p.sent = p.asked) : s.proveEnd sp = s.testEnded sp := by
  simp [State.proveEnd, State.testEnded, hl, hp, hs]

/-- The order that a test holds settles, and nothing of the spans changes by it. -/
theorem State.settleProve_spans (s : State) (sp : Span) (code : ResultCode) :
    (s.settleProve sp code).spans = s.spans := by
  unfold State.settleProve
  dsimp only
  split
  · rfl
  · rw [State.settleOrder_spans]

theorem State.settleProve_settles (s : State) (sp : Span) (code : ResultCode) {p : ProveRun}
    (hp : (s.span sp).prove = some p) : (s.settleProve sp code).settles =
      s.settles ++ (p.ref.elim [] fun ref => [⟨s.nextSettle, ref, code, 1⟩]) := by
  unfold State.settleProve
  dsimp only
  rw [hp]
  cases hr : p.ref with
  | none => simp [hr]
  | some ref =>
    simp only [Option.bind_some, hr, State.settleOrder_settles]
    rfl

theorem State.settleProve_keeps {β : Type} {view : State → β} (s : State) (sp : Span) (code : ResultCode)
    (h : ∀ (t : State) ref c v, view (t.settleOrder ref c v []) = view t := by intros; simp) :
    view (s.settleProve sp code) = view s := by
  unfold State.settleProve
  dsimp only
  split
  · rfl
  · rw [h]

theorem State.changeLine_keeps_quiet (s : State) (sp : Span) {line : LineState} (cause : SpanCause)
    (hold : Option HoldCause) (hl : (s.span sp).line ≠ .inService) (he : line ≠ .inService) {β : Type}
    {view : State → β} (hs : ∀ (t : State) x, view (t.setSpan sp x) = view t := by intros; rfl)
    (hn : ∀ (t : State) b, view (t.handNotice b) = view t := by intros; simp) :
    view (s.changeLine sp line cause hold) = view s := by
  rw [State.changeLine_eq, hn, State.lineMoved_quiet _ _ _ _ hl he, hs]

/-- What PROVE_END leaves at the end of its step (R130). -/
theorem finish_testEnded (s : State) (sp : Span) {p : ProveRun} (hl : (s.span sp).line = .proving)
    (hp : (s.span sp).prove = some p) : let t := State.finish s (s.testEnded sp)
    (t.span sp).line = .seek ∧ (t.span sp).cause = some .proveEnd ∧ (t.span sp).prove = none ∧
      (t.span sp).proveChecked = (s.span sp).proveChecked ∧ (t.span sp).proveErrored = (s.span sp).proveErrored ∧
      (∀ ref, p.ref = some ref → t.settles = s.settles ++ [⟨s.nextSettle, ref, .done, 1⟩]) ∧
      (p.ref = none → t.settles = s.settles) := by
  have hne : (s.span sp).line ≠ .inService := by rw [hl]; decide
  obtain ⟨hline, hcause, -, -, -, hprove, hchecked, herrored⟩ := State.lineMoved_span s sp .seek .proveEnd none
  rw [← State.span_handNotice _ (.spanState sp (s.span sp).line .seek .proveEnd none), ← State.changeLine_eq]
    at hline hcause hprove hchecked herrored
  have hkeeps : ∀ {β : Type} {view : State → β} (_ : ∀ (t : State) x, view (t.setSpan sp x) = view t)
      (_ : ∀ (t : State) b, view (t.handNotice b) = view t), view (s.changeLine sp .seek .proveEnd none) = view s :=
    fun h h' => by rw [State.changeLine_eq, h', State.lineMoved_quiet _ _ _ _ hne (by decide), h]
  have hbridges := hkeeps (view := State.bridges) (fun _ _ => rfl) fun t b => t.handNotice_bridges b
  have hgroups := hkeeps (view := State.groups) (fun _ _ => rfl) fun t b => t.handNotice_groups b
  have hqueue := hkeeps (view := State.queue) (fun _ _ => rfl) fun t b => t.handNotice_queue b
  have hsettles := hkeeps (view := State.settles) (fun _ _ => rfl) fun t b => t.handNotice_settles b
  have hnext := hkeeps (view := State.nextSettle) (fun _ _ => rfl) fun t b => t.handNotice_nextSettle b
  unfold State.testEnded
  generalize s.changeLine sp .seek .proveEnd none = u at *
  have hsettled := State.settleProve_settles u sp .done (hprove.trans hp)
  have hspan := State.span_of_spans (State.settleProve_spans u sp .done) sp
  have hb := (State.settleProve_keeps u sp .done (view := State.bridges)).trans hbridges
  have hg := (State.settleProve_keeps u sp .done (view := State.groups)).trans hgroups
  have hq := (State.settleProve_keeps u sp .done (view := State.queue)).trans hqueue
  rw [hsettles, hnext] at hsettled
  generalize u.settleProve sp .done = v at *
  have hend : (v.endProve sp).span sp = { u.span sp with prove := none } := by
    unfold State.endProve
    rw [State.modSpan_eq, State.span_setSpan_same, hspan]
  have hpart : (State.finish s (v.endProve sp)).settledPart = (v.endProve sp).settledPart :=
    State.finish_settledPart hb hg (State.headLeft_same hq)
  have hsets : (State.finish s (v.endProve sp)).settles = v.settles := by
    have h := congrArg State.settles hpart
    exact h
  have hfield := fun {β : Type} (f : SpanState → β)
      (hf : ∀ k : SpanState, f { k with txQueue := [], txnCounter := 0 } = f k) =>
    ((v.endProve sp).finish_spanField sp s f hf).trans (congrArg f hend)
  refine ⟨(hfield SpanState.line fun _ => rfl).trans hline, (hfield SpanState.cause fun _ => rfl).trans hcause,
    hfield SpanState.prove fun _ => rfl, (hfield SpanState.proveChecked fun _ => rfl).trans hchecked,
    (hfield SpanState.proveErrored fun _ => rfl).trans herrored, fun ref hr => ?_, fun hr => ?_⟩
  · rw [hsets, hsettled, hr]
    rfl
  · rw [hsets, hsettled, hr]
    exact List.append_nil _

/-- Settles O29. -/
theorem spanPassages : Obligations.SpanPassages := by
  unfold Obligations.SpanPassages
  refine ⟨fun sp s h => ⟨fun hl hg => ?_, fun hl hg => ⟨?_, ?_⟩, fun hl he => ?_, fun hl ht => ?_, fun hl hh => ?_,
    fun hg => ?_, fun he => ?_, fun ht => ?_, fun hh => ?_⟩, fun sp s p h hl hp hs => ?_⟩
  · exact enters_changeLine h (exec_spanTrained sp s) (s.spanTrained_seek sp hl hg)
  · exact enters_changeLine h (exec_spanTrained sp s) (s.spanTrained_answer sp hl hg)
  · exact ⟨_, by rw [exec_running h (exec_spanTrained sp s), s.spanTrained_answer sp hl hg],
      finish_enteredInService s sp hl⟩
  · exact enters_changeLine h (exec_spanErrors sp s) (s.spanErrors_due sp hl he)
  · exact enters_changeLine h (exec_peerRestart sp s) (s.peerRestart_due sp hl ht)
  · exact enters_changeLine h (exec_holdDownRecovered sp s) (s.holdDownRecovered_due sp hl hh)
  · rw [exec_running h (exec_spanTrained sp s), s.spanTrained_below sp hg]
  · rw [exec_running h (exec_spanErrors sp s), s.spanErrors_below sp he]
  · rw [exec_running h (exec_peerRestart sp s), s.peerRestart_below sp ht]
  · rw [exec_running h (exec_holdDownRecovered sp s), s.holdDownRecovered_below sp hh]
  · refine ⟨_, by rw [exec_running h (exec_proveEnd sp s), State.proveEnd_due hl hp hs], ?_⟩
    exact finish_testEnded s sp hl hp

end Sys2Proof.Machine
end

section
/-! PROOFS. SPAN orders (R128 to R130). -/

namespace Sys2Proof.Machine

open Sys2Proof

namespace State

variable (s : State) (ref : OrderRef) (sp : Span)

theorem dispatch_span (x : SpanAction) (frames : Nat) :
    s.dispatch ref (.span sp x frames) = s.spanOrder ref sp x frames := rfl

/-- What a SPAN order that settles at its take leaves: its settle, and nothing else of what the order could touch. -/
theorem settleSpan_spec (code : ResultCode) : let t := s.settleSpan ref sp code
    t.settles = s.settles ++ [⟨s.nextSettle, ref, code, 1⟩] ∧ t.spans = s.spans ∧ t.nte = s.nte ∧
      t.circuits = s.circuits ∧ t.bridges = s.bridges := by
  unfold settleSpan
  simp

theorem slotsInUse_iff : s.slotsInUse sp = true ↔ ∃ b : BearerSlot, b.span = sp ∧ (s.slotEntry b).use ≠ .free := by
  simp only [slotsInUse, List.any_eq_true, List.mem_finRange, true_and, bne_iff_ne]
  constructor
  · rintro ⟨n, hn⟩
    exact ⟨⟨sp, n⟩, rfl, hn⟩
  · rintro ⟨⟨_, n⟩, rfl, hn⟩
    exact ⟨n, hn⟩

variable {s ref sp}

theorem spanOrder_absent (h : s.spanPresent sp = false) (x : SpanAction) (frames : Nat) :
    s.spanOrder ref sp x frames = s.settleSpan ref sp .absent := by
  simp [spanOrder, h]

theorem spanOrder_enable (h : s.spanPresent sp = true) (hl : (s.span sp).line = .disabled) (frames : Nat) :
    s.spanOrder ref sp .enable frames = (s.changeLine sp .seek .order none).settleSpan ref sp .done := by
  simp [spanOrder, h, hl]

theorem spanOrder_enabled (h : s.spanPresent sp = true) (hl : (s.span sp).line ≠ .disabled) (frames : Nat) :
    s.spanOrder ref sp .enable frames = s.settleSpan ref sp .done := by
  simp [spanOrder, h, hl]

theorem spanOrder_disable_used (h : s.spanPresent sp = true) (hu : s.slotsInUse sp = true) (frames : Nat) :
    s.spanOrder ref sp .disable frames = s.settleSpan ref sp .spanBusy := by
  simp [spanOrder, h, hu]

theorem spanOrder_prove_busy (h : s.spanPresent sp = true)
    (hu : s.slotsInUse sp = true ∨ (s.span sp).line = .inService ∨ (s.span sp).line = .proving) (frames : Nat) :
    s.spanOrder ref sp .prove frames = s.settleSpan ref sp .spanBusy := by
  rcases hu with hu | hu | hu <;> simp [spanOrder, h, hu, LineState.mayProve]

theorem spanOrder_disabled (h : s.spanPresent sp = true) (hu : ¬s.slotsInUse sp = true)
    (hl : (s.span sp).line = .disabled) (frames : Nat) :
    s.spanOrder ref sp .disable frames = s.settleSpan ref sp .done := by
  simp [spanOrder, h, hu, disableSpan, hl]

theorem spanOrder_disable (h : s.spanPresent sp = true) (hu : ¬s.slotsInUse sp = true)
    (hl : (s.span sp).line ≠ .disabled) (frames : Nat) : s.spanOrder ref sp .disable frames =
      (((s.changeLine sp .disabled .order none).settleProve sp .done).endProve sp).settleSpan ref sp .done := by
  simp [spanOrder, h, hu, disableSpan, hl]

theorem spanOrder_prove (h : s.spanPresent sp = true) (hu : ¬s.slotsInUse sp = true)
    (hs : (s.span sp).line ≠ .inService) (hp : (s.span sp).line ≠ .proving) (frames : Nat) :
    s.spanOrder ref sp .prove frames = s.startProve ref sp frames := by
  have hm : LineState.mayProve (s.span sp).line = true := by
    cases hl : (s.span sp).line
    case inService => exact absurd hl hs
    case proving => exact absurd hl hp
    all_goals rfl
  simp [spanOrder, h, hu, hm]

theorem changeLine_span (s : State) (sp : Span) (line : LineState) (cause : SpanCause) (hold : Option HoldCause) :
    (s.changeLine sp line cause hold).span sp = (s.lineMoved sp line cause hold).span sp := by
  rw [changeLine_eq, span_handNotice]

theorem endProve_span (s : State) (sp : Span) : (s.endProve sp).span sp = { s.span sp with prove := none } := by
  unfold endProve
  rw [modSpan_eq, span_setSpan_same]

/-- A DISABLE that takes its span out of use (R128, R130). -/
theorem disabled_spec (s : State) (ref : OrderRef) (sp : Span) :
    let t := (((s.changeLine sp .disabled .order none).settleProve sp .done).endProve sp).settleSpan ref sp .done
    (t.span sp).line = .disabled ∧ (t.span sp).cause = some .order ∧ (t.span sp).prove = none ∧
      (t.settles.getLast?.map fun x => (x.ref, x.code)) = some (ref, .done) := by
  obtain ⟨hline, hcause, -⟩ := lineMoved_span s sp .disabled .order none
  rw [← changeLine_span] at hline hcause
  generalize s.changeLine sp .disabled .order none = u at *
  obtain ⟨hsettles, hspans, -⟩ := settleSpan_spec ((u.settleProve sp .done).endProve sp) ref sp .done
  dsimp only
  rw [span_of_spans hspans, hsettles, endProve_span, span_of_spans (settleProve_spans u sp .done)]
  exact ⟨hline, hcause, rfl, by simp⟩

/-- A DISABLE that cuts a test short settles the test's order and then its own (R130). -/
theorem disabled_settles (s : State) (ref : OrderRef) (sp : Span) {p : ProveRun} {old : OrderRef}
    (hl : (s.span sp).line = .proving) (hp : (s.span sp).prove = some p) (ho : p.ref = some old) :
    ((((s.changeLine sp .disabled .order none).settleProve sp .done).endProve sp).settleSpan ref sp .done).settles =
      s.settles ++ [⟨s.nextSettle, old, .done, 1⟩, ⟨s.nextSettle + 1, ref, .done, 1⟩] := by
  have hne : (s.span sp).line ≠ .inService := by rw [hl]; decide
  obtain ⟨-, -, -, -, -, hprove, -⟩ := lineMoved_span s sp .disabled .order none
  rw [← changeLine_span] at hprove
  have hsettles := changeLine_keeps_quiet s sp (line := .disabled) .order none hne (by decide) (view := settles)
  have hnext := changeLine_keeps_quiet s sp (line := .disabled) .order none hne (by decide) (view := nextSettle)
  generalize s.changeLine sp .disabled .order none = u at *
  have hfirst := settleProve_settles u sp .done (hprove.trans hp)
  have hcount : (u.settleProve sp .done).nextSettle = u.nextSettle + 1 := by
    unfold settleProve
    dsimp only
    rw [hprove, hp]
    simp [ho]
  obtain ⟨hlast, -⟩ := settleSpan_spec ((u.settleProve sp .done).endProve sp) ref sp .done
  rw [hlast]
  change (u.settleProve sp .done).settles ++ [⟨(u.settleProve sp .done).nextSettle, ref, .done, 1⟩] = _
  rw [hfirst, hcount, hsettles, hnext, ho, List.append_assoc]
  rfl

/-- An ENABLE that takes its span into SEEK (R128). -/
theorem enabled_spec (s : State) (ref : OrderRef) (sp : Span) (hl : (s.span sp).line = .disabled) :
    let t := (s.changeLine sp .seek .order none).settleSpan ref sp .done
    t.settles = s.settles ++ [⟨s.nextSettle, ref, .done, 1⟩] ∧ (t.span sp).line = .seek ∧
      (t.span sp).cause = some .order := by
  have hne : (s.span sp).line ≠ .inService := by rw [hl]; decide
  obtain ⟨hline, hcause, -⟩ := lineMoved_span s sp .seek .order none
  rw [← changeLine_span] at hline hcause
  have hsettles := changeLine_keeps_quiet s sp (line := .seek) .order none hne (by decide) (view := settles)
  have hnext := changeLine_keeps_quiet s sp (line := .seek) .order none hne (by decide) (view := nextSettle)
  generalize s.changeLine sp .seek .order none = u at *
  obtain ⟨hlast, hspans, -⟩ := settleSpan_spec u ref sp .done
  dsimp only
  rw [hlast, span_of_spans hspans, hsettles, hnext]
  exact ⟨rfl, hline, hcause⟩

/-- An accepted PROVE (R129). -/
theorem startProve_spec (s : State) (ref : OrderRef) (sp : Span) (frames : Nat) (hs : (s.span sp).line ≠ .inService) :
    let t := s.startProve ref sp frames
    t.settles = s.settles ∧ (t.span sp).line = .proving ∧ (t.span sp).cause = some .order ∧
      (t.span sp).proveChecked = 0 ∧ (t.span sp).proveErrored = 0 ∧
      ∃ p, (t.span sp).prove = some p ∧ p.ref = some ref ∧ p.asked = frames ∧ p.sent = 0 := by
  obtain ⟨hline, hcause, -⟩ := lineMoved_span s sp .proving .order none
  rw [← changeLine_span] at hline hcause
  have hsettles := changeLine_keeps_quiet s sp (line := .proving) .order none hs (by decide) (view := settles)
  unfold startProve
  generalize s.changeLine sp .proving .order none = u at *
  dsimp only
  rw [modSpan_eq, span_setSpan_same]
  exact ⟨hsettles, hline, hcause, rfl, rfl, _, rfl, rfl, rfl, rfl⟩

end State

/-- Settles O30. -/
theorem spanOrders : Obligations.SpanOrders := by
  unfold Obligations.SpanOrders
  intro s ref sp frames
  simp only [State.dispatch_span, ← State.slotsInUse_iff]
  refine ⟨fun h x => ?_, fun h => ⟨fun hl => ?_, fun hl => ?_, fun hu => ⟨?_, ?_⟩, fun hl => ?_, fun hu hl => ?_,
    fun hu hl => ?_, fun p old hu hl hp ho => ?_, fun hu hs hp => ?_⟩⟩
  · rw [State.spanOrder_absent h]
    exact s.settleSpan_spec ref sp .absent
  · rw [State.spanOrder_enable h hl]
    exact s.enabled_spec ref sp hl
  · rw [State.spanOrder_enabled h hl]
    exact s.settleSpan_spec ref sp .done
  · rw [State.spanOrder_disable_used h hu]
    exact s.settleSpan_spec ref sp .spanBusy
  · rw [State.spanOrder_prove_busy h (.inl hu)]
    exact s.settleSpan_spec ref sp .spanBusy
  · rw [State.spanOrder_prove_busy h (.inr hl)]
    exact s.settleSpan_spec ref sp .spanBusy
  · rw [State.spanOrder_disabled h hu hl]
    exact s.settleSpan_spec ref sp .done
  · rw [State.spanOrder_disable h hu hl]
    exact s.disabled_spec ref sp
  · rw [State.spanOrder_disable h hu (by rw [hl]; decide)]
    exact s.disabled_settles ref sp hl hp ho
  · rw [State.spanOrder_prove h hu hs hp]
    exact s.startProve_spec ref sp frames hs

end Sys2Proof.Machine
end

section
/-! PROOFS. What the loss of a path does (R13, R76 to R81, R127, R139). -/

namespace Sys2Proof.Machine

open Sys2Proof

namespace State

variable {s : State} {i : BridgeNo} {e : Bridge}

/-! ### Ports -/

theorem lossCause_eq (s : State) (p : PortNo) : s.lossCause p = if s.clockRole p = .drive then .noSignal else
    if (s.port p).lastBad = .misplaced then .misplacedSync else .missingSync := by
  unfold lossCause
  cases s.clockRole p <;> cases (s.port p).lastBad <;> rfl

/-- The port that its loss leaves (R137, R139). -/
def lostPort (s : State) (p : PortNo) : State :=
  s.setPort p { s.port p with presence := .lost, loss := 0, recovery := 0, trialTiming := none, rxStore := [],
                              cause := some (s.lossCause p), changeFrame := some s.counter }

theorem portLost_due {p : PortNo} (hp : (s.port p).presence = .present) (hl : (s.port p).loss = 3) :
    s.portLost p = ((((lineNumber p).elim (s.lostPort p) (s.lostPort p).resolveLineLoss).sourceUnhealthy
      (portSource p)).handNotice (.portState p .lost (s.lossCause p))) := by
  have hc : ((s.port p).presence == .present && (s.port p).loss == Config.lossRun) = true := by
    simp [hp, hl, show Config.lossRun = 3 from rfl]
  unfold portLost lostPort
  dsimp only
  rw [if_pos hc]
  generalize s.setPort p _ = t
  cases lineNumber p <;> simp only [Option.elim]

theorem portSource_line {p : PortNo} {n : Fin 8} (h : lineNumber p = some n) : portSource p = .line n := by
  revert h
  revert n
  revert p
  decide

theorem portSource_office {p : PortNo} {n : Fin 8} (h : officeNumber p = some n) :
    portSource p = .office n ∧ lineNumber p = none := by
  revert h
  revert n
  revert p
  decide

theorem portRecovered_due {p : PortNo} (hp : (s.port p).presence = .lost) (hr : (s.port p).recovery = 16) :
    ∃ x, s.portRecovered p = (s.setPort p x).handNotice (.portState p .present .recovered) := by
  have hc : ((s.port p).presence == .lost && (s.port p).recovery == Config.recoveryRun) = true := by
    simp [hp, hr, show Config.recoveryRun = 16 from rfl]
  unfold portRecovered
  dsimp only
  rw [if_pos hc]
  exact ⟨_, rfl⟩

/-! ### One entry -/

section
variable (h : s.bridge i = some e)
include h

theorem spanLossEntry_other {sp : Span} (hsp : e.bearer.span ≠ sp) : s.spanLossEntry sp i = s := by
  rw [spanLossEntry, withBridge_some _ h, if_neg (by simpa using hsp)]

theorem lineLossEntry_other {n : Fin 8} (hn : e.linePos.port ≠ n) : s.lineLossEntry n i = s := by
  rw [lineLossEntry, withBridge_some _ h, if_neg (by simpa using hn)]

theorem spanLossEntry_toFibre (hd : e.direction = .toFibre) : s.spanLossEntry e.bearer.span i = s.toPathLost i := by
  rw [spanLossEntry, withBridge_some _ h, if_pos (by simp), hd]

theorem spanLossEntry_toCopper (hd : e.direction = .toCopper) : s.spanLossEntry e.bearer.span i = s.fromSpanLost i := by
  rw [spanLossEntry, withBridge_some _ h, if_pos (by simp), hd]

theorem lineLossEntry_toFibre (hd : e.direction = .toFibre) : s.lineLossEntry e.linePos.port i = s.fromLineLost i := by
  rw [lineLossEntry, withBridge_some _ h, if_pos (by simp), hd]

theorem lineLossEntry_toCopper (hd : e.direction = .toCopper) : s.lineLossEntry e.linePos.port i = s.toPathLost i := by
  rw [lineLossEntry, withBridge_some _ h, if_pos (by simp), hd]

theorem unwind_outside (hp : e.phase ≠ .unwinding) (o : ResultCode) (r : Option Reason) (d l : Bool) :
    s.unwind i o r d l = (s.enterUnwinding i o r d l).sendAbandon i := by
  rw [unwind, withBridge_some _ h, if_neg (by simpa using hp)]

theorem unwind_inside (hp : e.phase = .unwinding) (o : ResultCode) (r : Option Reason) (d l : Bool) :
    s.unwind i o r d l = s := by
  rw [unwind, withBridge_some _ h, if_pos (by simpa using hp)]

/-- The loss of an entry's to-path, by its phase (R77, R78). -/
theorem toPathLost_spec :
    (e.phase = .awaitingOffer → s.toPathLost i = s.freeAs i .pathLost) ∧
    (e.phase = .offering ∨ e.phase = .matching ∨ e.phase = .rolled →
      s.toPathLost i = (s.enterUnwinding i .pathLost (some .pathLost) false true).sendAbandon i) ∧
    (e.phase = .releasing → s.toPathLost i = (s.stopToFeed e).beginGuard i) ∧
    (e.phase = .unwinding → s.toPathLost i = (s.stopToFeed e).freeEntry i) := by
  refine ⟨fun hp => ?_, fun hp => ?_, fun hp => ?_, fun hp => ?_⟩
  · rw [toPathLost, withBridge_some _ h, hp]
  · have hne : e.phase ≠ .unwinding := by rcases hp with hp | hp | hp <;> rw [hp] <;> decide
    rw [← unwind_outside h hne, toPathLost, withBridge_some _ h]
    rcases hp with hp | hp | hp <;> rw [hp]
  · rw [toPathLost, withBridge_some _ h, hp]
  · rw [toPathLost, withBridge_some _ h, hp]

/-- The loss of a TO_FIBRE entry's line port, by its phase (R79, R80). -/
theorem fromLineLost_spec : let u := (s.stopFromFeed e).setBridge i (some { e with fromLost := true })
    (e.phase = .awaitingOffer ∨ e.phase = .unwinding ∨ (e.phase = .offering ∧ e.rolled = true) → s.fromLineLost i = u) ∧
    (e.phase = .offering → e.rolled = false → s.fromLineLost i = u.roll i 0 true) ∧
    (e.phase = .matching → s.fromLineLost i = (u.roll i 0 true).enterRolled i) ∧
    (e.phase = .rolled →
      s.fromLineLost i = (u.modBridge i fun x => { x with forced := true }).releaseDecision i) ∧
    (e.phase = .releasing → s.fromLineLost i = u.freeEntry i) := by
  dsimp only
  rw [fromLineLost, withBridge_some _ h]
  refine ⟨fun hp => ?_, fun hp hr => ?_, fun hp => ?_, fun hp => ?_, fun hp => ?_⟩
  · rcases hp with hp | hp | ⟨hp, hr⟩
    · simp only [hp]
    · simp only [hp]
    · simp only [hp, hr, if_true]
  · simp only [hp, hr, Bool.false_eq_true, if_false]
    rfl
  · simp only [hp]
    rfl
  · simp only [hp]
  · simp only [hp]

/-- The entry that a roll leaves, and what the roll does of its circuit's hold (R11, R68). -/
theorem roll_reads (d : Int) (f : Bool) : ∃ x, (s.roll i d f).bridge i = some x ∧ x.circuit = e.circuit ∧
    x.direction = e.direction ∧ x.linePos = e.linePos ∧ x.group = e.group ∧ x.ref = e.ref ∧
    ((s.roll i d f).circuit e.circuit).hold = (seamNumbers (s.circuit e.circuit).hold d).hold ∧
    (s.roll i d f).settles = s.settles ∧ (s.roll i d f).nextSettle = s.nextSettle := by
  rw [roll, withBridge_some _ h]
  refine ⟨_, bridge_setBridge_same _ _ _, rfl, rfl, rfl, rfl, rfl, ?_, rfl, rfl⟩
  unfold seamSwitch
  dsimp only
  rw [circuit_setBridge, modAlign, circuit_setAlign, modCircuit_eq, circuit_setCircuit_same]

/-- The entry that a TO_COPPER entry's forward completion frees, in the state it is freed in (R81). -/
theorem completeForward_freed (hd : e.direction = .toCopper) : ∃ (u : State) (x : Bridge),
    s.completeForward i = u.freeAs i .doneForced ∧ u.bridge i = some x ∧ x.circuit = e.circuit ∧
      x.direction = .toCopper ∧ x.linePos = e.linePos ∧ x.group = e.group ∧ x.ref = e.ref ∧
      (u.circuit e.circuit).hold = (if e.rolled then (s.circuit e.circuit).hold
        else (seamNumbers (s.circuit e.circuit).hold 0).hold) ∧
      u.settles = s.settles ∧ u.nextSettle = s.nextSettle := by
  have hrolled : ∃ (t : State) (y : Bridge), (if e.rolled then s else s.roll i 0 true) = t ∧ t.bridge i = some y ∧
      y.circuit = e.circuit ∧ y.direction = e.direction ∧ y.linePos = e.linePos ∧ y.group = e.group ∧ y.ref = e.ref ∧
      (t.circuit e.circuit).hold = (if e.rolled then (s.circuit e.circuit).hold
        else (seamNumbers (s.circuit e.circuit).hold 0).hold) ∧
      t.settles = s.settles ∧ t.nextSettle = s.nextSettle := by
    cases e.rolled
    · obtain ⟨y, hy⟩ := roll_reads h 0 true
      exact ⟨_, y, rfl, hy⟩
    · exact ⟨s, e, rfl, h, rfl, rfl, rfl, rfl, rfl, rfl, rfl, rfl⟩
  obtain ⟨t, y, ht, hy, hc, hdir, hl, hg, hr, hhold, hs, hn⟩ := hrolled
  rw [completeForward, withBridge_some _ h, ht]
  dsimp only
  have hy' : (t.modCircuit e.circuit fun k => (k.feedFrom e.direction false).feedTo e.direction true).bridge i =
      some y := hy
  rw [modBridge_some _ hy', freeEntry, withBridge_some _ (bridge_setBridge_same _ _ _)]
  refine ⟨_, _, rfl, bridge_setBridge_same _ _ _, hc, hdir.trans hd, hl, hg, hr, ?_, hs, hn⟩
  rw [circuit_setBridge, modCircuit_eq, circuit_setCircuit_same, ← hhold, hd]
  rfl

end

/-- A TO_COPPER entry freed forward leaves its circuit COPPER on the target (R3). -/
theorem freeAs_copper {u : State} {x : Bridge} (hx : u.bridge i = some x) (hd : x.direction = .toCopper) :
    let t := u.freeAs i .doneForced
    let k := t.circuit x.circuit
    t.bridge i = none ∧ k.pathState = .copper ∧ k.linePos = some x.linePos ∧ k.receive = .line ∧ k.lineFeed = true ∧
      k.spanFeed = false ∧ k.bearer = none ∧ k.hold = (u.circuit x.circuit).hold ∧
      (∀ ref, x.group = none → x.ref = some ref → t.settles = u.settles ++ [⟨u.nextSettle, ref, .doneForced, 1⟩]) := by
  obtain ⟨hbridge, hcirc, -, -⟩ := freeAs_reads hx .doneForced
  obtain ⟨-, -, -, -, hsettles⟩ := freeAs_fields hx .doneForced
  dsimp only
  have hk : (u.freeAs i .doneForced).circuit x.circuit = u.circuitAfter x .doneForced := by
    rw [hcirc, if_pos rfl]
  have hform : u.freedCircuit x (releasedForm .doneForced) =
      Circuit.endCopper { u.circuit x.circuit with linePos := some x.linePos, bearer := none } := by
    unfold freedCircuit
    rw [hd]
    rfl
  rw [hk, hbridge, if_pos rfl, circuitAfter, hform]
  refine ⟨rfl, rfl, rfl, rfl, rfl, rfl, rfl, rfl, fun ref hg hr => ?_⟩
  rw [hsettles, hg, hr]

/-- A TO_COPPER entry before its point of no return is completed forward by the loss of its span (R81). -/
theorem completeForward_spec (h : s.bridge i = some e) (hd : e.direction = .toCopper) : let t := s.completeForward i
    let k := t.circuit e.circuit
    t.bridge i = none ∧ k.pathState = .copper ∧ k.linePos = some e.linePos ∧ k.receive = .line ∧ k.lineFeed = true ∧
      k.spanFeed = false ∧ k.bearer = none ∧
      k.hold = (if e.rolled then (s.circuit e.circuit).hold else (seamNumbers (s.circuit e.circuit).hold 0).hold) ∧
      (∀ ref, e.group = none → e.ref = some ref →
        t.settles = s.settles ++ [⟨s.nextSettle, ref, .doneForced, 1⟩]) := by
  obtain ⟨u, x, hu, hx, hc, hdir, hl, hg, hr, hhold, hs, hn⟩ := completeForward_freed h hd
  have hfreed := freeAs_copper hx hdir
  rw [hc, hl, hg, hr, hs, hn, hhold] at hfreed
  rw [hu]
  exact hfreed

theorem fromSpanLost_spec (h : s.bridge i = some e) (hd : e.direction = .toCopper) :
    (e.phase = .releasing → s.fromSpanLost i = (s.stopFromFeed e).freeEntry i) ∧
    (e.phase = .unwinding → let u := (s.stopFromFeed e).setBridge i (some { e with fromLost := true })
      ((s.circuit e.circuit).lineFeed = true → s.fromSpanLost i = u.beginGuard i) ∧
      ((s.circuit e.circuit).lineFeed = false → s.fromSpanLost i = u.freeEntry i)) ∧
    (e.phase = .awaitingOffer ∨ e.phase = .offering ∨ e.phase = .matching ∨ e.phase = .rolled →
      s.fromSpanLost i = s.completeForward i) := by
  have hfeeds : (s.circuit e.circuit).feedsTo e.direction = (s.circuit e.circuit).lineFeed := by rw [hd]; rfl
  rw [fromSpanLost, withBridge_some _ h, hfeeds]
  refine ⟨fun hp => ?_, fun hp => ⟨fun hf => ?_, fun hf => ?_⟩, fun hp => ?_⟩
  · simp only [hp]
  · simp only [hp, hf, if_true]
  · simp only [hp, hf, Bool.false_eq_true, if_false]
  · rcases hp with hp | hp | hp | hp <;> simp only [hp]

end State

/-- The state that a span's leaving of IN_SERVICE brings about before the end of its step (R76, R127). -/
theorem changeLine_left (s : State) (sp : Span) (line : LineState) (cause : SpanCause) (hold : Option HoldCause)
    (hl : (s.span sp).line = .inService) (he : line ≠ .inService) : s.changeLine sp line cause hold =
      ((s.setSpan sp ((s.span sp).entering line cause hold)).spanLost sp).handNotice
        (.spanState sp .inService line cause hold) := by
  rw [State.changeLine_eq, State.lineMoved_lost _ _ _ _ hl he, hl]

theorem exec_portLost (p : PortNo) (s : State) : exec (.portLost p) s = act s (·.portLost p) := rfl
theorem exec_portRecovered (p : PortNo) (s : State) : exec (.portRecovered p) s = act s (·.portRecovered p) := rfl

/-- Settles O31. -/
theorem pathLosses : Obligations.PathLosses := by
  unfold Obligations.PathLosses
  refine ⟨fun sp s h => ⟨fun hl he => ?_, fun hl ht => ?_⟩, fun p s h => ⟨fun hp hl => ⟨fun n hn => ?_, fun n hn => ?_⟩,
    fun hp hr => ?_⟩, fun s sp n => ⟨rfl, rfl⟩, fun s i e h => ⟨fun sp => State.spanLossEntry_other h,
    fun n => State.lineLossEntry_other h, fun t ht => ?_, fun hd => ?_, fun hd => ?_⟩⟩
  · rw [exec_running h (exec_spanErrors sp s), s.spanErrors_due sp (.inr hl) he,
      changeLine_left s sp _ _ _ hl (by decide)]
    rfl
  · rw [exec_running h (exec_peerRestart sp s), s.peerRestart_due sp hl ht, changeLine_left s sp _ _ _ hl (by decide)]
    rfl
  · rw [exec_running h (exec_portLost p s), State.portLost_due hp hl, hn, State.portSource_line hn, Option.elim_some,
      State.lostPort, State.lossCause_eq]
  · obtain ⟨hsource, hline⟩ := State.portSource_office hn
    rw [exec_running h (exec_portLost p s), State.portLost_due hp hl, hline, hsource, Option.elim_none,
      State.lostPort, State.lossCause_eq]
  · obtain ⟨x, hx⟩ := State.portRecovered_due hp hr
    exact ⟨s.setPort p x, by rw [exec_running h (exec_portRecovered p s), hx], rfl, rfl⟩
  · have hlost : t = s.toPathLost i := by
      rcases ht with ⟨hd, rfl⟩ | ⟨hd, rfl⟩
      · exact State.spanLossEntry_toFibre h hd
      · exact State.lineLossEntry_toCopper h hd
    rw [hlost]
    exact State.toPathLost_spec h
  · rw [State.lineLossEntry_toFibre h hd]
    exact State.fromLineLost_spec h
  · rw [State.spanLossEntry_toCopper h hd]
    obtain ⟨hreleasing, hunwinding, hforward⟩ := State.fromSpanLost_spec h hd
    refine ⟨hreleasing, hunwinding, fun hp => ?_⟩
    rw [hforward hp]
    exact State.completeForward_spec h hd

end Sys2Proof.Machine
end

section
/-! PROOFS. The presence counts of a port (R135 to R140), and signalling reports (R142 to R145). -/

namespace Sys2Proof.Machine

open Sys2Proof

/-- A port less its elastic stores with their slips, what it sends, and its invalid reports. -/
def Port.countPart (k : Port) : Port :=
  { k with rxStore := [], lastRead := tab 32 fun _ => 0, txStore := [], sending := none, slips := 0, txSlips := 0,
           invalidReports := 0, lastSlipNotice := none }

namespace State

variable (s : State)

/-! ### What a change of activity keeps (R40, R67, R145) -/

section
variable {β : Type} {view : State → β} (hs : ∀ t : State, view t.still = view t)
  (hw : ∀ (t : State) l, view (t.setWatch l) = view t) (hq : ∀ (t : State) q, view (t.setQueue q) = view t)
include hs hw hq

theorem watchIdle_keeps (c : CircuitNo) : view (s.watchIdle c) = view s := by
  have htrim : ∀ w, view (s.executeTrim w) = view s := by
    intro w
    unfold executeTrim
    dsimp only
    rw [keeps_of_still hs (still_settleMove _ _ _ _ _), keeps_of_still hs (still_dropHold _ _)]
    exact hw _ _
  unfold watchIdle
  split
  · rfl
  · split
    · exact htrim _
    · split
      · unfold moveToQueue
        split
        · exact (hq _ _).trans (hw _ _)
        · rfl
      · exact hw _ _

theorem activityChanged_keeps (c : CircuitNo) (left entered : Activity) :
    view (s.activityChanged c left entered) = view s := by
  unfold activityChanged
  split
  · exact (keeps_of_still hs (still_quickOnIdle _ _)).trans (watchIdle_keeps s hs hw hq c)
  · split
    · exact hw _ _
    · rfl

end

/-! ### Reports -/

theorem activityChanged_monitors (c : CircuitNo) (l e : Activity) : (s.activityChanged c l e).monitors = s.monitors :=
  activityChanged_keeps s (view := monitors) (fun _ => rfl) (fun _ _ => rfl) (fun _ _ => rfl) c l e

theorem activityChanged_ports (c : CircuitNo) (l e : Activity) : (s.activityChanged c l e).ports = s.ports :=
  activityChanged_keeps s (view := ports) (fun _ => rfl) (fun _ _ => rfl) (fun _ _ => rfl) c l e

theorem monitor_of_monitors {s t : State} (h : t.monitors = s.monitors) (c : CircuitNo) : t.monitor c = s.monitor c := by
  unfold monitor
  rw [h]

theorem validReport_monitors (c : CircuitNo) (x : Activity) : (s.validReport c x).monitors =
    (s.setMonitor c { activity := if (s.monitor c).candidate = some x ∧ (s.monitor c).activity ≠ x then x
      else (s.monitor c).activity, candidate := some x, age := 0 }).monitors := by
  have hcond : ((s.monitor c).candidate == some x && (s.monitor c).activity != x) = true ↔
      (s.monitor c).candidate = some x ∧ (s.monitor c).activity ≠ x := by simp
  unfold validReport
  dsimp only
  by_cases h : ((s.monitor c).candidate == some x && (s.monitor c).activity != x) = true
  · rw [if_pos h, if_pos h, if_pos (hcond.mp h), activityChanged_monitors]
  · rw [if_neg h, if_neg h, if_neg (fun h' => h (hcond.mpr h'))]

theorem validReport_ports (c : CircuitNo) (x : Activity) : (s.validReport c x).ports = s.ports := by
  unfold validReport
  dsimp only
  split
  · rw [activityChanged_ports]
    rfl
  · rfl

theorem reportAgeExpiry_below (c : CircuitNo) (h : (s.monitor c).age < 8000) : s.reportAgeExpiry c = s := by
  simp [reportAgeExpiry, show Config.reportAgeLimit = 8000 from rfl, Nat.ne_of_lt h]

theorem reportAgeExpiry_monitors (c : CircuitNo) (h : (s.monitor c).age = 8000) :
    (s.reportAgeExpiry c).monitors = (s.setMonitor c ⟨.unknown, none, 8000⟩).monitors := by
  have hc : ((s.monitor c).age == Config.reportAgeLimit) = true := by simp [h, show Config.reportAgeLimit = 8000 from rfl]
  unfold reportAgeExpiry
  dsimp only
  rw [if_pos hc, h]
  split
  · rfl
  · rw [activityChanged_monitors]

theorem reportAgeExpiry_ports (c : CircuitNo) : (s.reportAgeExpiry c).ports = s.ports := by
  unfold reportAgeExpiry
  dsimp only
  split
  · split
    · rfl
    · rw [activityChanged_ports]
      rfl
  · rfl

/-! ### A frame period of a port -/

theorem port_of_ports {s t : State} (h : t.ports = s.ports) (p : PortNo) : t.port p = s.port p := by
  unfold port
  rw [h]

theorem takeReport_countPart (k : Fin 8) (octets : PortFrame) (p : PortNo) :
    ((s.takeReport k octets).port p).countPart = (s.port p).countPart := by
  unfold takeReport
  dsimp only
  split
  · rfl
  · split
    · rw [modPort_eq, port_setPort]
      split
      · next e => subst e; rfl
      · rfl
    · rw [port_of_ports (validReport_ports _ _ _), port_of_ports (reportAgeExpiry_ports _ _)]

theorem writePortStore_countPart (p : PortNo) (octets : PortFrame) :
    ((s.writePortStore p octets).port p).countPart = (s.port p).countPart := by
  unfold writePortStore
  split
  · rw [modPort_eq, port_setPort_same]
    rfl
  · dsimp only
    split
    · obtain ⟨x, hx⟩ := portSlip_port (s.modPort p fun k =>
        { k with rxStore := (storeWrite (s.port p).rxStore octets).1 }) p .deleting
      rw [hx, modPort_eq, port_setPort_same]
      rfl
    · rw [modPort_eq, port_setPort_same]
      rfl

theorem receivePort_countPart (p : PortNo) (octets : PortFrame) :
    ((s.receivePort p octets).port p).countPart = (s.port p).countPart := by
  unfold receivePort
  dsimp only
  split
  · rw [writePortStore_countPart]
    split
    · exact takeReport_countPart s _ octets p
    · rfl
  · rfl

theorem readTransmit_countPart (p : PortNo) : ((s.readTransmit p).port p).countPart = (s.port p).countPart := by
  unfold readTransmit
  dsimp only
  split
  · split
    · rw [port_setPort_same]
      rfl
    · rw [port_setPort_same]
      rfl
  · rfl

theorem portLost_below {p : PortNo} (h : (s.port p).loss < 3) : s.portLost p = s := by
  simp [portLost, show Config.lossRun = 3 from rfl, Nat.ne_of_lt h]

theorem portRecovered_below {p : PortNo} (h : (s.port p).recovery < 16) : s.portRecovered p = s := by
  simp [portRecovered, show Config.recoveryRun = 16 from rfl, Nat.ne_of_lt h]

theorem duePresence_below {p : PortNo} (hl : (s.port p).loss < 3) (hr : (s.port p).recovery < 16) :
    s.duePresence p = s := by
  unfold duePresence
  split
  · exact portLost_below s hl
  · exact portRecovered_below s hr

/-- The port after a frame period, as far as it is counted (R137). -/
theorem portPeriod_countPart (p : PortNo) (rx : PortPeriod) (h : s.duePresence p = s) :
    ((s.portPeriod p rx).port p).countPart =
      (countPeriod (s.port p) (s.clockRole p) (s.syncStyle p) rx).countPart := by
  unfold portPeriod
  rw [h]
  dsimp only
  split
  · rw [modPort_eq, port_setPort_same]
  · rw [readTransmit_countPart, receivePort_countPart, modPort_eq, port_setPort_same]

end State

theorem exec_portFramePeriod (p : PortNo) (rx : PortPeriod) (s : State) : exec (.portFramePeriod p rx) s =
    act s fun s => if s.running then s.portPeriod p rx else s := rfl

theorem exec_reportAgeExpiry (c : CircuitNo) (s : State) :
    exec (.reportAgeExpiry c) s = act s fun s => s.reportAgeExpiry c := rfl

/-! ### The counts by presence and role (R136, R137) -/

section
variable {k : Port} {role : ClockRole} {style : SyncStyle} {rx : PortPeriod}

theorem countPeriod_presence : (countPeriod k role style rx).presence = k.presence := by
  unfold countPeriod
  (repeat' split) <;> rfl

theorem countPeriod_present_good (hp : k.presence = .present)
    (hj : judgePeriod role style k.frameTiming rx = .good) : (countPeriod k role style rx).loss = 0 := by
  simp [countPeriod, hp, hj]

theorem countPeriod_present_bad (hp : k.presence = .present) (hl : k.loss < 3)
    (hj : judgePeriod role style k.frameTiming rx ≠ .good) : (countPeriod k role style rx).loss = k.loss + 1 ∧
      (countPeriod k role style rx).frameTiming = k.frameTiming := by
  have hrun : min (k.loss + 1) Config.lossRun = k.loss + 1 := Nat.min_eq_left hl
  simp [countPeriod, hp, hrun]

theorem countPeriod_drive_good (hp : k.presence = .lost) (hr : k.recovery < 16)
    (hj : judgePeriod .drive style none rx = .good) : (countPeriod k .drive style rx).recovery = k.recovery + 1 := by
  have hrun : min (k.recovery + 1) Config.recoveryRun = k.recovery + 1 := Nat.min_eq_left hr
  simp [countPeriod, hp, hj, hrun]

theorem countPeriod_drive_bad (hp : k.presence = .lost) (hj : judgePeriod .drive style none rx ≠ .good) :
    (countPeriod k .drive style rx).recovery = 0 := by
  cases h : judgePeriod .drive style none rx
  case good => exact absurd h hj
  all_goals simp [countPeriod, hp, h]

theorem countPeriod_trial_found (hp : k.presence = .lost) (ht : k.trialTiming = none) {x : Fin 256}
    (hx : findTrial style rx = some x) : (countPeriod k .follow style rx).recovery = 1 ∧
      (countPeriod k .follow style rx).trialTiming = some x := by
  simp [countPeriod, hp, ht, hx]

theorem countPeriod_trial_good (hp : k.presence = .lost) (hr : k.recovery < 16) {x : Fin 256}
    (ht : k.trialTiming = some x) (hj : judgePeriod .follow style (some x) rx = .good) :
    (countPeriod k .follow style rx).recovery = k.recovery + 1 ∧
      (countPeriod k .follow style rx).trialTiming = some x := by
  have hrun : min (k.recovery + 1) Config.recoveryRun = k.recovery + 1 := Nat.min_eq_left hr
  simp [countPeriod, hp, ht, hj, hrun]

theorem countPeriod_trial_bad (hp : k.presence = .lost) {x : Fin 256} (ht : k.trialTiming = some x)
    (hj : judgePeriod .follow style (some x) rx ≠ .good) : (countPeriod k .follow style rx).recovery = 0 ∧
      (countPeriod k .follow style rx).trialTiming = none := by
  cases h : judgePeriod .follow style (some x) rx
  case good => exact absurd h hj
  all_goals simp [countPeriod, hp, ht, h]

end

theorem portRecovered_port {s : State} {p : PortNo} (hp : (s.port p).presence = .lost)
    (hr : (s.port p).recovery = 16) : let x := (s.portRecovered p).port p
    x.presence = .present ∧ x.loss = 0 ∧ x.recovery = 0 ∧ x.cause = some .recovered ∧
      x.changeFrame = some s.counter ∧ x.rxStore = [tab 32 fun _ => s.idleOf p] ∧
      (s.clockRole p = .follow → x.frameTiming = (s.port p).trialTiming) := by
  have hc : ((s.port p).presence == .lost && (s.port p).recovery == Config.recoveryRun) = true := by
    simp [hp, hr, show Config.recoveryRun = 16 from rfl]
  unfold State.portRecovered
  dsimp only
  rw [if_pos hc, State.handNotice_port, State.port_setPort_same]
  exact ⟨rfl, rfl, rfl, rfl, rfl, rfl, fun hf => by simp [hf]⟩

theorem resolveLineLoss_port (s : State) (n : Fin 8) (p : PortNo) : (s.resolveLineLoss n).port p = s.port p :=
  State.keeps_of_still (view := fun t => t.port p) (fun _ => rfl) (State.still_resolveLineLoss s n)

theorem portLost_port {s : State} {p : PortNo} (hp : (s.port p).presence = .present) (hl : (s.port p).loss = 3) :
    (s.portLost p).port p = { s.port p with
      presence := .lost, loss := 0, recovery := 0, trialTiming := none, rxStore := [],
      cause := some (s.lossCause p), changeFrame := some s.counter } := by
  have hfield : ∀ t : State, (t.sourceUnhealthy (portSource p)).port p = t.port p := fun t =>
    State.sourceUnhealthy_keeps t _ (view := fun t => t.port p)
  rw [State.portLost_due hp hl, State.handNotice_port, hfield]
  cases lineNumber p with
  | none =>
    rw [Option.elim_none, State.lostPort, State.port_setPort_same]
  | some n =>
    rw [Option.elim_some, resolveLineLoss_port, State.lostPort, State.port_setPort_same]

/-- Settles O32. -/
theorem portFrameCounts : Obligations.PortFrameCounts := by
  unfold Obligations.PortFrameCounts
  refine ⟨fun p rx s h hph hl hr => ?_, fun p s h => ⟨fun hp hl => ?_, fun hp hr => ?_, fun hl => ?_, fun hr => ?_⟩⟩
  · refine ⟨_, by rw [exec_running h (exec_portFramePeriod p rx s), if_pos ((State.running_iff s).mpr hph)], ?_⟩
    have hcount := s.portPeriod_countPart p rx (s.duePresence_below hl hr)
    rw [State.finish_port]
    generalize (s.portPeriod p rx).port p = x at hcount
    generalize s.port p = k at *
    generalize s.clockRole p = role at *
    generalize s.syncStyle p = style at *
    have hf : ∀ {β : Type} (f : Port → β), (∀ z : Port, f z.countPart = f z) →
        f x = f (countPeriod k role style rx) := by
      intro β f hf
      rw [← hf, hcount, hf]
    have hpres := hf Port.presence fun _ => rfl
    have hloss := hf Port.loss fun _ => rfl
    have hrec := hf Port.recovery fun _ => rfl
    have hframe := hf Port.frameTiming fun _ => rfl
    have htrial := hf Port.trialTiming fun _ => rfl
    rw [hpres, hloss, hrec, hframe, htrial]
    refine ⟨countPeriod_presence, countPeriod_present_good, fun hp hj => countPeriod_present_bad hp hl hj, ?_, ?_, ?_, ?_, ?_⟩
    · rintro hp rfl hj
      exact countPeriod_drive_good hp hr hj
    · rintro hp rfl hj
      exact countPeriod_drive_bad hp hj
    · rintro hp rfl ht y hy
      exact countPeriod_trial_found hp ht hy
    · rintro y hp rfl ht hj
      exact countPeriod_trial_good hp hr ht hj
    · rintro y hp rfl ht hj
      exact countPeriod_trial_bad hp ht hj
  · refine ⟨_, exec_running h (exec_portLost p s), ?_⟩
    rw [State.finish_port, portLost_port hp hl, ← State.lossCause_eq]
    exact ⟨rfl, rfl, rfl, rfl, rfl, rfl, rfl⟩
  · refine ⟨_, exec_running h (exec_portRecovered p s), ?_⟩
    rw [State.finish_port]
    exact portRecovered_port hp hr
  · rw [exec_running h (exec_portLost p s), s.portLost_below hl]
  · rw [exec_running h (exec_portRecovered p s), s.portRecovered_below hr]

/-! ### Signalling reports -/

theorem reportCondition_eq (b : Byte) : State.reportCondition b =
    if (b.extractLsb' 1 2).toNat = 0 then .idle else if (b.extractLsb' 1 2).toNat = 1 then .seized else
      if (b.extractLsb' 1 2).toNat = 2 then .answered else .blocked := by
  unfold State.reportCondition
  split <;> simp_all

namespace State

theorem takeReport_invalid {s : State} {k : Fin 8} {octets : PortFrame} (hs : s.cfg.signallingPresent = true)
    (hb : oddOnes octets[s.cfg.signallingSlot.val] = false ∨
      (octets[s.cfg.signallingSlot.val].extractLsb' 3 5).toNat = s.cfg.signallingSlot.val) :
    s.takeReport k octets =
      s.modPort (officePort k) fun p => { p with invalidReports := p.invalidReports + 1 } := by
  have hcond : (!oddOnes octets[s.cfg.signallingSlot.val] ||
      (octets[s.cfg.signallingSlot.val].extractLsb' 3 5).toFin == s.cfg.signallingSlot) = true := by
    rw [Bool.or_eq_true]
    rcases hb with hb | hb
    · exact .inl (by simp [hb])
    · exact .inr (beq_iff_eq.mpr (Fin.ext hb))
  unfold takeReport
  dsimp only
  rw [if_neg (by simp [hs]), if_pos hcond]

theorem takeReport_valid {s : State} {k : Fin 8} {octets : PortFrame} (hs : s.cfg.signallingPresent = true)
    (hodd : oddOnes octets[s.cfg.signallingSlot.val] = true)
    (hne : (octets[s.cfg.signallingSlot.val].extractLsb' 3 5).toNat ≠ s.cfg.signallingSlot.val) :
    let b := octets[s.cfg.signallingSlot.val]
    let c := circuitAt k (b.extractLsb' 3 5).toFin
    s.takeReport k octets = (s.reportAgeExpiry c).validReport c (reportCondition b) := by
  have hcond : ¬ (!oddOnes octets[s.cfg.signallingSlot.val] ||
      (octets[s.cfg.signallingSlot.val].extractLsb' 3 5).toFin == s.cfg.signallingSlot) = true := by
    simp only [hodd, Bool.not_true, Bool.false_or, beq_iff_eq, Fin.ext_iff]
    exact hne
  unfold takeReport
  dsimp only
  rw [if_neg (by simp [hs]), if_neg hcond]

/-! ### The monitors after a report depend on the monitors alone -/

section
variable {s t : State} (h : t.monitors = s.monitors)
include h

theorem setMonitor_monitors_of_same (c : CircuitNo) (m : Monitor) :
    (t.setMonitor c m).monitors = (s.setMonitor c m).monitors := by
  simp only [setMonitor, h]

theorem validReport_monitors_of_same (c : CircuitNo) (x : Activity) :
    (t.validReport c x).monitors = (s.validReport c x).monitors := by
  rw [validReport_monitors, validReport_monitors, monitor_of_monitors h]
  exact setMonitor_monitors_of_same h _ _

theorem reportAgeExpiry_monitors_of_same (c : CircuitNo) :
    (t.reportAgeExpiry c).monitors = (s.reportAgeExpiry c).monitors := by
  by_cases hage : (s.monitor c).age = 8000
  · rw [reportAgeExpiry_monitors _ c ((congrArg Monitor.age (monitor_of_monitors h c)).trans hage),
      reportAgeExpiry_monitors _ c hage]
    exact setMonitor_monitors_of_same h _ _
  · have hs : s.reportAgeExpiry c = s := by
      simp [reportAgeExpiry, show Config.reportAgeLimit = 8000 from rfl, hage]
    have ht : t.reportAgeExpiry c = t := by
      simp [reportAgeExpiry, show Config.reportAgeLimit = 8000 from rfl, monitor_of_monitors h c, hage]
    rw [hs, ht, h]

theorem takeReport_monitors_of_same (hcfg : t.cfg = s.cfg) (k : Fin 8) (octets : PortFrame) :
    (t.takeReport k octets).monitors = (s.takeReport k octets).monitors := by
  simp only [takeReport, hcfg]
  split
  · exact h
  · split
    · exact h
    · exact validReport_monitors_of_same (reportAgeExpiry_monitors_of_same h _) _ _

end

/-- A frame period's octets change no monitor but by the report they bring. -/
theorem writePortStore_monitors (s : State) (p : PortNo) (octets : PortFrame) :
    (s.writePortStore p octets).monitors = s.monitors := by
  have hslip : ∀ t : State, (t.portSlip p .deleting).monitors = t.monitors := fun t =>
    ReadProof.portSlip (view := monitors) {} t p .deleting
  unfold writePortStore
  split
  · rfl
  · dsimp only
    split
    · rw [hslip]
      rfl
    · rfl

theorem readTransmit_monitors (s : State) (p : PortNo) : (s.readTransmit p).monitors = s.monitors := by
  unfold readTransmit
  dsimp only
  split
  · split <;> rfl
  · rfl

theorem portPeriod_office_monitors {s : State} {k : Fin 8} (pulses : List SyncPulse) (octets : PortFrame)
    (hp : (s.port (officePort k)).presence = .present) (hl : (s.port (officePort k)).loss < 3) :
    (s.portPeriod (officePort k) (.clocked pulses octets)).monitors = (s.takeReport k octets).monitors := by
  have hdue : s.duePresence (officePort k) = s := by
    unfold duePresence
    rw [hp]
    exact portLost_below s hl
  have hnum : ∀ k, officeNumber (officePort k) = some k := by decide
  unfold portPeriod
  rw [hdue]
  dsimp only
  rw [readTransmit_monitors]
  unfold receivePort
  dsimp only
  rw [modPort_eq, port_setPort_same, countPeriod_presence, hp, if_pos (by rfl), writePortStore_monitors, hnum]
  exact takeReport_monitors_of_same (s := s) (t := s.setPort _ _) rfl rfl k octets

end State

/-- Settles O34. -/
theorem signallingMonitor : Obligations.SignallingMonitor := by
  unfold Obligations.SignallingMonitor
  refine ⟨⟨fun s c x => ⟨?_, fun c' hc => ?_⟩, fun s k octets hs hb => ?_⟩, fun s k octets hs hodd hne => ⟨?_, fun hage => ?_,
    fun hage => ?_⟩, fun s k octets hs => ?_, fun s k pulses octets h hph hp hl => ?_, fun c s h => ⟨fun hage => ?_,
    fun hage => ?_⟩⟩
  · rw [State.monitor_of_monitors (s.validReport_monitors c x), State.monitor_setMonitor_same]
  · rw [State.monitor_of_monitors (s.validReport_monitors c x), State.monitor_setMonitor_ne _ _ _ _ (Ne.symm hc)]
  · rw [State.takeReport_invalid hs hb, State.modPort_eq, State.port_setPort_same]
    exact ⟨rfl, rfl⟩
  · rfl
  · rw [State.takeReport_valid hs hodd hne, State.reportAgeExpiry_below _ _ hage, reportCondition_eq]
  · rw [State.takeReport_valid hs hodd hne, reportCondition_eq]
  · simp [State.takeReport, hs]
  · refine ⟨_, by rw [exec_running h (exec_portFramePeriod _ _ s), if_pos ((State.running_iff s).mpr hph)], fun c => ?_⟩
    rw [State.finish_monitor, State.monitor_of_monitors (State.portPeriod_office_monitors pulses octets hp hl)]
  · refine ⟨_, exec_running h (exec_reportAgeExpiry c s), ?_, fun c' hc => ?_⟩
    · rw [State.finish_monitor, State.monitor_of_monitors (s.reportAgeExpiry_monitors c hage),
        State.monitor_setMonitor_same]
    · rw [State.finish_monitor, State.monitor_of_monitors (s.reportAgeExpiry_monitors c hage),
        State.monitor_setMonitor_ne _ _ _ _ (Ne.symm hc)]
  · rw [exec_running h (exec_reportAgeExpiry c s), s.reportAgeExpiry_below c hage]

end Sys2Proof.Machine
end


section
/-! PROOFS. The elastic stores and their slips (R120, R131, R132, R140, R141). -/

namespace Sys2Proof.Machine

open Sys2Proof

namespace State

variable (s : State)

/-! ### Slips -/

/-- The entry that a restart of the matchers leaves of one (R66). -/
def restartedEntry (f : Bridge → Bool) (e : Bridge) : Bridge :=
  if e.phase == .matching && f e then { e with matcher := e.matcher.map Matcher.restart } else e

theorem restartMatchers_bridge (f : Bridge → Bool) (i : BridgeNo) :
    (s.restartMatchers f).bridge i = (s.bridge i).map (restartedEntry f) := by
  have hmod : ∀ (t : State) (j k : BridgeNo), (t.modBridge j (restartedEntry f)).bridge k =
      if j = k then (t.bridge j).map (restartedEntry f) else t.bridge k := by
    intro t j k
    unfold modBridge
    cases he : t.bridge j with
    | none =>
      dsimp only
      by_cases hjk : j = k
      · subst hjk; rw [if_pos rfl, he]; rfl
      · rw [if_neg hjk]
    | some e => exact bridge_setBridge _ _ _ _
  have h := each_at (view := fun j (t : State) => t.bridge j) (fun j (t : State) => t.modBridge j (restartedEntry f))
    (fun j k t hjk => by rw [hmod, if_neg hjk])
    (fun j t u htu => by rw [hmod, hmod, if_pos rfl, if_pos rfl, htu])
    (List.nodup_finRange 48) (List.mem_finRange i) s
  refine Eq.trans ?_ (h.trans ?_)
  · rfl
  · rw [hmod, if_pos rfl]

/-- The restarted matchers of the entries a slip concerns. -/
theorem restartMatchers_spec (f : Bridge → Bool) (i : BridgeNo) :
    (s.bridge i = none → (s.restartMatchers f).bridge i = none) ∧ ∀ e, s.bridge i = some e →
      (e.phase = .matching ∧ f e = true →
        (s.restartMatchers f).bridge i = some { e with matcher := e.matcher.map Matcher.restart }) ∧
      (¬(e.phase = .matching ∧ f e = true) → (s.restartMatchers f).bridge i = some e) := by
  rw [restartMatchers_bridge]
  refine ⟨fun h => by rw [h]; rfl, fun e h => ⟨fun hm => ?_, fun hm => ?_⟩⟩
  · rw [h, Option.map_some, restartedEntry, if_pos (by simp [hm])]
  · rw [h, Option.map_some, restartedEntry, if_neg (by simpa using hm)]

theorem slipNoticeFree_iff (last : Option FrameNo) :
    s.slipNoticeFree last = true ↔ ¬∃ f, last = some f ∧ (s.counter - f).toNat < 8000 := by
  have hl : Config.slipNoticeFrames = 8000 := rfl
  cases last <;> simp [slipNoticeFree, within, hl]

/-- A notice is posted by the Notice Engine's own state and the frame alone. -/
theorem handNotice_of_same {s t : State} (b : NoticeBody) (hn : t.nte = s.nte) (ha : t.attn = s.attn)
    (hc : t.counter = s.counter) :
    (t.handNotice b).nte = (s.handNotice b).nte ∧ (t.handNotice b).attn = (s.handNotice b).attn := by
  unfold handNotice
  rw [hn]
  split
  · exact ⟨by simp [hc], by simp [ha]⟩
  · exact ⟨rfl, by simp [raise, ha]⟩

/-- Everything but the spans or ports, the matchers, the notices and the attention causes, which a slip leaves alone. -/
theorem restartMatchers_rest (f : Bridge → Bool) : { s.restartMatchers f with bridges := s.bridges } = s := by
  have h := each_keeps (fun t : State => { t with bridges := s.bridges }) (List.finRange 48)
    (fun i (t : State) => t.modBridge i (restartedEntry f)) (fun i t => by
      unfold modBridge
      split <;> rfl) s
  exact h

theorem handNotice_rest (b : NoticeBody) : { s.handNotice b with nte := s.nte, attn := s.attn } = s := by
  unfold handNotice
  split <;> rfl

/-- What a slip reports: its notice when the input has posted none lately, and else nothing (R132, R141). -/
def SlipReported (s t : State) (last mark : Option FrameNo) (b : NoticeBody) : Prop :=
  let recent := ∃ f, last = some f ∧ (s.counter - f).toNat < 8000
  (recent → mark = last ∧ t.nte = s.nte ∧ t.attn = s.attn) ∧
    (¬recent → mark = some s.counter ∧ t.nte = (s.handNotice b).nte ∧ t.attn = (s.handNotice b).attn)

theorem restartMatchers_notices (f : Bridge → Bool) : (s.restartMatchers f).nte = s.nte ∧
    (s.restartMatchers f).attn = s.attn ∧ (s.restartMatchers f).counter = s.counter := by
  have h := restartMatchers_rest s f
  have hn := congrArg nte h
  have ha := congrArg attn h
  have hc := congrArg counter h
  dsimp only at hn ha hc
  exact ⟨hn, ha, hc⟩

/-! ### The slip of a span's store -/

/-- A slip of a span, counted and told to the matchers. -/
def spanSlipTold (s : State) (sp : Span) : State :=
  (s.setSpan sp { s.span sp with slips := (s.span sp).slips + 1 }).restartMatchers fun e => e.bearer.span == sp

theorem spanSlip_eq (sp : Span) (kind : SlipKind) : s.spanSlip sp kind =
    if s.slipNoticeFree (s.span sp).lastSlipNotice then
      ((s.spanSlipTold sp).setSpan sp { (s.spanSlipTold sp).span sp with lastSlipNotice := some s.counter }).handNotice
        (.slip (.span sp) kind ((s.span sp).slips + 1))
    else s.spanSlipTold sp := rfl

theorem spanSlipTold_span (sp : Span) :
    (s.spanSlipTold sp).span sp = { s.span sp with slips := (s.span sp).slips + 1 } := by
  unfold spanSlipTold
  rw [span_restartMatchers, span_setSpan_same]

theorem spanSlip_reports (sp : Span) (kind : SlipKind) : s.SlipReported (s.spanSlip sp kind)
    (s.span sp).lastSlipNotice ((s.spanSlip sp kind).span sp).lastSlipNotice
    (.slip (.span sp) kind ((s.span sp).slips + 1)) := by
  have hfree := s.slipNoticeFree_iff (s.span sp).lastSlipNotice
  have hspan := s.spanSlipTold_span sp
  obtain ⟨hnte, hattn, hcounter⟩ : (s.spanSlipTold sp).nte = s.nte ∧ (s.spanSlipTold sp).attn = s.attn ∧
      (s.spanSlipTold sp).counter = s.counter := restartMatchers_notices _ _
  unfold SlipReported
  rw [spanSlip_eq]
  generalize s.spanSlipTold sp = u at *
  refine ⟨fun hr => ?_, fun hr => ?_⟩
  · rw [if_neg (fun h => hfree.mp h hr), hspan]
    exact ⟨rfl, hnte, hattn⟩
  · rw [if_pos (hfree.mpr hr), handNotice_span, span_setSpan_same]
    exact ⟨rfl, handNotice_of_same (t := u.setSpan sp _) _ hnte hattn hcounter⟩

theorem spanSlip_bridge (sp : Span) (kind : SlipKind) (i : BridgeNo) : (s.spanSlip sp kind).bridge i =
    (s.restartMatchers fun e => e.bearer.span == sp).bridge i := by
  have htold : (s.spanSlipTold sp).bridge i = (s.restartMatchers fun e => e.bearer.span == sp).bridge i := by
    unfold spanSlipTold
    rw [restartMatchers_bridge, restartMatchers_bridge]
    rfl
  rw [spanSlip_eq, ← htold]
  split
  · rw [handNotice_bridge, bridge_setSpan]
  · rfl

theorem spanSlip_other (sp : Span) (kind : SlipKind) {x : Span} (hx : x ≠ sp) :
    (s.spanSlip sp kind).span x = s.span x := by
  have htold : (s.spanSlipTold sp).span x = s.span x := by
    unfold spanSlipTold
    rw [span_restartMatchers, span_setSpan_ne _ _ _ _ (Ne.symm hx)]
  rw [spanSlip_eq]
  split
  · rw [handNotice_span, span_setSpan_ne _ _ _ _ (Ne.symm hx), htold]
  · exact htold

theorem setSpan_rest (sp : Span) (x : SpanState) : { s.setSpan sp x with spans := s.spans } = s := rfl

theorem spanSlip_rest (sp : Span) (kind : SlipKind) :
    { s.spanSlip sp kind with spans := s.spans, bridges := s.bridges, nte := s.nte, attn := s.attn } = s := by
  have htold : { s.spanSlipTold sp with spans := s.spans, bridges := s.bridges } = s := by
    have h := congrArg (fun t : State => { t with spans := s.spans })
      (restartMatchers_rest (s.setSpan sp { s.span sp with slips := (s.span sp).slips + 1 })
        fun e => e.bearer.span == sp)
    dsimp only at h
    rw [setSpan_bridges] at h
    exact h.trans (setSpan_rest s sp _)
  have hrest : ∀ u : State, { u with spans := s.spans, bridges := s.bridges } = s →
      { u with spans := s.spans, bridges := s.bridges, nte := s.nte, attn := s.attn } = s := by
    intro u hu
    have h := congrArg (fun t : State => { t with nte := s.nte, attn := s.attn }) hu
    dsimp only at h
    exact h
  rw [spanSlip_eq]
  generalize s.spanSlipTold sp = u at *
  split
  · have h := handNotice_rest (u.setSpan sp { u.span sp with lastSlipNotice := some s.counter })
      (.slip (.span sp) kind ((s.span sp).slips + 1))
    have h' := congrArg (fun t : State => { t with spans := s.spans, bridges := s.bridges, nte := s.nte, attn := s.attn }) h
    dsimp only at h'
    exact h'.trans (hrest u htold)
  · exact hrest u htold

/-! ### The slip of a port's store -/

/-- The matchers that a slip of a port concerns (R66, R141). -/
def onPort (p : PortNo) (e : Bridge) : Bool := lineNumber p == some e.linePos.port

theorem onPort_line {p : PortNo} {n : Fin 8} (h : lineNumber p = some n) :
    onPort p = fun e : Bridge => e.linePos.port == n := by
  funext e
  rw [onPort, h]
  rw [Bool.eq_iff_iff, beq_iff_eq, beq_iff_eq, Option.some.injEq]
  exact eq_comm

theorem restartMatchers_none {f : Bridge → Bool} (hf : ∀ e, f e = false) : s.restartMatchers f = s := by
  refine each_induct (fun t => t = s) _ _ (fun i t ht => ?_) s rfl
  subst ht
  unfold modBridge
  cases he : t.bridge i with
  | none => rfl
  | some e =>
    dsimp only
    rw [if_neg (by simp [hf]), setBridge_self _ he]

theorem portSlipTold_eq (p : PortNo) : s.portSlipTold p =
    (s.setPort p { s.port p with slips := (s.port p).slips + 1 }).restartMatchers (onPort p) := by
  unfold portSlipTold
  cases h : lineNumber p with
  | none =>
    refine (restartMatchers_none _ fun e => ?_).symm
    rw [onPort, h]
    rfl
  | some n =>
    rw [onPort_line h]
    rfl

theorem setPort_rest (p : PortNo) (x : Port) : { s.setPort p x with ports := s.ports } = s := rfl

theorem portSlip_reports (p : PortNo) (kind : SlipKind) : s.SlipReported (s.portSlip p kind)
    (s.port p).lastSlipNotice ((s.portSlip p kind).port p).lastSlipNotice
    (.slip (portSource p) kind ((s.port p).slips + 1)) := by
  have hfree := s.slipNoticeFree_iff (s.port p).lastSlipNotice
  have hport := s.portSlipTold_port p
  obtain ⟨hnte, hattn, hcounter⟩ : (s.portSlipTold p).nte = s.nte ∧ (s.portSlipTold p).attn = s.attn ∧
      (s.portSlipTold p).counter = s.counter := by
    rw [portSlipTold_eq]
    exact restartMatchers_notices _ _
  unfold SlipReported
  rw [portSlip_eq]
  generalize s.portSlipTold p = u at *
  refine ⟨fun hr => ?_, fun hr => ?_⟩
  · rw [if_neg (fun h => hfree.mp h hr), hport]
    exact ⟨rfl, hnte, hattn⟩
  · rw [if_pos (hfree.mpr hr), handNotice_port, modPort_eq, port_setPort_same]
    exact ⟨rfl, handNotice_of_same (t := u.setPort p _) _ hnte hattn hcounter⟩

theorem portSlip_bridge (p : PortNo) (kind : SlipKind) (i : BridgeNo) : (s.portSlip p kind).bridge i =
    (s.restartMatchers (onPort p)).bridge i := by
  have htold : (s.portSlipTold p).bridge i = (s.restartMatchers (onPort p)).bridge i := by
    rw [portSlipTold_eq, restartMatchers_bridge, restartMatchers_bridge]
    rfl
  rw [portSlip_eq, ← htold]
  split
  · rw [handNotice_bridge, modPort_eq, bridge_setPort]
  · rfl

theorem restartMatchers_port (f : Bridge → Bool) (p : PortNo) : (s.restartMatchers f).port p = s.port p :=
  keeps_of_still (view := fun t => t.port p) (fun _ => rfl) (still_restartMatchers s f)

theorem portSlip_other (p : PortNo) (kind : SlipKind) {x : PortNo} (hx : x ≠ p) :
    (s.portSlip p kind).port x = s.port x := by
  have htold : (s.portSlipTold p).port x = s.port x := by
    rw [portSlipTold_eq, restartMatchers_port, port_setPort_ne _ _ _ _ (Ne.symm hx)]
  rw [portSlip_eq]
  split
  · rw [handNotice_port, modPort_eq, port_setPort_ne _ _ _ _ (Ne.symm hx), htold]
  · exact htold

theorem portSlip_rest (p : PortNo) (kind : SlipKind) :
    { s.portSlip p kind with ports := s.ports, bridges := s.bridges, nte := s.nte, attn := s.attn } = s := by
  have htold : { s.portSlipTold p with ports := s.ports, bridges := s.bridges } = s := by
    rw [portSlipTold_eq]
    have h := congrArg (fun t : State => { t with ports := s.ports })
      (restartMatchers_rest (s.setPort p { s.port p with slips := (s.port p).slips + 1 }) (onPort p))
    dsimp only at h
    rw [setPort_bridges] at h
    exact h.trans (setPort_rest s p _)
  have hrest : ∀ u : State, { u with ports := s.ports, bridges := s.bridges } = s →
      { u with ports := s.ports, bridges := s.bridges, nte := s.nte, attn := s.attn } = s := by
    intro u hu
    have h := congrArg (fun t : State => { t with nte := s.nte, attn := s.attn }) hu
    dsimp only at h
    exact h
  rw [portSlip_eq]
  generalize s.portSlipTold p = u at *
  split
  · have h := handNotice_rest (u.modPort p fun k => { k with lastSlipNotice := some s.counter })
      (.slip (portSource p) kind ((s.port p).slips + 1))
    have h' := congrArg (fun t : State => { t with ports := s.ports, bridges := s.bridges, nte := s.nte, attn := s.attn }) h
    dsimp only at h'
    exact h'.trans (hrest u htold)
  · exact hrest u htold

/-! ### Writes and transmit reads -/

variable {s}

theorem writeSpanStore_gains {sp : Span} (f : BearerFrame) (h : (s.span sp).store.length < 2) :
    s.writeSpanStore sp f = s.setSpan sp { s.span sp with store := (s.span sp).store ++ [f] } := by
  unfold writeSpanStore storeWrite
  rw [if_neg (by omega)]
  rfl

theorem writeSpanStore_slips {sp : Span} (f : BearerFrame) (h : 2 ≤ (s.span sp).store.length) :
    s.writeSpanStore sp f =
      (s.setSpan sp { s.span sp with store := (s.span sp).store.tail ++ [f] }).spanSlip sp .deleting := by
  unfold writeSpanStore storeWrite
  rw [if_pos h]
  rfl

theorem writePortStore_drive {p : PortNo} (f : PortFrame) (h : s.clockRole p = .drive) :
    s.writePortStore p f = s.setPort p { s.port p with rxStore := [f] } := by
  unfold writePortStore
  rw [h]
  rfl

theorem writePortStore_gains {p : PortNo} (f : PortFrame) (h : s.clockRole p = .follow)
    (hl : (s.port p).rxStore.length < 2) :
    s.writePortStore p f = s.setPort p { s.port p with rxStore := (s.port p).rxStore ++ [f] } := by
  unfold writePortStore storeWrite
  rw [h, if_neg (by omega)]
  rfl

theorem writePortStore_slips {p : PortNo} (f : PortFrame) (h : s.clockRole p = .follow)
    (hl : 2 ≤ (s.port p).rxStore.length) : s.writePortStore p f =
      (s.setPort p { s.port p with rxStore := (s.port p).rxStore.tail ++ [f] }).portSlip p .deleting := by
  unfold writePortStore storeWrite
  rw [h, if_pos hl]
  rfl

theorem readTransmit_idle {p : PortNo} (h : s.clockRole p = .drive ∨ (s.port p).frameTiming = none) :
    s.readTransmit p = s := by
  rcases h with h | h <;> simp [readTransmit, h]

theorem readTransmit_starts {p : PortNo} (h : s.clockRole p = .follow) (hf : (s.port p).frameTiming ≠ none) :
    ((s.port p).txStore = [] →
      s.readTransmit p = s.setPort p { s.port p with txSlips := (s.port p).txSlips + 1 }) ∧
    ∀ f rest, (s.port p).txStore = f :: rest →
      s.readTransmit p = s.setPort p { s.port p with txStore := rest, sending := some f } := by
  have hc : (s.clockRole p == .follow && (s.port p).frameTiming.isSome) = true := by
    simp [h, Option.isSome_iff_ne_none, hf]
  unfold readTransmit
  dsimp only
  rw [if_pos hc]
  exact ⟨fun ht => by rw [ht], fun f rest ht => by rw [ht]⟩

end State

end Sys2Proof.Machine
end

section
/-! PROOFS. What a frame period does to the elastic stores (R131, R140). -/

namespace Sys2Proof.Machine

open Sys2Proof

/-- A span's elastic store with its slips. -/
def SpanState.slipPart (k : SpanState) : List BearerFrame × Half × Option FrameNo :=
  (k.store, k.slips, k.lastSlipNotice)

/-- A port's elastic stores with their slips and timing. -/
def Port.slipPart (k : Port) : List PortFrame × List PortFrame × Option PortFrame × Half × Half × Option (Fin 256) ×
    Option FrameNo :=
  (k.rxStore, k.txStore, k.sending, k.slips, k.txSlips, k.frameTiming, k.lastSlipNotice)

namespace State

/-! ### A frame period of a span -/

theorem entering_slipPart (k : SpanState) (line : LineState) (cause : SpanCause) (hold : Option HoldCause) :
    (k.entering line cause hold).slipPart = k.slipPart := rfl

theorem erroredNoted_slipPart (k : SpanState) (v : Verdict) :
    (SpanState.erroredNoted k v).slipPart = k.slipPart := by
  unfold SpanState.erroredNoted
  split <;> rfl

theorem countFrame_slipPart (k : SpanState) (rank : Byte) (v : Verdict) :
    (countFrame k rank v).slipPart = k.slipPart := by
  unfold countFrame
  (repeat' split) <;> rfl

/-- The bearer octets that a judged frame period enters into a span's store (R131). -/
def enteredBearer (s : State) : Verdict → BearerFrame
  | .carry bearer _ => bearer
  | .errored | .train _ | .reply _ => idleBearer s.cfg

variable {s : State} {sp : Span}

theorem actOnVerdict_outOfService (v : Verdict) (hl : (s.span sp).line ≠ .inService) :
    ((s.actOnVerdict sp v).span sp).slipPart = (s.span sp).slipPart := by
  rw [actOnVerdict_unfold]
  dsimp only
  by_cases hr : rankClash (s.span sp) s.cfg.rank v = true
  · rw [if_pos hr, changeLine_eq, span_handNotice, lineMoved_quiet _ _ _ _
      (by rw [span_setSpan_same, erroredNoted_line]; exact hl) (by decide), span_setSpan_same,
      entering_slipPart, span_setSpan_same, erroredNoted_slipPart]
  · rw [if_neg hr, if_neg (by simpa using hl), span_setSpan_same, countFrame_slipPart, span_setSpan_same,
      erroredNoted_slipPart]

theorem takeMessage_rest (control : Vector Byte 5) : { s.takeMessage sp control with spans := s.spans } = s := by
  unfold takeMessage
  (repeat' split) <;> rfl

theorem actOnVerdict_inService (v : Verdict) (hl : (s.span sp).line = .inService) :
    ∃ u : State, (u.span sp).slipPart = (s.span sp).slipPart ∧ { u with spans := s.spans } = s ∧
      s.actOnVerdict sp v = u.writeSpanStore sp (s.enteredBearer v) := by
  have hr : ¬rankClash (s.span sp) s.cfg.rank v = true := by
    intro hr
    have := rankClash_line hr
    simp [hl] at this
  have hcount : ∀ t : State, t = s.setSpan sp (countFrame (SpanState.erroredNoted (s.span sp) v) s.cfg.rank v) →
      (t.span sp).slipPart = (s.span sp).slipPart ∧ { t with spans := s.spans } = s := by
    rintro t rfl
    rw [span_setSpan_same, countFrame_slipPart, erroredNoted_slipPart]
    exact ⟨rfl, rfl⟩
  rw [actOnVerdict_unfold]
  dsimp only
  rw [if_neg hr, if_pos (by simpa using hl), span_setSpan_same, setSpan_setSpan]
  obtain ⟨hpart, hrest⟩ := hcount _ rfl
  generalize s.setSpan sp (countFrame (SpanState.erroredNoted (s.span sp) v) s.cfg.rank v) = t at hpart hrest
  cases v with
  | carry bearer control =>
    refine ⟨t.takeMessage sp control, ?_, ?_, rfl⟩
    · rw [takeMessage_span]
      exact hpart
    · have h := congrArg (fun u : State => { u with spans := s.spans }) (takeMessage_rest (s := t) (sp := sp) control)
      dsimp only at h
      exact h.trans hrest
  | errored => exact ⟨t, hpart, hrest, rfl⟩
  | train r => exact ⟨t, hpart, hrest, rfl⟩
  | reply r => exact ⟨t, hpart, hrest, rfl⟩

/-- A judged frame period, with the span's alignment, its marker and its verdict, by its line state (R119 to R129). -/
def judgedPeriod (s : State) (sp : Span) (line : LineState) (a : Alignment) (v : Verdict) (m : Marker) : State :=
  match line with
  | .proving => s.modSpan sp fun k => { k with alignment := a }
  | .disabled => s.modSpan sp fun k => { k with alignment := a, reference := m }
  | .seek | .answer | .inService | .holdDown =>
    (s.modSpan sp fun k => { k with alignment := a, reference := m }).actOnVerdict sp v

theorem spanPeriod_eq (rx : SpanPeriod) (hdue : s.duePassage sp = s) : s.spanPeriod sp rx =
    s.judgedPeriod sp (s.span sp).line (alignPeriod (s.span sp).alignment rx).1 (periodVerdict (s.span sp) rx).1
      (periodVerdict (s.span sp) rx).2 := by
  unfold spanPeriod periodVerdict judgedPeriod
  rw [hdue, ← alignPeriod_frame]
  dsimp only
  cases (alignPeriod (s.span sp).alignment rx).2 <;> rfl

theorem judgedPeriod_outOfService (a : Alignment) (v : Verdict) (m : Marker) (hl : (s.span sp).line ≠ .inService) :
    ((s.judgedPeriod sp (s.span sp).line a v m).span sp).slipPart = (s.span sp).slipPart := by
  have hacted : (((s.modSpan sp fun k => { k with alignment := a, reference := m }).actOnVerdict sp v).span
      sp).slipPart = (s.span sp).slipPart := by
    rw [actOnVerdict_outOfService v (by rw [modSpan_eq, span_setSpan_same]; exact hl), modSpan_eq, span_setSpan_same]
    rfl
  unfold judgedPeriod
  split
  · rw [modSpan_eq, span_setSpan_same]; rfl
  · rw [modSpan_eq, span_setSpan_same]; rfl
  all_goals exact hacted

theorem spanPeriod_outOfService (rx : SpanPeriod) (hdue : s.duePassage sp = s) (hl : (s.span sp).line ≠ .inService) :
    ((s.spanPeriod sp rx).span sp).slipPart = (s.span sp).slipPart := by
  rw [spanPeriod_eq rx hdue]
  exact judgedPeriod_outOfService _ _ _ hl

theorem spanPeriod_inService (rx : SpanPeriod) (hdue : s.duePassage sp = s) (hl : (s.span sp).line = .inService) :
    ∃ u : State, (u.span sp).slipPart = (s.span sp).slipPart ∧ { u with spans := s.spans } = s ∧
      s.spanPeriod sp rx = u.writeSpanStore sp (s.enteredBearer (periodVerdict (s.span sp) rx).1) := by
  rw [spanPeriod_eq rx hdue, congrArg (fun l => s.judgedPeriod sp l _ _ _) hl]
  generalize (alignPeriod (s.span sp).alignment rx).1 = a
  generalize periodVerdict (s.span sp) rx = judged
  obtain ⟨v, m⟩ := judged
  obtain ⟨u, hpart, hrest, hu⟩ := actOnVerdict_inService (sp := sp)
    (s := s.modSpan sp fun k => { k with alignment := a, reference := m }) v
    (by rw [modSpan_eq, span_setSpan_same]; exact hl)
  refine ⟨u, ?_, ?_, hu⟩
  · rw [hpart, modSpan_eq, span_setSpan_same]
    rfl
  · have h := congrArg (fun t : State => { t with spans := s.spans }) hrest
    dsimp only at h
    exact h

/-! ### A frame period of a port -/

theorem countPeriod_slipPart (k : Port) (role : ClockRole) (style : SyncStyle) (rx : PortPeriod) :
    (countPeriod k role style rx).slipPart = k.slipPart := by
  unfold countPeriod
  (repeat' split) <;> rfl

section

variable {s : State} {p : PortNo}

theorem portPeriod_counted (pulses : List SyncPulse) (octets : PortFrame) (h : s.duePresence p = s) :
    s.portPeriod p (.clocked pulses octets) =
      ((s.setPort p (countPeriod (s.port p) (s.clockRole p) (s.syncStyle p) (.clocked pulses octets))).receivePort p
        octets).readTransmit p := by
  unfold portPeriod
  rw [h]
  rfl

theorem portPeriod_stopped (h : s.duePresence p = s) : s.portPeriod p .stopped =
    s.setPort p (countPeriod (s.port p) (s.clockRole p) (s.syncStyle p) .stopped) := by
  unfold portPeriod
  rw [h]
  rfl

theorem receivePort_lost (octets : PortFrame) (h : (s.port p).presence = .lost) : s.receivePort p octets = s := by
  unfold receivePort
  rw [h, if_neg (by decide)]

theorem receivePort_office {n : Fin 8} (octets : PortFrame) (h : (s.port p).presence = .present)
    (hn : officeNumber p = some n) : s.receivePort p octets = (s.takeReport n octets).writePortStore p octets := by
  unfold receivePort
  rw [h, if_pos (by rfl), hn]

theorem receivePort_line (octets : PortFrame) (h : (s.port p).presence = .present) (hn : officeNumber p = none) :
    s.receivePort p octets = s.writePortStore p octets := by
  unfold receivePort
  rw [h, if_pos (by rfl), hn]

end

theorem spanEnters_carry {s : State} {sp : Span} {rx : SpanPeriod} {f : SpanFrame} {x : BearerFrame}
    {y : Vector Byte 5} (ha : (s.span sp).alignment ≠ .searching) (hrx : rx = .inPlace f)
    (hj : (judgeFrame (s.span sp).reference f).1 = .carry x y) :
    s.enteredBearer (periodVerdict (s.span sp) rx).1 = x := by
  have hframe : framed (s.span sp).alignment rx = some f := by
    subst hrx
    cases h : (s.span sp).alignment
    case searching => exact absurd h ha
    all_goals rfl
  have hv : (periodVerdict (s.span sp) rx).1 = .carry x y := by
    unfold periodVerdict
    rw [hframe]
    exact hj
  rw [hv]
  rfl

theorem spanEnters_idle {s : State} {sp : Span} {rx : SpanPeriod}
    (hj : ∀ f x y, (s.span sp).alignment ≠ .searching → rx = .inPlace f →
      (judgeFrame (s.span sp).reference f).1 ≠ .carry x y) :
    s.enteredBearer (periodVerdict (s.span sp) rx).1 = idleBearer s.cfg := by
  cases hv : (periodVerdict (s.span sp) rx).1
  case carry x y =>
    cases ha : (s.span sp).alignment
    case searching => simp [periodVerdict, framed, ha] at hv
    all_goals
      cases rx
      case inPlace f =>
        refine absurd ?_ (hj f x y (by simp [ha]) rfl)
        simpa [periodVerdict, framed, ha] using hv
      all_goals simp [periodVerdict, framed, ha] at hv
  all_goals rfl

end State

/-- What a slip leaves of the entries: those in MATCHING on its input get a fresh matcher (R66). -/
theorem slipped_bridges {s t : State} {f : Bridge → Bool} (ht : ∀ i, t.bridge i = (s.restartMatchers f).bridge i)
    {on : Bridge → Prop} (hf : ∀ e, f e = true ↔ on e) : (∀ i, s.bridge i = none → t.bridge i = none) ∧
    ∀ i e, s.bridge i = some e →
      (e.phase = .matching ∧ on e → t.bridge i = some { e with matcher := e.matcher.map Matcher.restart }) ∧
      (¬(e.phase = .matching ∧ on e) → t.bridge i = some e) := by
  refine ⟨fun i h => ?_, fun i e h => ?_⟩
  · rw [ht]
    exact (s.restartMatchers_spec f i).1 h
  · rw [ht, ← hf]
    exact (s.restartMatchers_spec f i).2 e h

/-- What a frame period leaves of a port's elastic stores (R140). -/
theorem portPeriod_stores (p : PortNo) (s : State) (h : s.resetLow = false)
    (hph : s.phase = .ready ∨ s.phase = .warming) : let k := s.port p
    k.loss < 3 → k.recovery < 16 → let period := fun rx => exec (.portFramePeriod p rx) s
     (∃ x, period .stopped = .next (State.finish s (s.setPort p x)) ∧ x.rxStore = k.rxStore ∧ x.txStore = k.txStore ∧
       x.sending = k.sending ∧ x.slips = k.slips ∧ x.txSlips = k.txSlips ∧ x.frameTiming = k.frameTiming) ∧
     ∀ pulses octets, ∃ x, x.rxStore = k.rxStore ∧ x.txStore = k.txStore ∧ x.sending = k.sending ∧ x.slips = k.slips ∧
       x.txSlips = k.txSlips ∧ x.frameTiming = k.frameTiming ∧ x.presence = k.presence ∧
       x.lastSlipNotice = k.lastSlipNotice ∧ let u := s.setPort p x; let answers := period (.clocked pulses octets)
       (k.presence = .lost → answers = .next (State.finish s (u.readTransmit p))) ∧
       (k.presence = .present →
         (∀ n, officeNumber p = some n → answers = .next (State.finish s
           (((u.takeReport n octets).writePortStore p octets).readTransmit p))) ∧
         (officeNumber p = none → answers = .next (State.finish s ((u.writePortStore p octets).readTransmit p)))) := by
  intro k hl hr
  dsimp only
  have hdue := s.duePresence_below hl hr
  have hpart : ∀ rx, (countPeriod k (s.clockRole p) (s.syncStyle p) rx).slipPart = k.slipPart := fun rx =>
    State.countPeriod_slipPart k (s.clockRole p) (s.syncStyle p) rx
  simp only [Port.slipPart, Prod.mk.injEq] at hpart
  have hperiod : ∀ rx, exec (.portFramePeriod p rx) s = .next (State.finish s (s.portPeriod p rx)) := fun rx => by
    rw [exec_running h (exec_portFramePeriod p rx s), if_pos ((State.running_iff s).mpr hph)]
  refine ⟨⟨countPeriod k (s.clockRole p) (s.syncStyle p) .stopped, by rw [hperiod, State.portPeriod_stopped hdue], ?_⟩,
    fun pulses octets => ⟨countPeriod k (s.clockRole p) (s.syncStyle p) (.clocked pulses octets), ?_⟩⟩
  · obtain ⟨hrx, htx, hsend, hslips, htxs, hframe, hlast⟩ := hpart .stopped
    exact ⟨hrx, htx, hsend, hslips, htxs, hframe⟩
  · obtain ⟨hrx, htx, hsend, hslips, htxs, hframe, hlast⟩ := hpart (.clocked pulses octets)
    refine ⟨hrx, htx, hsend, hslips, htxs, hframe, countPeriod_presence, hlast, fun hp => ?_, fun hp =>
      ⟨fun n hn => ?_, fun hn => ?_⟩⟩
    all_goals
      rw [hperiod, State.portPeriod_counted pulses octets hdue]
      have hpres : ∀ x : Port, x.presence = k.presence → ((s.setPort p x).port p).presence = k.presence := fun x hx => by
        rw [State.port_setPort_same, hx]
      replace hpres := hpres _ (countPeriod_presence (role := s.clockRole p) (style := s.syncStyle p)
        (rx := .clocked pulses octets))
    · rw [State.receivePort_lost octets (hpres.trans hp)]
    · rw [State.receivePort_office octets (hpres.trans hp) hn]
    · rw [State.receivePort_line octets (hpres.trans hp) hn]

/-- What a frame period leaves of a span's elastic store (R131). -/
theorem spanPeriod_stores (sp : Span) (rx : SpanPeriod) (s : State) (h : s.resetLow = false)
    (hph : s.phase = .ready ∨ s.phase = .warming) (hdue : s.duePassage sp = s) : let k := s.span sp
    (k.line ≠ .inService → ∃ t, exec (.spanFrameReceived sp rx) s = .next t ∧ (t.span sp).store = k.store ∧
      (t.span sp).slips = k.slips) ∧
    (k.line = .inService → ∃ u : State, (u.span sp).store = k.store ∧ (u.span sp).slips = k.slips ∧
      (u.span sp).lastSlipNotice = k.lastSlipNotice ∧ { u with spans := s.spans } = s ∧
      exec (.spanFrameReceived sp rx) s =
        .next (State.finish s (u.writeSpanStore sp (s.enteredBearer (State.periodVerdict k rx).1)))) := by
  intro k
  have hexec : exec (.spanFrameReceived sp rx) s = .next (State.finish s (s.spanPeriod sp rx)) := by
    rw [exec_running h (exec_spanFrameReceived sp rx s), if_pos ((State.running_iff s).mpr hph)]
  refine ⟨fun hl => ⟨_, hexec, ?_⟩, fun hl => ?_⟩
  · have hpart := State.spanPeriod_outOfService rx hdue hl
    simp only [SpanState.slipPart, Prod.mk.injEq] at hpart
    obtain ⟨hstore, hslips, -⟩ := hpart
    exact ⟨(State.finish_spanField _ _ _ SpanState.store).trans hstore,
      (State.finish_spanField _ _ _ SpanState.slips).trans hslips⟩
  · obtain ⟨u, hpart, hrest, hu⟩ := State.spanPeriod_inService rx hdue hl
    simp only [SpanState.slipPart, Prod.mk.injEq] at hpart
    obtain ⟨hstore, hslips, hlast⟩ := hpart
    exact ⟨u, hstore, hslips, hlast, hrest, by rw [hexec, hu]⟩

/-- Settles O33. -/
theorem elasticStores : Obligations.ElasticStores := by
  unfold Obligations.ElasticStores
  refine ⟨fun s sp f kind => ⟨State.writeSpanStore_gains f, State.writeSpanStore_slips f, State.readSpan_empty s sp,
    ?_, ?_, fun x hx => s.spanSlip_other sp kind hx, s.spanSlip_rest sp kind⟩,
    fun s p f kind => ⟨State.writePortStore_drive f, State.writePortStore_gains f, State.writePortStore_slips f, ?_,
      ?_, ?_, fun x hx => s.portSlip_other p kind hx, s.portSlip_rest p kind⟩,
    fun s p => ⟨State.readTransmit_idle, State.readTransmit_starts⟩,
    fun p s h hph => portPeriod_stores p s h hph, ?_⟩
  · obtain ⟨hrecent, hfree⟩ := s.spanSlip_reports sp kind
    exact ⟨hrecent, hfree, slipped_bridges (s.spanSlip_bridge sp kind) fun e => beq_iff_eq⟩
  · obtain ⟨x, hx⟩ := s.spanSlip_span sp kind
    rw [hx]
  · intro hc hp hs
    rw [State.readPort_empty s p hp hs, if_pos hc]
  · obtain ⟨hrecent, hfree⟩ := s.portSlip_reports p kind
    exact ⟨hrecent, hfree, slipped_bridges (s.portSlip_bridge p kind) fun e => beq_iff_eq⟩
  · obtain ⟨x, hx⟩ := s.portSlip_port p kind
    rw [hx]
  · intro sp rx s h hph k hg he ht hh
    obtain ⟨hout, hin⟩ := spanPeriod_stores sp rx s h hph (s.duePassage_below sp hg he ht hh)
    refine ⟨hout, fun hl => ?_⟩
    obtain ⟨u, hstore, hslips, hlast, hrest, hu⟩ := hin hl
    refine ⟨u, hstore, hslips, hlast, hrest, fun f x y ha hrx hj => ?_, fun hj => ?_⟩
    · rw [hu, State.spanEnters_carry ha hrx hj]
    · rw [hu, State.spanEnters_idle hj]
      rfl

end Sys2Proof.Machine
end

section
/-! PROOFS. Frame timing: the sources and the choice of a reference (R150 to R154). -/

namespace Sys2Proof.Machine

open Sys2Proof

namespace State

/-! ### Changes of state or reference -/

/-- What a change of state or reference notes (R155). -/
def TimingMoved (s t : State) (m : FtuMode) (c : TimingCause) : Prop :=
  t.ftu.mode = m ∧ t.ftu.lastCause = some c ∧ t.ftu.lastChange = some s.counter

/-- What no change of state or reference touches: the list, the counts and the orders. -/
def timingPart (s : State) : List Source × Bool × Vector Nat 18 × List Settle × Nat :=
  (s.ftu.candidates, s.ftu.revertive, s.ftu.counts, s.settles, s.nextSettle)

variable {s : State}

theorem changeTiming_moved {m : FtuMode} (c : TimingCause) (h : s.ftu.mode ≠ m) :
    s.TimingMoved (s.changeTiming m c) m c := by
  unfold TimingMoved changeTiming
  dsimp only
  rw [if_neg (by simpa using h), handNotice_ftu]
  exact ⟨rfl, rfl, rfl⟩

theorem changeTiming_timingPart (m : FtuMode) (c : TimingCause) : (s.changeTiming m c).timingPart = s.timingPart := by
  unfold timingPart changeTiming
  dsimp only
  split
  · rfl
  · simp

theorem lockOrHold_timingPart (c : TimingCause) : (s.lockOrHold c).timingPart = s.timingPart := by
  unfold lockOrHold
  split <;> exact changeTiming_timingPart _ _

theorem evaluateTiming_timingPart (c : TimingCause) : (s.evaluateTiming c).timingPart = s.timingPart := by
  unfold evaluateTiming
  (repeat' split) <;> simp only [changeTiming_timingPart, lockOrHold_timingPart]

theorem higher_iff {a b : Option Nat} : higher a b = true ↔ ∃ x y, a = some x ∧ b = some y ∧ x < y := by
  cases a <;> cases b <;> simp [higher]

/-- The reference is no source of a higher priority than its own. -/
theorem higher_ne {f : Ftu} {x y : Source} (h : higher (f.priority x) (f.priority y) = true) : y ≠ x := by
  rintro rfl
  obtain ⟨i, j, hi, hj, hlt⟩ := higher_iff.mp h
  rw [hi] at hj
  simp only [Option.some.injEq] at hj
  omega

/-! ### A candidate qualified -/

theorem candidateQualified_unlocked {src : Source} (hc : src ∈ s.ftu.candidates) (hq : s.qualified src = true)
    (hm : s.ftu.mode = .freeRun ∨ s.ftu.mode = .holdover) :
    s.candidateQualified src = s.changeTiming (.locked src) .qualified := by
  rcases hm with hm | hm <;> simp [candidateQualified, hc, hq, hm]

theorem candidateQualified_locked {src ref : Source} (hc : src ∈ s.ftu.candidates) (hq : s.qualified src = true)
    (hm : s.ftu.mode = .locked ref) : s.candidateQualified src =
      if s.ftu.revertive && higher (s.ftu.priority src) (s.ftu.priority ref) then
        s.changeTiming (.locked src) .reverted else s := by
  simp [candidateQualified, hc, hq, hm]

theorem candidateQualified_none {src : Source} (h : src ∉ s.ftu.candidates ∨ s.qualified src = false) :
    s.candidateQualified src = s := by
  rcases h with h | h <;> simp [candidateQualified, h]

/-! ### A source unhealthy -/

theorem lockOrHold_some {y : Source} (c : TimingCause) (h : s.bestCandidate = some y) :
    s.lockOrHold c = s.changeTiming (.locked y) c := by
  rw [lockOrHold, h]

theorem lockOrHold_none (c : TimingCause) (h : s.bestCandidate = none) : s.lockOrHold c = s.changeTiming .holdover c := by
  rw [lockOrHold, h]

theorem index_injective {x y : Source} (h : Source.index x = Source.index y) : x = y := by
  rcases x with k | k | sp <;> rcases y with j | j | sq
  case office.office | line.line =>
    simp only [Source.index, Fin.mk.injEq] at h
    congr 1
    omega
  case span.span => cases sp <;> cases sq <;> simp_all [Source.index]
  case office.line | line.office => simp only [Source.index, Fin.mk.injEq] at h; omega
  case office.span | line.span => cases sq <;> simp only [Source.index, Fin.ext_iff] at h <;> omega
  case span.office | span.line => cases sp <;> simp only [Source.index, Fin.ext_iff] at h <;> omega

/-- A source whose count has gone is not qualified, and the others stand as they did. -/
theorem qualified_zeroed (src x : Source) : (s.setFtu { s.ftu with
      counts := s.ftu.counts.set (Source.index src).val 0 (Source.index src).isLt }).qualified x =
    (x != src && s.qualified x) := by
  unfold qualified
  rw [setFtu_ftu]
  dsimp only
  rw [Vector.getElem_set]
  by_cases hx : x = src
  · subst hx
    simp [show Config.qualifyFrames = 8000 from rfl]
  · have hi : (Source.index src).val ≠ (Source.index x).val := fun h => hx (index_injective (Fin.ext h)).symm
    rw [if_neg hi]
    simp [hx]

/-- The best candidate once a source is unhealthy. -/
theorem bestCandidate_zeroed (src : Source) : (s.setFtu { s.ftu with
      counts := s.ftu.counts.set (Source.index src).val 0 (Source.index src).isLt }).bestCandidate =
    (s.ftu.candidates.filter fun x => x != src && s.qualified x).head? := by
  unfold bestCandidate
  rw [List.head?_filter, funext (qualified_zeroed (s := s) src)]
  rfl

theorem sourceUnhealthy_reference {src : Source} (h : s.ftu.mode = .locked src) : s.sourceUnhealthy src =
    (s.setFtu { s.ftu with
      counts := s.ftu.counts.set (Source.index src).val 0 (Source.index src).isLt }).lockOrHold .referenceLost := by
  unfold sourceUnhealthy
  dsimp only
  rw [setFtu_ftu, if_pos (by simpa using h)]

theorem sourceUnhealthy_other {src : Source} (h : s.ftu.mode ≠ .locked src) : s.sourceUnhealthy src =
    s.setFtu { s.ftu with counts := s.ftu.counts.set (Source.index src).val 0 (Source.index src).isLt } := by
  unfold sourceUnhealthy
  dsimp only
  rw [setFtu_ftu, if_neg (by simpa using h)]

theorem sourceUnhealthy_counts (src : Source) : (s.sourceUnhealthy src).ftu.counts =
    s.ftu.counts.set (Source.index src).val 0 (Source.index src).isLt := by
  by_cases h : s.ftu.mode = .locked src
  · rw [sourceUnhealthy_reference h]
    exact congrArg (fun x => x.2.2.1) (lockOrHold_timingPart _)
  · rw [sourceUnhealthy_other h]
    rfl

theorem sourceUnhealthy_moved {src : Source} (h : s.ftu.mode = .locked src) :
    s.TimingMoved (s.sourceUnhealthy src)
      (match s.ftu.candidates.filter fun x => x != src && s.qualified x with
        | best :: _ => .locked best
        | [] => .holdover) .referenceLost := by
  have hbest := bestCandidate_zeroed (s := s) src
  rw [sourceUnhealthy_reference h]
  cases hr : s.ftu.candidates.filter fun x => x != src && s.qualified x with
  | nil =>
    rw [hr] at hbest
    rw [lockOrHold_none _ hbest]
    exact changeTiming_moved (s := s.setFtu _) _ (by rw [setFtu_ftu]; simp [h])
  | cons best rest =>
    have hne : best ≠ src := by
      have hmem : best ∈ s.ftu.candidates.filter fun x => x != src && s.qualified x := by simp [hr]
      simp only [List.mem_filter, Bool.and_eq_true, bne_iff_ne] at hmem
      exact hmem.2.1
    rw [hr] at hbest
    rw [lockOrHold_some _ hbest]
    exact changeTiming_moved (s := s.setFtu _) _ (by rw [setFtu_ftu]; simp [h, Ne.symm hne])

/-! ### A TIMING order -/

theorem evaluateTiming_unlisted {ref : Source} (c : TimingCause) (hm : s.ftu.mode = .locked ref)
    (hl : ref ∉ s.ftu.candidates) : s.evaluateTiming c = s.lockOrHold c := by
  simp [evaluateTiming, hm, hl]

theorem evaluateTiming_moves {ref best : Source} (c : TimingCause) (hm : s.ftu.mode = .locked ref)
    (hl : ref ∈ s.ftu.candidates) (hb : s.bestCandidate = some best) (hr : s.ftu.revertive = true)
    (hh : higher (s.ftu.priority best) (s.ftu.priority ref) = true) :
    s.evaluateTiming c = s.changeTiming (.locked best) c := by
  simp [evaluateTiming, hm, hl, hb, hr, hh]

theorem evaluateTiming_stays {ref : Source} (c : TimingCause) (hm : s.ftu.mode = .locked ref)
    (hl : ref ∈ s.ftu.candidates)
    (h : ∀ best, s.bestCandidate = some best → s.ftu.revertive = true →
      higher (s.ftu.priority best) (s.ftu.priority ref) = false) : s.evaluateTiming c = s := by
  unfold evaluateTiming
  rw [hm]
  dsimp only
  rw [if_pos (by simpa using hl)]
  cases hb : s.bestCandidate with
  | none => rfl
  | some best =>
    cases hr : s.ftu.revertive with
    | false => rfl
    | true => simp [h best hb hr]

theorem evaluateTiming_unlocked (c : TimingCause) (hm : s.ftu.mode = .freeRun ∨ s.ftu.mode = .holdover) :
    s.evaluateTiming c = (s.bestCandidate.map fun best => s.changeTiming (.locked best) c).getD s := by
  rcases hm with hm | hm <;> simp only [evaluateTiming, hm] <;> cases s.bestCandidate <;> rfl

/-- The unit against its list (R151). -/
theorem evaluateTiming_spec (c : TimingCause) :
    let t := s.evaluateTiming c; let best := s.ftu.candidates.find? s.qualified
    let stays := t.ftu.mode = s.ftu.mode ∧ t.nte = s.nte
    (∀ x, s.ftu.mode = .locked x → x ∉ s.ftu.candidates →
      (∀ y, best = some y → s.TimingMoved t (.locked y) c) ∧ (best = none → s.TimingMoved t .holdover c)) ∧
    (∀ x, s.ftu.mode = .locked x → x ∈ s.ftu.candidates →
      (∀ y i j, s.ftu.revertive = true → best = some y → s.ftu.priority y = some i → s.ftu.priority x = some j →
        i < j → s.TimingMoved t (.locked y) c) ∧
      (s.ftu.revertive = false ∨ best = none ∨ (∀ y i j, best = some y → s.ftu.priority y = some i →
        s.ftu.priority x = some j → j ≤ i) → stays)) ∧
    (s.ftu.mode = .freeRun ∨ s.ftu.mode = .holdover →
      (∀ y, best = some y → s.TimingMoved t (.locked y) c) ∧ (best = none → stays)) := by
  intro t best stays
  have hbest : s.bestCandidate = best := rfl
  refine ⟨fun x hx hn => ⟨fun y hy => ?_, fun hb => ?_⟩, fun x hx hn => ⟨fun y i j hr hy hi hj hlt => ?_, fun hs => ?_⟩,
    fun hm => ⟨fun y hy => ?_, fun hb => ?_⟩⟩
  · have hne : s.ftu.mode ≠ .locked y := by
      rw [hx]
      rintro ⟨⟩
      exact hn (List.mem_of_find?_eq_some hy)
    rw [show t = s.changeTiming (.locked y) c from (evaluateTiming_unlisted c hx hn).trans (lockOrHold_some c hy)]
    exact changeTiming_moved c hne
  · rw [show t = s.changeTiming .holdover c from (evaluateTiming_unlisted c hx hn).trans (lockOrHold_none c hb)]
    exact changeTiming_moved c (by rw [hx]; simp)
  · have hh : higher (s.ftu.priority y) (s.ftu.priority x) = true := higher_iff.mpr ⟨i, j, hi, hj, hlt⟩
    rw [show t = s.changeTiming (.locked y) c from evaluateTiming_moves c hx hn hy hr hh]
    exact changeTiming_moved c (by rw [hx]; simpa using higher_ne hh)
  · have ht : t = s := evaluateTiming_stays c hx hn fun y hy hr => by
      rw [← Bool.not_eq_true, higher_iff]
      rintro ⟨i, j, hi, hj, hlt⟩
      rcases hs with hs | hs | hs
      · simp [hr] at hs
      · rw [hbest, hs] at hy
        cases hy
      · have := hs y i j hy hi hj
        omega
    exact ⟨by rw [ht], by rw [ht]⟩
  · rw [show t = s.changeTiming (.locked y) c by rw [← hbest] at hy; simp [t, evaluateTiming_unlocked c hm, hy]]
    exact changeTiming_moved c (by rcases hm with hm | hm <;> simp [hm])
  · have ht : t = s := by rw [← hbest] at hb; simp [t, evaluateTiming_unlocked c hm, hb]
    exact ⟨by rw [ht], by rw [ht]⟩

end State

theorem exec_candidateQualified (src : Source) (s : State) :
    exec (.candidateQualified src) s = act s (·.candidateQualified src) := rfl

/-- What CANDIDATE_QUALIFIED does (R153, R154). -/
theorem candidateQualified_spec {s : State} {src : Source} {m : FtuMode} {c : TimingCause} (h : s.resetLow = false)
    (hm : s.ftu.mode ≠ m) (ht : s.candidateQualified src = s.changeTiming m c) :
    ∃ t, exec (.candidateQualified src) s = .next t ∧ t.ftu.mode = m ∧ t.ftu.lastCause = some c ∧
      t.ftu.lastChange = some s.counter := by
  refine ⟨_, exec_running h (exec_candidateQualified src s), ?_⟩
  rw [State.finish_ftu, ht]
  exact State.changeTiming_moved c hm

/-- What a TIMING order leaves, once its list has been looked at (R151). -/
theorem timing_settled (s : State) (ref : OrderRef) (list : List Source) (revertive : Bool) :
    let t := s.dispatch ref (.timing list revertive); let u := s.timingOrder list revertive
    t.ftu = u.ftu ∧ t.nte = u.nte ∧ t.settles = s.settles ++ [⟨s.nextSettle, ref, .done, 1⟩] ∧
      t.ftu.candidates = list ∧ t.ftu.revertive = revertive ∧ t.ftu.counts = s.ftu.counts := by
  have hpart := State.evaluateTiming_timingPart (s := s.setFtu { s.ftu with candidates := list, revertive := revertive })
    .order
  simp only [State.timingPart, Prod.mk.injEq] at hpart
  obtain ⟨hlist, hrev, hcounts, hsettles, hnext⟩ := hpart
  have ht : s.dispatch ref (.timing list revertive) = (s.timingOrder list revertive).settleOrder ref .done
    (timingValues (s.timingOrder list revertive)) := rfl
  dsimp only
  rw [ht, State.settleOrder_ftu, State.settleOrder_nte, State.settleOrder_settles]
  unfold State.timingOrder
  rw [hsettles, hnext]
  exact ⟨rfl, rfl, rfl, hlist, hrev, hcounts⟩

/-- Settles O35. -/
theorem timingSources : Obligations.TimingSources := by
  unfold Obligations.TimingSources
  refine ⟨fun src s h => ⟨fun hc hq => ⟨fun hm => ?_, fun ref x y hm hr hx hy hlt => ?_, fun ref hm hr => ?_⟩,
    fun hn => ?_⟩, fun s src => ⟨?_, fun hm => ?_, fun hm => ?_⟩, fun s ref list revertive => ?_⟩
  · exact candidateQualified_spec h (by rcases hm with hm | hm <;> simp [hm]) (State.candidateQualified_unlocked hc hq hm)
  · have hh : State.higher (s.ftu.priority src) (s.ftu.priority ref) = true := State.higher_iff.mpr ⟨x, y, hx, hy, hlt⟩
    refine candidateQualified_spec h (by simp [hm, State.higher_ne hh]) ?_
    rw [State.candidateQualified_locked hc hq hm, hr, hh]
    rfl
  · have hh : ¬(s.ftu.revertive && State.higher (s.ftu.priority src) (s.ftu.priority ref)) = true := by
      rw [Bool.and_eq_true, State.higher_iff]
      rintro ⟨hrev, x, y, hx, hy, hlt⟩
      rcases hr with hr | hr
      · simp [hr] at hrev
      · have := hr x y hx hy
        omega
    rw [exec_running h (exec_candidateQualified src s), State.candidateQualified_locked hc hq hm, if_neg hh]
  · rw [exec_running h (exec_candidateQualified src s), State.candidateQualified_none hn]
  · rw [State.sourceUnhealthy_counts, Vector.getElem_set_self]
  · rw [State.sourceUnhealthy_other hm]
    exact ⟨rfl, rfl⟩
  · obtain ⟨hmode, hcause, hchange⟩ := State.sourceUnhealthy_moved hm
    exact ⟨hcause, hchange, hmode⟩
  · obtain ⟨hftu, hnte, hsettles, hlist, hrev, hcounts⟩ := timing_settled s ref list revertive
    refine ⟨hlist, hrev, hcounts, hsettles, ?_⟩
    rw [hftu, hnte]
    exact State.evaluateTiming_spec (s := s.setFtu { s.ftu with candidates := list, revertive := revertive }) .order

end Sys2Proof.Machine
end

section
/-! PROOFS. Reads through the System Memory Port (R157 to R159). -/

namespace Sys2Proof.Machine

open Sys2Proof

namespace State

section

variable {before s : State}

/-- The end of a step that moved no entry, no group and no head (R42). -/
theorem finish_unmoved (hb : s.bridges = before.bridges) (hg : s.groups = before.groups)
    (hq : s.queue = before.queue) :
    finish before s = markRows before s.endWarming.pollNotices.tellRunners.sendHead := by
  unfold finish
  rw [advanceGroups_same hb hg, examineHead_idle (freedSince_same hb hg) (headLeft_same hq)]

theorem sendHead_writes : s.sendHead.smp.writes = s.smp.writes := by unfold sendHead; split <;> rfl

theorem sendHead_waiting : s.sendHead.smp.waiting = s.smp.waiting := by unfold sendHead; split <;> rfl

theorem pollNotices_waiting : ∃ more, s.pollNotices.smp.waiting = s.smp.waiting ++ more := by
  unfold pollNotices readNotices
  split
  · split
    · exact ⟨[], by simp⟩
    · exact ⟨_, rfl⟩
  · exact ⟨[], by simp⟩

theorem finish_unmoved_smp (hb : s.bridges = before.bridges) (hg : s.groups = before.groups)
    (hq : s.queue = before.queue) : (finish before s).smp.writes = s.smp.writes ∧
      ∃ more, (finish before s).smp.waiting = s.smp.waiting ++ more := by
  rw [finish_unmoved hb hg hq, markRows_smp, sendHead_writes, sendHead_waiting, tellRunners_smp, pollNotices_writes,
    endWarming_smp]
  obtain ⟨more, hmore⟩ := pollNotices_waiting (s := s.endWarming)
  exact ⟨rfl, more, by rw [hmore, endWarming_smp]⟩

end

section

variable {s : State}

/-! ### Issuing a read -/

theorem freeTag_lowest {k : Fin 4} (hk : s.tag k = .free) (hj : ∀ j, j < k → s.tag j ≠ .free) :
    s.freeTag = some k := by
  unfold freeTag
  rw [List.find?_eq_some_iff_getElem]
  exact ⟨by simp [hk], k.val, by simp, by simp, fun j hjk => by simpa using hj _ hjk⟩

theorem freeTag_none (h : ∀ k, s.tag k ≠ .free) : s.freeTag = none := by simp [freeTag, h]

theorem issueRead_issues {r : ReadRequest} {rest : List ReadRequest} {k : Fin 4} (hw : s.smp.writes = [])
    (hr : s.smp.waiting = r :: rest) (hk : s.freeTag = some k) : s.issueRead =
      ((s.setSmp { s.smp with waiting := rest }).setTag k (.outstanding r 0 [] (s.counter + 16))).readIssued r.reader := by
  unfold issueRead
  rw [hw, hr, hk]
  rfl

theorem issueRead_none (h : s.smp.writes ≠ [] ∨ s.smp.waiting = [] ∨ ∀ k, s.tag k ≠ .free) : s.issueRead = s := by
  unfold issueRead
  split
  · next hw hr hk =>
    rcases h with h | h | h
    · exact absurd hw h
    · rw [h] at hr
      cases hr
    · rw [freeTag_none h] at hk
      cases hk
  · rfl

/-- What the issue of a read leaves of its runner. -/
theorem readIssued_keeps (r : Reader) : (s.readIssued r).smp = s.smp ∧ (s.readIssued r).bridges = s.bridges ∧
    (s.readIssued r).groups = s.groups ∧ (s.readIssued r).queue = s.queue := by
  cases r <;> exact ⟨rfl, rfl, rfl, rfl⟩

theorem tag_of_smp {t u : State} (h : t.smp = u.smp) (k : Fin 4) : t.tag k = u.tag k := by rw [tag, tag, h]

/-! ### Units and deadlines -/

variable (s)

theorem faultRunner_smp (n : Fin 4) (cause : RunnerFault) : (s.faultRunner n cause).smp = s.smp := by
  simp [faultRunner, raise]

theorem readBlock_tag (n : Fin 4) (k : Fin 4) : (s.readBlock n).tag k = s.tag k := rfl

theorem discardedOver_tag (n : Fin 4) (k : Fin 4) : (s.discardedOver n).tag k = s.tag k := by
  unfold discardedOver
  dsimp only
  split <;> rfl

theorem runnerReadFailed_tag (n : Fin 4) (k : Fin 4) : (s.runnerReadFailed n).tag k = s.tag k := by
  unfold runnerReadFailed
  split
  · rfl
  · exact s.discardedOver_tag n k
  · exact tag_of_smp (s.faultRunner_smp n _) k

theorem readFailed_tag (k : Fin 4) (r : Reader) : (s.readFailed k r).tag k = .quarantined (s.counter + 64) := by
  cases r with
  | runner n => exact ((s.setTag k _).runnerReadFailed_tag n k).trans (tag_setTag_same _ _ _)
  | notices => exact tag_setTag_same s k _

variable {s} {k : Fin 4} {r : ReadRequest} {n : Nat} {data : List Byte} {d : FrameNo} {mark : UnitMark} {error : Bool}
  {unit : Vector Byte 32}

theorem unitArrived_failed (h : n = 0 ∧ error = true ∨ (n + 1 = r.length / 32 ↔ mark = .more)) :
    s.unitArrived k r n data d mark error unit = s.readFailed k r.reader := by
  unfold unitArrived
  by_cases he : (n == 0 && error) = true
  · rw [if_pos he]
  · have hm : ((n + 1 == r.length / 32) != (mark == .last)) = true := by
      rcases h with h | h
      · simp [h] at he
      · cases mark <;> simp_all
    rw [if_neg he, if_pos hm]

theorem unitArrived_last (he : n ≠ 0 ∨ error = false) (h : n + 1 = r.length / 32) :
    s.unitArrived k r n data d .last error unit = (s.setTag k .free).readDone r.reader (data ++ unit.toList) := by
  have hz : ¬(n == 0 && error) = true := by rcases he with he | he <;> simp [he]
  unfold unitArrived
  rw [if_neg hz, if_neg (by simp [h])]

theorem unitArrived_more (he : n ≠ 0 ∨ error = false) (h : n + 1 ≠ r.length / 32) :
    s.unitArrived k r n data d .more error unit =
      s.setTag k (.outstanding r (n + 1) (data ++ unit.toList) d) := by
  have hz : ¬(n == 0 && error) = true := by rcases he with he | he <;> simp [he]
  have hlast : (n + 1 == r.length / 32) = false := beq_eq_false_iff_ne.mpr h
  unfold unitArrived
  rw [if_neg hz, hlast]
  rfl

theorem raise_stray : s.raise .stray = s.setAttn (s.attn ||| 0b001000#6) := rfl

theorem timeOutRead_outstanding (h : s.tag k = .outstanding r n data d) :
    s.timeOutRead k = if s.passed d then s.readFailed k r.reader else s := by
  rw [timeOutRead, h]

theorem endQuarantine_quarantined (h : s.tag k = .quarantined d) :
    s.endQuarantine k = if s.passed d then s.setTag k .free else s := by
  rw [endQuarantine, h]

end

end State

theorem exec_readIssue (s : State) : exec .readIssue s = act s State.issueRead := rfl

theorem exec_readTimeout (k : Fin 4) (s : State) : exec (.readTimeout k) s = act s fun s => s.timeOutRead k := rfl

theorem exec_quarantineEnd (k : Fin 4) (s : State) :
    exec (.quarantineEnd k) s = act s fun s => s.endQuarantine k := rfl

/-- The effect of a unit that arrives for a tag (R158, R159). -/
def unitEffect (k : Fin 4) (mark : UnitMark) (error : Bool) (unit : Vector Byte 32) (s : State) : State :=
  match s.tag k with
  | .free => s.raise .stray
  | .quarantined _ => s
  | .outstanding r n data d => s.unitArrived k r n data d mark error unit

theorem exec_readUnitArrival (k : Fin 4) (mark : UnitMark) (error : Bool) (unit : Vector Byte 32) (s : State) :
    exec (.readUnitArrival k mark error unit) s = act s (unitEffect k mark error unit) := rfl

/-- Settles O36. -/
theorem memoryReads : Obligations.MemoryReads := by
  unfold Obligations.MemoryReads
  refine ⟨⟨fun s h => ⟨fun r rest k hw hr hk hj => ?_, fun hn => ?_⟩, fun k s h => ⟨fun r n data d ht => ?_,
    fun d ht => ?_⟩⟩, fun k mark error unit s h => ⟨fun r n data d ht => ?_, fun d ht => ?_, fun ht => ?_,
    fun reader => s.readFailed_tag k reader⟩⟩
  · refine ⟨_, exec_running h (exec_readIssue s), ?_⟩
    rw [State.issueRead_issues hw hr (State.freeTag_lowest hk hj)]
    generalize hu : (s.setSmp { s.smp with waiting := rest }).setTag k (.outstanding r 0 [] (s.counter + 16)) = u
    obtain ⟨hsmp, hb, hg, hq⟩ := State.readIssued_keeps (s := u) r.reader
    obtain ⟨hwrites, more, hwaiting⟩ := State.finish_unmoved_smp (before := s) (s := u.readIssued r.reader)
      (by rw [hb, ← hu]; rfl) (by rw [hg, ← hu]; rfl) (by rw [hq, ← hu]; rfl)
    refine ⟨?_, fun j hjk => ?_, ?_, more, ?_⟩
    · rw [State.finish_tag, State.tag_of_smp hsmp, ← hu, State.tag_setTag_same]
    · rw [State.finish_tag, State.tag_of_smp hsmp, ← hu, State.tag_setTag_ne _ _ _ _ (Ne.symm hjk)]
      rfl
    · rw [hwrites, hsmp, ← hu]
      exact hw
    · rw [hwaiting, hsmp, ← hu]
      rfl
  · rw [exec_running h (exec_readIssue s), State.issueRead_none hn]
  · rw [exec_running h (exec_readTimeout k s), State.timeOutRead_outstanding ht]
    exact ⟨fun hp => by rw [if_pos hp], fun hp => by rw [if_neg (by simp [hp])]⟩
  · rw [exec_running h (exec_quarantineEnd k s), State.endQuarantine_quarantined ht]
    exact ⟨fun hp => by rw [if_pos hp], fun hp => by rw [if_neg (by simp [hp])]⟩
  · dsimp only
    rw [exec_running h (exec_readUnitArrival k mark error unit s), unitEffect, ht]
    dsimp only
    refine ⟨fun hn he => ?_, fun _ hm hf => ?_, fun _ hm hf => ?_, fun he hm hf => ?_, fun he hm hf => ?_⟩
    · rw [State.unitArrived_failed (.inl ⟨hn, he⟩)]
    · rw [State.unitArrived_failed (.inr (by simp [hm, hf]))]
    · rw [State.unitArrived_failed (.inr (by simp [hm, hf]))]
    · rw [hm, State.unitArrived_last he hf]
    · rw [hm, State.unitArrived_more he hf]
  · rw [exec_running h (exec_readUnitArrival k mark error unit s), unitEffect, ht]
  · rw [exec_running h (exec_readUnitArrival k mark error unit s), unitEffect, ht, State.raise_stray]

end Sys2Proof.Machine
end

section
/-! PROOFS. Places in the posted-write queue and the claims to them (R34, R161). -/

namespace Sys2Proof.Machine

open Sys2Proof

namespace State

variable {s : State}

/-! ### The grant of a place -/

theorem writeRoom_iff : s.writeRoom = true ↔ s.smp.writes.length < 8 := by
  simp [writeRoom, show Config.writePlaces = 8 from rfl]

theorem queueWrite_room (w : PostedWrite) (h : s.smp.writes.length < 8) :
    s.queueWrite w = s.setSmp { s.smp with writes := s.smp.writes ++ [w] } := by
  unfold queueWrite
  rw [if_pos (writeRoom_iff.mpr h)]

theorem grantPlace_result {n : Fin 4} {w : PostedWrite} {rest : List WriteClaim} (h : s.smp.writes.length < 8)
    (hc : s.smp.claims = .result n w :: rest) : s.grantPlace =
      (s.setSmp { s.smp with claims := rest, writes := s.smp.writes ++ [w] }).makeHeld n := by
  unfold grantPlace
  rw [if_pos (writeRoom_iff.mpr h), hc]
  dsimp only
  rw [queueWrite_room (s := s.setClaims rest) w h]
  rfl

theorem grantPlace_take {n : Fin 4} {rest : List WriteClaim} (h : s.smp.writes.length < 8)
    (hc : s.smp.claims = .take n :: rest) : s.grantPlace =
      ((s.setSmp { s.smp with claims := rest }).reoffer n true).makeHeld n := by
  unfold grantPlace
  rw [if_pos (writeRoom_iff.mpr h), hc]
  rfl

theorem grantPlace_full (h : 8 ≤ s.smp.writes.length) : s.grantPlace = s := by
  unfold grantPlace
  rw [if_neg (fun hr => by have := writeRoom_iff.mp hr; omega)]

theorem grantSettled_settles {n : Fin 4} {id : Nat} {x : Settle} {rest : List WriteClaim}
    (h : s.smp.writes.length < 8) (hc : s.smp.claims = .settled n id :: rest) (hx : s.findSettle id = some x) :
    s.grantSettled = ((s.setSmp { s.smp with claims := rest }).queueSettled x).makeHeld n := by
  unfold grantSettled
  rw [if_pos (writeRoom_iff.mpr h), hc]
  dsimp only
  rw [hx]
  rfl

theorem grantSettled_full (h : 8 ≤ s.smp.writes.length) : s.grantSettled = s := by
  unfold grantSettled
  rw [if_neg (fun hr => by have := writeRoom_iff.mp hr; omega)]

/-! ### The SETTLED word -/

/-- A record whose SETTLED word has its place, before its notice (R34). -/
def settledQueued (s : State) (x : Settle) : State :=
  ((s.setSmp { s.smp with writes := s.smp.writes ++ [s.wordWrite x.ref.addr 3 (.settled x.id)] }).setSettles
    (s.settles.filter fun y => y.id != x.id)).setRunner x.ref.runner
      { s.runner x.ref.runner with openCount := (s.runner x.ref.runner).openCount - 1 }

theorem queueSettled_eq (x : Settle) (h : s.smp.writes.length < 8) : s.queueSettled x =
    if x.ref.quiet then s.settledQueued x
    else (s.settledQueued x).handNotice (.orderSettled x.ref.runner x.ref.addr x.ref.tag x.code) := by
  unfold queueSettled
  rw [queueWrite_room _ h]
  rfl

theorem findSettle_id {id : Nat} {x : Settle} (h : s.findSettle id = some x) : x.id = id := by
  simpa using List.find?_some h

theorem queueSettled_spec (x : Settle) (h : s.smp.writes.length < 8) :
    (s.queueSettled x).smp =
      { s.smp with writes := s.smp.writes ++ [s.wordWrite x.ref.addr 3 (.settled x.id)] } ∧
    (s.queueSettled x).settles = s.settles.filter (fun y => y.id != x.id) ∧
    ((s.queueSettled x).runner x.ref.runner).openCount = (s.runner x.ref.runner).openCount - 1 ∧
    (x.ref.quiet = true → (s.queueSettled x).nte.pending = s.nte.pending) ∧
    (x.ref.quiet = false → s.nte.pending.length < 16 → (s.queueSettled x).nte.pending =
      s.nte.pending ++ [⟨s.counter, .orderSettled x.ref.runner x.ref.addr x.ref.tag x.code⟩]) := by
  rw [queueSettled_eq x h]
  by_cases hq : x.ref.quiet = true
  · rw [if_pos hq]
    exact ⟨rfl, rfl, by simp [settledQueued], fun _ => rfl, fun hn => absurd (hq.symm.trans hn) (by decide)⟩
  · rw [if_neg hq]
    refine ⟨by rw [handNotice_smp]; rfl, by rw [handNotice_settles]; rfl, by simp [settledQueued],
      fun hn => absurd hn hq, fun _ hp => ?_⟩
    rw [handNotice_room (s.settledQueued x) _ hp]
    rfl

/-! ### The claims that a runner keeps -/

theorem claimsAny_iff (n : Fin 4) : (s.smp.claims.any fun c => c.runner == n) = true ↔
    ∃ c ∈ s.smp.claims, c.runner = n := by simp

theorem makeHeld_keeps {n : Fin 4} (h : (∃ c ∈ s.smp.claims, c.runner = n) ∨ s.heldClaims n = []) :
    s.makeHeld n = s := by
  unfold makeHeld
  split
  · rfl
  · next l rest hl =>
    rcases h with h | h
    · rw [if_pos ((claimsAny_iff n).mpr h)]
    · rw [hl] at h
      cases h

theorem makeHeld_makes {n : Fin 4} {l : List WriteClaim} {rest : List (List WriteClaim)}
    (h : ¬∃ c ∈ s.smp.claims, c.runner = n) (hl : s.heldClaims n = l :: rest) : s.makeHeld n =
      s.setSmp { s.smp with held := s.smp.held.set n.val rest, claims := s.smp.claims ++ l } := by
  unfold makeHeld
  rw [hl]
  dsimp only
  rw [if_neg (fun ha => h ((claimsAny_iff n).mp ha))]
  rfl

theorem makeClaim_kept {c : WriteClaim}
    (h : (∃ x ∈ s.smp.claims, x.runner = c.runner) ∨ s.heldClaims c.runner ≠ []) :
    s.makeClaim c = s.setSmp { s.smp with held := s.smp.held.set c.runner.val (s.heldClaims c.runner ++ [[c]]) } := by
  unfold makeClaim
  rw [if_pos ((s.claimsHeld_iff _).mpr h)]
  rfl

theorem not_claimsHeld {n : Fin 4} (h : ¬∃ c ∈ s.smp.claims, c.runner = n) (hl : s.heldClaims n = []) :
    ¬s.claimsHeld n = true := by
  rw [claimsHeld_iff]
  rintro (hc | hc)
  · exact h hc
  · exact hc hl

theorem makeClaim_made {c : WriteClaim} (h : ¬∃ x ∈ s.smp.claims, x.runner = c.runner)
    (hl : s.heldClaims c.runner = []) :
    s.makeClaim c = s.setSmp { s.smp with claims := s.smp.claims ++ [c] } := by
  unfold makeClaim
  rw [if_neg (not_claimsHeld h hl)]
  rfl

theorem withdrawTake_eq (n : Fin 4) : s.withdrawTake n =
    (s.setSmp { s.smp with
      held := s.smp.held.set n.val ((s.heldClaims n).filter fun l => l != [.take n]),
      claims := s.smp.claims.filter fun c => c != .take n }).makeHeld n := rfl

/-! ### The result writes of a record -/

theorem each_resultWrite_claims (n : Fin 4) (l : List PostedWrite) (s : State) (h : s.smp.claims ≠ []) :
    each l (fun w u => u.resultWrite n w) s =
      s.setSmp { s.smp with claims := s.smp.claims ++ l.map fun w => .result n w } := by
  induction l generalizing s with
  | nil => simp [each, setSmp]
  | cons w l ih =>
    have hw : s.resultWrite n w = s.addClaim (.result n w) := by
      unfold resultWrite runnerPlace
      rw [if_neg (by simp [h])]
    change each l (fun w u => u.resultWrite n w) (s.resultWrite n w) = _
    rw [hw, ih _ (by simp [addClaim_eq]), addClaim_eq, setSmp_setSmp]
    simp

theorem each_resultWrite (n : Fin 4) (l : List PostedWrite) (s : State) (h : s.smp.claims = []) :
    let room := 8 - s.smp.writes.length
    each l (fun w u => u.resultWrite n w) s = s.setSmp
      { s.smp with writes := s.smp.writes ++ l.take room, claims := (l.drop room).map fun w => .result n w } := by
  induction l generalizing s with
  | nil => simp [each, setSmp, ← h]
  | cons w l ih =>
    change each l (fun w u => u.resultWrite n w) (s.resultWrite n w) = _
    by_cases hr : s.smp.writes.length < 8
    · have hw : s.resultWrite n w = s.setSmp { s.smp with writes := s.smp.writes ++ [w] } := by
        unfold resultWrite runnerPlace
        rw [if_pos (by simp [h, writeRoom_iff.mpr hr]), queueWrite_room w hr]
      obtain ⟨room, hroom⟩ : ∃ room, 8 - s.smp.writes.length = room + 1 := ⟨7 - s.smp.writes.length, by omega⟩
      have hroom' : 8 - (s.smp.writes ++ [w]).length = room := by simp; omega
      rw [hw]
      refine (ih (s.setSmp { s.smp with writes := s.smp.writes ++ [w] }) h).trans ?_
      simp only [setSmp_smp, hroom, hroom', setSmp_setSmp, List.take_succ_cons, List.drop_succ_cons, List.append_assoc,
        List.singleton_append]
    · have hw : s.resultWrite n w = s.addClaim (.result n w) := by
        unfold resultWrite runnerPlace
        rw [if_neg (by simp [h, writeRoom_iff, hr])]
      have hroom : 8 - s.smp.writes.length = 0 := by omega
      rw [hw, each_resultWrite_claims n l _ (by simp [addClaim_eq]), addClaim_eq, setSmp_setSmp, hroom]
      simp [h]

section

variable (s) (ref : OrderRef) (code : ResultCode) (values : List Byte) (members : List (Byte × Byte))

/-- A settle that has been numbered, before its result writes (R34). -/
def settleNumbered (writes : List PostedWrite) : State :=
  (s.setNextSettle (s.nextSettle + 1)).setSettles (s.settles ++ [⟨s.nextSettle, ref, code, writes.length⟩])

theorem settleOrder_eq : s.settleOrder ref code values members =
    let l := s.resultWrites s.nextSettle ref code values members
    (s.settleNumbered ref code l).claimResults ref.runner l := rfl

theorem settleOrder_smp_kept (h : (∃ c ∈ s.smp.claims, c.runner = ref.runner) ∨ s.heldClaims ref.runner ≠ []) :
    (s.settleOrder ref code values members).smp = { s.smp with
      held := s.smp.held.set ref.runner.val (s.heldClaims ref.runner ++
        [(s.resultWrites s.nextSettle ref code values members).map fun w => .result ref.runner w]) } := by
  have hk : (s.settleNumbered ref code (s.resultWrites s.nextSettle ref code values members)).claimsHeld ref.runner =
      true := (s.claimsHeld_iff _).mpr h
  rw [settleOrder_eq]
  dsimp only
  rw [claimResults, if_pos hk]
  rfl

theorem settleOrder_smp_claims (h : ¬∃ c ∈ s.smp.claims, c.runner = ref.runner) (hl : s.heldClaims ref.runner = [])
    (hc : s.smp.claims ≠ []) : (s.settleOrder ref code values members).smp = { s.smp with
      claims := s.smp.claims ++
        (s.resultWrites s.nextSettle ref code values members).map fun w => .result ref.runner w } := by
  have hk : ¬(s.settleNumbered ref code (s.resultWrites s.nextSettle ref code values members)).claimsHeld ref.runner =
      true := not_claimsHeld h hl
  rw [settleOrder_eq]
  dsimp only
  rw [claimResults, if_neg hk]
  exact congrArg State.smp (each_resultWrite_claims ref.runner _ (s.settleNumbered ref code _) hc)

theorem settleOrder_smp_queued (hl : s.heldClaims ref.runner = []) (hc : s.smp.claims = []) :
    let l := s.resultWrites s.nextSettle ref code values members
    let room := 8 - s.smp.writes.length
    (s.settleOrder ref code values members).smp = { s.smp with
      writes := s.smp.writes ++ l.take room, claims := (l.drop room).map fun w => .result ref.runner w } := by
  have hk : ¬(s.settleNumbered ref code (s.resultWrites s.nextSettle ref code values members)).claimsHeld ref.runner =
      true := not_claimsHeld (s := s) (by simp [hc]) hl
  rw [settleOrder_eq]
  dsimp only
  rw [claimResults, if_neg hk]
  exact congrArg State.smp (each_resultWrite ref.runner _ (s.settleNumbered ref code _) hc)

end

end State

theorem exec_writePlaceGrant (s : State) : exec .writePlaceGrant s = act s State.grantPlace := rfl

theorem exec_settledWrite (s : State) : exec .settledWrite s = act s State.grantSettled := rfl

/-- Settles O37. -/
theorem placesGranted : Obligations.PlacesGranted := by
  unfold Obligations.PlacesGranted
  refine ⟨fun s h => ⟨fun n w rest hw hc => ?_, fun n rest hw hc => ?_, fun n id x rest hw hc hx => ?_,
    fun hw => ⟨?_, ?_⟩⟩, fun s n => ⟨State.makeHeld_keeps, fun l rest => State.makeHeld_makes, fun c hc => ?_,
    State.withdrawTake_eq n⟩, fun s ref code values members => ⟨?_, s.settleOrder_smp_kept ref code values members,
    s.settleOrder_smp_claims ref code values members, s.settleOrder_smp_queued ref code values members⟩⟩
  · rw [exec_running h (exec_writePlaceGrant s), State.grantPlace_result hw hc]
  · rw [exec_running h (exec_writePlaceGrant s), State.grantPlace_take hw hc]
  · have hid := State.findSettle_id hx
    subst hid
    refine ⟨?_, State.queueSettled_spec (s := s.setSmp { s.smp with claims := rest }) x hw⟩
    rw [exec_running h (exec_settledWrite s), State.grantSettled_settles hw hc hx]
  · rw [exec_running h (exec_writePlaceGrant s), State.grantPlace_full hw]
  · rw [exec_running h (exec_settledWrite s), State.grantSettled_full hw]
  · subst hc
    exact ⟨State.makeClaim_kept, State.makeClaim_made⟩
  · rw [State.settleOrder_settles, Nat.add_comm]

end Sys2Proof.Machine
end

section
/-! PROOFS. The end of a sent write (R34, R160, R162). -/

namespace Sys2Proof.Machine

open Sys2Proof

namespace State

variable {s : State}

/-! ### The claimants of a write -/

theorem writeDone_notice {w : PostedWrite} (h : w.claimant = .notice) :
    s.writeDone w = s.setAttn (s.attn ||| 0b000001#6) := by
  rw [writeDone, h]
  rfl

theorem writeFailed_notice {w : PostedWrite} (cause : MemoryCause) (h : w.claimant = .notice) :
    s.writeFailed w cause = s.setAttn (s.attn ||| 0b000100#6) := by
  rw [writeFailed, h]
  rfl

/-- The notice of a failed write with its attention cause (R162). -/
def reportWrite (s : State) (w : PostedWrite) (cause : MemoryCause) (row : Bool) : State :=
  (s.handNotice (.memoryFault w.addr cause row)).raise .memoryFault

theorem write_row {w : PostedWrite} {r : Nat} (cause : MemoryCause) (h : w.claimant = .row r) :
    s.writeDone w = s ∧ s.writeFailed w cause = s.reportWrite w cause true := by
  rw [writeDone, writeFailed, h]
  exact ⟨rfl, rfl⟩

theorem write_word {w : PostedWrite} (cause : MemoryCause)
    (h : (∃ n, w.claimant = .taken n) ∨ ∃ id, w.claimant = .settled id) :
    s.writeDone w = s ∧ s.writeFailed w cause = s.reportWrite w cause false := by
  rcases h with ⟨n, h⟩ | ⟨id, h⟩
  all_goals
    rw [writeDone, writeFailed, h]
    exact ⟨rfl, rfl⟩

/-! ### The result writes of a record -/

/-- The records being settled after one result write of a record is done (R34). -/
def writtenOnce (s : State) (id : Nat) : State :=
  s.setSettles (s.settles.map fun y => if y.id = id then { y with writesLeft := y.writesLeft - 1 } else y)

theorem writeDone_result {w : PostedWrite} {id : Nat} (h : w.claimant = .result id) : s.writeDone w =
    match s.findSettle id with
    | none => s
    | some x => if x.writesLeft = 1 then (s.writtenOnce id).makeClaim (.settled x.ref.runner id)
      else s.writtenOnce id := by
  have hmap : (fun y : Settle => if y.id == id then { y with writesLeft := y.writesLeft - 1 } else y) =
      fun y => if y.id = id then { y with writesLeft := y.writesLeft - 1 } else y := by
    funext y
    by_cases hy : y.id = id <;> simp [hy]
  rw [writeDone, h]
  dsimp only
  unfold resultDone
  rw [hmap]
  cases s.findSettle id with
  | none => rfl
  | some x => by_cases hx : x.writesLeft = 1 <;> simp [hx, writtenOnce]

theorem reportWrite_settles (w : PostedWrite) (cause : MemoryCause) (row : Bool) :
    (s.reportWrite w cause row).settles = s.settles := handNotice_settles s _

theorem reportWrite_runner (w : PostedWrite) (cause : MemoryCause) (row : Bool) (n : Fin 4) :
    (s.reportWrite w cause row).runner n = s.runner n := handNotice_runner s _ n

theorem writeFailed_result {w : PostedWrite} {id : Nat} (cause : MemoryCause) (h : w.claimant = .result id) :
    s.writeFailed w cause = match s.findSettle id with
      | none => s.reportWrite w cause false
      | some x => ((s.reportWrite w cause false).setSettles (s.settles.filter fun y => y.id != x.id)).setRunner
          x.ref.runner { s.runner x.ref.runner with openCount := (s.runner x.ref.runner).openCount - 1 } := by
  have hfind : (s.reportWrite w cause false).findSettle id = s.findSettle id := by
    rw [findSettle, reportWrite_settles]
    rfl
  have hfailed : s.writeFailed w cause = match (s.reportWrite w cause false).findSettle id with
      | none => s.reportWrite w cause false
      | some x => (s.reportWrite w cause false).closeSettle x := by
    rw [writeFailed, h]
    rfl
  rw [hfailed, hfind]
  cases s.findSettle id with
  | none => rfl
  | some x =>
    dsimp only
    unfold closeSettle
    rw [modRunner_eq, runner_setSettles, reportWrite_settles, reportWrite_runner]

/-! ### Answers and timeouts -/

theorem dropHead_eq {w : PostedWrite} {rest : List PostedWrite} (h : s.smp.writes = w :: rest) :
    s.dropHead = s.setSmp { s.smp with writes := rest, sent := none } := by
  rw [dropHead, h]
  rfl

theorem writeAnswered_sent {d : FrameNo} {w : PostedWrite} {rest : List PostedWrite} (hd : s.smp.sent = some d)
    (hw : s.smp.writes = w :: rest) :
    s.writeAnswered .done = (s.setSmp { s.smp with writes := rest, sent := none }).writeDone w ∧
      s.writeAnswered .reject = (s.setSmp { s.smp with writes := rest, sent := none }).writeFailed w .reject := by
  rw [← dropHead_eq hw]
  unfold writeAnswered
  rw [hd, hw]
  exact ⟨rfl, rfl⟩

theorem writeAnswered_stray (h : s.smp.sent = none) (reply : WriteReply) :
    s.writeAnswered reply = s.setAttn (s.attn ||| 0b001000#6) := by
  rw [writeAnswered, h]
  rfl

theorem timeOutWrite_sent {d : FrameNo} {w : PostedWrite} {rest : List PostedWrite} (hd : s.smp.sent = some d)
    (hw : s.smp.writes = w :: rest) : s.timeOutWrite =
      if s.passed d then (s.setSmp { s.smp with writes := rest, sent := none }).writeFailed w .timeout else s := by
  rw [← dropHead_eq hw]
  unfold timeOutWrite
  rw [hd, hw]

end State

theorem exec_writeAnswer (reply : WriteReply) (s : State) :
    exec (.writeAnswer reply) s = act s fun s => s.writeAnswered reply := rfl

theorem exec_writeTimeout (s : State) : exec .writeTimeout s = act s State.timeOutWrite := rfl

/-- Settles O38. -/
theorem writeAnswers : Obligations.WriteAnswers := by
  unfold Obligations.WriteAnswers
  refine fun reply s h => ⟨fun d w rest hd hw => ⟨?_, ?_, fun hp => ?_, fun hp => ?_, fun hc => ?_, fun r cause hc => ?_,
    fun cause hc => ?_, fun id cause hc => ⟨fun hx => ⟨?_, ?_⟩, fun x hx => ⟨fun hl => ?_, fun hl => ?_, ?_⟩⟩⟩, fun hn => ?_⟩
  · rw [exec_running h (exec_writeAnswer .done s), (State.writeAnswered_sent hd hw).1]
  · rw [exec_running h (exec_writeAnswer .reject s), (State.writeAnswered_sent hd hw).2]
  · rw [exec_running h (exec_writeTimeout s), State.timeOutWrite_sent hd hw, if_pos hp]
  · rw [exec_running h (exec_writeTimeout s), State.timeOutWrite_sent hd hw, if_neg (by simp [hp])]
  · exact ⟨State.writeDone_notice hc, fun cause => State.writeFailed_notice cause hc⟩
  · exact State.write_row cause hc
  · exact State.write_word cause hc
  · rw [State.writeDone_result hc, hx]
  · rw [State.writeFailed_result cause hc, hx]
    rfl
  · rw [State.writeDone_result hc, hx]
    exact if_pos hl
  · rw [State.writeDone_result hc, hx]
    exact if_neg hl
  · rw [State.writeFailed_result cause hc, hx]
    rfl
  · rw [exec_running h (exec_writeAnswer reply s), State.writeAnswered_stray hn]

end Sys2Proof.Machine
end


section
/-! PROOFS. The runners: fetches, first units, offers and the Control Block (R21, R26, R28 to R33). -/

namespace Sys2Proof.Machine

open Sys2Proof

namespace State

variable (s : State) (n : Fin 4)

/-! ### Faults and fetches -/

theorem faultRunner_runner (cause : RunnerFault) : (s.faultRunner n cause).runner n = { s.runner n with
    state := .faulted, fault := cause, recheck := none, held := none, reading := none, told := false } := by
  unfold faultRunner
  rw [raise_eq, runner_setAttn, handNotice_runner, modRunner_eq, runner_setRunner_same]

theorem faultRunner_attn (cause : RunnerFault) : (s.faultRunner n cause).attn.getLsbD 1 = true := by
  unfold faultRunner
  rw [raise_eq, setAttn_attn, BitVec.getLsbD_or, Bool.or_eq_true]
  exact .inr rfl

theorem handNotice_bases (b : NoticeBody) :
    (s.handNotice b).nte.bases = s.nte.bases ∧ (s.handNotice b).nte.position = s.nte.position := by
  unfold handNotice
  split <;> exact ⟨rfl, rfl⟩

theorem faultRunner_bases (cause : RunnerFault) : (s.faultRunner n cause).nte.bases = s.nte.bases ∧
    (s.faultRunner n cause).nte.position = s.nte.position :=
  handNotice_bases (s.modRunner n fun r =>
    { r with state := .faulted, fault := cause, recheck := none, held := none, reading := none, told := false }) _

variable {s n}

theorem fetch_reads (h : (s.runner n).cursor.toNat % 64 = 0) : s.fetch n =
    (s.setRunner n { s.runner n with
      state := .fetching, recheck := none, held := none, told := false, raced := false,
      reading := some .firstUnit }).setSmp
        { s.smp with waiting := s.smp.waiting ++ [⟨.runner n, (s.runner n).cursor, 64⟩] } := by
  unfold fetch
  dsimp only
  rw [if_neg (by simp [h])]
  rfl

theorem fetch_faults (h : (s.runner n).cursor.toNat % 64 ≠ 0) : s.fetch n = s.faultRunner n .badAddress := by
  unfold fetch
  dsimp only
  rw [if_pos (by simpa using h)]

theorem fetch_bases : (s.fetch n).nte.bases = s.nte.bases ∧ (s.fetch n).nte.position = s.nte.position := by
  by_cases h : (s.runner n).cursor.toNat % 64 = 0
  · rw [fetch_reads h]
    exact ⟨rfl, rfl⟩
  · rw [fetch_faults h]
    exact s.faultRunner_bases n _

/-! ### First units -/

theorem firstArrived_notArmed {rec : List Byte} (h : firstUnit s.cfg.byteOrder rec = .notArmed) :
    s.firstArrived n rec = s.park n := by
  rw [firstArrived, h]

theorem firstArrived_raced {rec : List Byte} (h : firstUnit s.cfg.byteOrder rec ≠ .notArmed)
    (hr : (s.runner n).raced = true) : s.firstArrived n rec = s.fetch n := by
  unfold firstArrived
  split
  · next hx => exact absurd hx h
  · rw [if_pos hr]

theorem firstArrived_next {rec : List Byte} {target : Addr} (h : firstUnit s.cfg.byteOrder rec = .next target)
    (hr : (s.runner n).raced = false) : s.firstArrived n rec = s.followNext n target := by
  simp [firstArrived, h, hr]

theorem firstArrived_more {rec : List Byte} {units : Nat} (h : firstUnit s.cfg.byteOrder rec = .more units)
    (hr : (s.runner n).raced = false) : s.firstArrived n rec = s.readRemainder n rec units := by
  simp [firstArrived, h, hr]

theorem firstArrived_complete {rec : List Byte} (h : firstUnit s.cfg.byteOrder rec = .complete)
    (hr : (s.runner n).raced = false) : s.firstArrived n rec = s.offer n rec false := by
  simp [firstArrived, h, hr]

theorem followNext_loops (target : Addr) (h : (s.runner n).streak = 8) :
    s.followNext n target = s.faultRunner n .nextLoop := by
  unfold followNext
  rw [if_pos (by simp [h, show Config.streakLimit = 8 from rfl])]

theorem followNext_follows (target : Addr) (h : (s.runner n).streak ≠ 8) : s.followNext n target =
    (s.setRunner n { s.runner n with cursor := target, streak := (s.runner n).streak + 1 }).fetch n := by
  unfold followNext
  rw [if_neg (by simp [h, show Config.streakLimit = 8 from rfl]), modRunner_eq]

theorem runnerRead_remainder {first : List Byte} (h : (s.runner n).reading = some (.remainder first)) (rec : List Byte) :
    s.runnerRead n rec = if (s.runner n).raced then s.fetch n else s.offer n (first ++ rec) false := by
  rw [runnerRead, h]

/-! ### Offers -/

theorem runnerPlace_iff : s.runnerPlace = true ↔ s.smp.claims = [] ∧ s.smp.writes.length < 8 := by
  unfold runnerPlace
  rw [Bool.and_eq_true, writeRoom_iff, List.isEmpty_iff]

theorem offer_waits {rec : List Byte} {granted : Bool} {why : WaitFor}
    (h : s.recordWaits n (recordOf s.cfg rec) = some why) : s.offer n rec granted = s.waitOn n rec why := by
  rw [offer, h]

theorem offer_place {rec : List Byte} {granted : Bool} (h : s.recordWaits n (recordOf s.cfg rec) = none) :
    (granted = true ∨ s.smp.claims = [] ∧ s.smp.writes.length < 8 →
      s.offer n rec granted = s.takeRecord n rec (recordOf s.cfg rec)) ∧
    (¬(granted = true ∨ s.smp.claims = [] ∧ s.smp.writes.length < 8) →
      s.offer n rec granted = (s.waitOn n rec .writePlace).makeClaim (.take n)) := by
  have hiff : (granted || s.runnerPlace) = true ↔ granted = true ∨ s.smp.claims = [] ∧ s.smp.writes.length < 8 := by
    rw [Bool.or_eq_true, runnerPlace_iff]
  unfold offer
  dsimp only
  rw [h]
  dsimp only
  exact ⟨fun hp => if_pos (hiff.mpr hp), fun hp => if_neg fun ha => hp (hiff.mp ha)⟩

theorem queueWrite_rest (w : PostedWrite) : { s.queueWrite w with smp := s.smp } = s := by
  unfold queueWrite
  split <;> rfl

theorem markTake_rest (addr : Addr) : { s.markTake n addr with runners := s.runners } = s :=
  each_keeps (fun t : State => { t with runners := s.runners }) (List.finRange 4)
    (fun m t => if m != n && (t.runner m).cursor == addr then t.modRunner m fun r => { r with raced := true } else t)
    (fun m t => by split <;> rfl) s

theorem markTake_runner (addr : Addr) (m : Fin 4) : (s.markTake n addr).runner m =
    if m != n && (s.runner m).cursor == addr then { s.runner m with raced := true } else s.runner m := by
  let f : Fin 4 → State → State := fun m t =>
    if m != n && (t.runner m).cursor == addr then t.modRunner m fun r => { r with raced := true } else t
  have hstep : ∀ (j k : Fin 4) (t : State), (f j t).runner k = if j = k then
      (if j != n && (t.runner j).cursor == addr then { t.runner j with raced := true } else t.runner j)
      else t.runner k := by
    intro j k t
    simp only [f]
    by_cases hc : (j != n && (t.runner j).cursor == addr) = true
    · rw [if_pos hc, if_pos hc, modRunner_eq, runner_setRunner]
    · rw [if_neg hc, if_neg hc]
      by_cases hjk : j = k
      · rw [if_pos hjk, hjk]
      · rw [if_neg hjk]
  have h := each_at (view := fun j (t : State) => t.runner j) f (fun j k t hjk => by rw [hstep, if_neg hjk])
    (fun j t u htu => by rw [hstep, hstep, if_pos rfl, if_pos rfl, htu]) (List.nodup_finRange 4) (List.mem_finRange m) s
  exact h.trans (by rw [hstep, if_pos rfl])

/-- A runner whose record is being taken, before the record acts (R28, R31). -/
def taking (s : State) (n : Fin 4) (x : Record) : State :=
  ((s.queueWrite (s.wordWrite (s.runner n).cursor 2 (.taken n))).markTake n (s.runner n).cursor).setRunner n
    { s.runner n with
      state := .fetching, openCount := (s.runner n).openCount + 1, streak := 0, held := none, told := false,
      reading := none, cursor := (s.runner n).cursor + BitVec.ofNat 64 (64 * Record.units x) }

theorem takeRecord_eq (rec : List Byte) (x : Record) : s.takeRecord n rec x =
    ((s.taking n x).actOnRecord (recordRef s.cfg.byteOrder n (s.runner n).cursor rec) x).fetch n := rfl

theorem taking_fields (x : Record) : let v := s.queueWrite (s.wordWrite (s.runner n).cursor 2 (.taken n))
    let u := s.taking n x
    u.smp = v.smp ∧ u.queue = s.queue ∧ u.watch = s.watch ∧ u.circuits = s.circuits ∧ u.bridges = s.bridges ∧
      u.settles = s.settles ∧ u.nextSettle = s.nextSettle := by
  have hmark := markTake_rest (s := s.queueWrite (s.wordWrite (s.runner n).cursor 2 (.taken n))) (n := n)
    (s.runner n).cursor
  have hqueue := queueWrite_rest (s := s) (s.wordWrite (s.runner n).cursor 2 (.taken n))
  have hsmp := congrArg smp hmark
  have h := congrArg (fun t : State => { t with smp := s.smp }) hmark
  dsimp only at hsmp h
  rw [hqueue] at h
  intro v u
  exact ⟨hsmp, by have := congrArg State.queue h; exact this, by have := congrArg State.watch h; exact this,
    by have := congrArg State.circuits h; exact this, by have := congrArg State.bridges h; exact this,
    by have := congrArg State.settles h; exact this, by have := congrArg State.nextSettle h; exact this⟩

theorem taking_runner (x : Record) : (s.taking n x).runner n =
      { s.runner n with
        state := .fetching, openCount := (s.runner n).openCount + 1, streak := 0, held := none, told := false,
        reading := none, cursor := (s.runner n).cursor + BitVec.ofNat 64 (64 * Record.units x) } ∧
    ∀ m, m ≠ n → (s.taking n x).runner m =
      { s.runner m with raced := (s.runner m).raced || (s.runner m).cursor == (s.runner n).cursor } := by
  refine ⟨runner_setRunner_same _ _ _, fun m hm => ?_⟩
  have hrunner : (s.queueWrite (s.wordWrite (s.runner n).cursor 2 (.taken n))).runner m = s.runner m := by
    unfold queueWrite
    split <;> rfl
  unfold taking
  rw [runner_setRunner_ne _ _ _ _ (Ne.symm hm), markTake_runner, hrunner]
  by_cases hc : (s.runner m).cursor = (s.runner n).cursor
  · rw [if_pos (by simp [hm, hc]), beq_iff_eq.mpr hc, Bool.or_true]
  · rw [if_neg (by simp [hc]), beq_eq_false_iff_ne.mpr hc, Bool.or_false]

/-! ### The Control Block -/

/-- The bases latched, a runner takes its chain head (R26). -/
def headTaken (s : State) (n : Fin 4) (head : Addr) : State :=
  if head.toNat % 64 != 0 then s.faultRunner n .badAddress
  else (s.setRunner n { s.runner n with cursor := head }).fetch n

theorem blockArrived_eq (block : List Byte) : s.blockArrived n block =
    match s.nte.bases, blockBases s.cfg.byteOrder block with
    | some _, _ => s.headTaken n (BitVec.ofNat 64 (fieldAt s.cfg.byteOrder block (8 * n.val) 8))
    | none, some b => (s.setNte { s.nte with bases := some b, position := 0 }).headTaken n
        (BitVec.ofNat 64 (fieldAt s.cfg.byteOrder block (8 * n.val) 8))
    | none, none => s.faultRunner n .badAddress := rfl

theorem headTaken_bases (head : Addr) : (s.headTaken n head).nte.bases = s.nte.bases ∧
    (s.headTaken n head).nte.position = s.nte.position := by
  unfold headTaken
  split
  · exact s.faultRunner_bases n _
  · exact fetch_bases

theorem headTaken_faults {head : Addr} (h : head.toNat % 64 ≠ 0) :
    s.headTaken n head = s.faultRunner n .badAddress := by
  unfold headTaken
  rw [if_pos (by simpa using h)]

theorem headTaken_fetches {head : Addr} (h : head.toNat % 64 = 0) :
    ((s.headTaken n head).runner n).state = .fetching ∧ ((s.headTaken n head).runner n).cursor = head ∧
      (s.headTaken n head).smp = { s.smp with waiting := s.smp.waiting ++ [⟨.runner n, head, 64⟩] } := by
  unfold headTaken
  rw [if_neg (by simp [h]), fetch_reads (by rw [runner_setRunner_same]; exact h), runner_setSmp, runner_setRunner_same,
    runner_setRunner_same]
  exact ⟨rfl, rfl, rfl⟩

/-- A runner faulted with BAD_ADDRESS, its cursor kept (R33). -/
theorem faultRunner_spec : ((s.faultRunner n .badAddress).runner n).state = .faulted ∧
    ((s.faultRunner n .badAddress).runner n).fault = .badAddress ∧
    ((s.faultRunner n .badAddress).runner n).cursor = (s.runner n).cursor ∧
    (s.faultRunner n .badAddress).smp = s.smp := by
  rw [faultRunner_runner, faultRunner_smp]
  exact ⟨rfl, rfl, rfl, rfl⟩

end State

theorem blockBases_iff (o : ByteOrder) (block : List Byte) (b : Bases) : blockBases o block = some b ↔
    fieldAt o block 0x20 8 % 32 = 0 ∧ 16 ≤ fieldAt o block 0x28 2 ∧ fieldAt o block 0x28 2 ≤ 1024 ∧
    fieldAt o block 0x30 8 % 32 = 0 ∧
    b = ⟨BitVec.ofNat 64 (fieldAt o block 0x20 8), fieldAt o block 0x28 2, BitVec.ofNat 64 (fieldAt o block 0x30 8)⟩ := by
  unfold blockBases
  dsimp only
  generalize fieldAt o block 0x20 8 = notices
  generalize fieldAt o block 0x28 2 = entries
  generalize fieldAt o block 0x30 8 = status
  by_cases h : notices % 32 = 0 ∧ 16 ≤ entries ∧ entries ≤ 1024 ∧ status % 32 = 0
  · obtain ⟨hn, hlo, hhi, hs⟩ := h
    rw [if_pos (by simp [hn, hlo, hhi, hs]), Option.some.injEq]
    exact ⟨fun he => ⟨hn, hlo, hhi, hs, he.symm⟩, fun he => he.2.2.2.2.symm⟩
  · rw [if_neg (by simpa [and_assoc] using h)]
    exact ⟨nofun, fun ⟨hn, hlo, hhi, hs, _⟩ => absurd ⟨hn, hlo, hhi, hs⟩ h⟩

/-- The Control Block read of a START (R21, R26). -/
theorem blockArrived_spec (s : State) (n : Fin 4) (block : List Byte) : let t := s.blockArrived n block
    let found := blockBases s.cfg.byteOrder block
    let head := BitVec.ofNat 64 (fieldAt s.cfg.byteOrder block (8 * n.val) 8)
    let faulted := (t.runner n).state = .faulted ∧ (t.runner n).fault = .badAddress ∧
      (t.runner n).cursor = (s.runner n).cursor ∧ t.smp = s.smp
    (∀ b, s.nte.bases = some b → t.nte.bases = some b ∧ t.nte.position = s.nte.position) ∧
    (∀ b, s.nte.bases = none → found = some b → t.nte.bases = some b ∧ t.nte.position = 0) ∧
    (s.nte.bases = none → found = none → t.nte.bases = none ∧ faulted) ∧
    (s.nte.bases ≠ none ∨ found ≠ none → head.toNat % 64 ≠ 0 → faulted) ∧
    (s.nte.bases ≠ none ∨ found ≠ none → head.toNat % 64 = 0 → (t.runner n).state = .fetching ∧
      (t.runner n).cursor = head ∧ t.smp = { s.smp with waiting := s.smp.waiting ++ [⟨.runner n, head, 64⟩] }) := by
  dsimp only
  rw [State.blockArrived_eq]
  generalize (BitVec.ofNat 64 (fieldAt s.cfg.byteOrder block (8 * n.val) 8) : Addr) = head
  cases hb : s.nte.bases with
  | some b =>
    obtain ⟨hbases, hposition⟩ := State.headTaken_bases (s := s) (n := n) head
    dsimp only
    refine ⟨fun x hx => ⟨hbases.trans (hb.trans hx), hposition⟩, nofun, nofun, fun _ ha => ?_,
      fun _ ha => State.headTaken_fetches ha⟩
    rw [State.headTaken_faults ha]
    exact State.faultRunner_spec
  | none =>
    cases hf : blockBases s.cfg.byteOrder block with
    | some b =>
      let u := s.setNte { s.nte with bases := some b, position := 0 }
      obtain ⟨hbases, hposition⟩ := State.headTaken_bases (s := u) (n := n) head
      dsimp only
      refine ⟨nofun, fun x _ hx => ⟨hbases.trans hx, hposition⟩, nofun, fun _ ha => ?_,
        fun _ ha => State.headTaken_fetches (s := u) ha⟩
      rw [State.headTaken_faults ha]
      exact State.faultRunner_spec (s := u)
    | none =>
      dsimp only
      refine ⟨nofun, nofun, fun _ _ => ⟨(s.faultRunner_bases n _).1.trans hb, State.faultRunner_spec⟩,
        fun hne => by simp at hne, fun hne => by simp at hne⟩

/-- Settles O39. -/
theorem runnerFetches : Obligations.RunnerFetches := by
  unfold Obligations.RunnerFetches
  refine ⟨fun s n => ⟨State.fetch_reads, fun h => ?_⟩, fun s n rec => ⟨fun hx => ?_,
    fun target hx hr => ⟨fun hs ha => ?_, fun hs => ?_⟩, fun units => State.firstArrived_more, State.firstArrived_complete,
    State.firstArrived_raced, fun first hf => ⟨fun hr => ?_, fun hr => ?_⟩⟩,
    fun s n rec granted => ⟨fun why => State.offer_waits, fun hw hp => ?_, fun hw hp => ?_⟩, blockBases_iff,
    blockArrived_spec⟩
  · rw [State.fetch_faults h, State.faultRunner_runner]
    exact ⟨rfl, rfl, rfl, rfl, rfl, s.faultRunner_attn n _, s.faultRunner_smp n _⟩
  · rw [State.firstArrived_notArmed hx, State.park, State.modRunner_eq, State.runner_setRunner_same]
    exact ⟨rfl, rfl, rfl, rfl⟩
  · rw [State.firstArrived_next hx hr, State.followNext_follows target hs, State.fetch_reads
      (by rw [State.runner_setRunner_same]; exact ha), State.runner_setSmp, State.runner_setRunner_same,
      State.runner_setRunner_same]
    exact ⟨rfl, rfl, rfl, rfl, rfl⟩
  · rw [State.firstArrived_next hx hr, State.followNext_loops target hs, State.faultRunner_runner]
    exact ⟨rfl, rfl, rfl⟩
  · rw [State.runnerRead_remainder hf, if_neg (by simp [hr])]
  · rw [State.runnerRead_remainder hf, if_pos hr]
  · exact (State.offer_place hw).2 hp
  · obtain ⟨hsmp, hqueue, hwatch, hcircuits, hbridges, hsettles, hnext⟩ :=
      State.taking_fields (s := s) (n := n) (recordOf s.cfg rec)
    obtain ⟨hown, hothers⟩ := State.taking_runner (s := s) (n := n) (recordOf s.cfg rec)
    refine ⟨s.taking n (recordOf s.cfg rec), (State.offer_place hw).1 hp, hsmp, hqueue, hwatch, hcircuits, hbridges,
      hsettles, hnext, hown, hothers, fun k hk => ⟨hw, ?_⟩, fun hk => ?_, fun order k hk => ?_⟩
    all_goals
      generalize s.taking n (recordOf s.cfg rec) = u
      rw [hk]
      rfl

end Sys2Proof.Machine
end

section
/-! PROOFS. What the octets of a record are found to be (R23, R30, 13.1, 13.2). -/

namespace Sys2Proof.Machine

open Sys2Proof

/-- A validation finds an order exactly when its fields fit. -/
def Spells (x : Option Order) (fits : Prop) (order : Order) : Prop :=
  (fits → x = some order) ∧ (¬fits → x = none)

/-! ### Unit counts and first units -/

/-- The unit count agrees with the kind (R23), as a statement. -/
def UnitsFit (rec : List Byte) : Prop :=
  let kind := (byteAt rec 4).toNat; let units := (byteAt rec 5).toNat; let n := (byteAt rec 0x10).toNat
  kind = 3 ∧ 1 ≤ n ∧ n ≤ 32 ∧ units = 1 + (n + 7) / 8 ∨ 1 ≤ kind ∧ kind ≠ 3 ∧ kind ≤ 11 ∧ units = 1

theorem unitsAgree_iff (rec : List Byte) : unitsAgree rec = true ↔ UnitsFit rec := by
  unfold unitsAgree UnitsFit recordKind recordUnits
  by_cases hk : (byteAt rec 4).toNat = 3 <;> simp [hk, and_assoc]

theorem firstUnit_notArmed {o : ByteOrder} {rec : List Byte} (h : ¬fieldAt o rec 0 4 = 1) :
    firstUnit o rec = .notArmed := by
  unfold firstUnit
  rw [if_pos (by simp [h, armedWord])]

theorem firstUnit_armed {o : ByteOrder} {rec : List Byte} (h : fieldAt o rec 0 4 = 1) : firstUnit o rec =
    if recordKind rec == 11 && unitsAgree rec then .next (BitVec.ofNat 64 (fieldAt o rec 0x10 8))
    else if unitsAgree rec && 2 ≤ recordUnits rec then .more (recordUnits rec - 1) else .complete := by
  unfold firstUnit
  rw [if_neg (by simp [h, armedWord])]

theorem firstUnit_next {o : ByteOrder} {rec : List Byte} (h : fieldAt o rec 0 4 = 1)
    (hk : (byteAt rec 4).toNat = 11) (hu : (byteAt rec 5).toNat = 1) :
    firstUnit o rec = .next (BitVec.ofNat 64 (fieldAt o rec 0x10 8)) := by
  have ha : unitsAgree rec = true := (unitsAgree_iff rec).mpr (.inr ⟨by omega, by omega, by omega, hu⟩)
  rw [firstUnit_armed h, if_pos (by simp [recordKind, hk, ha])]

theorem firstUnit_more {o : ByteOrder} {rec : List Byte} (h : fieldAt o rec 0 4 = 1)
    (hk : (byteAt rec 4).toNat = 3) (ha : UnitsFit rec) :
    firstUnit o rec = .more ((byteAt rec 5).toNat - 1) := by
  have hu : 2 ≤ (byteAt rec 5).toNat := by
    unfold UnitsFit at ha
    dsimp only at ha
    omega
  rw [firstUnit_armed h, if_neg (by simp [recordKind, hk]), if_pos (by simp [(unitsAgree_iff rec).mpr ha, recordUnits, hu])]
  rfl

theorem firstUnit_complete {o : ByteOrder} {rec : List Byte} (h : fieldAt o rec 0 4 = 1)
    (hk : (byteAt rec 4).toNat ≠ 3 ∧ (byteAt rec 4).toNat ≠ 11 ∨ ¬UnitsFit rec) : firstUnit o rec = .complete := by
  rw [firstUnit_armed h]
  by_cases ha : UnitsFit rec
  · have hu : (byteAt rec 5).toNat = 1 := by
      unfold UnitsFit at ha
      dsimp only at ha
      rcases hk with hk | hk
      · omega
      · exact absurd ha hk
    have hk' : (byteAt rec 4).toNat ≠ 11 := by
      rcases hk with hk | hk
      · exact hk.2
      · exact absurd ha hk
    rw [if_neg (by simp [recordKind, hk']), if_neg (by simp [recordUnits, hu])]
  · have hn : unitsAgree rec = false := by rw [← Bool.not_eq_true, unitsAgree_iff]; exact ha
    rw [if_neg (by simp [hn]), if_neg (by simp [hn])]

theorem recordOf_malformed {cfg : SiteConfig} {rec : List Byte} (h : ¬UnitsFit rec) :
    recordOf cfg rec = .malformed 1 := by
  unfold recordOf
  rw [if_pos (by simpa using (not_congr (unitsAgree_iff rec)).mpr h)]

theorem recordOf_fence {cfg : SiteConfig} {rec : List Byte} (h : UnitsFit rec) (hk : (byteAt rec 4).toNat = 10) :
    recordOf cfg rec = .fence := by
  unfold recordOf
  rw [if_neg (by simpa [unitsAgree_iff] using h), if_pos (by simp [recordKind, hk])]

/-- A record whose unit count agrees is the order that its fields spell, or MALFORMED (R30). -/
theorem recordOf_spelled {cfg : SiteConfig} {rec : List Byte} {fits : Prop} {order : Order} (h : UnitsFit rec)
    {k : Nat} (hk : (byteAt rec 4).toNat = k) (hne : k ≠ 10) (ho : Spells (orderOf cfg rec) fits order) :
    (fits → recordOf cfg rec = .order order (byteAt rec 5).toNat) ∧
      (¬fits → recordOf cfg rec = .malformed (byteAt rec 5).toNat) := by
  have hof : recordOf cfg rec = (orderOf cfg rec).elim (.malformed (byteAt rec 5).toNat)
      fun order => .order order (byteAt rec 5).toNat := by
    unfold recordOf
    rw [if_neg (by simpa [unitsAgree_iff] using h), if_neg (by simp [recordKind, hk, hne])]
    cases orderOf cfg rec <;> rfl
  rw [hof]
  exact ⟨fun hf => by rw [ho.1 hf]; rfl, fun hf => by rw [ho.2 hf]; rfl⟩

/-! ### The octets of a field -/

theorem linePos_ofOctet (b : Byte) :
    LinePos.ofOctet b = ⟨(b.extractLsb' 5 3).toFin, (b.extractLsb' 0 5).toFin⟩ := by
  have h := b.isLt
  unfold LinePos.ofOctet LinePos.ofIndex
  congr 1
  apply Fin.ext
  simp [Nat.shiftRight_eq_div_pow]
  omega

theorem span_ofOctet (b : Byte) : Span.ofOctet b = if b = 0 then some .a else if b = 1 then some .b else none := by
  unfold Span.ofOctet
  simp only [beq_iff_eq]
  rfl

theorem direction_ofOctet (b : Byte) :
    Direction.ofOctet b = if b = 0 then some .toFibre else if b = 1 then some .toCopper else none := by
  unfold Direction.ofOctet
  simp only [beq_iff_eq]
  rfl

theorem force_ofOctet (b : Byte) : Force.ofOctet b =
    if b ≤ 2 then some (if b = 0 then .none else if b = 1 then .back else .forward) else none := by
  unfold Force.ofOctet
  simp only [BitVec.toNat_eq, BitVec.le_def]
  generalize b.toNat = k
  match k with
  | 0 | 1 | 2 => rfl
  | k + 3 => simp

theorem mapAction_ofOctet (b : Byte) : MapAction.ofOctet b =
    if b ≤ 3 then some (if b = 0 then .setLine else if b = 1 then .unequip else if b = 2 then .equip else .forget)
    else none := by
  unfold MapAction.ofOctet
  simp only [BitVec.toNat_eq, BitVec.le_def]
  generalize b.toNat = k
  match k with
  | 0 | 1 | 2 | 3 => rfl
  | k + 4 => simp

theorem spanAction_ofOctet (b : Byte) : SpanAction.ofOctet b =
    if b ≤ 2 then some (if b = 0 then .enable else if b = 1 then .disable else .prove) else none := by
  unfold SpanAction.ofOctet
  simp only [BitVec.toNat_eq, BitVec.le_def]
  generalize b.toNat = k
  match k with
  | 0 | 1 | 2 => rfl
  | k + 3 => simp

theorem matchLimitOf_eq (x : Nat) : matchLimitOf x =
    if x = 0 ∨ 800 ≤ x ∧ x ≤ 65535 then some (if x = 0 then 4000 else x) else none := by
  unfold matchLimitOf
  by_cases hx : x = 0
  · simp [hx, show Config.defaultMatchLimit = 4000 from rfl]
  · simp [hx]

theorem waitLimitOf_eq (o : ByteOrder) (rec : List Byte) : waitLimitOf o rec =
    if fieldAt o rec 0x1C 4 ≤ 1048575 then some (fieldAt o rec 0x1C 4) else none := rfl

theorem targetOf_eq (rec : List Byte) : targetOf rec = if (byteAt rec 6).getLsbD 2 then
    some ⟨((byteAt rec 0x14).extractLsb' 5 3).toFin, ((byteAt rec 0x14).extractLsb' 0 5).toFin⟩ else none := by
  rw [← linePos_ofOctet]
  rfl

end Sys2Proof.Machine
end

section
/-! PROOFS. The orders that a record's fields spell (R14, R37, R51, R57, R104, R107, R128, R151). -/

namespace Sys2Proof.Machine

open Sys2Proof

/-! ### MIGRATE and EXPECT -/

/-- The fields of a move that fit (R37). -/
def MoveFits (o : ByteOrder) (rec : List Byte) : Prop :=
  (byteAt rec 0x11 = 0 ∧ (byteAt rec 0x12 = 0 ∨ byteAt rec 0x12 = 1) ∨ byteAt rec 0x11 = 1) ∧
    (fieldAt o rec 0x18 2 = 0 ∨ 800 ≤ fieldAt o rec 0x18 2 ∧ fieldAt o rec 0x18 2 ≤ 65535)

/-- The move that the fields of a record spell (R37). -/
def spelledMove (o : ByteOrder) (rec : List Byte) : MoveOrder :=
  { circuit := (byteAt rec 0x10).toFin
    direction := if byteAt rec 0x11 = 0 then .toFibre else .toCopper
    span := if byteAt rec 0x11 = 0 ∧ byteAt rec 0x12 = 1 then .b else .a
    slot := if byteAt rec 0x11 = 0 then (byteAt rec 0x13).toFin else 0
    target := if byteAt rec 0x11 = 0 then none else targetOf rec
    expectedGeneration := expectedOf o rec
    quick := (byteAt rec 6).getLsbD 4
    matchLimit := if fieldAt o rec 0x18 2 = 0 then 4000 else fieldAt o rec 0x18 2 }

variable {o : ByteOrder} {cfg : SiteConfig} {rec : List Byte}

theorem moveOf_fits (h : MoveFits o rec) : moveOf o rec = some (spelledMove o rec) := by
  obtain ⟨hd, hm⟩ := h
  unfold moveOf spelledMove
  rw [direction_ofOctet, matchLimitOf_eq, if_pos hm, span_ofOctet]
  rcases hd with ⟨hd, hs | hs⟩ | hd
  · simp [hd, hs, recordCircuit, recordFlag]
  · simp [hd, hs, recordCircuit, recordFlag]
  · simp [hd, recordCircuit, recordFlag]

theorem moveOf_unfit (h : ¬MoveFits o rec) : moveOf o rec = none := by
  unfold moveOf
  rw [direction_ofOctet, matchLimitOf_eq, span_ofOctet]
  by_cases hm : fieldAt o rec 0x18 2 = 0 ∨ 800 ≤ fieldAt o rec 0x18 2 ∧ fieldAt o rec 0x18 2 ≤ 65535
  · have hd : ¬(byteAt rec 0x11 = 0 ∧ (byteAt rec 0x12 = 0 ∨ byteAt rec 0x12 = 1) ∨ byteAt rec 0x11 = 1) :=
      fun hd => h ⟨hd, hm⟩
    by_cases h0 : byteAt rec 0x11 = 0
    · have hs : ¬byteAt rec 0x12 = 0 ∧ ¬byteAt rec 0x12 = 1 := by
        constructor <;> intro hs <;> exact hd (.inl ⟨h0, by simp [hs]⟩)
      rw [if_pos h0, if_pos hm, if_neg hs.1, if_neg hs.2]
      rfl
    · rw [if_neg h0, if_neg fun h1 => hd (.inr h1)]
      rfl
  · rw [if_neg hm]
    cases (if byteAt rec 0x11 = 0 then some Direction.toFibre
      else if byteAt rec 0x11 = 1 then some Direction.toCopper else none) <;> rfl

theorem orderOf_migrate (hk : (byteAt rec 4).toNat = 1) : Spells (orderOf cfg rec)
    (MoveFits cfg.byteOrder rec ∧ fieldAt cfg.byteOrder rec 0x1C 4 ≤ 1048575)
    (.migrate (spelledMove cfg.byteOrder rec) ((byteAt rec 6).getLsbD 3) (fieldAt cfg.byteOrder rec 0x1C 4)) := by
  have horder : orderOf cfg rec = (moveOf cfg.byteOrder rec).bind fun m =>
      (waitLimitOf cfg.byteOrder rec).bind fun limit => some (.migrate m (recordFlag rec 3) limit) := by
    unfold orderOf recordKind
    rw [hk]
    rfl
  unfold Spells
  rw [horder, waitLimitOf_eq]
  refine ⟨fun ⟨hm, hw⟩ => ?_, fun hn => ?_⟩
  · rw [moveOf_fits hm, if_pos hw]
    rfl
  · by_cases hm : MoveFits cfg.byteOrder rec
    · rw [moveOf_fits hm, if_neg fun hw => hn ⟨hm, hw⟩]
      rfl
    · rw [moveOf_unfit hm]
      rfl

theorem orderOf_expect (hk : (byteAt rec 4).toNat = 2) : Spells (orderOf cfg rec)
    (MoveFits cfg.byteOrder rec ∧ 1 ≤ fieldAt cfg.byteOrder rec 0x1C 4 ∧ fieldAt cfg.byteOrder rec 0x1C 4 ≤ 1048575)
    (.expect { spelledMove cfg.byteOrder rec with quick := false } (fieldAt cfg.byteOrder rec 0x1C 4)) := by
  have horder : orderOf cfg rec = (moveOf cfg.byteOrder rec).bind fun m =>
      (waitLimitOf cfg.byteOrder rec).bind fun window =>
        if window == 0 then none else some (.expect { m with quick := false } window) := by
    unfold orderOf recordKind
    rw [hk]
    rfl
  unfold Spells
  rw [horder, waitLimitOf_eq]
  generalize fieldAt cfg.byteOrder rec 0x1C 4 = wait
  refine ⟨fun ⟨hm, hlo, hhi⟩ => ?_, fun hn => ?_⟩
  · rw [moveOf_fits hm, if_pos hhi]
    exact if_neg (by simp; omega)
  · by_cases hm : MoveFits cfg.byteOrder rec
    · rw [moveOf_fits hm]
      by_cases hhi : wait ≤ 1048575
      · rw [if_pos hhi]
        have hz : wait = 0 := Decidable.byContradiction fun hz => hn ⟨hm, by omega, hhi⟩
        exact if_pos (by simp [hz])
      · rw [if_neg hhi]
        rfl
    · rw [moveOf_unfit hm]
      rfl

/-! ### ABANDON, TRIM, MAP, RECOVER and SPAN -/

theorem orderOf_abandon (hk : (byteAt rec 4).toNat = 4) : Spells (orderOf cfg rec) (byteAt rec 0x11 ≤ 2)
    (.abandon (byteAt rec 0x10).toFin
      (if byteAt rec 0x11 = 0 then .none else if byteAt rec 0x11 = 1 then .back else .forward)) := by
  have horder : orderOf cfg rec = (Force.ofOctet (byteAt rec 0x11)).map (.abandon (recordCircuit rec)) := by
    unfold orderOf recordKind
    rw [hk]
    rfl
  unfold Spells
  rw [horder, force_ofOctet]
  exact ⟨fun hf => by rw [if_pos hf]; rfl, fun hf => by rw [if_neg hf]; rfl⟩

theorem orderOf_trim (hk : (byteAt rec 4).toNat = 5) : Spells (orderOf cfg rec)
    (fieldAt cfg.byteOrder rec 0x1C 4 ≤ 1048575)
    (.trim (byteAt rec 0x10).toFin (fieldAt cfg.byteOrder rec 0x1C 4)) := by
  have horder : orderOf cfg rec = (waitLimitOf cfg.byteOrder rec).map (.trim (recordCircuit rec)) := by
    unfold orderOf recordKind
    rw [hk]
    rfl
  unfold Spells
  rw [horder, waitLimitOf_eq]
  exact ⟨fun hf => by rw [if_pos hf]; rfl, fun hf => by rw [if_neg hf]; rfl⟩

theorem orderOf_map (hk : (byteAt rec 4).toNat = 6) : Spells (orderOf cfg rec)
    (byteAt rec 0x11 ≤ 3 ∧ (byteAt rec 0x11 = 0 ∨ byteAt rec 0x11 = 2 → (byteAt rec 6).getLsbD 2 = true))
    (.map (if byteAt rec 0x11 = 0 then .setLine else if byteAt rec 0x11 = 1 then .unequip
      else if byteAt rec 0x11 = 2 then .equip else .forget) (byteAt rec 0x10).toFin (targetOf rec)
      (expectedOf cfg.byteOrder rec)) := by
  have horder : orderOf cfg rec = (MapAction.ofOctet (byteAt rec 0x11)).bind fun action =>
      if (action == .setLine || action == .equip) && (targetOf rec).isNone then none
      else some (.map action (recordCircuit rec) (targetOf rec) (expectedOf cfg.byteOrder rec)) := by
    unfold orderOf recordKind
    rw [hk]
    rfl
  have hnone : (targetOf rec).isNone = true ↔ (byteAt rec 6).getLsbD 2 = false := by
    rw [targetOf_eq]
    split <;> simp_all
  unfold Spells
  rw [horder, mapAction_ofOctet]
  generalize byteAt rec 0x11 = b
  have hneeds : ∀ a : MapAction, a = (if b = 0 then .setLine else if b = 1 then .unequip else if b = 2 then .equip
      else .forget) → ((a == .setLine || a == .equip) = true ↔ b = 0 ∨ b = 2) := by
    rintro a rfl
    by_cases h0 : b = 0
    · simp [h0]
    · by_cases h1 : b = 1
      · simp [h1]
      · by_cases h2 : b = 2
        · simp [h2]
        · rw [if_neg h0, if_neg h1, if_neg h2]
          exact iff_of_false (by decide) fun hb => hb.elim h0 h2
  refine ⟨fun ⟨hle, hf⟩ => ?_, fun hn => ?_⟩
  · rw [if_pos hle]
    refine if_neg fun hc => ?_
    rw [Bool.and_eq_true, hneeds _ rfl, hnone] at hc
    exact absurd ((hf hc.1).symm.trans hc.2) (by decide)
  · by_cases hle : b ≤ 3
    · rw [if_pos hle]
      refine if_pos ?_
      rw [Bool.and_eq_true, hneeds _ rfl, hnone]
      exact Classical.byContradiction fun hc => hn ⟨hle, fun hb => Bool.of_not_eq_false fun hx => hc ⟨hb, hx⟩⟩
    · rw [if_neg hle]
      rfl

theorem orderOf_recover (hk : (byteAt rec 4).toNat = 7) : orderOf cfg rec =
    some (.recover (byteAt rec 0x10).toFin (targetOf rec) (expectedOf cfg.byteOrder rec)) := by
  unfold orderOf recordKind
  rw [hk]
  rfl

theorem orderOf_span (hk : (byteAt rec 4).toNat = 8) : Spells (orderOf cfg rec)
    (byteAt rec 0x10 ≤ 1 ∧ byteAt rec 0x11 ≤ 2 ∧ (byteAt rec 0x11 = 2 → fieldAt cfg.byteOrder rec 0x18 2 ≠ 0))
    (.span (if byteAt rec 0x10 = 0 then .a else .b)
      (if byteAt rec 0x11 = 0 then .enable else if byteAt rec 0x11 = 1 then .disable else .prove)
      (fieldAt cfg.byteOrder rec 0x18 2)) := by
  have horder : orderOf cfg rec = (Span.ofOctet (byteAt rec 0x10)).bind fun sp =>
      (SpanAction.ofOctet (byteAt rec 0x11)).bind fun action =>
        if action == .prove && fieldAt cfg.byteOrder rec 0x18 2 == 0 then none
        else some (.span sp action (fieldAt cfg.byteOrder rec 0x18 2)) := by
    unfold orderOf recordKind
    rw [hk]
    rfl
  have hspan : Span.ofOctet (byteAt rec 0x10) = if byteAt rec 0x10 ≤ 1 then
      some (if byteAt rec 0x10 = 0 then .a else .b) else none := by
    rw [span_ofOctet]
    generalize byteAt rec 0x10 = b
    simp only [BitVec.toNat_eq, BitVec.le_def]
    generalize b.toNat = k
    match k with
    | 0 | 1 => rfl
    | k + 2 => simp
  unfold Spells
  rw [horder, hspan, spanAction_ofOctet]
  generalize byteAt rec 0x10 = x
  generalize fieldAt cfg.byteOrder rec 0x18 2 = frames
  generalize byteAt rec 0x11 = b
  have hprove : b ≤ 2 → (((if b = 0 then SpanAction.enable else if b = 1 then .disable else .prove) == .prove) = true ↔
      b = 2) := by
    intro hle
    by_cases h0 : b = 0
    · simp [h0]
    · by_cases h1 : b = 1
      · simp [h1]
      · have h2 : b = 2 := by bv_omega
        simp [h2]
  by_cases hx : x ≤ 1
  · by_cases hb : b ≤ 2
    · rw [if_pos hx, if_pos hb]
      refine ⟨fun ⟨_, _, hf⟩ => if_neg ?_, fun hn => if_pos ?_⟩
      · rw [Bool.and_eq_true, hprove hb, beq_iff_eq]
        exact fun hc => hf hc.1 hc.2
      · rw [Bool.and_eq_true, hprove hb, beq_iff_eq]
        exact Classical.byContradiction fun hc => hn ⟨hx, hb, fun h2 hz => hc ⟨h2, hz⟩⟩
    · rw [if_pos hx, if_neg hb]
      exact ⟨fun hf => absurd hf.2.1 hb, fun _ => rfl⟩
  · rw [if_neg hx]
    exact ⟨fun hf => absurd hf.1 hx, fun _ => rfl⟩

end Sys2Proof.Machine
end

section
/-! PROOFS. The member lists and candidate lists that a record spells (R104, R107, R151). -/

namespace Sys2Proof.Machine

open Sys2Proof

variable {o : ByteOrder} {cfg : SiteConfig} {rec : List Byte}

/-! ### GROUP -/

theorem byteAt_part (rec : List Byte) (x : Nat) {k n : Nat} (h : k < n) :
    byteAt ((rec.drop x).take n) k = byteAt rec (x + k) := by
  unfold byteAt
  rw [List.getD_eq_getElem?_getD, List.getD_eq_getElem?_getD, List.getElem?_take_of_lt h, List.getElem?_drop]

theorem fieldAt_part (o : ByteOrder) (rec : List Byte) (x : Nat) {k n m : Nat} (h : k + m ≤ n) :
    fieldAt o ((rec.drop x).take n) k m = fieldAt o rec (x + k) m := by
  have hpart : (((rec.drop x).take n).drop k).take m = (rec.drop (x + k)).take m := by
    rw [List.drop_take, List.take_take, List.drop_drop, Nat.min_eq_left (by omega)]
  unfold fieldAt
  rw [hpart]

/-- Member i of a GROUP record, from the record's octets (13.2). -/
def spelledMember (o : ByteOrder) (rec : List Byte) (i : Nat) : MoveOrder :=
  let x := 64 + 8 * i
  let mark := fun k => (byteAt rec (x + 1)).getLsbD k
  { circuit := (byteAt rec x).toFin
    direction := if mark 0 then .toCopper else .toFibre
    span := if mark 0 = false ∧ mark 1 = true then .b else .a
    slot := if mark 0 then 0 else (byteAt rec (x + 2)).toFin
    target := if mark 0 = true ∧ mark 2 = true then some ⟨((byteAt rec (x + 2)).extractLsb' 5 3).toFin,
      ((byteAt rec (x + 2)).extractLsb' 0 5).toFin⟩ else none
    expectedGeneration := if mark 3 then some (BitVec.ofNat 16 (fieldAt o rec (x + 3) 2)) else none
    quick := (byteAt rec 6).getLsbD 4
    matchLimit := if fieldAt o rec 0x18 2 = 0 then 4000 else fieldAt o rec 0x18 2 }

theorem memberOf_spelled (i : Nat) : memberOf o (recordFlag rec 4)
    (if fieldAt o rec 0x18 2 = 0 then 4000 else fieldAt o rec 0x18 2) ((rec.drop (64 + 8 * i)).take 8) =
      spelledMember o rec i := by
  unfold memberOf spelledMember
  dsimp only
  rw [linePos_ofOctet, byteAt_part _ _ (by decide), byteAt_part _ _ (by decide), byteAt_part _ _ (by decide),
    fieldAt_part _ _ _ (by decide), Nat.add_zero]
  by_cases h0 : (byteAt rec (64 + 8 * i + 1)).getLsbD 0 = true
  · simp only [h0, recordFlag, if_true, true_and, false_and, if_false, Bool.true_eq_false]
  · simp only [h0, recordFlag, if_false, false_and, true_and, Bool.false_eq_true]

/-- Two members that clash (R104), as a statement. -/
def Clash (a b : MoveOrder) : Prop :=
  a.circuit = b.circuit ∨
    a.direction = .toFibre ∧ b.direction = .toFibre ∧ a.span = b.span ∧ a.slot = b.slot ∨
    a.direction = .toCopper ∧ b.direction = .toCopper ∧ a.target ≠ none ∧ a.target = b.target

theorem membersClash_iff (a b : MoveOrder) : membersClash a b = true ↔ Clash a b := by
  unfold membersClash Clash
  simp [Option.isSome_iff_ne_none, and_assoc, or_assoc]

theorem membersApart_iff (l : List MoveOrder) : membersApart l = true ↔ l.Pairwise fun a b => ¬Clash a b := by
  induction l with
  | nil => simp [membersApart]
  | cons x l ih => simp [membersApart, ih, ← membersClash_iff]

theorem membersApart_range (n : Nat) (f : Nat → MoveOrder) : membersApart ((List.range n).map f) = true ↔
    ∀ i j, i < j → j < n → ¬Clash (f i) (f j) := by
  rw [membersApart_iff, List.pairwise_map, List.pairwise_iff_getElem]
  simp only [List.length_range, List.getElem_range]
  exact ⟨fun h i j hij hj => h i j (by omega) hj hij, fun h i j _ hj hij => h i j hij hj⟩

theorem orderOf_group (hk : (byteAt rec 4).toNat = 3) : Spells (orderOf cfg rec)
    ((fieldAt cfg.byteOrder rec 0x18 2 = 0 ∨
        800 ≤ fieldAt cfg.byteOrder rec 0x18 2 ∧ fieldAt cfg.byteOrder rec 0x18 2 ≤ 65535) ∧
      ∀ i j, i < j → j < (byteAt rec 0x10).toNat →
        ¬Clash (spelledMember cfg.byteOrder rec i) (spelledMember cfg.byteOrder rec j))
    (.group ((List.range (byteAt rec 0x10).toNat).map (spelledMember cfg.byteOrder rec))) := by
  have horder : orderOf cfg rec = (groupOf cfg.byteOrder rec).map .group := by
    unfold orderOf recordKind
    rw [hk]
    rfl
  unfold Spells
  rw [horder, ← membersApart_range]
  unfold groupOf
  rw [matchLimitOf_eq]
  by_cases hm : fieldAt cfg.byteOrder rec 0x18 2 = 0 ∨
      800 ≤ fieldAt cfg.byteOrder rec 0x18 2 ∧ fieldAt cfg.byteOrder rec 0x18 2 ≤ 65535
  · rw [if_pos hm]
    simp only [Option.bind_eq_bind, Option.bind_some, memberOf_spelled]
    exact ⟨fun hf => by rw [if_pos hf.2]; rfl, fun hf => by rw [if_neg fun ha => hf ⟨hm, ha⟩]; rfl⟩
  · rw [if_neg hm]
    exact ⟨fun hf => absurd hf.1 hm, fun _ => rfl⟩

/-! ### TIMING -/

theorem mapM_eq_some_iff {α β : Type} (f : α → Option β) (l : List α) (r : List β) :
    l.mapM f = some r ↔ r.length = l.length ∧ ∀ (k : Nat) x y, l[k]? = some x → r[k]? = some y → f x = some y := by
  induction l generalizing r with
  | nil => cases r <;> simp
  | cons a l ih =>
    rw [List.mapM_cons]
    cases hf : f a with
    | none =>
      refine ⟨nofun, fun ⟨hl, h⟩ => ?_⟩
      cases r with
      | nil => cases hl
      | cons y r =>
        have := h 0 a y rfl rfl
        rw [hf] at this
        cases this
    | some b =>
      cases r with
      | nil => cases hm : l.mapM f <;> simp
      | cons y r =>
        have hcons : ((do let rest ← l.mapM f; pure (b :: rest)) = some (y :: r)) ↔ b = y ∧ l.mapM f = some r := by
          cases l.mapM f <;> simp
        refine Iff.trans hcons ?_
        rw [ih]
        constructor
        · rintro ⟨rfl, hl, h⟩
          refine ⟨by simp [hl], fun k x y hx hy => ?_⟩
          cases k with
          | zero =>
            simp only [List.getElem?_cons_zero, Option.some.injEq] at hx hy
            rw [← hx, ← hy, hf]
          | succ k => exact h k x y hx hy
        · rintro ⟨hl, h⟩
          have hb := h 0 a y rfl rfl
          rw [hf, Option.some.injEq] at hb
          exact ⟨hb, by simpa using hl, fun k x y hx hy => h (k + 1) x y hx hy⟩

theorem sourcesApart_iff (l : List Source) : sourcesApart l = true ↔ l.Nodup := by
  induction l with
  | nil => simp [sourcesApart]
  | cons x l ih => simp [sourcesApart, ih]

/-- A source octet that names a timing source of the site (R150, 13.1). -/
def SpelledSource (cfg : SiteConfig) (b : Byte) (x : Source) : Prop :=
  ((b.extractLsb' 6 2).toNat = 0 ∧ x = .office (b.extractLsb' 0 3).toFin) ∨
  ((b.extractLsb' 6 2).toNat = 1 ∧ x = .line (b.extractLsb' 0 3).toFin ∧
    cfg.clockRoles[(b.extractLsb' 0 3).toNat]? = some .follow) ∨
  ((b.extractLsb' 6 2).toNat = 2 ∧ (b.extractLsb' 0 3).toNat = 0 ∧ x = .span .a ∧ cfg.spanAPresent = true) ∨
  ((b.extractLsb' 6 2).toNat = 2 ∧ (b.extractLsb' 0 3).toNat = 1 ∧ x = .span .b ∧ cfg.spanBPresent = true)

theorem spelledSource_iff (b : Byte) (x : Source) :
    SpelledSource cfg b x ↔ Source.ofOctet b = some x ∧ cfg.isSource x = true := by
  unfold SpelledSource Source.ofOctet
  dsimp only
  generalize hn : b.extractLsb' 0 3 = number
  have hlt : number.toNat < 8 := number.isLt
  have hkind : (b.extractLsb' 6 2).toNat < 4 := (b.extractLsb' 6 2).isLt
  generalize (b.extractLsb' 6 2).toNat = kind at hkind ⊢
  have hrole : cfg.clockRoles[number.toNat]? = some .follow ↔ cfg.clockRoles[number.toFin.val] = .follow := by
    rw [Vector.getElem?_eq_getElem hlt, Option.some.injEq]
    rfl
  match kind with
  | 0 =>
    simp only [true_and, Option.some.injEq, Nat.zero_ne_one, false_and, or_false, show (0 : Nat) ≠ 2 by decide]
    exact ⟨fun h => ⟨h.symm, h ▸ rfl⟩, fun h => h.1.symm⟩
  | 1 =>
    simp only [Nat.one_ne_zero, false_and, true_and, false_or, or_false, Option.some.injEq, show (1 : Nat) ≠ 2 by decide,
      hrole]
    refine ⟨fun ⟨hx, hr⟩ => ⟨hx.symm, ?_⟩, fun ⟨hx, hr⟩ => ⟨hx.symm, ?_⟩⟩
    · subst hx
      exact beq_iff_eq.mpr hr
    · subst hx
      exact beq_iff_eq.mp hr
  | 2 =>
    simp only [show (2 : Nat) ≠ 0 by decide, show (2 : Nat) ≠ 1 by decide, false_and, false_or, true_and, beq_iff_eq]
    have h0 : number = 0#3 ↔ number.toNat = 0 := by simp [BitVec.toNat_eq]
    have h1 : number = 1#3 ↔ number.toNat = 1 := by simp [BitVec.toNat_eq]
    simp only [h0, h1]
    match number.toNat with
    | 0 =>
      rw [if_pos rfl]
      constructor
      · rintro (⟨_, rfl, hp⟩ | ⟨h, _⟩)
        · exact ⟨rfl, hp⟩
        · cases h
      · rintro ⟨⟨⟩, hp⟩
        exact .inl ⟨rfl, rfl, hp⟩
    | 1 =>
      rw [if_neg (by decide), if_pos rfl]
      constructor
      · rintro (⟨h, _⟩ | ⟨_, rfl, hp⟩)
        · cases h
        · exact ⟨rfl, hp⟩
      · rintro ⟨⟨⟩, hp⟩
        exact .inr ⟨rfl, rfl, hp⟩
    | k + 2 =>
      rw [if_neg (by omega), if_neg (by omega)]
      exact ⟨fun h => by omega, fun h => by cases h.1⟩
  | 3 => simp

/-- A list that the candidates of a TIMING record spell (R151). -/
def SpelledCandidates (cfg : SiteConfig) (rec : List Byte) (list : List Source) : Prop :=
  let n := (byteAt rec 0x10).toNat
  1 ≤ n ∧ n ≤ 4 ∧ list.length = n ∧ list.Nodup ∧
    ∀ (k : Nat) x, list[k]? = some x → SpelledSource cfg (byteAt rec (0x12 + k)) x

theorem candidatesOf_iff (hrec : 64 ≤ rec.length) (list : List Source) :
    candidatesOf cfg rec = some list ↔ SpelledCandidates cfg rec list := by
  unfold SpelledCandidates
  dsimp only
  generalize hn : (byteAt rec 0x10).toNat = n
  have hlist : candidatesOf cfg rec = some list ↔ ((rec.drop 0x12).take n).mapM Source.ofOctet = some list ∧
      1 ≤ n ∧ n ≤ 4 ∧ (list.all cfg.isSource = true) ∧ list.Nodup := by
    unfold candidatesOf
    dsimp only
    rw [hn]
    cases hm : ((rec.drop 0x12).take n).mapM Source.ofOctet with
    | none => simp
    | some l =>
      simp only [Option.bind_eq_bind, Option.bind_some, Option.some.injEq]
      by_cases hc : (1 ≤ n && n ≤ 4 && l.all cfg.isSource && sourcesApart l) = true
      · rw [if_pos hc]
        simp only [Bool.and_eq_true, decide_eq_true_eq, sourcesApart_iff] at hc
        obtain ⟨⟨⟨hlo, hhi⟩, hall⟩, hapart⟩ := hc
        exact ⟨fun h => by cases h; exact ⟨rfl, hlo, hhi, hall, hapart⟩, fun h => congrArg some h.1⟩
      · rw [if_neg hc]
        simp only [Bool.and_eq_true, decide_eq_true_eq, sourcesApart_iff] at hc
        exact ⟨nofun, fun ⟨h, hlo, hhi, hall, hapart⟩ => absurd (by subst h; exact ⟨⟨⟨hlo, hhi⟩, hall⟩, hapart⟩) hc⟩
  have hoctet : ∀ (k : Nat), k < n → n ≤ 4 → ((rec.drop 0x12).take n)[k]? = some (byteAt rec (0x12 + k)) := by
    intro k hk hn4
    rw [List.getElem?_take_of_lt hk, List.getElem?_drop, byteAt, List.getD_eq_getElem?_getD,
      List.getElem?_eq_getElem (by omega)]
    rfl
  rw [hlist, mapM_eq_some_iff]
  constructor
  · rintro ⟨⟨hlen, hmap⟩, hlo, hhi, hall, hapart⟩
    have hlen' : list.length = n := by
      rw [hlen, List.length_take, List.length_drop]
      omega
    refine ⟨hlo, hhi, hlen', hapart, fun k x hx => (spelledSource_iff _ x).mpr ⟨?_, ?_⟩⟩
    · have hk : k < n := by
        rw [← hlen']
        exact (List.getElem?_eq_some_iff.mp hx).1
      exact hmap k _ x (hoctet k hk hhi) hx
    · exact List.all_eq_true.mp hall x (List.mem_of_getElem? hx)
  · rintro ⟨hlo, hhi, hlen, hapart, hsource⟩
    refine ⟨⟨?_, fun k b x hb hx => ?_⟩, hlo, hhi, List.all_eq_true.mpr fun x hx => ?_, hapart⟩
    · rw [hlen, List.length_take, List.length_drop]
      omega
    · have hk : k < n := by
        rw [← hlen]
        exact (List.getElem?_eq_some_iff.mp hx).1
      rw [hoctet k hk hhi, Option.some.injEq] at hb
      rw [← hb]
      exact ((spelledSource_iff _ x).mp (hsource k x hx)).1
    · obtain ⟨k, hk⟩ := List.mem_iff_getElem?.mp hx
      exact ((spelledSource_iff _ x).mp (hsource k x hk)).2

theorem orderOf_timing (hk : (byteAt rec 4).toNat = 9) : orderOf cfg rec = (candidatesOf cfg rec).bind fun list =>
    if byteAt rec 0x11 ≤ 1 then some (.timing list (byteAt rec 0x11 == 1)) else none := by
  have horder : orderOf cfg rec = (candidatesOf cfg rec).bind fun list =>
      (if (byteAt rec 0x11).toNat = 0 then some false
        else if (byteAt rec 0x11).toNat = 1 then some true else none).bind
          fun revertive => some (.timing list revertive) := by
    unfold orderOf recordKind
    rw [hk]
    change (candidatesOf cfg rec).bind _ = _
    congr 1
    funext list
    generalize (byteAt rec 0x11).toNat = k
    match k with
    | 0 | 1 => rfl
    | k + 2 =>
      rw [if_neg (by omega), if_neg (by omega)]
      rfl
  rw [horder]
  congr 1
  funext list
  have hone : (byteAt rec 0x11 == 1) = ((byteAt rec 0x11).toNat == 1) := by
    rw [Bool.eq_iff_iff, beq_iff_eq, beq_iff_eq, BitVec.toNat_eq]
    rfl
  rw [hone]
  simp only [BitVec.le_def]
  generalize (byteAt rec 0x11).toNat = k
  match k with
  | 0 | 1 => rfl
  | k + 2 =>
    rw [if_neg (by omega), if_neg (by omega)]
    exact (if_neg (by simp)).symm

/-- Settles O40. -/
theorem recordsValidated : Obligations.RecordsValidated := by
  unfold Obligations.RecordsValidated
  intro cfg rec hrec
  have htarget := targetOf_eq rec
  refine ⟨firstUnit_notArmed, firstUnit_next, firstUnit_more, firstUnit_complete, recordOf_malformed, recordOf_fence,
    ⟨fun ha hk => ?_, fun ha hk => ?_⟩, fun ha hk => ?_, fun ha hk => ?_, fun ha hk => ?_, fun ha hk => ?_,
    fun ha hk => ?_, fun ha hk => ?_, fun ha hk => ⟨fun list hl hr => ?_, fun hn => ?_⟩⟩
  · have h := recordOf_spelled ha hk (by decide) (orderOf_migrate (cfg := cfg) hk)
    unfold spelledMove at h
    rw [htarget] at h
    exact h
  · have h := recordOf_spelled ha hk (by decide) (orderOf_expect (cfg := cfg) hk)
    unfold spelledMove at h
    rw [htarget] at h
    exact h
  · have h := recordOf_spelled ha hk (by decide) (orderOf_group (cfg := cfg) hk)
    exact h
  · exact recordOf_spelled ha hk (by decide) (orderOf_abandon hk)
  · exact recordOf_spelled ha hk (by decide) (orderOf_trim hk)
  · have h := recordOf_spelled ha hk (by decide) (orderOf_map (cfg := cfg) hk)
    rw [htarget] at h
    exact h
  · have h := (recordOf_spelled (cfg := cfg) ha hk (by decide) ⟨fun _ => orderOf_recover hk, fun hn => absurd trivial hn⟩).1
      trivial
    rw [htarget] at h
    exact h
  · exact recordOf_spelled ha hk (by decide) (orderOf_span hk)
  · have hlist : orderOf cfg rec = some (.timing list (byteAt rec 0x11 == 1)) := by
      rw [orderOf_timing hk, (candidatesOf_iff hrec list).mpr hl]
      exact if_pos hr
    exact (recordOf_spelled (fits := True) ha hk (by decide) ⟨fun _ => hlist, fun hn => absurd trivial hn⟩).1 trivial
  · have hnone : orderOf cfg rec = none := by
      rw [orderOf_timing hk]
      cases hl : candidatesOf cfg rec with
      | none => rfl
      | some list =>
        rcases hn with hn | hn
        · exact absurd ((candidatesOf_iff hrec list).mp hl) (hn list)
        · exact if_neg (by bv_omega)
    exact (recordOf_spelled (fits := False) (order := .timing [] false) ha hk (by decide)
      ⟨fun hf => hf.elim, fun _ => hnone⟩).2 id

end Sys2Proof.Machine
end

section
/-! PROOFS. Held records offered again, and what each order asks for at its take (R31, R32, R38, R39, R57, R105). -/

namespace Sys2Proof.Machine

open Sys2Proof

namespace State

/-! ### Reading the end of a step that moved nothing -/

section

variable {before s : State}

theorem headLeft_append {q : List QueueEntry} (h : s.queue = before.queue ++ q) : headLeft before s = false := by
  unfold headLeft
  rw [h]
  cases before.queue <;> simp

theorem runner_of_settledPart {s t : State} (h : t.settledPart = s.settledPart) (n : Fin 4) :
    { t.runner n with told := false } = { s.runner n with told := false } := by
  have e : ∀ u : State, u.settledPart.runners[n.val] = ({ u.runner n with told := false } : Runner) := fun u =>
    tab_getElem ..
  rw [← e, ← e, h]

/-- What the end of a step keeps of the queue, the posted writes and the settles, where nothing moved. -/
theorem finish_unmoved_fields (hb : s.bridges = before.bridges) (hg : s.groups = before.groups)
    (hh : headLeft before s = false) : (finish before s).queue = s.queue ∧
      (finish before s).smp.writes = s.smp.writes ∧ (finish before s).settles = s.settles := by
  have h := finish_settledPart hb hg hh
  exact ⟨by have := congrArg State.queue h; exact this, by have := congrArg (fun t => t.smp.writes) h; exact this,
    by have := congrArg State.settles h; exact this⟩

end

/-! ### The take of a held record -/

variable {s : State} {n : Fin 4}

theorem taking_rest (x : Record) : { s.taking n x with runners := s.runners, smp := s.smp } = s := by
  have hmark := markTake_rest (s := s.queueWrite (s.wordWrite (s.runner n).cursor 2 (.taken n))) (n := n)
    (s.runner n).cursor
  have hqueue := queueWrite_rest (s := s) (s.wordWrite (s.runner n).cursor 2 (.taken n))
  have hrunners := congrArg runners hqueue
  have h := congrArg (fun t : State => { t with smp := s.smp, runners := s.runners }) hmark
  have h' := congrArg (fun t : State => { t with runners := s.runners }) hqueue
  dsimp only at h h'
  exact h.trans h'

theorem taking_smp (x : Record) (h : s.smp.writes.length < 8) : (s.taking n x).smp =
    { s.smp with writes := s.smp.writes ++ [s.wordWrite (s.runner n).cursor 2 (.taken n)] } := by
  obtain ⟨hsmp, -⟩ := taking_fields (s := s) (n := n) x
  rw [hsmp, queueWrite_room _ h]
  rfl

/-- The runner after the take of a record one unit long, with an aligned cursor (R31). -/
theorem fetch_taken {u : State} {r : Runner} (hr : u.runner n = { r with
      state := .fetching, openCount := r.openCount + 1, streak := 0, held := none, told := false,
      reading := none, cursor := r.cursor + 64 }) (ha : r.cursor.toNat % 64 = 0) :
    (u.fetch n).queue = u.queue ∧ (u.fetch n).bridges = u.bridges ∧ (u.fetch n).groups = u.groups ∧
      (u.fetch n).smp.writes = u.smp.writes ∧ (u.fetch n).settles = u.settles ∧
      ((u.fetch n).runner n).state = .fetching ∧ ((u.fetch n).runner n).openCount = r.openCount + 1 ∧
      ((u.fetch n).runner n).streak = 0 ∧ ((u.fetch n).runner n).cursor = r.cursor + 64 ∧
      ((u.fetch n).runner n).held = none := by
  have ha' : (u.runner n).cursor.toNat % 64 = 0 := by
    rw [hr]
    dsimp only
    rw [BitVec.toNat_add]
    have : (64 : Addr).toNat = 64 := rfl
    omega
  rw [fetch_reads ha', runner_setSmp, runner_setRunner_same, hr]
  exact ⟨rfl, rfl, rfl, rfl, rfl, rfl, rfl, rfl, rfl, rfl⟩

/-! ### What an order asks for -/

theorem queueRoom_iff : s.queueRoom = true ↔
    ¬16 ≤ s.queue.length + (s.watch.filter fun w => w.readyMark.isSome).length := by
  simp [queueRoom, readyCount, show Config.queuePlaces = 16 from rfl]

theorem watchRoom_iff : s.watchRoom = true ↔ ¬16 ≤ s.watch.length := by
  simp [watchRoom, show Config.watchPlaces = 16 from rfl]

theorem queuePlace_eq : (if s.queueRoom then none else some WaitFor.queuePlace) =
    if 16 ≤ s.queue.length + (s.watch.filter fun w => w.readyMark.isSome).length then some WaitFor.queuePlace
    else none := by
  by_cases h : s.queueRoom = true
  · rw [if_pos h, if_neg (queueRoom_iff.mp h)]
  · rw [if_neg h, if_pos (by simpa using (not_congr queueRoom_iff).mp h)]

theorem watchPlace_eq : (if s.watchRoom then none else some WaitFor.watchPlace) =
    if 16 ≤ s.watch.length then some WaitFor.watchPlace else none := by
  by_cases h : s.watchRoom = true
  · rw [if_pos h, if_neg (watchRoom_iff.mp h)]
  · rw [if_neg h, if_pos (by simpa using (not_congr watchRoom_iff).mp h)]

theorem watching_iff (w : Bool) (c : CircuitNo) : (w && s.activity c != .idle) = true ↔ w = true ∧ s.activity c ≠ .idle := by
  simp

section

variable {m : MoveOrder} {w : Bool} (ref : OrderRef) (limit window : Nat)

theorem migrate_busy (h : s.busy m.circuit = true) : s.orderWaits (.migrate m w limit) = none ∧
    s.dispatch ref (.migrate m w limit) = s.settleMove ref .busy (s.placeValues m.circuit) :=
  ⟨if_pos h, if_pos h⟩

theorem expect_busy (h : s.busy m.circuit = true) : s.orderWaits (.expect m window) = none ∧
    s.dispatch ref (.expect m window) = s.settleMove ref .busy (s.placeValues m.circuit) :=
  ⟨if_pos h, if_pos h⟩

theorem migrate_watches (h : ¬s.busy m.circuit = true) (hw : w = true ∧ s.activity m.circuit ≠ .idle) :
    s.orderWaits (.migrate m w limit) = (if 16 ≤ s.watch.length then some WaitFor.watchPlace else none) ∧
    s.dispatch ref (.migrate m w limit) = s.setWatch (s.watch ++
      [⟨ref, m.circuit, .migrate m, if limit = 0 then none else some (s.after limit), none⟩]) := by
  rw [← watchPlace_eq]
  unfold dispatch migrateOrder orderWaits
  dsimp only
  rw [if_neg h, if_neg h, if_pos ((watching_iff w _).mpr hw), if_pos ((watching_iff w _).mpr hw), waitDeadline]
  simp only [beq_iff_eq, true_and]

theorem migrate_queues (h : ¬s.busy m.circuit = true) (hw : ¬(w = true ∧ s.activity m.circuit ≠ .idle)) :
    s.orderWaits (.migrate m w limit) = (if s.queueRoom then none else some WaitFor.queuePlace) ∧
    s.dispatch ref (.migrate m w limit) = s.setQueue (s.queue ++ [⟨ref, .migrate m⟩]) := by
  unfold dispatch migrateOrder orderWaits
  dsimp only
  rw [if_neg h, if_neg h, if_neg ((not_congr (watching_iff w _)).mpr hw), if_neg ((not_congr (watching_iff w _)).mpr hw)]
  exact ⟨rfl, rfl⟩

theorem expect_queues (h : ¬s.busy m.circuit = true) :
    s.orderWaits (.expect m window) = (if s.queueRoom then none else some WaitFor.queuePlace) ∧
    s.dispatch ref (.expect m window) = s.setQueue (s.queue ++ [⟨ref, .expect m window⟩]) :=
  ⟨if_neg h, if_neg h⟩

theorem group_queues {members : List MoveOrder} (h : ∀ x ∈ members, ¬s.busy x.circuit = true) :
    s.orderWaits (.group members) = (if s.queueRoom then none else some WaitFor.queuePlace) ∧
    s.dispatch ref (.group members) = s.setQueue (s.queue ++ [⟨ref, .group members⟩]) := by
  have hfind : members.findIdx? (fun x => s.busy x.circuit) = none := by
    rw [List.findIdx?_eq_none_iff]
    exact fun x hx => by simpa using h x hx
  refine ⟨if_neg (by simpa using h), ?_⟩
  unfold dispatch groupOrder
  dsimp only
  rw [hfind]
  rfl

theorem group_waits {members : List MoveOrder} (h : ∃ x ∈ members, s.busy x.circuit = true) :
    s.orderWaits (.group members) = none := if_pos (by simpa using h)

theorem group_busy {members : List MoveOrder} {k : Nat}
    (h : members.findIdx? (fun x => s.busy x.circuit) = some k) :
    s.dispatch ref (.group members) = s.settleLone ref members k .busy := by
  unfold dispatch groupOrder
  dsimp only
  rw [h]

theorem trimWaits_iff (c : CircuitNo) : s.trimWaits c = true ↔
    s.busy c = false ∧ (s.circuit c).hold ≠ 0 ∧ s.activity c ≠ .idle := by
  simp [trimWaits, and_assoc]

end

theorem reoffer_held {h : HeldRecord} (hh : (s.runner n).held = some h) (granted : Bool) : s.reoffer n granted =
    if (s.runner n).raced then s.fetch n else s.offer n h.units granted := by
  rw [reoffer, hh]

end State

theorem exec_waitingReoffer (n : Fin 4) (s : State) : exec (.waitingReoffer n) s = act s fun s =>
    if (s.runner n).state == .waiting && (s.runner n).told then s.reoffer n false else s := rfl

theorem exec_fenceRetry (n : Fin 4) (s : State) : exec (.fenceRetry n) s = act s fun s =>
    if (s.runner n).state == .waiting && (s.runner n).held.any (fun h => h.why == .fence) &&
      (s.runner n).openCount == 0 then s.reoffer n false else s := rfl

/-- A WAITING runner that has been told offers again what it holds (R31, R39). -/
theorem exec_reoffered {n : Fin 4} {s : State} {x : HeldRecord} (h : s.resetLow = false)
    (hw : (s.runner n).state = .waiting) (hx : (s.runner n).held = some x) (ht : (s.runner n).told = true)
    (hr : (s.runner n).raced = false) :
    exec (.waitingReoffer n) s = .next (State.finish s (s.offer n x.units false)) := by
  rw [exec_running h (exec_waitingReoffer n s), if_pos (by simp [hw, ht]), State.reoffer_held hx, if_neg (by simp [hr])]

/-- What stands of a runner and the queues after a take whose record moved no circuit (R31). -/
theorem taken_finished {n : Fin 4} {s u : State} {r : Runner} {q : List QueueEntry} (hr : u.runner n = { r with
      state := .fetching, openCount := r.openCount + 1, streak := 0, held := none, told := false,
      reading := none, cursor := r.cursor + 64 }) (ha : r.cursor.toNat % 64 = 0) (hb : u.bridges = s.bridges)
    (hg : u.groups = s.groups) (hq : u.queue = s.queue ++ q) : let t := State.finish s (u.fetch n)
    t.queue = u.queue ∧ t.smp.writes = u.smp.writes ∧ t.settles = u.settles ∧ (t.runner n).state = .fetching ∧
      (t.runner n).openCount = r.openCount + 1 ∧ (t.runner n).streak = 0 ∧ (t.runner n).cursor = r.cursor + 64 ∧
      (t.runner n).held = none := by
  obtain ⟨hqueue, hbridges, hgroups, hwrites, hsettles, hstate, hopen, hstreak, hcursor, hheld⟩ :=
    State.fetch_taken hr ha
  have hb' : (u.fetch n).bridges = s.bridges := hbridges.trans hb
  have hg' : (u.fetch n).groups = s.groups := hgroups.trans hg
  have hh : State.headLeft s (u.fetch n) = false := State.headLeft_append (hqueue.trans hq)
  obtain ⟨hqueue', hwrites', hsettles'⟩ := State.finish_unmoved_fields hb' hg' hh
  have hrunner := State.runner_of_settledPart (State.finish_settledPart hb' hg' hh) n
  exact ⟨hqueue'.trans hqueue, hwrites'.trans hwrites, hsettles'.trans hsettles,
    (congrArg Runner.state hrunner :).trans hstate, (congrArg Runner.openCount hrunner :).trans hopen,
    (congrArg Runner.streak hrunner :).trans hstreak, (congrArg Runner.cursor hrunner :).trans hcursor,
    (congrArg Runner.held hrunner :).trans hheld⟩

/-- A held MIGRATE without WAIT_IDLE that is offered again and finds room is taken (R31, R38). -/
theorem reoffered_taken {n : Fin 4} {s : State} {rec : List Byte} {m : MoveOrder} {limit : Nat}
    (hx : recordOf s.cfg rec = .order (.migrate m false limit) 1) (hb : s.busy m.circuit = false)
    (hq : s.queueRoom = true) (hw : s.smp.writes.length < 8) (hc : s.smp.claims = [])
    (ha : (s.runner n).cursor.toNat % 64 = 0) : let t := State.finish s (s.offer n rec false); let r := s.runner n
    t.queue = s.queue ++ [⟨recordRef s.cfg.byteOrder n r.cursor rec, .migrate m⟩] ∧
      t.smp.writes = s.smp.writes ++ [s.wordWrite r.cursor 2 (.taken n)] ∧
      (t.runner n).state = .fetching ∧ (t.runner n).openCount = r.openCount + 1 ∧ (t.runner n).streak = 0 ∧
      (t.runner n).cursor = r.cursor + 64 ∧ (t.runner n).held = none := by
  have hwaits : s.recordWaits n (recordOf s.cfg rec) = none := by
    rw [hx]
    refine (State.migrate_queues (recordRef s.cfg.byteOrder n (s.runner n).cursor rec) limit (by simp [hb])
      (by simp)).1.trans ?_
    rw [if_pos hq]
  have hrest := State.taking_rest (s := s) (n := n) (.order (.migrate m false limit) 1)
  have hsmp := State.taking_smp (s := s) (n := n) (.order (.migrate m false limit) 1) hw
  obtain ⟨hown, -⟩ := State.taking_runner (s := s) (n := n) (.order (.migrate m false limit) 1)
  rw [(State.offer_place hwaits).1 (.inr ⟨hc, hw⟩), hx, State.takeRecord_eq]
  generalize s.taking n (.order (.migrate m false limit) 1) = u at hrest hsmp hown ⊢
  have hbusy : u.busy m.circuit = false := by
    have := congrArg (fun t : State => t.busy m.circuit) hrest
    exact Eq.trans this hb
  have hqueue : u.queue = s.queue := by
    have := congrArg State.queue hrest
    exact this
  have hact : u.actOnRecord (recordRef s.cfg.byteOrder n (s.runner n).cursor rec) (.order (.migrate m false limit) 1) =
      u.setQueue (u.queue ++ [⟨recordRef s.cfg.byteOrder n (s.runner n).cursor rec, .migrate m⟩]) :=
    (State.migrate_queues _ limit (by simp [hbusy]) (by simp)).2
  rw [hact, hqueue]
  obtain ⟨hq', hw', -, hstate, hopen, hstreak, hcursor, hheld⟩ := taken_finished (s := s) (n := n) (r := s.runner n)
    (u := u.setQueue (s.queue ++ [⟨recordRef s.cfg.byteOrder n (s.runner n).cursor rec, .migrate m⟩]))
    hown ha (by have := congrArg State.bridges hrest; exact this) (by have := congrArg State.groups hrest; exact this) rfl
  exact ⟨hq', hw'.trans (congrArg Smp.writes hsmp), hstate, hopen, hstreak, hcursor, hheld⟩

/-- A held MIGRATE without WAIT_IDLE that is offered again to a full queue goes on waiting (R31, R39). -/
theorem reoffered_waits {n : Fin 4} {s : State} {rec : List Byte} {m : MoveOrder} {limit : Nat}
    (hx : recordOf s.cfg rec = .order (.migrate m false limit) 1) (hb : s.busy m.circuit = false)
    (hq : s.queueRoom = false) : let t := State.finish s (s.offer n rec false)
    (t.runner n).state = .waiting ∧ (t.runner n).held = some ⟨rec, .queuePlace⟩ ∧ t.queue = s.queue ∧
      t.smp.writes = s.smp.writes := by
  have hwaits : s.recordWaits n (recordOf s.cfg rec) = some .queuePlace := by
    rw [hx]
    refine (State.migrate_queues (recordRef s.cfg.byteOrder n (s.runner n).cursor rec) limit (by simp [hb])
      (by simp)).1.trans ?_
    rw [if_neg (by simp [hq])]
  have hh : State.headLeft s (s.waitOn n rec .queuePlace) = false := State.headLeft_same rfl
  obtain ⟨hqueue, hwrites, -⟩ := State.finish_unmoved_fields (before := s) (s := s.waitOn n rec .queuePlace) rfl rfl hh
  have hrunner := State.runner_of_settledPart
    (State.finish_settledPart (before := s) (s := s.waitOn n rec .queuePlace) rfl rfl hh) n
  have hown : (s.waitOn n rec .queuePlace).runner n = { s.runner n with
      state := .waiting, held := some ⟨rec, .queuePlace⟩, reading := none, told := false } := by
    rw [State.waitOn, State.modRunner_eq, State.runner_setRunner_same]
  rw [hown] at hrunner
  rw [State.offer_waits hwaits]
  exact ⟨congrArg Runner.state hrunner, congrArg Runner.held hrunner, hqueue, hwrites⟩

/-- A held FENCE that is offered with no order open is taken and settles DONE (R32). -/
theorem fence_taken {n : Fin 4} {s : State} {rec : List Byte} (hx : recordOf s.cfg rec = .fence)
    (ho : (s.runner n).openCount = 0) (hw : s.smp.writes.length < 8) (hc : s.smp.claims = [])
    (ha : (s.runner n).cursor.toNat % 64 = 0) : let t := State.finish s (s.offer n rec false); let r := s.runner n
    t.settles = s.settles ++ [⟨s.nextSettle, recordRef s.cfg.byteOrder n r.cursor rec, .done, 1⟩] ∧
      (t.runner n).state = .fetching ∧ (t.runner n).openCount = 1 ∧ (t.runner n).streak = 0 ∧
      (t.runner n).cursor = r.cursor + 64 := by
  have hwaits : s.recordWaits n (recordOf s.cfg rec) = none := by
    rw [hx]
    exact if_pos (by simp [ho])
  have hrest := State.taking_rest (s := s) (n := n) .fence
  obtain ⟨hown, -⟩ := State.taking_runner (s := s) (n := n) .fence
  rw [(State.offer_place hwaits).1 (.inr ⟨hc, hw⟩), hx, State.takeRecord_eq]
  generalize s.taking n .fence = u at hrest hown ⊢
  have hfield : ∀ {β : Type} (f : State → β), f { u with runners := s.runners, smp := s.smp } = f s := fun f =>
    congrArg f hrest
  have hsettles : u.settles = s.settles := hfield State.settles
  have hnext : u.nextSettle = s.nextSettle := hfield State.nextSettle
  let v := u.settleOrder (recordRef s.cfg.byteOrder n (s.runner n).cursor rec) .done noValues
  have hv : v.settles = s.settles ++ [⟨s.nextSettle, recordRef s.cfg.byteOrder n (s.runner n).cursor rec, .done, 1⟩] := by
    rw [State.settleOrder_settles, hsettles, hnext]
    rfl
  have hrunner : v.runner n = u.runner n := by
    unfold State.runner
    rw [State.settleOrder_runners]
  obtain ⟨-, -, hs, hstate, hopen, hstreak, hcursor, -⟩ := taken_finished (s := s) (n := n) (r := s.runner n)
    (u := v) (q := []) (hrunner.trans hown) ha ((State.settleOrder_bridges ..).trans (hfield State.bridges))
    ((State.settleOrder_groups ..).trans (hfield State.groups))
    (by rw [State.settleOrder_queue, List.append_nil]; exact hfield State.queue)
  exact ⟨hs.trans hv, hstate, hopen.trans (by rw [ho]), hstreak, hcursor⟩

/-- Settles O41. -/
theorem heldRecordsRetried : Obligations.HeldRecordsRetried := by
  unfold Obligations.HeldRecordsRetried
  refine ⟨fun n s rec m limit h hw hh hr hx hb => ⟨fun ht hq hp hc ha => ?_, fun ht hq => ?_, fun ht => ?_⟩,
    fun n s x h hw hh ht => ⟨fun hr => exec_reoffered h hw hh ht hr, fun hr => ?_⟩,
    fun s ref m waitIdle limit window c members => ⟨fun hb => ?_, fun hb hw => State.migrate_watches ref limit hb hw,
      fun hb hw => ?_, fun hb => ?_, State.group_waits, fun k => State.group_busy ref, fun hb => ?_, fun ht => ?_,
      fun ht => ?_⟩,
    fun n s rec h hw hh hr hx => ⟨fun ho hp hc ha => ?_, fun ho => ?_⟩⟩
  · exact ⟨_, exec_reoffered h hw hh ht hr, reoffered_taken hx hb hq hp hc ha⟩
  · exact ⟨_, exec_reoffered h hw hh ht hr, reoffered_waits hx hb hq⟩
  · rw [exec_running h (exec_waitingReoffer n s), if_neg (by simp [ht])]
  · rw [exec_running h (exec_waitingReoffer n s), if_pos (by simp [hw, ht]), State.reoffer_held hh, if_pos hr]
  · obtain ⟨hwaits, hsettles⟩ := State.migrate_busy (w := waitIdle) ref limit hb
    obtain ⟨hwaits', hsettles'⟩ := State.expect_busy ref window hb
    exact ⟨hwaits, hsettles, hwaits', hsettles'⟩
  · rw [← State.queuePlace_eq]
    exact State.migrate_queues ref limit hb hw
  · rw [← State.queuePlace_eq]
    exact State.expect_queues ref window hb
  · rw [← State.queuePlace_eq]
    exact State.group_queues ref hb
  · rw [← State.watchPlace_eq]
    exact if_pos ((State.trimWaits_iff c).mpr ht)
  · exact if_neg ((not_congr (State.trimWaits_iff c)).mpr ht)
  · refine ⟨_, ?_, fence_taken hx ho hp hc ha⟩
    rw [exec_running h (exec_fenceRetry n s), if_pos (by simp [hw, hh, ho]), State.reoffer_held hh, if_neg (by simp [hr])]
  · rw [exec_running h (exec_fenceRetry n s), if_neg (by simp [ho])]

end Sys2Proof.Machine
end

section
/-! PROOFS. The start of a queue head (R42 to R47, R84, R86, R104 to R107). -/

namespace Sys2Proof.Machine

open Sys2Proof

namespace State

variable {s : State}

/-! ### The head that starts -/

theorem startHeads_one {q : QueueEntry} (hq : s.queue = [q]) (hf : s.headFits q = true) :
    s.startHeads s.queue.length = (s.setQueue []).startHead q := by
  rw [hq]
  unfold List.length startHeads
  rw [hq]
  dsimp only
  rw [if_pos hf]
  rfl

theorem startHeads_none {q : QueueEntry} (hq : s.queue = [q]) (hf : s.headFits q = false) :
    s.startHeads s.queue.length = s := by
  rw [hq]
  unfold List.length startHeads
  rw [hq]
  dsimp only
  rw [if_neg (by simp [hf])]

theorem headFits_lone {q : QueueEntry} {i : BridgeNo} (hb : s.bridge i = none) (hl : ∀ j, j < i → s.bridge j ≠ none)
    (hn : q.needs = 1) (hg : ∀ l, q.body ≠ .group l) : s.headFits q = true := by
  obtain ⟨r, hr⟩ := freeBridges_lowest hb hl
  unfold headFits
  rw [hn, hr]
  cases hq : q.body with
  | group l => exact absurd hq (hg l)
  | _ => simp

/-- The start of a refused head: its order settles, and nothing is allocated (R43). -/
theorem settled_finish {u : State} (hu : u.queue = []) (hb : u.bridges = s.bridges) (hg : u.groups = s.groups) :
    let t := finish s u
    t.queue = [] ∧ t.settles = u.settles ∧ t.bridges = u.bridges ∧ t.groups = u.groups ∧ t.circuits = u.circuits ∧
      t.lineOcc = u.lineOcc ∧ t.spanOcc = u.spanOcc ∧ t.spans = u.spans := by
  have h := finish_settledPart_of_queue_nil (s := s) hu (.inl ⟨hb, hg⟩)
  have hf : ∀ {β : Type} (f : State → β), f (finish s u).settledPart = f u.settledPart := fun f => congrArg f h
  exact ⟨(hf State.queue).trans hu, hf State.settles, hf State.bridges, hf State.groups, hf State.circuits,
    hf State.lineOcc, hf State.spanOcc, hf State.spans⟩

/-- A refusal with a code settles the order and touches nothing else (R43). -/
theorem refused_finish {ref : OrderRef} {code : ResultCode} (v : List Byte) (members : List (Byte × Byte)) :
    let t := finish s ((s.setQueue []).settleOrder ref code v members)
    t.queue = [] ∧ t.settles = s.settles ++ [⟨s.nextSettle, ref, code, (members.length + 3) / 4 + 1⟩] ∧
      t.bridges = s.bridges ∧ t.groups = s.groups ∧ t.circuits = s.circuits ∧ t.lineOcc = s.lineOcc ∧
      t.spanOcc = s.spanOcc ∧ t.spans = s.spans := by
  have h := settled_finish (s := s) (u := (s.setQueue []).settleOrder ref code v members)
    (by rw [settleOrder_queue]; rfl) (by rw [settleOrder_bridges]; rfl) (by rw [settleOrder_groups]; rfl)
  simp only [settleOrder_settles, settleOrder_bridges, settleOrder_groups, settleOrder_circuits, settleOrder_lineOcc,
    settleOrder_spanOcc, settleOrder_spans] at h
  exact h

/-! ### The occupancy that a start marks -/

theorem markedToPath_fibre {m : MoveOrder} (b : BearerSlot) (p : LinePos) (hd : m.direction = .toFibre) :
    ((s.markedToPath m b p).slotEntry b).use = .bridged m.circuit ∧ (s.markedToPath m b p).lineOcc = s.lineOcc ∧
      ∀ q, q ≠ b → (s.markedToPath m b p).slotEntry q = s.slotEntry q := by
  unfold markedToPath
  rw [hd]
  dsimp only
  unfold useSlot
  refine ⟨by rw [slotEntry_setSlotEntry_same], rfl, fun q hq => slotEntry_setSlotEntry_ne _ _ _ _ (Ne.symm hq)⟩

theorem markedToPath_copper {m : MoveOrder} (b : BearerSlot) (p : LinePos) (hd : m.direction = .toCopper) :
    (s.markedToPath m b p).lineUse p = .occupied m.circuit ∧ (s.markedToPath m b p).spanOcc = s.spanOcc ∧
      ∀ q, q ≠ p → (s.markedToPath m b p).lineUse q = s.lineUse q := by
  unfold markedToPath
  rw [hd]
  exact ⟨lineUse_setLineUse_same _ _ _, rfl, fun q hq => lineUse_setLineUse_ne _ _ _ _ (Ne.symm hq)⟩

/-- The to-path that a start has marked. -/
def ToPathMarked (s u : State) (m : MoveOrder) (b : BearerSlot) (p : LinePos) : Prop :=
  (m.direction = .toFibre → (u.slotEntry b).use = .bridged m.circuit ∧ u.lineOcc = s.lineOcc ∧
    ∀ q, q ≠ b → u.slotEntry q = s.slotEntry q) ∧
  (m.direction = .toCopper → u.lineUse p = .occupied m.circuit ∧ u.spanOcc = s.spanOcc ∧
    ∀ q, q ≠ p → u.lineUse q = s.lineUse q)

theorem toPathMarked_of_same {u : State} {m : MoveOrder} {b : BearerSlot} {p : LinePos}
    (hl : u.lineOcc = (s.markedToPath m b p).lineOcc) (hs : u.spanOcc = (s.markedToPath m b p).spanOcc) :
    s.ToPathMarked u m b p := by
  have hslot : ∀ q, u.slotEntry q = (s.markedToPath m b p).slotEntry q := fun q => by rw [slotEntry, slotEntry, hs]
  have hline : ∀ q, u.lineUse q = (s.markedToPath m b p).lineUse q := fun q => by rw [lineUse, lineUse, hl]
  refine ⟨fun hd => ?_, fun hd => ?_⟩
  · simp only [hslot, hl]
    exact markedToPath_fibre b p hd
  · simp only [hline, hs]
    exact markedToPath_copper b p hd

theorem startMigrate_marks {m : MoveOrder} {b : BearerSlot} {p : LinePos} (i : BridgeNo) (ref : Option OrderRef)
    (g : Option (Fin 4 × Nat)) (hb : s.moveBearer m = some b) (hp : s.moveLine m = some p)
    (hsv : s.inService b.span = true) : s.ToPathMarked (s.startMigrate i m ref g) m b p := by
  obtain ⟨e, a, hform, -⟩ := startMigrate_form i ref g hb hp hsv
  rw [hform]
  exact toPathMarked_of_same rfl rfl

/-- A move that passes its start checks has its span in service (R43). -/
theorem inService_of_startCheck {m : MoveOrder} {b : BearerSlot} (hc : s.startCheck m = none)
    (hb : s.moveBearer m = some b) : s.inService b.span = true := by
  obtain ⟨b', p', hb', -, hsv⟩ := startCheck_passes hc
  rw [hb, Option.some.injEq] at hb'
  rw [hb']
  exact hsv

theorem finish_ungrouped {u : State} (hq : u.queue = []) (hg : u.groups = s.groups) :
    (∀ g, s.group g = none) → (finish s u).settledPart = u.settledPart := by
  intro h
  refine finish_settledPart_of_queue_nil hq (.inr fun g => ?_)
  rw [group, hg]
  exact h g

theorem startedSpan_placed {m : MoveOrder} {b : BearerSlot} {i : BridgeNo} {q : List QueuedMessage}
    (h : placeMessage (s.span b.span).txQueue i (s.offerMessage m b) = some q) :
    s.startedSpan m b i = { s.span b.span with txnCounter := (s.span b.span).txnCounter + 1, txQueue := q } := by
  unfold startedSpan
  dsimp only
  rw [h]
  rfl

theorem startedSpan_waits {m : MoveOrder} {b : BearerSlot} {i : BridgeNo}
    (h : placeMessage (s.span b.span).txQueue i (s.offerMessage m b) = none) :
    s.startedSpan m b i = { s.span b.span with txnCounter := (s.span b.span).txnCounter + 1 } := by
  unfold startedSpan
  dsimp only
  rw [h]
  rfl

/-! ### MIGRATE -/

theorem startHead_migrate {ref : OrderRef} {m : MoveOrder} {i : BridgeNo} (hb : s.bridge i = none)
    (hl : ∀ j, j < i → s.bridge j ≠ none) :
    (∀ code, s.startCheck m = some code → (s.setQueue []).startHead ⟨ref, .migrate m⟩ =
      (s.setQueue []).settleMove ref code (s.placeValues m.circuit)) ∧
    (s.startCheck m = none → (s.setQueue []).startHead ⟨ref, .migrate m⟩ =
      (s.setQueue []).startMigrate i m (some ref) none) := by
  obtain ⟨r, hr⟩ := freeBridges_lowest hb hl
  have hcheck : (s.setQueue []).startCheck m = s.startCheck m := rfl
  have hfree : (s.setQueue []).freeBridges = i :: r := hr
  unfold startHead
  dsimp only
  rw [hcheck, hfree]
  exact ⟨fun code hc => by rw [hc]; rfl, fun hc => by rw [hc]⟩

theorem startHead_expect {ref : OrderRef} {m : MoveOrder} {window : Nat} {i : BridgeNo} (hb : s.bridge i = none)
    (hl : ∀ j, j < i → s.bridge j ≠ none) :
    (∀ code, s.startCheck m = some code → (s.setQueue []).startHead ⟨ref, .expect m window⟩ =
      (s.setQueue []).settleMove ref code (s.placeValues m.circuit)) ∧
    (s.startCheck m = none → (s.setQueue []).startHead ⟨ref, .expect m window⟩ =
      (s.setQueue []).startExpect i m window ref) := by
  obtain ⟨r, hr⟩ := freeBridges_lowest hb hl
  have hcheck : (s.setQueue []).startCheck m = s.startCheck m := rfl
  have hfree : (s.setQueue []).freeBridges = i :: r := hr
  unfold startHead
  dsimp only
  rw [hcheck, hfree]
  exact ⟨fun code hc => by rw [hc]; rfl, fun hc => by rw [hc]⟩

end State

/-- The start of a lone head, refused (R43). -/
theorem admission_refused {s : State} {q : QueueEntry} {code : ResultCode} {v : List Byte} {l : List (Byte × Byte)}
    (h : s.resetLow = false) (hq : s.queue = [q]) (hf : s.headFits q = true)
    (hu : (s.setQueue []).startHead q = (s.setQueue []).settleOrder q.ref code v l) :
    ∃ t, exec .admissionStart s = .next t ∧ t.queue = [] ∧
      t.settles = s.settles ++ [⟨s.nextSettle, q.ref, code, (l.length + 3) / 4 + 1⟩] ∧ t.bridges = s.bridges ∧
      t.groups = s.groups ∧ t.circuits = s.circuits ∧ t.lineOcc = s.lineOcc ∧ t.spanOcc = s.spanOcc ∧
      t.spans = s.spans :=
  ⟨_, by rw [State.exec_admissionStart h, State.startHeads_one hq hf, hu], State.refused_finish v l⟩

/-- Settles O42. -/
theorem admissionStarts : Obligations.AdmissionStarts := by
  unfold Obligations.AdmissionStarts
  intro s ref m i h hq hb hl
  have hf : s.headFits ⟨ref, .migrate m⟩ = true := State.headFits_lone hb hl rfl nofun
  obtain ⟨hrefused, hstarts⟩ := State.startHead_migrate (ref := ref) (m := m) hb hl
  refine ⟨fun code hc => admission_refused (q := ⟨ref, .migrate m⟩) h hq hf (hrefused code hc),
    fun b p hc hbr hln => ?_⟩
  have hsv := State.inService_of_startCheck hc hbr
  have hmarks := State.startMigrate_marks (s := s.setQueue []) i (some ref) none hbr hln hsv
  obtain ⟨e, hentry, hbridge, hothers, hcircuits, hcircuit, hspan, hspans, hqueue, hsettles, hgroups, -⟩ :=
    State.startMigrate_effect (s := s.setQueue []) i (some ref) none hbr hln hsv
  obtain ⟨hfibre, hcopper⟩ := hmarks
  obtain ⟨hkept, hlost, hfields, hpending⟩ := hentry
  obtain ⟨hc1, hdir, hrole, hbear, hline, hphase, htxn, hquick, hpeer, hlimit, hdead, hretry, href, hgroup, hout,
    honto⟩ := hfields
  refine ⟨(s.setQueue []).startMigrate i m (some ref) none, e, ?_, State.finish_ungrouped hqueue hgroups, hqueue,
    hsettles, hgroups, hbridge, hothers, hkept, hlost, hc1, hdir, hrole, hbear, hline, hphase, htxn, hquick, hpeer,
    hlimit, hdead, hretry, href, hgroup, hout, honto, fun q hplace => ?_, fun hplace => ?_, hspans, hcircuits,
    hcircuit, hfibre, hcopper⟩
  · rw [State.exec_admissionStart h, State.startHeads_one hq hf, hstarts hc]
  · exact ⟨hpending.trans (congrArg Option.isNone hplace),
      hspan.trans (State.startedSpan_placed (s := s.setQueue []) hplace)⟩
  · exact ⟨hpending.trans (congrArg Option.isNone hplace),
      hspan.trans (State.startedSpan_waits (s := s.setQueue []) hplace)⟩

end Sys2Proof.Machine
end


section
/-! PROOFS. The start of an EXPECT and of a GROUP (R42, R46, R84, R86, R104 to R107). -/

namespace Sys2Proof.Machine

open Sys2Proof

namespace State

variable {s : State}

theorem freeGroup_none (h : ∀ g, s.group g ≠ none) : s.freeGroup = none := by
  unfold freeGroup
  rw [List.find?_eq_none]
  exact fun g _ => by simpa [Option.isSome_iff_ne_none] using h g

theorem headFits_group (ref : OrderRef) (members : List MoveOrder) : s.headFits ⟨ref, .group members⟩ = true ↔
    members.length ≤ s.freeBridges.length ∧ s.freeGroup.isSome = true := by
  simp [headFits, QueueEntry.needs, QueueEntry.circuits]

/-! ### The members with their entries -/

/-- The members of a GROUP with the free entries that they take and their places (R107). -/
def grantedTo (s : State) (members : List MoveOrder) : List ((MoveOrder × BridgeNo) × Nat) :=
  (members.zip s.freeBridges).zipIdx

variable {members : List MoveOrder}

theorem grantedTo_members (h : members.length ≤ s.freeBridges.length) :
    (s.grantedTo members).map (fun x => x.1.1) = members := by
  have hfst : (s.grantedTo members).map (fun x => x.1.1) = ((s.grantedTo members).map Prod.fst).map Prod.fst := by
    rw [List.map_map]
    rfl
  rw [hfst, grantedTo, List.zipIdx_map_fst, List.map_fst_zip h]

theorem grantedTo_length (h : members.length ≤ s.freeBridges.length) : (s.grantedTo members).length = members.length := by
  have := congrArg List.length (grantedTo_members h)
  rwa [List.length_map] at this

theorem grantedTo_getElem {n : Nat} {m : MoveOrder} {i : BridgeNo} (hm : members[n]? = some m)
    (hi : s.freeBridges[n]? = some i) : (s.grantedTo members)[n]? = some ((m, i), n) := by
  rw [grantedTo, List.getElem?_zipIdx, (List.getElem?_zip_eq_some (z := (m, i))).mpr ⟨hm, hi⟩]
  simp

theorem grantedTo_free {x : (MoveOrder × BridgeNo) × Nat} (hx : x ∈ s.grantedTo members) :
    x.1.1 ∈ members ∧ s.bridge x.1.2 = none := by
  have hzip : x.1 ∈ members.zip s.freeBridges := by
    have := List.mem_map_of_mem (f := Prod.fst) hx
    rwa [grantedTo, List.zipIdx_map_fst] at this
  obtain ⟨hm, hi⟩ := List.of_mem_zip (a := x.1.1) (b := x.1.2) hzip
  refine ⟨hm, ?_⟩
  unfold freeBridges at hi
  simpa using hi

theorem grantedTo_apart (hc : membersApart members = true) :
    (s.grantedTo members).Pairwise fun x y => x.1.1.circuit ≠ y.1.1.circuit ∧ x.1.2 ≠ y.1.2 := by
  have hmembers := circuits_apart members hc
  have hfree := freeBridges_nodup (s := s)
  rw [List.pairwise_iff_getElem] at hmembers ⊢
  intro j k hj hk hjk
  have hlen : (s.grantedTo members).length = min members.length s.freeBridges.length := by
    rw [grantedTo, List.length_zipIdx, List.length_zip]
  simp only [grantedTo, List.getElem_zipIdx, List.getElem_zip]
  refine ⟨hmembers j k (by omega) (by omega) hjk, fun he => ?_⟩
  have := (List.getElem_inj hfree).mp he
  omega

theorem grantedTo_countP (h : members.length ≤ s.freeBridges.length) (p : MoveOrder → Bool) (n : Nat) :
    ((s.grantedTo members).take n).countP (fun x => p x.1.1) = (members.take n).countP p := by
  conv => rhs; rw [← grantedTo_members h]
  rw [← List.map_take, List.countP_map]
  rfl

theorem startGroup_eq (g : Fin 4) (ref : OrderRef) : s.startGroup g members ref =
    each (s.grantedTo members) (fun x u => u.startMigrate x.1.2 x.1.1 none (some (g, x.2)))
      (s.setGroup g (some { ref := ref, members := (members.zip s.freeBridges).map fun x => ⟨x.1.circuit, some x.2, false, none⟩,
                            count := members.length, gate := .closed, state := .running, cause := none })) := by
  have hitems : (s.grantedTo members).map (fun x => (⟨x.1.1.circuit, some x.1.2, false, none⟩ : GroupMember)) =
      (members.zip s.freeBridges).map fun x => ⟨x.1.circuit, some x.2, false, none⟩ := by
    rw [← List.zipIdx_map_fst (l := members.zip s.freeBridges) (i := 0), List.map_map]
    rfl
  rw [← hitems]
  rfl

/-- The head that a GROUP is (R42, R106). -/
theorem startHead_group {ref : OrderRef} {g : Fin 4} (hg : s.group g = none) (hl : ∀ h, h < g → s.group h ≠ none) :
    (∀ k m code, members.findIdx? (fun x => (s.startCheck x).isSome) = some k → members[k]? = some m →
      s.startCheck m = some code → (s.setQueue []).startHead ⟨ref, .group members⟩ =
        (s.setQueue []).settleLone ref members k code) ∧
    ((∀ m ∈ members, s.startCheck m = none) → (s.setQueue []).startHead ⟨ref, .group members⟩ =
      (s.setQueue []).startGroup g members ref) := by
  have hcheck : ∀ m, (s.setQueue []).startCheck m = s.startCheck m := fun _ => rfl
  have hfree : (s.setQueue []).freeGroup = some g := freeGroup_lowest (s := s) hg hl
  unfold startHead
  dsimp only
  simp only [hcheck, hfree]
  refine ⟨fun k m code hk hm hc => ?_, fun hc => ?_⟩
  · rw [hk]
    dsimp only
    have hcode : (s.setQueue []).startCheck m = some code := (hcheck m).trans hc
    rw [hm, Option.bind_some]
    exact congrArg (fun found => (s.setQueue []).settleLone ref members k (found.getD .badState)) hcode
  · rw [List.findIdx?_eq_none_iff.mpr fun m hm => by rw [hc m hm]; rfl]

/-- What the start of a GROUP leaves (R84, R86, R107). -/
theorem startGroup_effect {g : Fin 4} (ref : OrderRef) (hfit : members.length ≤ s.freeBridges.length)
    (hc : ∀ m ∈ members, s.startCheck m = none) (hapart : membersApart members = true) :
    let u := s.startGroup g members ref
    ∃ queue : Nat → Span → List QueuedMessage,
      u.queue = s.queue ∧ u.settles = s.settles ∧
      u.group g = some
        { ref := ref, count := members.length, gate := .closed, state := .running, cause := none,
          members := (members.zip s.freeBridges).map fun x => ⟨x.1.circuit, some x.2, false, none⟩ } ∧
      (∀ h, h ≠ g → u.group h = s.group h) ∧ (∀ j, s.bridge j ≠ none → u.bridge j = s.bridge j) ∧
      (∀ c, (∀ m ∈ members, c ≠ m.circuit) → u.circuit c = s.circuit c) ∧
      (∀ sp, queue 0 sp = (s.span sp).txQueue ∧ u.span sp = { s.span sp with
        txQueue := queue members.length sp
        txnCounter := (s.span sp).txnCounter + BitVec.ofNat 8 (members.countP (s.movesOn sp)) }) ∧
      ∀ n m i b, members[n]? = some m → s.freeBridges[n]? = some i → s.moveBearer m = some b →
        let txn := (s.span b.span).txnCounter + BitVec.ofNat 8 ((members.take n).countP (s.movesOn b.span))
        let offer : RollMessage := ⟨.offer, b.slot, txn, s.cfg.rank, m.direction, m.quick, none⟩
        ∃ e, e.outcome = none ∧ u.bridge i = some e ∧ e.circuit = m.circuit ∧ e.direction = m.direction ∧ e.role = .initiator ∧
          e.bearer = b ∧ s.moveLine m = some e.linePos ∧ e.phase = .offering ∧ e.txn = some txn ∧ e.quick = m.quick ∧
          e.matchLimit = m.matchLimit ∧ e.deadline = some (s.counter + 800) ∧ e.retryDue = some (s.counter + 80) ∧
          e.ref = none ∧ e.group = some (g, n) ∧ (u.circuit m.circuit).pathState = .bridged ∧
          (u.circuit m.circuit).bridgeIndex = some i ∧ (u.circuit m.circuit).groupIndex = some g ∧
          (u.circuit m.circuit).generation = (s.circuit m.circuit).generation + 1 ∧
          (∀ sp, sp ≠ b.span → queue (n + 1) sp = queue n sp) ∧
          (∀ q, placeMessage (queue n b.span) i offer = some q → queue (n + 1) b.span = q ∧ e.pending = false) ∧
          (placeMessage (queue n b.span) i offer = none → queue (n + 1) b.span = queue n b.span ∧ e.pending = true) := by
  rw [startGroup_eq]
  generalize hx : some _ = x
  obtain ⟨queue, hqueue, hsettles, hgroups, hcfg, hcounter, hbridges, hcircuits, hspans, hmembers⟩ :=
    startMembers_effect g (s.grantedTo members) (s.setGroup g x)
      (fun y hy => startCheck_passes (s := s) (hc y.1.1 (grantedTo_free hy).1)) (grantedTo_apart hapart)
  have hlen := grantedTo_length hfit
  have hcount := grantedTo_countP hfit
  have hgroup : ∀ u : State, u.groups = (s.setGroup g x).groups → ∀ h, u.group h = (s.setGroup g x).group h :=
    fun u hu h => by rw [group, group, hu]
  generalize each (s.grantedTo members) (fun x u => u.startMigrate x.1.2 x.1.1 none (some (g, x.2))) (s.setGroup g x) = u
    at *
  refine ⟨queue, hqueue, hsettles, ?_, fun h hh => ?_, fun j hj => ?_, fun c hcm => ?_, fun sp => ?_,
    fun n m i b hm hi hb => ?_⟩
  · rw [hgroup u hgroups, group_setGroup_same]
  · rw [hgroup u hgroups, group_setGroup_ne _ _ _ _ (Ne.symm hh)]
  · exact hbridges j fun y hy hjy => hj (by rw [hjy]; exact (grantedTo_free hy).2)
  · exact hcircuits c fun y hy => hcm y.1.1 (grantedTo_free hy).1
  · obtain ⟨hzero, hspan⟩ := hspans sp
    have hall : (s.grantedTo members).countP (fun y => (s.setGroup g x).movesOn sp y.1.1) =
        members.countP (s.movesOn sp) := by
      have := hcount (s.movesOn sp) members.length
      rwa [← hlen, List.take_length, hlen, List.take_length] at this
    rw [hall, hlen] at hspan
    exact ⟨hzero, hspan⟩
  · obtain ⟨e, he⟩ := hmembers n ((m, i), n) b (grantedTo_getElem hm hi) hb
    rw [hcount (fun y => (s.setGroup g x).movesOn b.span y) n] at he
    exact ⟨e, he⟩

end State

namespace State

/-! ### The groups at the end of the step -/

theorem setGroup_self (u : State) {g : Fin 4} {x : Option Group} (h : u.group g = x) : u.setGroup g x = u := by
  subst h
  unfold setGroup group
  rw [Vector.set_getElem_self]

/-- A group that has started and whose members are all still offering. -/
def OfferingGroup (u : State) (x : Group) : Prop :=
  x.state = .running ∧ x.count ≠ 0 ∧ x.members ≠ [] ∧ ∀ y ∈ x.members, y.ended = none ∧
    ∃ i e, y.bridge = some i ∧ u.bridge i = some e ∧ e.outcome = none ∧ e.phase = .offering

variable {u : State} {g : Fin 4} {x : Group}

theorem memberFailed_offering (h : u.OfferingGroup x) {y : GroupMember} (hy : y ∈ x.members) :
    u.memberFailed y = false ∧ u.memberCounts y = false := by
  obtain ⟨-, -, -, hm⟩ := h
  obtain ⟨hended, i, e, hi, he, hout, hphase⟩ := hm y hy
  have hentry : u.memberEntry y = some e := by rw [memberEntry, hi, Option.bind_some, he]
  refine ⟨?_, ?_⟩
  · unfold memberFailed memberOutcome
    rw [hended]
    dsimp only
    rw [hentry, Option.bind_some, hout]
    rfl
  · unfold memberCounts
    rw [hended]
    dsimp only
    rw [hentry]
    simp [hphase]

theorem countMembers_offering (hx : u.group g = some x) (h : u.OfferingGroup x) : u.countMembers g x = u := by
  have hcounts : ∀ y ∈ x.members, (!y.counted && u.memberCounts y) = false := fun y hy => by
    rw [(memberFailed_offering h hy).2, Bool.and_false]
  have hfilter : x.members.filter (fun y => !y.counted && u.memberCounts y) = [] := by
    rw [List.filter_eq_nil_iff]
    exact fun y hy => by simp [hcounts y hy]
  have hmap : (x.members.map fun y => if (!y.counted && u.memberCounts y) = true then { y with counted := true } else y) =
      x.members := by
    refine (List.map_congr_left fun y hy => ?_).trans (List.map_id x.members)
    rw [if_neg (by simp [hcounts y hy])]
    rfl
  unfold countMembers
  dsimp only
  rw [hfilter, hmap]
  exact setGroup_self u hx

theorem runGroup_offering (hx : u.group g = some x) (h : u.OfferingGroup x) : (u.runGroup g).endGroup g = u := by
  have hcount := countMembers_offering hx h
  obtain ⟨hstate, hne, hnil, hm⟩ := id h
  have hfailed : ¬x.members.any u.memberFailed = true := by
    rw [Bool.not_eq_true, List.any_eq_false]
    exact fun y hy => by simp [(memberFailed_offering h hy).1]
  have hrun : u.runGroup g = u := by
    unfold runGroup
    rw [hx]
    dsimp only
    rw [if_neg (by simp [hstate]), if_neg hfailed, hcount, hx]
    dsimp only
    rw [if_neg (by simpa using hne)]
  have hended : ¬(x.members.all fun y => y.ended.isSome) = true := by
    obtain ⟨y, rest, hy⟩ := List.exists_cons_of_ne_nil hnil
    obtain ⟨hnone, -⟩ := hm y (by simp [hy])
    simp [hy, hnone]
  rw [hrun]
  unfold endGroup
  rw [hx]
  dsimp only
  rw [if_neg hended]

theorem runGroup_free (h : u.group g = none) : (u.runGroup g).endGroup g = u := by
  have hrun : u.runGroup g = u := by rw [runGroup, h]
  rw [hrun, endGroup, h]

/-- Groups whose members are all still offering take nothing from a step (R108 to R110). -/
theorem advanceGroups_offering {before : State} (h : ∀ g x, u.group g = some x → u.OfferingGroup x) :
    advanceGroups before u = u := by
  unfold advanceGroups
  split
  · rfl
  · refine each_induct (fun t => t = u) _ _ (fun g t ht => ?_) u rfl
    subst ht
    cases hg : t.group g with
    | none => exact runGroup_free hg
    | some x => exact runGroup_offering hg (h g x hg)

theorem finish_settledPart_of_groups {before : State} (hq : u.queue = []) (hA : advanceGroups before u = u) :
    (finish before u).settledPart = u.settledPart := by
  unfold finish
  rw [hA, examineHead_empty hq]
  simp

end State

/-- The marked to-path changes the occupancy alone. -/
theorem markedToPath_keeps (s : State) (m : MoveOrder) (b : BearerSlot) (p : LinePos) :
    let t := s.markedToPath m b p
    t.queue = s.queue ∧ t.settles = s.settles ∧ t.spans = s.spans ∧ t.groups = s.groups ∧ t.bridges = s.bridges ∧
      t.circuits = s.circuits := by
  unfold State.markedToPath
  split <;> exact ⟨rfl, rfl, rfl, rfl, rfl, rfl⟩

/-- A GROUP that has just started has every member in OFFERING (R107). -/
theorem offeringGroup_started {s u : State} {g : Group} {members : List MoveOrder} (hne : members ≠ [])
    (hfit : members.length ≤ s.freeBridges.length) (hc : ∀ m ∈ members, s.startCheck m = none)
    (hg : g.state = .running ∧ g.count = members.length ∧
      g.members = (members.zip s.freeBridges).map fun x => ⟨x.1.circuit, some x.2, false, none⟩)
    (hm : ∀ (n : Nat) m i b, members[n]? = some m → s.freeBridges[n]? = some i → s.moveBearer m = some b →
      ∃ e, e.outcome = none ∧ u.bridge i = some e ∧ e.phase = .offering) : u.OfferingGroup g := by
  obtain ⟨hstate, hcount, hlist⟩ := hg
  have hpos : 0 < members.length := List.length_pos_iff.mpr hne
  refine ⟨hstate, by omega, ?_, fun y hy => ?_⟩
  · rw [hlist, ← List.length_pos_iff, List.length_map, List.length_zip]
    omega
  · rw [hlist, List.mem_map] at hy
    obtain ⟨x, hx, rfl⟩ := hy
    obtain ⟨n, hn⟩ := List.mem_iff_getElem?.mp hx
    obtain ⟨hxm, hxi⟩ := List.getElem?_zip_eq_some.mp hn
    obtain ⟨b, p, hb, -, -⟩ := State.startCheck_passes (hc x.1 (List.mem_of_getElem? hxm))
    obtain ⟨e, hout, he, hphase⟩ := hm n x.1 x.2 b hxm hxi hb
    exact ⟨rfl, x.2, e, rfl, he, hout, hphase⟩

/-- Settles O43. -/
theorem expectAndGroupStart : Obligations.ExpectAndGroupStart := by
  unfold Obligations.ExpectAndGroupStart
  refine ⟨fun s ref m window i h hq hb hl => ⟨fun code hc => ?_, fun b p hc hbr hln => ?_⟩,
    fun s ref members h hq hne => ⟨fun hn => ?_, fun g hg hl hfit => ⟨fun k m code hk hm hc => ?_, fun hc hapart => ?_⟩⟩⟩
  · exact admission_refused (q := ⟨ref, .expect m window⟩) h hq (State.headFits_lone hb hl rfl nofun)
      ((State.startHead_expect hb hl).1 code hc)
  · obtain ⟨e, a, hform, hc1, hdir, hrole, hbear, hline, hphase, htxn, hquick, hpeer, hlimit, hdead, hretry, hoff,
      hforced, hrep, hskip, hpend, href, hgroup, hlost, honto⟩ :=
      State.startExpect_form (s.setQueue []) m b p i window ref hbr hln
    obtain ⟨hqueue, hsettles, hspans, hgroups, hbridges, hcircuits⟩ := markedToPath_keeps (s.setQueue []) m b p
    have hexec : exec .admissionStart s = .next (State.finish s ((s.setQueue []).startExpect i m window ref)) := by
      rw [State.exec_admissionStart h, State.startHeads_one hq (State.headFits_lone hb hl rfl nofun),
        (State.startHead_expect hb hl).2 hc]
    have hmarks := State.toPathMarked_of_same (s := s.setQueue []) (u := (s.setQueue []).startExpect i m window ref)
      (m := m) (b := b) (p := p) (by rw [hform]; rfl) (by rw [hform]; rfl)
    refine ⟨(s.setQueue []).startExpect i m window ref, e, hexec, ?_, ?_, ?_, ?_, ?_, ?_, hc1, hdir, hrole, hbear, hline,
      hphase, htxn, hquick, hpeer, hlimit, hdead, hretry, hoff, hforced, hrep, hskip, hpend, href, hgroup, hlost, honto,
      fun j hj => ?_, fun c hcm => ?_, ?_, hmarks.1, hmarks.2⟩
    · exact State.finish_ungrouped (by rw [hform]; exact hqueue) (by rw [hform]; exact hgroups)
    · rw [hform]; exact hqueue
    · rw [hform]; exact hsettles
    · rw [hform]; exact hspans
    · rw [hform]; exact hgroups
    · rw [hform, State.bridge_setBridge_same]
    · rw [hform, State.bridge_setBridge_ne _ _ _ _ (Ne.symm hj)]
      exact congrArg (fun l : Vector (Option Bridge) 48 => l[j.val]) hbridges
    · rw [hform, State.circuit_setBridge, State.circuit_setCircuit_ne _ _ _ _ (Ne.symm hcm)]
      exact congrArg (fun l : Vector Circuit 256 => l[c.val]) hcircuits
    · rw [hform, State.circuit_setBridge, State.circuit_setCircuit_same]
      rfl
  · have hf : s.headFits ⟨ref, .group members⟩ = false := by
      rw [← Bool.not_eq_true, State.headFits_group]
      rintro ⟨hfit, hgroup⟩
      rcases hn with hn | hn
      · omega
      · rw [State.freeGroup_none hn] at hgroup
        cases hgroup
    rw [State.exec_admissionStart h, State.startHeads_none hq hf]
  · have hf : s.headFits ⟨ref, .group members⟩ = true :=
      (State.headFits_group ref members).mpr ⟨hfit, by rw [State.freeGroup_lowest hg hl]; rfl⟩
    have hlone := (State.startHead_group (ref := ref) (members := members) hg hl).1 k m code hk hm hc
    obtain ⟨t, ht, hqueue, hsettles, hrest⟩ := admission_refused (q := ⟨ref, .group members⟩) h hq hf hlone
    refine ⟨t, ht, hqueue, ?_, hrest⟩
    rw [hsettles, State.loneResult, List.length_map, List.length_range, Nat.add_comm]
  · have hf : s.headFits ⟨ref, .group members⟩ = true :=
      (State.headFits_group ref members).mpr ⟨hfit, by rw [State.freeGroup_lowest hg hl]; rfl⟩
    obtain ⟨queue, hqueue, hsettles, hgroup, hgroups, hbridges, hcircuits, hspans, hmembers⟩ :=
      State.startGroup_effect (s := s.setQueue []) (g := g) ref hfit hc hapart
    refine ⟨(s.setQueue []).startGroup g members ref, queue, ?_, fun hn => ?_, hqueue, hsettles, hgroup,
      hgroups, hbridges, hcircuits, hspans, fun n m i b hm hi hb => ?_⟩
    · rw [State.exec_admissionStart h, State.startHeads_one hq hf, (State.startHead_group hg hl).2 hc]
    · refine State.finish_settledPart_of_groups hqueue (State.advanceGroups_offering fun k x hx => ?_)
      generalize (s.setQueue []).startGroup g members ref = u at *
      by_cases hk : k = g
      · subst hk
        rw [hgroup, Option.some.injEq] at hx
        subst hx
        refine offeringGroup_started (s := s) hne hfit hc ⟨rfl, rfl, rfl⟩ fun n m i b hm hi hb => ?_
        obtain ⟨e, hout, he, -, -, -, -, -, hphase, -⟩ := hmembers n m i b hm hi hb
        exact ⟨e, hout, he, hphase⟩
      · rw [hgroups k hk] at hx
        exact absurd (hn k) (by rw [show s.group k = some x from hx]; exact nofun)
    · obtain ⟨e, -, he⟩ := hmembers n m i b hm hi hb
      exact ⟨e, he⟩

end Sys2Proof.Machine
end

section
/-! PROOFS. The watch list (R39 to R41). -/

namespace Sys2Proof.Machine

open Sys2Proof

namespace State

variable {s : State}

/-- What the end of a step that moved nothing keeps. -/
theorem finish_unmoved_view {before s : State} {β : Type} (f : State → β) (hb : s.bridges = before.bridges)
    (hg : s.groups = before.groups) (hh : headLeft before s = false)
    (hf : ∀ t : State, f t.settledPart = f t := by intros; rfl) : f (finish before s) = f s := by
  rw [← hf (finish before s), finish_settledPart hb hg hh, hf]

/-! ### The earliest ready entry -/

theorem readyBefore_iff (x y : WatchEntry) : s.readyBefore x y = true ↔
    s.readyAge y < s.readyAge x ∨ s.readyAge x = s.readyAge y ∧ x.circuit ≤ y.circuit := by
  simp [readyBefore]

theorem readyBefore_total (x y : WatchEntry) : s.readyBefore x y = true ∨ s.readyBefore y x = true := by
  rw [readyBefore_iff, readyBefore_iff, Fin.le_def, Fin.le_def]
  omega

theorem readyBefore_trans {x y z : WatchEntry} (hxy : s.readyBefore x y = true) (hyz : s.readyBefore y z = true) :
    s.readyBefore x z = true := by
  rw [readyBefore_iff, Fin.le_def] at *
  omega

/-- Some entry of a list comes before all of them. -/
theorem readyBefore_least {l : List WatchEntry} (h : l ≠ []) : ∃ x ∈ l, ∀ y ∈ l, s.readyBefore x y = true := by
  induction l with
  | nil => exact absurd rfl h
  | cons a l ih =>
    have hself : s.readyBefore a a = true := (s.readyBefore_total a a).elim id id
    by_cases hl : l = []
    · exact ⟨a, by simp, fun y hy => by simp_all⟩
    · obtain ⟨x, hx, hle⟩ := ih hl
      rcases s.readyBefore_total a x with hax | hxa
      · refine ⟨a, by simp, fun y hy => ?_⟩
        rcases List.mem_cons.mp hy with rfl | hy
        · exact hself
        · exact readyBefore_trans hax (hle y hy)
      · refine ⟨x, by simp [hx], fun y hy => ?_⟩
        rcases List.mem_cons.mp hy with rfl | hy
        · exact hxa
        · exact hle y hy

theorem firstReady_none_iff : s.firstReady = none ↔ ∀ w ∈ s.watch, w.readyMark = none := by
  unfold firstReady
  constructor
  · intro h
    refine Classical.byContradiction fun hw => ?_
    obtain ⟨x, hx, hle⟩ := readyBefore_least (s := s) (l := s.watch.filter fun w => w.readyMark.isSome) (by
      intro he
      exact hw fun w hm => by simpa using List.filter_eq_nil_iff.mp he w hm)
    rw [List.find?_eq_none] at h
    exact h x hx (List.all_eq_true.mpr hle)
  · intro h
    have hnil : s.watch.filter (fun w => w.readyMark.isSome) = [] :=
      List.filter_eq_nil_iff.mpr fun w hm => by simp [h w hm]
    rw [hnil]
    rfl

theorem readyAge_some {w : WatchEntry} {m : FrameNo} (h : w.readyMark = some m) :
    s.readyAge w = (s.counter - m).toNat := by
  rw [readyAge, h]
  rfl

theorem firstReady_spec {w : WatchEntry} (h : s.firstReady = some w) : w ∈ s.watch ∧ ∃ m, w.readyMark = some m ∧
    ∀ x ∈ s.watch, ∀ n, x.readyMark = some n →
      (s.counter - n).toNat < (s.counter - m).toNat ∨ n = m ∧ w.circuit ≤ x.circuit := by
  unfold firstReady at h
  have hmem := List.mem_of_find?_eq_some h
  have hfirst : ∀ x ∈ s.watch.filter (fun w => w.readyMark.isSome), s.readyBefore w x = true :=
    List.all_eq_true.mp (List.find?_some (p := fun x => (s.watch.filter fun w => w.readyMark.isSome).all fun y =>
      s.readyBefore x y) h)
  rw [List.mem_filter, Option.isSome_iff_exists] at hmem
  obtain ⟨hw, m, hm⟩ := hmem
  refine ⟨hw, m, hm, fun x hx n hn => ?_⟩
  have hbefore := hfirst x (List.mem_filter.mpr ⟨hx, by simp [hn]⟩)
  rw [readyBefore_iff, readyAge_some hm, readyAge_some hn] at hbefore
  rcases hbefore with hlt | ⟨heq, hle⟩
  · exact .inl hlt
  · refine .inr ⟨?_, hle⟩
    have := BitVec.eq_of_toNat_eq heq
    bv_omega

/-! ### Entries that leave the watch list -/

theorem moveReady_moves {w : WatchEntry} {m : MoveOrder} (hq : s.queue.length < 16) (hw : s.firstReady = some w)
    (hm : w.body = .migrate m) : s.moveReady =
      (s.setWatch (s.watch.filter fun x => x.circuit != w.circuit)).setQueue (s.queue ++ [⟨w.ref, .migrate m⟩]) := by
  unfold moveReady
  rw [if_pos (show s.queue.length < Config.queuePlaces from hq), hw]
  dsimp only
  unfold moveToQueue
  rw [hm]
  rfl

theorem moveReady_none (h : 16 ≤ s.queue.length ∨ s.firstReady = none) : s.moveReady = s := by
  unfold moveReady
  rcases h with h | h
  · rw [if_neg (show ¬s.queue.length < Config.queuePlaces by simpa [show Config.queuePlaces = 16 from rfl] using h)]
  · rw [h]
    exact ite_self _

theorem waitExpiry_none {c : CircuitNo} (h : s.watchOf c = none ∨ ∃ w, s.watchOf c = some w ∧ s.due w.deadline = false) :
    s.waitExpiry c = s := by
  unfold waitExpiry
  rcases h with h | ⟨w, hw, hd⟩
  · rw [h]
  · rw [hw]
    dsimp only
    rw [if_neg (by simp [hd])]

theorem waitExpiry_expires {c : CircuitNo} {w : WatchEntry} (hw : s.watchOf c = some w) (hd : s.due w.deadline = true) :
    s.waitExpiry c = (s.unwatch c).settleMove w.ref .waitExpired (s.watchValues c) := by
  unfold waitExpiry
  rw [hw]
  dsimp only
  rw [if_pos hd]

end State

theorem exec_readyEntryAdmit (s : State) : exec .readyEntryAdmit s = act s State.moveReady := rfl

theorem exec_waitExpiry (c : CircuitNo) (s : State) : exec (.waitExpiry c) s = act s fun s => s.waitExpiry c := rfl

/-- Settles O44. -/
theorem watchListLeft : Obligations.WatchListLeft := by
  unfold Obligations.WatchListLeft
  refine ⟨fun s => ⟨State.firstReady_none_iff, fun w => State.firstReady_spec⟩, fun s h => ⟨fun w m hq hw hm => ?_,
    fun hn => ?_, fun c w d hw hd hp => ?_, fun c hn => ?_⟩⟩
  · rw [exec_running h (exec_readyEntryAdmit s), State.moveReady_moves hq hw hm]
  · rw [exec_running h (exec_readyEntryAdmit s), State.moveReady_none hn]
  · refine ⟨_, exec_running h (exec_waitExpiry c s), ?_⟩
    rw [State.waitExpiry_expires hw (by rw [hd]; exact hp)]
    generalize hu : (s.unwatch c).settleMove w.ref .waitExpired (s.watchValues c) = u
    have hview : ∀ {β : Type} (f : State → β), (∀ t : State, f t.settledPart = f t) → f (State.finish s u) = f u :=
      fun f hf => State.finish_unmoved_view f (by rw [← hu]; exact State.settleOrder_bridges ..)
        (by rw [← hu]; exact State.settleOrder_groups ..)
        (State.headLeft_same (by rw [← hu]; exact State.settleOrder_queue ..)) hf
    rw [hview State.watch fun _ => rfl, hview State.queue fun _ => rfl, hview State.settles fun _ => rfl,
      hview State.circuits fun _ => rfl, ← hu]
    exact ⟨State.settleOrder_watch .., State.settleOrder_queue .., State.settleOrder_settles ..,
      State.settleOrder_circuits ..⟩
  · rw [exec_running h (exec_waitExpiry c s), State.waitExpiry_none hn]

end Sys2Proof.Machine
end

section
/-! PROOFS. ABANDON and TRIM (R51 to R59). -/

namespace Sys2Proof.Machine

open Sys2Proof

namespace State

variable {s : State} {c : CircuitNo} {force : Force}

theorem force_cases (h : force ≠ .forward) : force = .none ∨ force = .back := by
  cases force
  · exact .inl rfl
  · exact .inr rfl
  · exact absurd rfl h

/-! ### Where an ABANDON finds the circuit -/

theorem abandonPending_nothing (hq : s.queue.find? (fun q => q.circuits.contains c) = none) (hw : s.watchOf c = none)
    (hi : (s.circuit c).bridgeIndex = none) : s.abandonPending c force = (s, .nothing) := by
  rw [abandonPending, hq, hw, hi]

theorem abandonPending_queued {q : QueueEntry} (hq : s.queue.find? (fun q => q.circuits.contains c) = some q) :
    s.abandonPending c force = if force == .forward then (s, .badState) else (s.withdrawQueued q c, .done) := by
  rw [abandonPending, hq]

theorem abandonPending_watched {w : WatchEntry} (hq : s.queue.find? (fun q => q.circuits.contains c) = none)
    (hw : s.watchOf c = some w) : s.abandonPending c force = if force == .forward then (s, .badState)
      else ((s.unwatch c).settleMove w.ref .abandoned (s.watchValues c), .done) := by
  rw [abandonPending, hq, hw]

theorem abandonPending_entry {i : BridgeNo} {e : Bridge} (hq : s.queue.find? (fun q => q.circuits.contains c) = none)
    (hw : s.watchOf c = none) (hi : (s.circuit c).bridgeIndex = some i) (he : s.bridge i = some e) :
    s.abandonPending c force = s.abandonEntry i e force := by
  rw [abandonPending, hq, hw, hi]
  dsimp only
  rw [he]

/-! ### What an ABANDON does -/

/-- The number of result writes of a withdrawn order: the result area, and the parts of a GROUP's member list (R34). -/
def withdrawnWrites (q : QueueEntry) : Nat :=
  match q.body with
  | .group members => 1 + (members.length + 3) / 4
  | .migrate _ | .expect _ _ => 1

/-- A queued order withdrawn: it leaves the queue and settles ABANDONED (R51, R105). -/
theorem withdrawQueued_form (q : QueueEntry) : ∃ v l, s.withdrawQueued q c =
    (s.setQueue (s.queue.filter fun x => !x.circuits.contains c)).settleOrder q.ref .abandoned v l ∧
      (l.length + 3) / 4 + 1 = withdrawnWrites q := by
  unfold withdrawQueued withdrawnWrites
  cases q.body with
  | migrate m => exact ⟨_, [], rfl, rfl⟩
  | expect m window => exact ⟨_, [], rfl, rfl⟩
  | group members =>
    refine ⟨_, loneResult members.length (q.circuits.findIdx (· == c)) .abandoned, rfl, ?_⟩
    rw [loneResult, List.length_map, List.length_range, Nat.add_comm]

section

variable {i : BridgeNo} {e : Bridge}

theorem abandonEntry_awaiting (h : e.phase = .awaitingOffer) : s.abandonEntry i e .forward = (s, .badState) ∧
    ∀ force, force ≠ .forward → s.abandonEntry i e force = (s.freeAs i .abandoned, .done) := by
  unfold abandonEntry
  rw [h]
  exact ⟨rfl, fun force hf => by rcases force_cases hf with rfl | rfl <;> rfl⟩

theorem abandonEntry_before (h : e.phase = .offering ∨ e.phase = .matching ∨ (e.phase = .rolled ∧ e.role = .initiator)) :
    s.abandonEntry i e .forward = (s, .badState) ∧ ∀ force, force ≠ .forward →
      s.abandonEntry i e force = (s.unwind i .abandoned (some .ordered), .done) := by
  unfold abandonEntry
  rcases h with h | h | ⟨h, hr⟩
  · rw [h]
    exact ⟨rfl, fun force hf => by rcases force_cases hf with rfl | rfl <;> rfl⟩
  · rw [h]
    exact ⟨rfl, fun force hf => by rcases force_cases hf with rfl | rfl <;> rfl⟩
  · rw [h, hr]
    exact ⟨rfl, fun force hf => by rcases force_cases hf with rfl | rfl <;> rfl⟩

theorem abandonEntry_responder (h : e.phase = .rolled) (hr : e.role = .responder) :
    s.abandonEntry i e .none = (s, .tooLate) ∧
    s.abandonEntry i e .back = (s.unwind i .fallback (some .ordered), .forced) ∧
    let t := s.setBridge i (some
      { e with forced := true, phase := .releasing, retryDue := none, outcome := some .doneForced })
    s.abandonEntry i e .forward = (if e.fromLost then t.freeEntry i else t.beginGuard i, .forced) := by
  unfold abandonEntry
  rw [h, hr]
  exact ⟨rfl, rfl, rfl⟩

theorem abandonEntry_releasing (h : e.phase = .releasing) : s.abandonEntry i e .none = (s, .tooLate) ∧
    s.abandonEntry i e .back = (s.unwind i .fallback (some .ordered), .forced) ∧
    s.abandonEntry i e .forward = (s, .done) := by
  unfold abandonEntry
  rw [h]
  exact ⟨rfl, rfl, rfl⟩

theorem abandonEntry_unwinding (h : e.phase = .unwinding) : s.abandonEntry i e .forward = (s, .badState) ∧
    ∀ force, force ≠ .forward → s.abandonEntry i e force = (s, .done) := by
  unfold abandonEntry
  rw [h]
  exact ⟨rfl, fun force hf => by rcases force_cases hf with rfl | rfl <;> rfl⟩

end

end State

namespace State

variable {s : State} {c : CircuitNo}

/-! ### The drop of a hold -/

theorem dropHold_none (h : (s.circuit c).hold = 0) : s.dropHold c = s := by
  unfold dropHold
  rw [if_pos (by simpa using h)]

theorem dropHold_some (h : (s.circuit c).hold ≠ 0) : s.dropHold c =
    (s.setCircuit c { s.circuit c with hold := 0 }).setAlign c { s.alignOf c with repeatsDue := 0 } := by
  unfold dropHold
  rw [if_neg (by simpa using h)]
  rfl

/-- What the drop of a hold leaves of the circuits (R57, R58). -/
theorem dropHold_reads : (s.dropHold c).circuit c = { s.circuit c with hold := 0 } ∧
    (∀ d, d ≠ c → (s.dropHold c).circuit d = s.circuit d ∧ (s.dropHold c).alignOf d = s.alignOf d) ∧
    ((s.circuit c).hold = 0 → (s.dropHold c).alignOf c = s.alignOf c) ∧
    ((s.circuit c).hold ≠ 0 → (s.dropHold c).alignOf c = { s.alignOf c with repeatsDue := 0 }) := by
  by_cases h : (s.circuit c).hold = 0
  · rw [dropHold_none h]
    exact ⟨congrArg (fun n => { s.circuit c with hold := n }) h, fun _ _ => ⟨rfl, rfl⟩, fun _ => rfl,
      fun hn => absurd h hn⟩
  · rw [dropHold_some h]
    refine ⟨by rw [circuit_setAlign, circuit_setCircuit_same], fun d hd => ⟨?_, ?_⟩, fun hn => absurd hn h,
      fun _ => alignOf_setAlign_same _ _ _⟩
    · rw [circuit_setAlign, circuit_setCircuit_ne _ _ _ _ (Ne.symm hd)]
    · rw [alignOf_setAlign_ne _ _ _ _ (Ne.symm hd), alignOf_setCircuit]

theorem dropHold_values : (s.dropHold c).placeValues c = s.placeValues c ∧ (s.dropHold c).settles = s.settles ∧
    (s.dropHold c).nextSettle = s.nextSettle ∧ (s.dropHold c).watch = s.watch := by
  obtain ⟨hcircuit, -⟩ := dropHold_reads (s := s) (c := c)
  unfold placeValues
  rw [hcircuit]
  by_cases h : (s.circuit c).hold = 0
  · rw [dropHold_none h]
    exact ⟨rfl, rfl, rfl, rfl⟩
  · rw [dropHold_some h]
    exact ⟨rfl, rfl, rfl, rfl⟩

/-- A TRIM that executes (R58, R59): it settles DONE, and the circuit has lost its hold. -/
theorem trimmed_of_settled (ref : OrderRef) (v : MoveValues) : let t := (s.dropHold c).settleMove ref .done v
    t.settles = s.settles ++ [⟨s.nextSettle, ref, .done, 1⟩] ∧ t.circuit c = { s.circuit c with hold := 0 } ∧
      (∀ d, d ≠ c → t.circuit d = s.circuit d ∧ t.alignOf d = s.alignOf d) ∧
      ((s.circuit c).hold = 0 → t.alignOf c = s.alignOf c) ∧
      ((s.circuit c).hold ≠ 0 → t.alignOf c = { s.alignOf c with repeatsDue := 0 }) := by
  obtain ⟨-, hsettles, hnext, -⟩ := dropHold_values (s := s) (c := c)
  have hreads := dropHold_reads (s := s) (c := c)
  have hcircuit : ∀ d, ((s.dropHold c).settleMove ref .done v).circuit d = (s.dropHold c).circuit d := fun d => by
    unfold circuit settleMove
    rw [settleOrder_circuits]
  have halign : ∀ d, ((s.dropHold c).settleMove ref .done v).alignOf d = (s.dropHold c).alignOf d := fun d => by
    unfold alignOf settleMove
    rw [settleOrder_align]
  simp only [hcircuit, halign]
  refine ⟨?_, hreads⟩
  rw [settleMove, settleOrder_settles, hsettles, hnext]
  rfl

theorem trimOrder_idle {ref : OrderRef} {limit : Nat} (hb : s.busy c = false) (hw : s.trimWaits c = false) :
    s.trimOrder ref c limit =
      (s.dropHold c).settleMove ref .done { s.placeValues c with dropped := (s.circuit c).hold } := by
  obtain ⟨hvalues, -⟩ := dropHold_values (s := s) (c := c)
  unfold trimOrder
  rw [if_neg (by simp [hb]), if_neg (by simp [hw])]
  dsimp only
  rw [hvalues]

theorem watchIdle_trim {w : WatchEntry} (hw : s.watchOf c = some w) (hb : w.body = .trim) (hc : w.circuit = c) :
    s.watchIdle c = ((s.unwatch c).dropHold c).settleMove w.ref .done
      { s.placeValues c with dropped := (s.circuit c).hold } := by
  obtain ⟨hvalues, -⟩ := dropHold_values (s := s.unwatch c) (c := c)
  unfold watchIdle
  rw [hw]
  dsimp only
  rw [hb]
  dsimp only
  unfold executeTrim
  dsimp only
  rw [hc, hvalues]
  rfl

end State

/-- Settles O45. -/
theorem abandonOrders : Obligations.AbandonOrders := by
  unfold Obligations.AbandonOrders
  refine ⟨fun s ref c force => ⟨rfl, State.settleOrder_settles ..⟩, fun s c => ⟨fun hq hw hi force =>
    State.abandonPending_nothing hq hw hi, fun q hq => ⟨?_, fun force hf => ?_⟩, fun w hq hw => ⟨?_, fun force hf => ?_⟩,
    fun i e hq hw hi he => ?_⟩⟩
  · rw [State.abandonPending_queued hq]
    rfl
  · obtain ⟨v, l, hform, hlen⟩ := State.withdrawQueued_form (s := s) (c := c) q
    refine ⟨s.withdrawQueued q c, ?_, ?_⟩
    · rw [State.abandonPending_queued hq, if_neg (by simpa using hf)]
    · rw [hform]
      refine ⟨State.settleOrder_queue .., ⟨State.settleOrder_bridges .., State.settleOrder_circuits ..,
        State.settleOrder_spans ..⟩, State.settleOrder_watch .., ?_⟩
      rw [State.settleOrder_settles, hlen]
      rfl
  · rw [State.abandonPending_watched hq hw]
    rfl
  · refine ⟨(s.unwatch c).settleMove w.ref .abandoned (s.watchValues c),
      by rw [State.abandonPending_watched hq hw, if_neg (by simpa using hf)], State.settleOrder_watch ..,
      ⟨State.settleOrder_bridges .., State.settleOrder_circuits .., State.settleOrder_spans ..⟩,
      State.settleOrder_queue .., State.settleOrder_settles ..⟩
  · have hentry : ∀ force, s.abandonPending c force = s.abandonEntry i e force := fun force =>
      State.abandonPending_entry hq hw hi he
    dsimp only
    simp only [hentry]
    refine ⟨State.abandonEntry_awaiting, State.abandonEntry_before, fun hp hr => ?_, State.abandonEntry_releasing,
      State.abandonEntry_unwinding⟩
    obtain ⟨hnone, hback, hforward⟩ := State.abandonEntry_responder (s := s) (i := i) hp hr
    exact ⟨hnone, hback, fun hl => hforward.trans (by rw [if_neg (by simp [hl])]),
      fun hl => hforward.trans (by rw [if_pos hl])⟩

/-- Settles O46. -/
theorem trimOrders : Obligations.TrimOrders := by
  unfold Obligations.TrimOrders
  refine fun s ref c limit => ⟨fun hb => if_pos hb, fun hb hh => ?_, fun hb hh ha => ?_, fun hb hh ha => ?_,
    fun w hw hbody hc => ?_⟩
  · have ht : s.dispatch ref (.trim c limit) = (s.dropHold c).settleMove ref .done
        { s.placeValues c with dropped := (s.circuit c).hold } :=
      State.trimOrder_idle hb (by rw [← Bool.not_eq_true, State.trimWaits_iff]; exact fun h => h.2.1 hh)
    rw [ht]
    refine ⟨?_, State.trimmed_of_settled ref _⟩
    rw [State.dropHold_none hh, hh]
  · have ht : s.dispatch ref (.trim c limit) = (s.dropHold c).settleMove ref .done
        { s.placeValues c with dropped := (s.circuit c).hold } :=
      State.trimOrder_idle hb (by rw [← Bool.not_eq_true, State.trimWaits_iff]; exact fun h => h.2.2 ha)
    rw [ht]
    exact ⟨rfl, State.trimmed_of_settled ref _⟩
  · change s.trimOrder ref c limit = _
    unfold State.trimOrder
    rw [if_neg (by simp [hb]), if_pos ((State.trimWaits_iff c).mpr ⟨hb, hh, ha⟩), State.waitDeadline]
    simp only [beq_iff_eq]
  · obtain ⟨-, -, -, hwatch⟩ := State.dropHold_values (s := s.unwatch c) (c := c)
    dsimp only
    rw [State.watchIdle_trim hw hbody hc]
    exact ⟨(State.settleOrder_watch ..).trans hwatch, State.trimmed_of_settled (s := s.unwatch c) w.ref _⟩

end Sys2Proof.Machine
end

section
/-! PROOFS. The deadlines, guards and retries of entries (R48, R65, R71, R74, R90 to R92). -/

namespace Sys2Proof.Machine

open Sys2Proof

namespace State

variable {s : State} {i : BridgeNo} {e : Bridge} {phase : BridgePhase} {f : Bridge → State}

/-! ### An entry in its phase -/

theorem inPhase_free (h : s.bridge i = none) : s.inPhase i phase f = s := by
  rw [inPhase, withBridge, h]

theorem inPhase_same (h : s.bridge i = some e) (hp : e.phase = phase) : s.inPhase i phase f = f e := by
  rw [inPhase, withBridge_some _ h, if_pos (by simpa using hp)]

theorem inPhase_other (h : s.bridge i = some e) (hp : e.phase ≠ phase) : s.inPhase i phase f = s := by
  rw [inPhase, withBridge_some _ h, if_neg (by simpa using hp)]

/-- An entry in its phase with nothing due, or in another, is left as it is. -/
theorem inPhase_idle (h : s.bridge i = some e) (hf : f e = s) : s.inPhase i phase f = s := by
  by_cases hp : e.phase = phase
  · rw [inPhase_same h hp, hf]
  · exact inPhase_other h hp

/-! ### Deadlines -/

theorem rollFirst_iff (d : FrameNo) (due : Option FrameNo) :
    rollFirst due (some d) = true ↔ ∃ f, due = some f ∧ (f - d).msb = true := by
  cases due <;> simp [rollFirst]

theorem retry_due (h : s.due e.retryDue = true) : s.retry i e =
    (s.setBridge i (some { e with retryDue := some (s.counter + 80) })).handMessage i := if_pos h

theorem retry_idle (h : s.due e.retryDue = false) : s.retry i e = s := if_neg (by simp [h])

theorem due_some {d : FrameNo} (hd : e.deadline = some d) (hp : s.passed d = true) : s.due e.deadline = true := by
  rw [hd]
  exact hp

theorem matchDeadline_expires {d : FrameNo} (h : s.bridge i = some e) (hd : e.deadline = some d)
    (hp : s.passed d = true) (hph : e.phase = .matching) (hm : ¬∃ f, e.matchDue = some f ∧ (f - d).msb = true)
    (hq : ¬∃ f, e.quickDue = some f ∧ (f - d).msb = true) : s.matchDeadlineExpiry i =
      (s.setBridge i (some { e with offset := none })).unwind i .matchTimeout (some .matchTimeout) := by
  rw [matchDeadlineExpiry, inPhase_same h hph, due_some hd hp, hd]
  refine if_pos ?_
  rw [← rollFirst_iff, Bool.not_eq_true] at hm hq
  rw [hm, hq]
  rfl

theorem matchDeadline_waits {d : FrameNo} (h : s.bridge i = some e) (hd : e.deadline = some d)
    (hm : (∃ f, e.matchDue = some f ∧ (f - d).msb = true) ∨ ∃ f, e.quickDue = some f ∧ (f - d).msb = true) :
    s.matchDeadlineExpiry i = s := by
  refine inPhase_idle h (if_neg ?_)
  rw [hd]
  rw [← rollFirst_iff, ← rollFirst_iff] at hm
  rcases hm with hm | hm <;> simp [hm]

end State

theorem exec_expectWindowExpiry (i : BridgeNo) (s : State) :
    exec (.expectWindowExpiry i) s = act s fun s => s.expectWindowExpiry i := rfl

theorem exec_noAnswerExpiry (i : BridgeNo) (s : State) :
    exec (.noAnswerExpiry i) s = act s fun s => s.noAnswerExpiry i := rfl

theorem exec_matchDeadlineExpiry (i : BridgeNo) (s : State) :
    exec (.matchDeadlineExpiry i) s = act s fun s => s.matchDeadlineExpiry i := rfl

theorem exec_peerStallExpiry (i : BridgeNo) (s : State) :
    exec (.peerStallExpiry i) s = act s fun s => s.peerStallExpiry i := rfl

theorem exec_releaseGuardEnd (i : BridgeNo) (s : State) :
    exec (.releaseGuardEnd i) s = act s fun s => s.releaseGuardEnd i := rfl

theorem exec_unwindGuardEnd (i : BridgeNo) (s : State) :
    exec (.unwindGuardEnd i) s = act s fun s => s.unwindGuardEnd i := rfl

theorem exec_offerRetry (i : BridgeNo) (s : State) : exec (.offerRetry i) s = act s fun s => s.offerRetry i := rfl

theorem exec_rolledRetry (i : BridgeNo) (s : State) : exec (.rolledRetry i) s = act s fun s => s.rolledRetry i := rfl

/-- A command whose effect on this state is `u`. -/
theorem exec_effect {c : Instr} {s u : State} {f : State → State} (h : s.resetLow = false) (hc : exec c s = act s f)
    (hu : f s = u) : exec c s = .next (State.finish s u) := by
  rw [exec_running h hc, hu]

/-- The deadline of an entry (R48, R65, R90, R92). -/
theorem entryDeadline (i : BridgeNo) (e : Bridge) (s : State) (h : s.resetLow = false) (he : s.bridge i = some e) :
    (∀ d, e.deadline = some d → s.passed d = true →
       let earlier := fun due : Option FrameNo => ∃ f, due = some f ∧ (f - d).msb = true
       (e.phase = .awaitingOffer → exec (.expectWindowExpiry i) s = .next (State.finish s (s.freeAs i .expired))) ∧
       (e.phase = .offering →
         exec (.noAnswerExpiry i) s = .next (State.finish s (s.unwind i .noAnswer (some .noAnswer)))) ∧
       (e.phase = .matching → ¬earlier e.matchDue → ¬earlier e.quickDue → exec (.matchDeadlineExpiry i) s = .next
         (State.finish s ((s.setBridge i (some { e with offset := none })).unwind i .matchTimeout (some .matchTimeout)))) ∧
       (e.phase = .matching → earlier e.matchDue ∨ earlier e.quickDue →
         exec (.matchDeadlineExpiry i) s = .next (State.finish s s)) ∧
       (e.phase = .rolled →
         exec (.peerStallExpiry i) s = .next (State.finish s (s.unwind i .peerStall (some .peerStall))))) ∧
     (s.due e.deadline = false → exec (.expectWindowExpiry i) s = .next (State.finish s s) ∧
       exec (.noAnswerExpiry i) s = .next (State.finish s s) ∧
       exec (.matchDeadlineExpiry i) s = .next (State.finish s s) ∧
       exec (.peerStallExpiry i) s = .next (State.finish s s)) ∧
     (e.phase ≠ .awaitingOffer → exec (.expectWindowExpiry i) s = .next (State.finish s s)) ∧
     (e.phase ≠ .offering → exec (.noAnswerExpiry i) s = .next (State.finish s s)) ∧
     (e.phase ≠ .matching → exec (.matchDeadlineExpiry i) s = .next (State.finish s s)) ∧
     (e.phase ≠ .rolled → exec (.peerStallExpiry i) s = .next (State.finish s s)) := by
  refine ⟨fun d hd hp => ⟨fun hph => ?_, fun hph => ?_, fun hph hm hq => ?_, fun _ hm => ?_, fun hph => ?_⟩,
    fun hd => ⟨?_, ?_, ?_, ?_⟩, fun hph => ?_, fun hph => ?_, fun hph => ?_, fun hph => ?_⟩
  · exact exec_effect h (exec_expectWindowExpiry i s) ((State.inPhase_same he hph).trans (if_pos (State.due_some hd hp)))
  · exact exec_effect h (exec_noAnswerExpiry i s) ((State.inPhase_same he hph).trans (if_pos (State.due_some hd hp)))
  · exact exec_effect h (exec_matchDeadlineExpiry i s) (State.matchDeadline_expires he hd hp hph hm hq)
  · exact exec_effect h (exec_matchDeadlineExpiry i s) (State.matchDeadline_waits he hd hm)
  · exact exec_effect h (exec_peerStallExpiry i s) ((State.inPhase_same he hph).trans (if_pos (State.due_some hd hp)))
  · exact exec_effect h (exec_expectWindowExpiry i s) (State.inPhase_idle he (if_neg (by simp [hd])))
  · exact exec_effect h (exec_noAnswerExpiry i s) (State.inPhase_idle he (if_neg (by simp [hd])))
  · exact exec_effect h (exec_matchDeadlineExpiry i s) (State.inPhase_idle he (if_neg (by simp [hd])))
  · exact exec_effect h (exec_peerStallExpiry i s) (State.inPhase_idle he (if_neg (by simp [hd])))
  · exact exec_effect h (exec_expectWindowExpiry i s) (State.inPhase_other he hph)
  · exact exec_effect h (exec_noAnswerExpiry i s) (State.inPhase_other he hph)
  · exact exec_effect h (exec_matchDeadlineExpiry i s) (State.inPhase_other he hph)
  · exact exec_effect h (exec_peerStallExpiry i s) (State.inPhase_other he hph)

/-- Settles O47. -/
theorem entryDeadlines : Obligations.EntryDeadlines := by
  unfold Obligations.EntryDeadlines
  refine ⟨entryDeadline, fun i s h he c hc => ?_, fun i e s h he => ⟨fun hph hd => ?_, fun hph hd => ?_, fun hn => ?_,
    fun hn => ?_⟩, fun i e s h he => ⟨fun hd => ⟨fun hph => ?_, fun hph hr => ?_⟩, fun hn => ?_, fun hn => ?_⟩⟩
  · have hfree : ∀ (phase : BridgePhase) (f : Bridge → State), s.inPhase i phase f = s := fun _ _ => State.inPhase_free he
    simp only [List.mem_cons, List.not_mem_nil, or_false] at hc
    rcases hc with rfl | rfl | rfl | rfl | rfl | rfl | rfl | rfl
    · exact exec_effect h (exec_expectWindowExpiry i s) (hfree _ _)
    · exact exec_effect h (exec_noAnswerExpiry i s) (hfree _ _)
    · exact exec_effect h (exec_matchDeadlineExpiry i s) (hfree _ _)
    · exact exec_effect h (exec_peerStallExpiry i s) (hfree _ _)
    · exact exec_effect h (exec_releaseGuardEnd i s) (hfree _ _)
    · exact exec_effect h (exec_unwindGuardEnd i s) (hfree _ _)
    · exact exec_effect h (exec_offerRetry i s) (hfree _ _)
    · exact exec_effect h (exec_rolledRetry i s) (hfree _ _)
  · exact exec_effect h (exec_releaseGuardEnd i s) ((State.inPhase_same he hph).trans (if_pos hd))
  · exact exec_effect h (exec_unwindGuardEnd i s) ((State.inPhase_same he hph).trans (if_pos hd))
  · refine exec_effect h (exec_releaseGuardEnd i s) ?_
    rcases hn with hd | hph
    · exact State.inPhase_idle he (if_neg (by simp [hd]))
    · exact State.inPhase_other he hph
  · refine exec_effect h (exec_unwindGuardEnd i s) ?_
    rcases hn with hd | hph
    · exact State.inPhase_idle he (if_neg (by simp [hd]))
    · exact State.inPhase_other he hph
  · exact exec_effect h (exec_offerRetry i s) ((State.inPhase_same he hph).trans (State.retry_due hd))
  · exact exec_effect h (exec_rolledRetry i s)
      ((State.inPhase_same he hph).trans ((if_pos (by simp [hr])).trans (State.retry_due hd)))
  · refine exec_effect h (exec_offerRetry i s) ?_
    rcases hn with hd | hph
    · exact State.inPhase_idle he (State.retry_idle hd)
    · exact State.inPhase_other he hph
  · refine exec_effect h (exec_rolledRetry i s) ?_
    rcases hn with hd | hph | hr
    · exact State.inPhase_idle he (by rw [State.retry_idle hd, ite_self])
    · exact State.inPhase_other he hph
    · exact State.inPhase_idle he (if_neg (by simp [hr]))

end Sys2Proof.Machine
end


section
/-! PROOFS. The place of a message in a transmit queue, the pending flags and the answers (R86 to R89). -/

namespace Sys2Proof.Machine

open Sys2Proof

/-! ### A place in a queue -/

section

variable {q : List QueuedMessage} {m : RollMessage}

/-- The slot of a message that no queued message is for (R86). -/
theorem placeMessage_absent (h : ∀ x ∈ q, x.message.slot ≠ m.slot) (i : BridgeNo) :
    placeMessage q i m = if q.length < 32 then some (q ++ [⟨m, .entry i⟩]) else none := by
  have hf : q.find? (fun x => x.message.slot == m.slot) = none :=
    List.find?_eq_none.mpr fun x hx => by simpa using h x hx
  rw [placeMessage, hf]
  rfl

/-- Members of a list with the same key are one member where the keys are distinct. -/
theorem eq_of_nodup_map {α β : Type} {f : α → β} {l : List α} {x y : α} (hn : (l.map f).Nodup) (hx : x ∈ l) (hy : y ∈ l)
    (he : f x = f y) : x = y := by
  obtain ⟨i, hi, rfl⟩ := List.mem_iff_getElem.mp hx
  obtain ⟨j, hj, rfl⟩ := List.mem_iff_getElem.mp hy
  have hkeys : (l.map f)[i]'(by simpa using hi) = (l.map f)[j]'(by simpa using hj) := by
    rw [List.getElem_map, List.getElem_map]
    exact he
  have hij : i = j := (List.getElem_inj hn).mp hkeys
  subst hij
  rfl

theorem find?_slot {old : QueuedMessage} (ho : old ∈ q) (hs : old.message.slot = m.slot)
    (hn : (q.map fun x => x.message.slot).Nodup) : q.find? (fun x => x.message.slot == m.slot) = some old := by
  have hsome : (q.find? fun x => x.message.slot == m.slot).isSome := by
    rw [List.find?_isSome]
    exact ⟨old, ho, beq_iff_eq.mpr hs⟩
  obtain ⟨x, hx⟩ := Option.isSome_iff_exists.mp hsome
  have hslot : x.message.slot = m.slot := beq_iff_eq.mp (List.find?_some (p := fun x : QueuedMessage => x.message.slot == m.slot) hx)
  rw [hx, eq_of_nodup_map hn (List.mem_of_find?_eq_some hx) ho (hslot.trans hs.symm)]

theorem placeMessage_present {old : QueuedMessage} (ho : old ∈ q) (hs : old.message.slot = m.slot)
    (hn : (q.map fun x => x.message.slot).Nodup) (i : BridgeNo) :
    (old.owner = .freedEntry → placeMessage q i m = none) ∧
    (old.owner ≠ .freedEntry → ∃ q', placeMessage q i m = some q' ∧ q'.length = q.length ∧
      q'.map (fun x => x.message.slot) = q.map (fun x => x.message.slot) ∧ ⟨m, .entry i⟩ ∈ q' ∧
      ∀ x ∈ q, x.message.slot ≠ m.slot → x ∈ q') := by
  have hf := find?_slot ho hs hn
  rw [placeMessage, hf]
  refine ⟨fun hw => if_pos (by simp [hw]), fun hw => ⟨_, if_neg (by simpa using hw), List.length_map _, ?_, ?_, ?_⟩⟩
  · rw [List.map_map]
    refine List.map_congr_left fun x _ => ?_
    by_cases hx : x.message.slot = m.slot
    · simp [hx]
    · simp [hx]
  · exact List.mem_map.mpr ⟨old, ho, if_pos (by simpa using hs)⟩
  · exact fun x hx hne => List.mem_map.mpr ⟨x, hx, if_neg (by simpa using hne)⟩

end

namespace State

variable {s : State} {i : BridgeNo} {e : Bridge} {m : RollMessage}

/-! ### The handing of a message -/

section

variable (h : s.bridge i = some e)
include h

theorem handMessage_still (hm : s.entryMessage e = none ∨ s.inService e.bearer.span = false ∨ e.pending = true) :
    s.handMessage i = s := by
  rw [handMessage, withBridge_some _ h]
  cases hc : s.entryMessage e with
  | none => rfl
  | some m =>
    rw [hc] at hm
    refine if_pos ?_
    rcases hm with hm | hm | hm
    · cases hm
    · simp [hm]
    · simp [hm]

theorem handMessage_waits (hm : s.entryMessage e = some m) (hs : s.inService e.bearer.span = true)
    (hp : e.pending = false) (hq : placeMessage (s.span e.bearer.span).txQueue i m = none) :
    s.handMessage i = s.setBridge i (some { e with pending := true }) := by
  rw [handMessage, withBridge_some _ h, hm]
  refine (if_neg (by simp [hs, hp])).trans ?_
  rw [hq]

theorem handMessage_placed {q : List QueuedMessage} (hm : s.entryMessage e = some m)
    (hs : s.inService e.bearer.span = true) (hp : e.pending = false)
    (hq : placeMessage (s.span e.bearer.span).txQueue i m = some q) :
    s.handMessage i = (s.setSpan e.bearer.span { s.span e.bearer.span with txQueue := q }).afterPlaced i := by
  rw [handMessage, withBridge_some _ h, hm]
  refine (if_neg (by simp [hs, hp])).trans ?_
  rw [hq]
  rfl

theorem beginGuard_eq : s.beginGuard i =
    s.setBridge i (some { e with deadline := some (e.deadline.getD (s.counter + 64)) }) := by
  rw [beginGuard, modBridge_some _ h]
  cases e.deadline <;> rfl

theorem afterPlaced_still (hr : e.phase ≠ .releasing) (hu : e.phase ≠ .unwinding) : s.afterPlaced i = s := by
  rw [afterPlaced, withBridge_some _ h]
  cases hp : e.phase
  · rfl
  · rfl
  · rfl
  · rfl
  · exact absurd hp hr
  · exact absurd hp hu

theorem afterPlaced_guard (hp : e.phase = .releasing ∨ (e.phase = .unwinding ∧ e.freeOnPlace = false)) :
    s.afterPlaced i = s.beginGuard i := by
  rw [afterPlaced, withBridge_some _ h]
  rcases hp with hp | ⟨hp, hf⟩
  · rw [hp]
  · rw [hp, hf]
    rfl

theorem afterPlaced_frees (hp : e.phase = .unwinding) (hf : e.freeOnPlace = true) :
    s.afterPlaced i = s.freeEntry i := by
  rw [afterPlaced, withBridge_some _ h, hp, hf]
  rfl

/-! ### The service of a waiting entry -/

omit h in
theorem transmitRoom_iff {sp : Span} : s.transmitRoom sp = true ↔ (s.span sp).txQueue.length < 32 :=
  decide_eq_true_iff

theorem serveEntry_idle {sp : Span} (hi : e.pending = false ∨ e.bearer.span ≠ sp ∨ 32 ≤ (s.span sp).txQueue.length) :
    s.serveEntry sp i = s := by
  rw [serveEntry, withBridge_some _ h]
  refine if_neg ?_
  rw [Bool.and_eq_true, Bool.and_eq_true, transmitRoom_iff]
  rintro ⟨⟨hp, hs⟩, hr⟩
  rcases hi with hi | hi | hi
  · rw [hp] at hi
    cases hi
  · exact hi (beq_iff_eq.mp hs)
  · omega

omit h in
theorem serves (hp : e.pending = true) (hr : (s.span e.bearer.span).txQueue.length < 32) :
    (e.pending && e.bearer.span == e.bearer.span && s.transmitRoom e.bearer.span) = true := by
  rw [hp, transmitRoom_iff.mpr hr, beq_self_eq_true]
  rfl

theorem serveEntry_clears (hp : e.pending = true) (hr : (s.span e.bearer.span).txQueue.length < 32)
    (hm : s.entryMessage e = none) :
    s.serveEntry e.bearer.span i = s.setBridge i (some { e with pending := false }) := by
  rw [serveEntry, withBridge_some _ h]
  refine (if_pos (serves hp hr)).trans ?_
  rw [hm]

theorem serveEntry_waits (hp : e.pending = true) (hr : (s.span e.bearer.span).txQueue.length < 32)
    (hm : s.entryMessage e = some m) (hq : placeMessage (s.span e.bearer.span).txQueue i m = none) :
    s.serveEntry e.bearer.span i = s := by
  rw [serveEntry, withBridge_some _ h]
  refine (if_pos (serves hp hr)).trans ?_
  rw [hm]
  dsimp only
  rw [hq]

theorem serveEntry_placed {q : List QueuedMessage} (hp : e.pending = true)
    (hr : (s.span e.bearer.span).txQueue.length < 32) (hm : s.entryMessage e = some m)
    (hq : placeMessage (s.span e.bearer.span).txQueue i m = some q) : s.serveEntry e.bearer.span i =
      ((s.setBridge i (some { e with pending := false })).setSpan e.bearer.span
        { s.span e.bearer.span with txQueue := q }).afterPlaced i := by
  rw [serveEntry, withBridge_some _ h]
  refine (if_pos (serves hp hr)).trans ?_
  rw [hm]
  dsimp only
  rw [hq]
  rfl

end

/-! ### Answers, and the emptying of a queue -/

section

variable {sp : Span} {slot : Fin 256}

theorem answer_joins (hr : (s.span sp).txQueue.length < 32) (hn : ∀ x ∈ (s.span sp).txQueue, x.message.slot ≠ slot)
    (kind : MessageKind) (txn : Byte) (reason : Option Reason) : s.answer sp kind slot txn reason =
      s.setSpan sp { s.span sp with txQueue := (s.span sp).txQueue ++
        [⟨⟨kind, slot, txn, s.cfg.rank, .toFibre, false, reason⟩, .answer⟩] } := by
  refine if_pos ?_
  simp only [transmitRoom_iff.mpr hr, Bool.true_and, Bool.not_eq_true', List.any_eq_false, beq_iff_eq]
  exact hn

theorem answer_dropped (h : 32 ≤ (s.span sp).txQueue.length ∨ ∃ x ∈ (s.span sp).txQueue, x.message.slot = slot)
    (kind : MessageKind) (txn : Byte) (reason : Option Reason) : s.answer sp kind slot txn reason = s := by
  refine if_neg ?_
  simp only [Bool.and_eq_true, transmitRoom_iff, Bool.not_eq_true', List.any_eq_false, beq_iff_eq]
  rintro ⟨hr, hn⟩
  rcases h with h | ⟨x, hx, hs⟩
  · omega
  · exact hn x hx hs

theorem modBridge_none (h : s.bridge i = none) (f : Bridge → Bridge) : s.modBridge i f = s := by
  rw [modBridge, h]

theorem modBridge_bridge (f : Bridge → Bridge) : (s.modBridge i f).bridge i = (s.bridge i).map f := by
  cases h : s.bridge i with
  | none => rw [modBridge_none h, h]; rfl
  | some x => rw [modBridge_some _ h, bridge_setBridge_same]; rfl

theorem modBridge_bridge_ne {j : BridgeNo} (hne : j ≠ i) (f : Bridge → Bridge) :
    (s.modBridge j f).bridge i = s.bridge i := by
  cases h : s.bridge j with
  | none => rw [modBridge_none h]
  | some x => rw [modBridge_some _ h, bridge_setBridge_ne _ _ _ _ hne]

theorem modBridge_span (f : Bridge → Bridge) : (s.modBridge i f).span sp = s.span sp := by
  cases h : s.bridge i with
  | none => rw [modBridge_none h]
  | some x => rw [modBridge_some _ h, span_setBridge]

theorem clearPending_bridge : (s.clearPending sp).bridge i =
    (s.bridge i).map fun e => if e.bearer.span == sp then { e with pending := false } else e := by
  unfold clearPending
  refine (each_at (fun j (t : State) => t.bridge j) _ (fun j k t hne => ?_) (fun j t u hv => ?_)
    (List.nodup_finRange 48) (List.mem_finRange i) s).trans ?_
  · exact modBridge_bridge_ne hne _
  · rw [modBridge_bridge, modBridge_bridge, hv]
  · exact modBridge_bridge _

theorem emptyTransmit_span : (s.emptyTransmit sp).span sp = { s.span sp with txQueue := [] } := by
  have hclear : ((s.setTxQueue sp []).clearPending sp).span sp = (s.setTxQueue sp []).span sp :=
    each_keeps (fun t => t.span sp) _ _ (fun _ _ => modBridge_span _) _
  rw [emptyTransmit, hclear, setTxQueue, modSpan]
  exact span_setSpan_same _ _ _

theorem emptyTransmit_bridge (h : s.bridge i = some e) : (s.emptyTransmit sp).bridge i =
    some (if e.bearer.span = sp then { e with pending := false } else e) := by
  rw [emptyTransmit, clearPending_bridge, show (s.setTxQueue sp []).bridge i = some e from h, Option.map_some]
  by_cases hsp : e.bearer.span = sp
  · rw [if_pos hsp, if_pos (by simpa using hsp)]
  · rw [if_neg hsp, if_neg (by simpa using hsp)]

end

end State

/-- Settles O51. -/
theorem messagePlaced : Obligations.MessagePlaced := by
  unfold Obligations.MessagePlaced
  refine ⟨fun q i m hq => placeMessage_absent hq i, fun q i m old ho hs hn => placeMessage_present ho hs hn i,
    fun s i e h => ⟨State.handMessage_still h, fun m hm hs hp => ⟨State.handMessage_waits h hm hs hp, fun q =>
      State.handMessage_placed h hm hs hp⟩, fun hr => State.serveEntry_idle h (.inr (.inr hr)), fun hp hr =>
      ⟨State.serveEntry_clears h hp hr, fun m => State.serveEntry_waits h hp hr,
        fun m q => State.serveEntry_placed h hp hr⟩,
      fun hp sp => State.serveEntry_idle h (.inl hp), fun sp hsp => State.serveEntry_idle h (.inr (.inl hsp)),
      State.afterPlaced_still h, fun hp => (State.afterPlaced_guard h hp).trans (State.beginGuard_eq h),
      State.afterPlaced_frees h⟩,
    fun s sp kind slot txn reason => ⟨fun hr hn => State.answer_joins hr hn kind txn reason,
      fun hd => State.answer_dropped hd kind txn reason⟩,
    fun s sp => ⟨rfl, State.emptyTransmit_span, fun i e => State.emptyTransmit_bridge⟩⟩

end Sys2Proof.Machine
end

section
/-! PROOFS. The seam's numbers, the own roll and the release decision (R11, R64, R67 to R71, R73). -/

namespace Sys2Proof.Machine

open Sys2Proof

/-! ### The numbers of a seam switch -/

theorem seamNumbers_spec (hx : Nat) (d : Int) (h : hx ≤ 15) : let r := seamNumbers hx d
    (r.repeats : Int) = max 0 (d - hx) ∧ (r.hold : Int) = min 15 (max 0 (hx - d)) ∧
      (r.skipped : Int) = max 0 (hx - d - 15) ∧
      (max (-15) ((hx : Int) - 15) ≤ d → d ≤ 15 → r.skipped = 0 ∧ r.repeats ≤ 15 ∧ (r.hold : Int) = max 0 (hx - d) ∧
        ((seamNumbers r.hold (-d)).hold : Int) = max (hx : Int) d) := by
  dsimp only [seamNumbers, Config.holdLimit]
  refine ⟨?_, ?_, ?_, fun hl hu => ⟨?_, ?_, ?_, ?_⟩⟩ <;> omega

namespace State

variable {s : State} {i : BridgeNo} {e : Bridge}

/-! ### The release decision -/

/-- An initiator whose RELEASE can be handed: the peer has rolled or its from-path was lost, and its gate is open (R70). -/
theorem completes_iff : e.role = .initiator ∧ e.phase = .rolled ∧ (e.peerRolled = true ∨ e.forced = true ∧ e.fromLost = true) ∧
      (e.group = none ∨ ∃ g n x, e.group = some (g, n) ∧ s.group g = some x ∧ x.gate = .opened) ↔
    (e.role == .initiator && e.phase == .rolled && e.bothRolled && s.gatePermits e) = true := by
  have hgate : s.gatePermits e = true ↔
      e.group = none ∨ ∃ g n x, e.group = some (g, n) ∧ s.group g = some x ∧ x.gate = .opened := by
    unfold gatePermits
    cases e.group with
    | none => simp
    | some p =>
      obtain ⟨g, n⟩ := p
      cases hx : s.group g with
      | none => simp [hx]
      | some x => simp [hx]
  rw [Bool.and_eq_true, Bool.and_eq_true, Bool.and_eq_true, hgate, Bridge.bothRolled]
  simp only [beq_iff_eq, Bool.or_eq_true, Bool.and_eq_true, and_assoc]

/-- What handing its message leaves of an entry in RELEASING (R71, R86). -/
theorem handMessage_releasing (h : s.bridge i = some e) (hp : e.phase = .releasing) :
    ∃ d p, (s.handMessage i).bridge i = some { e with deadline := d, pending := p } ∧
      (s.handMessage i).settles = s.settles ∧ (s.handMessage i).nextSettle = s.nextSettle := by
  cases hm : s.entryMessage e with
  | none => rw [handMessage_still h (.inl hm)]; exact ⟨_, _, h, rfl, rfl⟩
  | some m =>
    by_cases hs : s.inService e.bearer.span = false ∨ e.pending = true
    · rw [handMessage_still h (.inr hs)]
      exact ⟨_, _, h, rfl, rfl⟩
    · rw [not_or, Bool.not_eq_false, Bool.not_eq_true] at hs
      obtain ⟨hs, hpd⟩ := hs
      cases hq : placeMessage (s.span e.bearer.span).txQueue i m with
      | none =>
        rw [handMessage_waits h hm hs hpd hq]
        exact ⟨_, _, bridge_setBridge_same _ _ _, rfl, rfl⟩
      | some q =>
        have h' : (s.setSpan e.bearer.span { s.span e.bearer.span with txQueue := q }).bridge i = some e := by
          rw [bridge_setSpan, h]
        rw [handMessage_placed h hm hs hpd hq, afterPlaced_guard h' (.inl hp), beginGuard_eq h']
        exact ⟨_, e.pending, bridge_setBridge_same _ _ _, by rw [setBridge_settles, setSpan_settles],
          by rw [setBridge_nextSettle, setSpan_nextSettle]⟩

/-- The state in which an entry that enters RELEASING has handed its RELEASE (R70). -/
def releaseHanded (s : State) (i : BridgeNo) (e : Bridge) : State :=
  (s.setBridge i (some
    { e with phase := .releasing, deadline := none, retryDue := none,
             outcome := some (if e.forced then .doneForced else .done) })).handMessage i

theorem enterReleasing_eq (h : s.bridge i = some e) : s.enterReleasing i =
    if e.fromLost then (s.releaseHanded i e).freeEntry i
    else if s.inService e.bearer.span then s.releaseHanded i e else (s.releaseHanded i e).beginGuard i := by
  rw [enterReleasing, withBridge_some _ h]
  rfl

/-- The freeing of an entry that enters RELEASING with its from-path lost (R71). -/
theorem releaseHanded_freed : ((s.releaseHanded i e).freeEntry i).bridge i = none ∧
    ∀ ref, e.group = none → e.ref = some ref → ((s.releaseHanded i e).freeEntry i).settles =
      s.settles ++ [⟨s.nextSettle, ref, if e.forced then .doneForced else .done, 1⟩] := by
  obtain ⟨d, p, hb, hs, hn⟩ := handMessage_releasing (bridge_setBridge_same s i (some
    { e with phase := .releasing, deadline := none, retryDue := none,
             outcome := some (if e.forced then .doneForced else .done) })) rfl
  change (s.releaseHanded i e).bridge i = _ at hb
  change (s.releaseHanded i e).settles = s.settles at hs
  change (s.releaseHanded i e).nextSettle = s.nextSettle at hn
  generalize s.releaseHanded i e = u at hb hs hn ⊢
  rw [freeEntry, withBridge_some _ hb, (freeAs_reads hb _).1, if_pos rfl]
  refine ⟨rfl, fun ref hg hr => ?_⟩
  obtain ⟨-, -, -, -, hsettles⟩ := freeAs_fields hb (if e.forced then .doneForced else .done)
  dsimp only at hsettles
  rw [hg, hr, hs, hn] at hsettles
  exact hsettles

/-! ### The own roll -/

theorem ownRoll_matched {d : Int} {f : FrameNo} (h : s.bridge i = some e) (hp : e.phase = .matching)
    (hm : e.matchDue = some f) (hd : e.offset = some d) :
    s.ownRoll i .matched = (s.roll i d false).enterRolled i := by
  rw [ownRoll, inPhase_same h hp, hm, hd]

theorem ownRoll_quick {f : FrameNo} (h : s.bridge i = some e) (hp : e.phase = .matching) (hq : e.quickDue = some f) :
    s.ownRoll i .quick = (s.roll i 0 false).enterRolled i := by
  rw [ownRoll, inPhase_same h hp, hq]

theorem ownRoll_notMatched (h : s.bridge i = some e) (hm : e.matchDue = none) : s.ownRoll i .matched = s :=
  inPhase_idle h (by rw [hm])

theorem ownRoll_notQuick (h : s.bridge i = some e) (hq : e.quickDue = none) : s.ownRoll i .quick = s :=
  inPhase_idle h (by rw [hq])

theorem enterRolled_initiator (h : s.bridge i = some e) (hr : e.role = .initiator) : s.enterRolled i =
    (s.setBridge i (some
      { e with phase := .rolled, retryDue := none,
               deadline := if e.peerRolled then none else some (s.counter + 16000) })).releaseDecision i := by
  rw [enterRolled, withBridge_some _ h, hr]
  rfl

theorem enterRolled_responder (h : s.bridge i = some e) (hr : e.role = .responder) : s.enterRolled i =
    (s.setBridge i (some { e with phase := .rolled, deadline := none, retryDue := some (s.counter + 80) })).handMessage
      i := by
  rw [enterRolled, withBridge_some _ h, hr]
  rfl

/-- What a roll that was not forced leaves of the circuit, its alignment store and the entry (R11, R68). -/
theorem roll_spec (h : s.bridge i = some e) (d : Int) : let t := s.roll i d false
    let r := seamNumbers (s.circuit e.circuit).hold d
    (t.circuit e.circuit).receive = toReceive e.direction ∧
      (t.circuit e.circuit).hold = r.hold ∧ (t.circuit e.circuit).generation = (s.circuit e.circuit).generation ∧
      (t.alignOf e.circuit).repeatsDue = r.repeats ∧
      t.bridge i = some { e with offset := some d, repeats := e.repeats + r.repeats, skipped := e.skipped + r.skipped,
                                 rolled := true, matcher := none, matchDue := none, quickDue := none } := by
  dsimp only
  rw [roll, withBridge_some _ h, Bool.or_false]
  dsimp only
  have hk : (s.seamSwitch e.circuit (toReceive e.direction) d).circuit e.circuit = { s.circuit e.circuit with
      receive := toReceive e.direction, hold := (seamNumbers (s.circuit e.circuit).hold d).hold } := by
    rw [seamSwitch, modAlign_eq, circuit_setAlign, modCircuit_eq, circuit_setCircuit_same]
  have ha : ((s.seamSwitch e.circuit (toReceive e.direction) d).alignOf e.circuit).repeatsDue =
      (seamNumbers (s.circuit e.circuit).hold d).repeats := by
    rw [seamSwitch, modAlign_eq, alignOf_setAlign_same]
  rw [circuit_setBridge, alignOf_setBridge, hk, ha]
  exact ⟨rfl, rfl, rfl, rfl, bridge_setBridge_same _ _ _⟩

end State

theorem exec_ownRoll (i : BridgeNo) (cause : RollCause) (s : State) :
    exec (.ownRoll i cause) s = act s fun s => s.ownRoll i cause := rfl

/-- Settles O48. -/
theorem ownRoll : Obligations.OwnRoll := by
  unfold Obligations.OwnRoll
  refine ⟨fun hx d h => seamNumbers_spec hx d h, fun s i e he => ⟨fun hc => ?_, fun hc => ?_, fun hl hs => ?_,
    fun hl hs => ?_, fun hl => ?_, ?_, State.beginGuard_eq he⟩, fun i e s h he hp => ⟨fun d f hm hd => ?_, fun f hq => ?_,
    fun hm => ?_, fun hq => ?_, fun d => ?_, State.enterRolled_initiator he, State.enterRolled_responder he⟩⟩
  · rw [State.releaseDecision, State.withBridge_some _ he, if_pos (State.completes_iff.mp hc)]
  · rw [State.releaseDecision, State.withBridge_some _ he, if_neg fun ht => hc (State.completes_iff.mpr ht)]
  · exact (State.enterReleasing_eq he).trans ((if_neg (by simp [hl])).trans (if_pos hs))
  · exact (State.enterReleasing_eq he).trans ((if_neg (by simp [hl])).trans (if_neg (by simp [hs])))
  · rw [State.enterReleasing_eq he, if_pos hl]
    exact ⟨rfl, State.releaseHanded_freed⟩
  · rw [State.freeEntry, State.withBridge_some _ he]
  · exact exec_effect h (exec_ownRoll i .matched s) (State.ownRoll_matched he hp hm hd)
  · exact exec_effect h (exec_ownRoll i .quick s) (State.ownRoll_quick he hp hq)
  · exact exec_effect h (exec_ownRoll i .matched s) (State.ownRoll_notMatched he hm)
  · exact exec_effect h (exec_ownRoll i .quick s) (State.ownRoll_notQuick he hq)
  · obtain ⟨hrx, hrest⟩ := State.roll_spec he d
    refine ⟨hrx.trans ?_, hrest⟩
    cases e.direction <;> rfl

end Sys2Proof.Machine
end

section
/-! PROOFS. The entry into UNWINDING (R73, R74, R77). -/

namespace Sys2Proof.Machine

open Sys2Proof

/-- The seam back of a rolled entry, on its circuit: what `f` makes of it, and nothing of an entry that has not rolled. -/
def Bridge.ifRolled {α : Type} (e : Bridge) (f : α → α) (x : α) : α := if e.rolled then f x else x

/-- The circuit of an entry that goes back to its from-path (R11, R73). -/
def Bridge.backOn (e : Bridge) (lost toLost : Bool) (k : Circuit) : Circuit :=
  let r := seamNumbers k.hold (-(e.offset.getD 0))
  let k := e.ifRolled (fun k => { k with receive := fromReceive e.direction, hold := r.hold }) k
  let k := k.feedFrom e.direction (!lost)
  if toLost then k.feedTo e.direction false else k

/-- An entry whose receive is on its from-path again, with the seam's numbers in its totals (R11, R73). -/
def Bridge.seamedBack (e : Bridge) (r : SeamResult) : Bridge :=
  { e with rolled := false, repeats := if e.rolled then e.repeats + r.repeats else e.repeats,
           skipped := if e.rolled then e.skipped + r.skipped else e.skipped }

/-- An entry as it stands in UNWINDING (R73). -/
def Bridge.unwound (e : Bridge) (r : SeamResult) (lost : Bool) (outcome : ResultCode) (reason : Option Reason)
    (declined toLost : Bool) : Bridge :=
  { e with
    phase := .unwinding, deadline := none, retryDue := none, outcome := some outcome, unwindReason := reason,
    declined := declined, freeOnPlace := toLost, matcher := none, matchDue := none, quickDue := none, rolled := false,
    fromLost := lost, repeats := if e.rolled then e.repeats + r.repeats else e.repeats,
    skipped := if e.rolled then e.skipped + r.skipped else e.skipped }

namespace State

/-- A change of one entry, and of its circuit with the alignment store. -/
def withMove (s : State) (i : BridgeNo) (c : CircuitNo) (a : AlignStore) (k : Circuit) (e : Bridge) : State :=
  ((s.setAlign c a).setCircuit c k).setBridge i (some e)

section

variable {s : State} {i : BridgeNo} {c : CircuitNo} {a : AlignStore} {k : Circuit} {x : Bridge}

theorem withMove_bridge : (s.withMove i c a k x).bridge i = some x := bridge_setBridge_same _ _ _

theorem withMove_circuit : (s.withMove i c a k x).circuit c = k := by
  rw [withMove, circuit_setBridge, circuit_setCircuit_same]

theorem withMove_align : (s.withMove i c a k x).alignOf c = a := by
  rw [withMove, alignOf_setBridge, alignOf_setCircuit, alignOf_setAlign_same]

theorem withMove_setBridge (y : Bridge) : (s.withMove i c a k x).setBridge i (some y) = s.withMove i c a k y := by
  simp [withMove, setBridge]

theorem withMove_modCircuit (f : Circuit → Circuit) :
    (s.withMove i c a k x).modCircuit c f = s.withMove i c a (f k) x := by
  rw [modCircuit_eq, withMove_circuit]
  simp [withMove, setBridge, setCircuit, setAlign]

theorem withMove_others : (∀ d, d ≠ c → (s.withMove i c a k x).circuit d = s.circuit d ∧
      (s.withMove i c a k x).alignOf d = s.alignOf d) ∧
    (∀ j, j ≠ i → (s.withMove i c a k x).bridge j = s.bridge j) ∧
    { s.withMove i c a k x with circuits := s.circuits, align := s.align, bridges := s.bridges } = s := by
  refine ⟨fun d hd => ?_, fun j hj => ?_, rfl⟩
  · rw [withMove, circuit_setBridge, alignOf_setBridge, alignOf_setCircuit, circuit_setCircuit, if_neg (Ne.symm hd),
      alignOf_setAlign, if_neg (Ne.symm hd)]
    exact ⟨rfl, rfl⟩
  · rw [withMove, bridge_setBridge, if_neg (Ne.symm hj)]
    rfl

end

variable {s : State} {i : BridgeNo} {e : Bridge}

theorem withMove_self (h : s.bridge i = some e) :
    s.withMove i e.circuit (s.alignOf e.circuit) (s.circuit e.circuit) e = s := by
  have ha : s.setAlign e.circuit (s.alignOf e.circuit) = s := by simp [setAlign, alignOf]
  rw [withMove, ha, setCircuit_self _ rfl, setBridge_self _ h]

/-- The seam back of an entry, in one change (R11, R73). -/
theorem seamBack_eq (h : s.bridge i = some e) : s.seamBack i =
    let r := seamNumbers (s.circuit e.circuit).hold (-(e.offset.getD 0))
    s.withMove i e.circuit (e.ifRolled (fun a => { a with repeatsDue := r.repeats }) (s.alignOf e.circuit))
      (e.ifRolled (fun k => { k with receive := fromReceive e.direction, hold := r.hold }) (s.circuit e.circuit))
      (e.seamedBack r) := by
  rw [seamBack, withBridge_some _ h]
  dsimp only [Bridge.ifRolled, Bridge.seamedBack]
  by_cases hr : e.rolled = true
  · simp only [if_pos hr]
    rfl
  · simp only [if_neg hr]
    have hsame : { e with rolled := false } = e := by
      rw [Bool.not_eq_true] at hr
      exact hr ▸ rfl
    rw [hsame, withMove_self h]

/-- The way back to the from-path, in one change (R73, R75). -/
theorem goBack_eq (h : s.bridge i = some e) : s.goBack i =
    let r := seamNumbers (s.circuit e.circuit).hold (-(e.offset.getD 0))
    s.withMove i e.circuit (e.ifRolled (fun a => { a with repeatsDue := r.repeats }) (s.alignOf e.circuit))
      (e.backOn (s.fromPathLost e) false (s.circuit e.circuit))
      { e.seamedBack r with fromLost := s.fromPathLost e } := by
  rw [goBack, seamBack_eq h]
  dsimp only
  rw [refeedFrom, withBridge_some _ withMove_bridge]
  dsimp only
  change ((withMove s i e.circuit _ _ _).modCircuit e.circuit _).setBridge i _ = _
  rw [withMove_modCircuit, withMove_setBridge]
  rfl

theorem withMove_stopToFeed {a : AlignStore} {k : Circuit} {x : Bridge} :
    (s.withMove i e.circuit a k x).stopToFeed e = s.withMove i e.circuit a (k.feedTo e.direction false) x := by
  rw [stopToFeed, withMove_modCircuit]

/-- The entry into UNWINDING, in one change (R73). -/
theorem enterUnwinding_eq (h : s.bridge i = some e) (outcome : ResultCode) (reason : Option Reason)
    (declined toLost : Bool) : s.enterUnwinding i outcome reason declined toLost =
    let r := seamNumbers (s.circuit e.circuit).hold (-(e.offset.getD 0))
    s.withMove i e.circuit (e.ifRolled (fun a => { a with repeatsDue := r.repeats }) (s.alignOf e.circuit))
      (e.backOn (s.fromPathLost e) toLost (s.circuit e.circuit))
      (e.unwound r (s.fromPathLost e) outcome reason declined toLost) := by
  rw [enterUnwinding, withBridge_some _ h, goBack_eq h]
  dsimp only
  cases toLost
  · rw [if_neg (by decide), modBridge_some _ withMove_bridge, withMove_setBridge]
    rfl
  · rw [if_pos rfl, withMove_stopToFeed, modBridge_some _ withMove_bridge, withMove_setBridge]
    rfl

theorem sendAbandon_hands (h : s.bridge i = some e) (hs : s.inService e.bearer.span = true) (hd : e.declined = false) :
    s.sendAbandon i = s.handMessage i := by
  rw [sendAbandon, withBridge_some _ h]
  exact if_pos (by simp [hs, hd])

/-- No ABANDON is sent (R73 step 4, R77). -/
theorem sendAbandon_silent (h : s.bridge i = some e) (hn : s.inService e.bearer.span = false ∨ e.declined = true) :
    s.sendAbandon i = if e.freeOnPlace then s.freeEntry i else s.beginGuard i := by
  rw [sendAbandon, withBridge_some _ h]
  exact if_neg (by rcases hn with hn | hn <;> simp [hn])

end State

/-- The circuit that goes back, field by field. -/
theorem Bridge.backOn_eq (e : Bridge) (lost toLost : Bool) (k : Circuit) : e.backOn lost toLost k =
    let r := seamNumbers k.hold (-(e.offset.getD 0))
    { k with
      hold := if e.rolled then r.hold else k.hold,
      receive := if e.rolled then (match e.direction with | .toFibre => .line | .toCopper => .span) else k.receive,
      lineFeed := match e.direction with
        | .toFibre => !lost
        | .toCopper => if toLost then false else k.lineFeed,
      spanFeed := match e.direction with
        | .toFibre => if toLost then false else k.spanFeed
        | .toCopper => !lost } := by
  dsimp only [backOn, ifRolled]
  cases e.direction <;> cases e.rolled <;> cases toLost <;> rfl

/-- Settles O49. -/
theorem unwindBegins : Obligations.UnwindBegins := by
  unfold Obligations.UnwindBegins
  refine ⟨fun s i e outcome reason declined toLost h => ?_, fun s i e h => ⟨State.sendAbandon_hands h, fun hn =>
    ⟨fun hf => ?_, fun hf => ?_⟩⟩⟩
  · have ht := State.enterUnwinding_eq h outcome reason declined toLost
    dsimp only at ht ⊢
    refine ⟨fun hp => State.unwind_inside h hp _ _ _ _, fun hp => State.unwind_outside h hp _ _ _ _, ?_⟩
    rw [ht]
    refine ⟨State.withMove_bridge, State.withMove_circuit.trans (Bridge.backOn_eq _ _ _ _), ?_, State.withMove_others⟩
    rw [State.withMove_align, Bridge.ifRolled]
    cases e.rolled <;> rfl
  · rw [State.sendAbandon_silent h hn, if_pos hf]
  · rw [State.sendAbandon_silent h hn, if_neg (by simp [hf])]

end Sys2Proof.Machine
end

section
/-! PROOFS. The freeing of an entry: its circuit and its positions (R3, R6, R10, R19, R50, R72). -/

namespace Sys2Proof.Machine

open Sys2Proof

namespace State

variable {s : State} {i : BridgeNo} {e : Bridge} {o : ResultCode}

/-! ### The positions of a freed entry -/

theorem freeOccupancy_fibreReleased (hd : e.direction = .toFibre) : let w := s.freeOccupancy e true
    (w.slotEntry e.bearer).use = .assigned e.circuit ∧ ∀ p, w.lineUse p =
      if p = e.linePos then .vacated e.circuit else if (s.circuit e.circuit).vacated = some p then .free
      else s.lineUse p := by
  unfold freeOccupancy
  rw [hd]
  dsimp only
  refine ⟨?_, fun p => ?_⟩
  · rw [useSlot, slotEntry_setSlotEntry_same]
  · rw [useSlot, lineUse_setSlotEntry, lineUse_setLineUse, freeLine_lineUse]
    simp only [eq_comm]

theorem freeOccupancy_onCopper (released : Bool) (hd : e.direction = if released then .toCopper else .toFibre) :
    s.freeOccupancy e released = s.freeSlot e.bearer e.circuit := by
  cases released <;> unfold freeOccupancy <;> rw [hd] <;> rfl

theorem freeOccupancy_copperUnwound (hd : e.direction = .toCopper) : s.freeOccupancy e false =
    s.setLineUse e.linePos (if e.ontoVacated then .vacated e.circuit else .free) := by
  unfold freeOccupancy
  rw [hd]

theorem freeOccupancy_otherSlots (released : Bool) {b : BearerSlot} (hb : b ≠ e.bearer) :
    (s.freeOccupancy e released).slotEntry b = s.slotEntry b := by
  cases hd : e.direction <;> cases released
  · rw [freeOccupancy_onCopper false hd, freeSlot, slotEntry_setSlotEntry, if_neg (Ne.symm hb)]
  · unfold freeOccupancy
    rw [hd]
    dsimp only
    rw [useSlot, slotEntry_setSlotEntry, if_neg (Ne.symm hb), slotEntry_setLineUse, freeLine_slotEntry]
  · rw [freeOccupancy_copperUnwound hd, slotEntry_setLineUse]
  · rw [freeOccupancy_onCopper true hd, freeSlot, slotEntry_setSlotEntry, if_neg (Ne.symm hb)]

/-! ### The circuit of a freed entry -/

/-- A circuit that would end on fibre, by the state of its span (R72). -/
theorem endFibre_spec (k : Circuit) (b : BearerSlot) : let x := s.endFibre k b
    x.pathState = (if s.inService b.span then .fibre else .stranded) ∧ x.bearer = some b ∧
      x.receive = (if s.inService b.span then .span else .none) ∧ x.lineFeed = false ∧
      x.spanFeed = s.inService b.span ∧ x.linePos = k.linePos ∧ x.vacated = k.vacated ∧
      x.lastMigration = k.lastMigration := by
  unfold endFibre
  cases s.inService b.span
  · exact ⟨rfl, rfl, rfl, rfl, rfl, rfl, rfl, rfl⟩
  · exact ⟨rfl, rfl, rfl, rfl, rfl, rfl, rfl, rfl⟩

theorem freedCircuit_fibreReleased (hd : e.direction = .toFibre) : s.freedCircuit e true =
    s.endFibre { s.circuit e.circuit with linePos := none, vacated := some e.linePos } e.bearer := by
  unfold freedCircuit
  rw [hd]

theorem freedCircuit_copperReleased (hd : e.direction = .toCopper) : s.freedCircuit e true =
    Circuit.endCopper { s.circuit e.circuit with linePos := some e.linePos, bearer := none } := by
  unfold freedCircuit
  rw [hd]

theorem freedCircuit_fibreUnwound (hd : e.direction = .toFibre) :
    s.freedCircuit e false = Circuit.endCopper (s.circuit e.circuit) := by
  unfold freedCircuit
  rw [hd]

theorem freedCircuit_copperUnwound (hd : e.direction = .toCopper) : s.freedCircuit e false =
    s.endFibre { s.circuit e.circuit with
      vacated := if e.ontoVacated then some e.linePos else (s.circuit e.circuit).vacated } e.bearer := by
  unfold freedCircuit
  rw [hd]

theorem freedCircuit_keeps (released : Bool) :
    (s.freedCircuit e released).lastMigration = (s.circuit e.circuit).lastMigration ∧
      (s.freedCircuit e released).generation = (s.circuit e.circuit).generation := by
  have hfibre : ∀ k : Circuit, (s.endFibre k e.bearer).lastMigration = k.lastMigration ∧
      (s.endFibre k e.bearer).generation = k.generation := by
    intro k
    unfold endFibre
    cases s.inService e.bearer.span <;> exact ⟨rfl, rfl⟩
  cases hd : e.direction <;> cases released
  · rw [freedCircuit_fibreUnwound hd]; exact ⟨rfl, rfl⟩
  · rw [freedCircuit_fibreReleased hd]; exact hfibre _
  · rw [freedCircuit_copperUnwound hd]; exact hfibre _
  · rw [freedCircuit_copperReleased hd]; exact ⟨rfl, rfl⟩

theorem releasedForm_of (h : o = .done ∨ o = .doneForced) : releasedForm o = true := (releasedForm_iff o).mpr h

theorem releasedForm_of_not (h : ¬(o = .done ∨ o = .doneForced)) : releasedForm o = false :=
  Bool.eq_false_iff.mpr fun hr => h ((releasedForm_iff o).mp hr)

end State

/-- The last migration record and the settles of a freed entry, and what its freeing leaves unchanged. -/
theorem freed_keeps {s : State} {i : BridgeNo} {e : Bridge} (h : s.bridge i = some e) (o : ResultCode) :
    let t := s.freeAs i o
    (∀ ref, e.group = none → e.ref = some ref → t.settles = s.settles ++ [⟨s.nextSettle, ref, o, 1⟩]) ∧
    (e.group ≠ none ∨ e.ref = none → t.settles = s.settles) ∧
    (∀ b, b ≠ e.bearer → t.slotEntry b = s.slotEntry b) ∧ (∀ c, c ≠ e.circuit → t.circuit c = s.circuit c) ∧
    (∀ j, j ≠ i → t.bridge j = s.bridge j) ∧ t.still = s.still := by
  obtain ⟨-, -, -, -, hsettles⟩ := State.freeAs_fields h o
  obtain ⟨hbridge, hcirc, -, hslot⟩ := State.freeAs_reads h o
  dsimp only at hsettles ⊢
  refine ⟨fun ref hg hr => ?_, fun hn => ?_, fun b hb => ?_, fun c hc => ?_, fun j hj => ?_, State.still_freeAs _ _ _⟩
  · rw [hsettles, hg, hr]
  · rw [hsettles]
    cases hg : e.group with
    | some p => rfl
    | none => rw [hn.resolve_left fun hne => hne hg]
  · rw [hslot, State.freeOccupancy_otherSlots _ hb]
  · rw [hcirc, if_neg (Ne.symm hc)]
  · rw [hbridge, if_neg (Ne.symm hj)]

/-- Settles O50. -/

theorem entryFreed : Obligations.EntryFreed := by
  unfold Obligations.EntryFreed
  intro s i e o h
  obtain ⟨-, hline, -, -, -⟩ := State.freeAs_fields h o
  obtain ⟨hbridge, hcirc, huse, hslot⟩ := State.freeAs_reads h o
  obtain ⟨hlast, hgen⟩ := s.freedCircuit_keeps (e := e) (State.releasedForm o)
  have hx : (s.freeAs i o).circuit e.circuit = s.circuitAfter e o := by rw [hcirc, if_pos rfl]
  dsimp only at hline ⊢
  rw [hx, State.circuitAfter]
  dsimp only
  rw [hlast, hgen]
  refine ⟨by rw [hbridge, if_pos rfl], rfl, rfl, rfl, fun hn => ?_, fun n hn hr => ?_, fun n hn hr => ?_,
    fun hd hr => ?_, fun hd hr => ?_, fun hd hr => ?_, fun hd hr => ?_, freed_keeps h o⟩
  · rw [State.freedRecord, hn]
  · rw [State.freedRecord, hn, State.releasedForm_of hr]
    rfl
  · rw [State.freedRecord, hn, State.releasedForm_of_not hr]
    rfl
  · rw [State.releasedForm_of hr] at huse hslot ⊢
    obtain ⟨huse', hline'⟩ := s.freeOccupancy_fibreReleased hd
    obtain ⟨hp, hb, hrx, hl, hsf, hpos, hv, -⟩ := s.endFibre_spec
      { s.circuit e.circuit with linePos := none, vacated := some e.linePos } e.bearer
    rw [State.freedCircuit_fibreReleased hd, hslot]
    exact ⟨⟨hp, hb, hrx, hl, hsf⟩, hpos, hv, huse', fun p => (huse p).trans (hline' p)⟩
  · rw [State.releasedForm_of hr] at hline hslot ⊢
    rw [State.freeOccupancy_onCopper true hd] at hline hslot
    rw [State.freedCircuit_copperReleased hd, hslot, State.freeSlot, State.slotEntry_setSlotEntry_same]
    exact ⟨⟨rfl, rfl, rfl, rfl, rfl, hline, rfl⟩, rfl, rfl⟩
  · rw [State.releasedForm_of_not hr] at hline hslot ⊢
    rw [State.freeOccupancy_onCopper false hd] at hline hslot
    rw [State.freedCircuit_fibreUnwound hd, hslot, State.freeSlot, State.slotEntry_setSlotEntry_same]
    exact ⟨⟨rfl, rfl, rfl, rfl, rfl, hline, rfl⟩, rfl⟩
  · rw [State.releasedForm_of_not hr] at huse hslot ⊢
    rw [State.freeOccupancy_copperUnwound hd] at huse hslot
    obtain ⟨hp, hb, hrx, hl, hsf, hpos, hv, -⟩ := s.endFibre_spec { s.circuit e.circuit with
      vacated := if e.ontoVacated then some e.linePos else (s.circuit e.circuit).vacated } e.bearer
    rw [State.freedCircuit_copperUnwound hd, hslot]
    refine ⟨⟨hp, hb, hrx, hl, hsf⟩, hpos, rfl, hv, fun p => ?_⟩
    rw [huse, State.lineUse_setLineUse]
    simp only [eq_comm]

end Sys2Proof.Machine
end


section
/-! PROOFS. The arrivals of roll messages: their order, ACCEPT and OFFER (R62, R67, R83, R95, R96, R98). -/

namespace Sys2Proof.Machine

open Sys2Proof

namespace State

variable {s : State} {i : BridgeNo} {e : Bridge} {sp : Span} {m : RollMessage}

/-! ### The decision of an arrival -/

/-- An arrival whose turn it is, from a part of another rank on a span in service (R83, R84). -/
def Decided (s : State) (sp : Span) (m : RollMessage) : Prop :=
  s.inService sp = true ∧ m.rank ≠ s.cfg.rank ∧ s.arrivalDue sp m = true

theorem arrive_entry (h : s.Decided sp m) (he : s.entryOn ⟨sp, m.slot⟩ = some (i, e))
    (f : State → BridgeNo → Bridge → State) : s.arrive sp m f = f (s.popArrival sp) i e := by
  obtain ⟨hs, hr, hd⟩ := h
  rw [arrive_due hs hr hd, popArrival_entryOn, he]

theorem arrive_record (h : s.Decided sp m) (he : s.entryOn ⟨sp, m.slot⟩ = none)
    (f : State → BridgeNo → Bridge → State) :
    s.arrive sp m f = (s.popArrival sp).answerFromRecord ⟨sp, m.slot⟩ m.kind m.txn := by
  obtain ⟨hs, hr, hd⟩ := h
  rw [arrive_due hs hr hd, popArrival_entryOn, he]

theorem initiatorOf_iff (txn : Byte) : initiatorOf e txn = true ↔ e.role = .initiator ∧ e.txn = some txn := by
  simp [initiatorOf]

/-- An offering initiator of a txn, as ACCEPT and DECLINE ask for it (R98, R99). -/
theorem offering_iff (txn : Byte) : (initiatorOf e txn && e.phase == .offering) = true ↔
    e.role = .initiator ∧ e.txn = some txn ∧ e.phase = .offering := by
  rw [Bool.and_eq_true, initiatorOf_iff, beq_iff_eq, and_assoc]

theorem not_offering {txn : Byte} (h : e.role = .responder ∨ e.txn ≠ some txn ∨ e.phase ≠ .offering) :
    ¬(initiatorOf e txn && e.phase == .offering) = true := by
  rw [offering_iff]
  rintro ⟨hr, ht, hp⟩
  rcases h with h | h | h
  · rw [hr] at h
    cases h
  · exact h ht
  · exact h hp

theorem acceptAt_enters {txn : Byte} (hr : e.role = .initiator) (ht : e.txn = some txn) (hp : e.phase = .offering) :
    s.acceptAt txn i e = (s.setBridge i (some { e with retryDue := none, deadline := none })).enterMatching i :=
  if_pos ((offering_iff txn).mpr ⟨hr, ht, hp⟩)

theorem acceptAt_ignored {txn : Byte} (h : e.role = .responder ∨ e.txn ≠ some txn ∨ e.phase ≠ .offering) :
    s.acceptAt txn i e = s := if_neg (not_offering h)

/-! ### The entry into MATCHING -/

theorem enterMatching_rolled (h : s.bridge i = some e) (hr : e.rolled = true) :
    s.enterMatching i = s.enterRolled i := by
  rw [enterMatching, withBridge_some _ h, if_pos hr]

/-- The entry that stands in MATCHING (R62, R67). -/
def matchingEntry (s : State) (e : Bridge) : Bridge :=
  { e with phase := .matching, deadline := some (s.after e.matchLimit), retryDue := none, matchDue := none,
           matcher := some { toHistory := [], fromHistory := [], runs := List.replicate 31 0,
                             lowest := max (-15) (((s.circuit e.circuit).hold : Int) - 15) },
           quickDue := if e.quick = true ∧ s.activity e.circuit = .idle then some s.counter else none }

theorem enterMatching_eq (h : s.bridge i = some e) (hr : e.rolled = false) : s.enterMatching i =
    if e.direction = .toFibre ∧ (e.fromLost = true ∨ s.linePresent e.linePos = false) then
      (s.setBridge i (some (s.matchingEntry e))).fromLineLost i
    else (s.setBridge i (some (s.matchingEntry e))).handMessage i := by
  have hlost : (e.direction == .toFibre && (e.fromLost || s.fromPathLost e)) = true ↔
      e.direction = .toFibre ∧ (e.fromLost = true ∨ s.linePresent e.linePos = false) := by
    unfold fromPathLost
    cases e.direction <;> simp
  have hquick : (e.quick && s.activity e.circuit == .idle) = true ↔
      e.quick = true ∧ s.activity e.circuit = .idle := by
    rw [Bool.and_eq_true, beq_iff_eq]
  rw [enterMatching, withBridge_some _ h, if_neg (by simp [hr])]
  simp only [hlost, hquick]
  rfl

/-- An entry that takes the loss of its from-path as it enters MATCHING (R79). -/
theorem matchingEntry_lost : (s.setBridge i (some (s.matchingEntry e))).fromLineLost i =
    ((((s.setBridge i (some (s.matchingEntry e))).stopFromFeed e).setBridge i
      (some { s.matchingEntry e with fromLost := true })).roll i 0 true).enterRolled i := by
  obtain ⟨-, -, hm, -⟩ := fromLineLost_spec (bridge_setBridge_same s i (some (s.matchingEntry e)))
  exact hm rfl

/-! ### OFFER -/

theorem offerAt_responder (h : e.role = .responder) : State.offerAt sp m s i e = s.offerAtResponder sp i e m := by
  rw [offerAt, h]

theorem offerAt_initiator (h : e.role = .initiator) : State.offerAt sp m s i e = s.offerAtInitiator sp i e m := by
  rw [offerAt, h]

theorem offerAtResponder_awaiting (h : e.phase = .awaitingOffer) : s.offerAtResponder sp i e m =
    if m.direction = e.direction then s.joinOffer i e m else s.declineOffer sp m .mismatch := by
  rw [offerAtResponder, if_pos (by simp [h])]
  simp only [beq_iff_eq]

theorem offerAtResponder_other (h : e.phase ≠ .awaitingOffer) (ht : e.txn ≠ some m.txn) :
    s.offerAtResponder sp i e m = s.declineOffer sp m .busy := by
  rw [offerAtResponder, if_neg (by simpa using h), if_pos (by simpa using ht)]

theorem offerAtResponder_again (h : e.phase = .matching ∨ e.phase = .rolled ∨ e.phase = .unwinding)
    (ht : e.txn = some m.txn) : s.offerAtResponder sp i e m = s.handMessage i := by
  rw [offerAtResponder]
  rcases h with h | h | h <;> rw [h, ht] <;> exact (if_neg (by decide)).trans (if_neg (by simp))

theorem offerAtResponder_releasing (h : e.phase = .releasing) (ht : e.txn = some m.txn) :
    s.offerAtResponder sp i e m = s := by
  rw [offerAtResponder, h, ht]
  exact (if_neg (by decide)).trans (if_neg (by simp))

theorem offerAtInitiator_other (h : e.phase ≠ .offering) : s.offerAtInitiator sp i e m = s.declineOffer sp m .busy :=
  if_pos (by simpa using h)

theorem offerAtInitiator_higher (h : e.phase = .offering) (hr : m.rank < s.cfg.rank) :
    s.offerAtInitiator sp i e m = s := by
  rw [offerAtInitiator, if_neg (by simp [h]), if_pos hr]

/-- An OFFER of the higher rank at an initiator in OFFERING (R96). -/
theorem offerAtInitiator_lower (h : e.phase = .offering) (hr : s.cfg.rank < m.rank) : s.offerAtInitiator sp i e m =
    if m.direction ≠ e.direction then s.declineOffer sp m .mismatch
    else if e.group ≠ none then s.declineOffer sp m .busy
    else s.yieldOffer i e m := by
  rw [offerAtInitiator, if_neg (by simp [h]), if_neg (by bv_omega)]
  simp only [bne_iff_ne, ne_eq, Option.isSome_iff_ne_none]

end State

section

variable (sp : Span) (slot : Fin 256) (txn rank : Byte) (reason : Reason) (s : State)

theorem exec_offerArrival (dir : Direction) (quick : Bool) : exec (.offerArrival sp slot txn rank dir quick) s =
    act s fun s => s.arrive sp ⟨.offer, slot, txn, rank, dir, quick, none⟩
      (State.offerAt sp ⟨.offer, slot, txn, rank, dir, quick, none⟩) := rfl

theorem exec_acceptArrival : exec (.acceptArrival sp slot txn rank) s =
    act s fun s => s.arrive sp ⟨.accept, slot, txn, rank, .toFibre, false, none⟩ (State.acceptAt txn) := rfl

theorem exec_declineArrival : exec (.declineArrival sp slot txn rank reason) s =
    act s fun s => s.arrive sp ⟨.decline, slot, txn, rank, .toFibre, false, some reason⟩ (State.declineAt txn reason) :=
  rfl

theorem exec_rolledArrival : exec (.rolledArrival sp slot txn rank) s =
    act s fun s => s.arrive sp ⟨.rolled, slot, txn, rank, .toFibre, false, none⟩ (State.rolledAt txn) := rfl

theorem exec_releaseArrival : exec (.releaseArrival sp slot txn rank) s =
    act s fun s => s.arrive sp ⟨.release, slot, txn, rank, .toFibre, false, none⟩ (State.releaseAt txn) := rfl

theorem exec_abandonArrival : exec (.abandonArrival sp slot txn rank reason) s =
    act s fun s => s.arrive sp ⟨.abandon, slot, txn, rank, .toFibre, false, some reason⟩ (State.abandonAt txn reason) :=
  rfl

end

/-- Settles O52. -/
theorem arrivalsInOrder : Obligations.ArrivalsInOrder := by
  unfold Obligations.ArrivalsInOrder
  refine ⟨fun s sp m => ⟨State.arrivalDue_iff, s.popArrival_eq sp⟩, fun s sp slot txn rank dir quick reason h =>
    ⟨fun hn => ?_, fun hn => ?_, fun hn => ?_, fun hn => ?_, fun hn => ?_, fun hn => ?_⟩⟩
  · exact exec_effect h (exec_offerArrival sp slot txn rank s dir quick) (State.arrive_held hn _)
  · exact exec_effect h (exec_acceptArrival sp slot txn rank s) (State.arrive_held hn _)
  · exact exec_effect h (exec_declineArrival sp slot txn rank reason s) (State.arrive_held hn _)
  · exact exec_effect h (exec_rolledArrival sp slot txn rank s) (State.arrive_held hn _)
  · exact exec_effect h (exec_releaseArrival sp slot txn rank s) (State.arrive_held hn _)
  · exact exec_effect h (exec_abandonArrival sp slot txn rank reason s) (State.arrive_held hn _)

/-- Settles O53. -/
theorem acceptArrives : Obligations.AcceptArrives := by
  unfold Obligations.AcceptArrives
  intro sp slot txn rank s h hs hrk hd
  have hdec : s.Decided sp ⟨.accept, slot, txn, rank, .toFibre, false, none⟩ := ⟨hs, hrk, hd⟩
  have hexec := exec_acceptArrival sp slot txn rank s
  dsimp only
  rw [State.popArrival_entryOn]
  refine ⟨fun i e he => ⟨fun hr ht hp => ⟨fun hroll => ?_, fun hroll => ?_⟩, fun hn => ?_⟩, fun he => ?_⟩
  · exact exec_effect h hexec ((State.arrive_entry hdec he _).trans (State.acceptAt_enters hr ht hp))
  · refine exec_effect h hexec ((State.arrive_entry hdec he _).trans ((State.acceptAt_enters hr ht hp).trans ?_))
    exact State.enterMatching_rolled (State.bridge_setBridge_same _ _ _) hroll
  · exact exec_effect h hexec ((State.arrive_entry hdec he _).trans (State.acceptAt_ignored hn))
  · exact exec_effect h hexec (State.arrive_record hdec he _)

/-- Settles O54. -/
theorem offerArrives : Obligations.OfferArrives := by
  unfold Obligations.OfferArrives
  refine ⟨fun s i e he => ⟨fun hr => State.enterMatching_rolled he hr, fun hr hl => ?_, fun hr hl => ?_⟩,
    fun sp slot txn rank dir quick s i e h hs hrk hd => ?_, fun sp slot txn rank dir quick s i e h hs hrk hd => ?_⟩
  · exact (State.enterMatching_eq he hr).trans (if_neg hl)
  · exact (State.enterMatching_eq he hr).trans ((if_pos hl).trans State.matchingEntry_lost)
  · have hdec : s.Decided sp ⟨.offer, slot, txn, rank, dir, quick, none⟩ := ⟨hs, hrk, hd⟩
    have hexec := exec_offerArrival sp slot txn rank s dir quick
    dsimp only
    rw [State.popArrival_entryOn]
    intro he hr
    have hat := (State.arrive_entry hdec he (State.offerAt sp ⟨.offer, slot, txn, rank, dir, quick, none⟩)).trans
      (State.offerAt_responder hr)
    refine ⟨fun hp hdir => ?_, fun hp hdir => ?_, fun hp ht => ?_, fun hp ht => ?_, fun hp ht => ?_⟩
    · exact exec_effect h hexec (hat.trans ((State.offerAtResponder_awaiting hp).trans (if_pos hdir)))
    · exact exec_effect h hexec (hat.trans ((State.offerAtResponder_awaiting hp).trans (if_neg hdir)))
    · exact exec_effect h hexec (hat.trans (State.offerAtResponder_again hp ht))
    · exact exec_effect h hexec (hat.trans (State.offerAtResponder_releasing hp ht))
    · exact exec_effect h hexec (hat.trans (State.offerAtResponder_other hp ht))
  · have hdec : s.Decided sp ⟨.offer, slot, txn, rank, dir, quick, none⟩ := ⟨hs, hrk, hd⟩
    have hexec := exec_offerArrival sp slot txn rank s dir quick
    dsimp only
    rw [State.popArrival_entryOn]
    intro he hr
    have hat := (State.arrive_entry hdec he (State.offerAt sp ⟨.offer, slot, txn, rank, dir, quick, none⟩)).trans
      (State.offerAt_initiator hr)
    refine ⟨fun hp hlt => ?_, fun hp hlt hdir => ?_, fun hp hlt hdir hg => ?_, fun hp hlt hdir hg => ?_, fun hp => ?_⟩
    · exact exec_effect h hexec (hat.trans (State.offerAtInitiator_higher hp hlt))
    · exact exec_effect h hexec (hat.trans ((State.offerAtInitiator_lower hp hlt).trans (if_pos hdir)))
    · exact exec_effect h hexec (hat.trans ((State.offerAtInitiator_lower hp hlt).trans
        ((if_neg (not_not_intro hdir)).trans (if_pos hg))))
    · exact exec_effect h hexec (hat.trans ((State.offerAtInitiator_lower hp hlt).trans
        ((if_neg (not_not_intro hdir)).trans (if_neg (not_not_intro hg)))))
    · exact exec_effect h hexec (hat.trans (State.offerAtInitiator_other hp))

end Sys2Proof.Machine
end

section
/-! PROOFS. DECLINE, ROLLED, RELEASE and ABANDON, and the answers from a slot's record (R75, R94, R97, R99 to R102). -/

namespace Sys2Proof.Machine

open Sys2Proof

namespace State

variable {s : State} {i : BridgeNo} {e : Bridge} {txn : Byte} {reason : Reason}

/-! ### The peer's ABANDON -/

theorem freeAs_bridge {o : ResultCode} (h : s.bridge i = some e) : (s.freeAs i o).bridge i = none := by
  rw [(freeAs_reads h o).1, if_pos rfl]

theorem peerAbandon_awaiting (h : s.bridge i = some e) (hp : e.phase = .awaitingOffer) :
    s.peerAbandon i reason = s := by
  rw [peerAbandon, withBridge_some _ h, hp]

theorem peerAbandon_releasing (h : s.bridge i = some e) (hp : e.phase = .releasing) : s.peerAbandon i reason =
    (s.setBridge i (some { e with peerReason := some reason })).stopToFeed e := by
  rw [peerAbandon, withBridge_some _ h]
  simp only [hp]

theorem peerAbandon_unwinding (h : s.bridge i = some e) (hp : e.phase = .unwinding) : s.peerAbandon i reason =
    ((s.setBridge i (some { e with peerReason := some reason })).stopToFeed e).freeAs i (e.outcome.getD .done) := by
  rw [peerAbandon, withBridge_some _ h]
  simp only [hp]
  have hb : ((s.setBridge i (some { e with peerReason := some reason })).stopToFeed e).bridge i =
    some { e with peerReason := some reason } := bridge_setBridge_same _ _ _
  simp only [hp] at hb
  rw [freeEntry, withBridge_some _ hb]

/-- The circuit of an entry that the peer abandons before its end: back on its from-path, and its to-path fed no more. -/
def abandonedCircuit (s : State) (e : Bridge) : Circuit :=
  (e.backOn (s.fromPathLost e) false (s.circuit e.circuit)).feedTo e.direction false

/-- An entry that has gone back to its from-path with its to-path fed no more (R73, R75). -/
theorem goBack_stopToFeed (h : s.bridge i = some e) : let u := (s.goBack i).stopToFeed e
    ∃ x, u.bridge i = some x ∧ x.peerReason = e.peerReason ∧ x.circuit = e.circuit ∧ x.direction = e.direction ∧
      x.ref = e.ref ∧ x.group = e.group ∧ u.settles = s.settles ∧ u.circuit e.circuit = s.abandonedCircuit e := by
  dsimp only
  rw [goBack_eq h]
  dsimp only
  rw [withMove_stopToFeed]
  exact ⟨_, withMove_bridge, rfl, rfl, rfl, rfl, rfl, rfl, withMove_circuit⟩

/-- The state in which an entry that the peer abandons before its end is freed (R75). -/
theorem peerAbandon_before (h : s.bridge i = some e)
    (hp : e.phase = .offering ∨ e.phase = .matching ∨ e.phase = .rolled) : ∃ (u : State) (x : Bridge),
      s.peerAbandon i reason = u.freeAs i .peerAbandoned ∧ u.bridge i = some x ∧ x.peerReason = some reason ∧
      x.circuit = e.circuit ∧ x.direction = e.direction ∧ x.ref = e.ref ∧ x.group = e.group ∧ u.settles = s.settles ∧
      u.circuit e.circuit = s.abandonedCircuit e := by
  obtain ⟨x, hx⟩ := goBack_stopToFeed (bridge_setBridge_same s i (some { e with peerReason := some reason }))
  refine ⟨_, x, ?_, hx⟩
  rw [peerAbandon, withBridge_some _ h]
  rcases hp with hp | hp | hp <;> rw [hp] <;> rfl

theorem abandonedCircuit_spec : let k := s.circuit e.circuit
    let y := s.abandonedCircuit e
    (e.rolled = true → y.hold = (seamNumbers k.hold (-(e.offset.getD 0))).hold ∧ y.receive = fromReceive e.direction) ∧
      (e.rolled = false → y.hold = k.hold ∧ y.receive = k.receive) ∧
      (e.direction = .toFibre → y.spanFeed = false ∧ y.lineFeed = s.linePresent e.linePos) ∧
      (e.direction = .toCopper → y.lineFeed = false ∧ y.spanFeed = s.inService e.bearer.span) := by
  dsimp only
  rw [abandonedCircuit, Bridge.backOn_eq, fromPathLost]
  refine ⟨fun hr => ?_, fun hr => ?_, fun hd => ?_, fun hd => ?_⟩
  · rw [hr]
    cases e.direction <;> exact ⟨rfl, rfl⟩
  · rw [hr]
    cases e.direction <;> exact ⟨rfl, rfl⟩
  · rw [hd]
    exact ⟨rfl, Bool.not_not _⟩
  · rw [hd]
    exact ⟨rfl, Bool.not_not _⟩

/-! ### The other arrivals at an entry -/

theorem declineAt_unwinds (hr : e.role = .initiator) (ht : e.txn = some txn) (hp : e.phase = .offering) :
    s.declineAt txn reason i e =
      (s.setBridge i (some { e with peerReason := some reason })).unwind i .declined none true :=
  if_pos ((offering_iff txn).mpr ⟨hr, ht, hp⟩)

theorem declineAt_ignored (h : e.role = .responder ∨ e.txn ≠ some txn ∨ e.phase ≠ .offering) :
    s.declineAt txn reason i e = s := if_neg (not_offering h)

/-- A ROLLED at the initiator of its txn, by phase (R100). -/
theorem rolledAt_initiator (hr : e.role = .initiator) (ht : e.txn = some txn) :
    (e.phase = .offering → s.rolledAt txn i e = (s.setBridge i (some
      { e with peerRolled := true, retryDue := none, deadline := none })).enterMatching i) ∧
    (e.phase = .matching → s.rolledAt txn i e = s.setBridge i (some { e with peerRolled := true })) ∧
    (e.phase = .rolled → s.rolledAt txn i e = (s.setBridge i (some
      { e with peerRolled := true, deadline := none })).releaseDecision i) ∧
    (e.phase = .releasing ∨ e.phase = .unwinding → s.rolledAt txn i e = s.handMessage i) := by
  rw [rolledAt, if_pos ((initiatorOf_iff txn).mpr ⟨hr, ht⟩)]
  refine ⟨fun hp => ?_, fun hp => ?_, fun hp => ?_, fun hp => ?_⟩
  · simp only [hp]
  · simp only [hp]
  · simp only [hp]
  · rcases hp with hp | hp <;> simp only [hp]

theorem rolledAt_ignored (h : e.role = .responder ∨ e.txn ≠ some txn) : s.rolledAt txn i e = s := by
  refine if_neg ?_
  rw [initiatorOf_iff]
  rintro ⟨hr, ht⟩
  rcases h with h | h
  · rw [hr] at h
    cases h
  · exact h ht

theorem releaseAt_iff : (e.role == .responder && e.phase == .rolled && e.txn == some txn) = true ↔
    e.role = .responder ∧ e.phase = .rolled ∧ e.txn = some txn := by
  rw [Bool.and_eq_true, Bool.and_eq_true, beq_iff_eq, beq_iff_eq, beq_iff_eq, and_assoc]

/-- A RELEASE at a responder that has rolled (R71, R80, R101). -/
theorem releaseAt_responder (hr : e.role = .responder) (ht : e.txn = some txn) (hp : e.phase = .rolled) :
    let t := s.setBridge i (some { e with phase := .releasing, retryDue := none, deadline := none,
                                          outcome := some (if e.forced then .doneForced else .done) })
    s.releaseAt txn i e = if e.fromLost then t.freeEntry i else t.beginGuard i :=
  if_pos (releaseAt_iff.mpr ⟨hr, hp, ht⟩)

theorem releaseAt_ignored (h : e.role = .initiator ∨ e.txn ≠ some txn ∨ e.phase ≠ .rolled) :
    s.releaseAt txn i e = s := by
  refine if_neg ?_
  rw [releaseAt_iff]
  rintro ⟨hr, hp, ht⟩
  rcases h with h | h | h
  · rw [hr] at h
    cases h
  · exact h ht
  · exact h hp

theorem abandonAt_eq : s.abandonAt txn reason i e = if e.txn = some txn then s.peerAbandon i reason else s := by
  unfold abandonAt
  simp only [beq_iff_eq]

/-! ### The answers from a record -/

section

variable {b : BearerSlot} {kind : MessageKind}

theorem recordCircuitOf_iff (c : CircuitNo) : s.recordCircuitOf b = some c ↔
    (s.slotEntry b).use = .assigned c ∨ (s.slotEntry b).use = .free ∧ (s.slotEntry b).lastCircuit = some c := by
  unfold recordCircuitOf
  dsimp only
  cases (s.slotEntry b).use <;> simp

theorem recordFor_iff (r : MigrationRecord) : s.recordFor b txn = some r ↔ r.bearer = b ∧ r.txn = txn ∧
    ∃ c, (s.circuit c).lastMigration = some r ∧
      ((s.slotEntry b).use = .assigned c ∨ (s.slotEntry b).use = .free ∧ (s.slotEntry b).lastCircuit = some c) := by
  have hrec : ((s.recordCircuitOf b).bind fun c => (s.circuit c).lastMigration) = some r ↔
      ∃ c, (s.circuit c).lastMigration = some r ∧
        ((s.slotEntry b).use = .assigned c ∨ (s.slotEntry b).use = .free ∧ (s.slotEntry b).lastCircuit = some c) := by
    rw [Option.bind_eq_some_iff]
    refine exists_congr fun c => ?_
    rw [recordCircuitOf_iff, and_comm]
  rw [← hrec]
  unfold recordFor
  cases (s.recordCircuitOf b).bind fun c => (s.circuit c).lastMigration with
  | none => simp
  | some x =>
    simp only [Option.some.injEq, Bool.and_eq_true, beq_iff_eq, Option.ite_none_right_eq_some]
    constructor
    · rintro ⟨⟨hb, ht⟩, rfl⟩
      exact ⟨hb, ht, rfl⟩
    · rintro ⟨hb, ht, rfl⟩
      exact ⟨⟨hb, ht⟩, rfl⟩

theorem answerFromRecord_none (h : s.recordFor b txn = none) : s.answerFromRecord b kind txn =
    if kind = .offer then s.answer b.span .decline b.slot txn (some .notExpected) else s := by
  rw [answerFromRecord, h]
  simp only [beq_iff_eq]

theorem answerFromRecord_some {r : MigrationRecord} (h : s.recordFor b txn = some r) :
    (kind = .abandon → s.answerFromRecord b kind txn = s) ∧
    (r.outcome = .released → kind = .rolled → r.role = .initiator →
      s.answerFromRecord b kind txn = s.answer b.span .release b.slot txn none) ∧
    (r.outcome = .released → kind ≠ .rolled ∨ r.role = .responder → s.answerFromRecord b kind txn = s) ∧
    (r.outcome = .unwound → kind ≠ .abandon →
      s.answerFromRecord b kind txn = s.answer b.span .abandon b.slot txn (some .concluded)) := by
  rw [answerFromRecord, h]
  refine ⟨fun hk => ?_, fun ho hk hr => ?_, fun ho hk => ?_, fun ho hk => ?_⟩
  · rw [hk]
  · simp only [ho, hk, hr]
    rfl
  · rcases hk with hk | hk
    · cases kind
      case rolled => exact absurd rfl hk
      all_goals simp only [ho]
    · cases kind
      case rolled =>
        simp only [ho, hk]
        rfl
      all_goals simp only [ho]
  · cases kind
    case abandon => exact absurd rfl hk
    all_goals simp only [ho]

end

end State

/-- The arrivals at the entry on their slot (R99 to R102). -/
theorem otherArrival (sp : Span) (slot : Fin 256) (txn rank : Byte) (reason : Reason) (s : State) (i : BridgeNo)
    (e : Bridge) (h : s.resetLow = false) (hs : s.inService sp = true) (hrk : rank ≠ s.cfg.rank) :
    let taken := s.popArrival sp
    let plain := fun kind => s.arrivalDue sp ⟨kind, slot, txn, rank, .toFibre, false, none⟩ = true
    let reasoned := fun kind => s.arrivalDue sp ⟨kind, slot, txn, rank, .toFibre, false, some reason⟩ = true
    s.entryOn ⟨sp, slot⟩ = some (i, e) →
    (reasoned .decline →
      exec (.declineArrival sp slot txn rank reason) s = .next (State.finish s (taken.declineAt txn reason i e))) ∧
    (plain .rolled →
      exec (.rolledArrival sp slot txn rank) s = .next (State.finish s (taken.rolledAt txn i e))) ∧
    (plain .release →
      exec (.releaseArrival sp slot txn rank) s = .next (State.finish s (taken.releaseAt txn i e))) ∧
    (reasoned .abandon →
      exec (.abandonArrival sp slot txn rank reason) s = .next (State.finish s (taken.abandonAt txn reason i e))) := by
  dsimp only
  refine fun he => ⟨fun hd => ?_, fun hd => ?_, fun hd => ?_, fun hd => ?_⟩
  · exact exec_effect h (exec_declineArrival sp slot txn rank reason s) (State.arrive_entry ⟨hs, hrk, hd⟩ he _)
  · exact exec_effect h (exec_rolledArrival sp slot txn rank s) (State.arrive_entry ⟨hs, hrk, hd⟩ he _)
  · exact exec_effect h (exec_releaseArrival sp slot txn rank s) (State.arrive_entry ⟨hs, hrk, hd⟩ he _)
  · exact exec_effect h (exec_abandonArrival sp slot txn rank reason s) (State.arrive_entry ⟨hs, hrk, hd⟩ he _)

/-- Settles O55. -/
theorem otherArrivals : Obligations.OtherArrivals := by
  unfold Obligations.OtherArrivals
  refine ⟨fun s i e reason he => ⟨State.peerAbandon_awaiting he, State.peerAbandon_releasing he, fun hp => ?_,
    fun hp => ?_⟩, fun sp slot txn rank reason s i e h hs hrk => ?_⟩
  · refine ⟨State.peerAbandon_unwinding he hp, ?_⟩
    rw [State.peerAbandon_unwinding he hp]
    exact State.freeAs_bridge (State.bridge_setBridge_same _ _ _)
  · obtain ⟨u, x, ht, hx, hpr, hc, hd, hr, hg, hset, hk⟩ := State.peerAbandon_before (reason := reason) he hp
    obtain ⟨hrolled, hrest⟩ := s.abandonedCircuit_spec (e := e)
    refine ⟨u, x, ht, by rw [ht, State.freeAs_bridge hx], hx, hpr, hc, hd, hr, hg, hset, ?_⟩
    rw [hk]
    refine ⟨fun hroll => ⟨(hrolled hroll).1, (hrolled hroll).2.trans ?_⟩, hrest⟩
    cases e.direction <;> rfl
  · dsimp only
    intro he
    obtain ⟨hdecline, hrolled, hrelease, habandon⟩ := otherArrival sp slot txn rank reason s i e h hs hrk he
    refine ⟨fun hd => ⟨fun hr ht hp => ?_, fun hn => ?_⟩, fun hd => ⟨fun hr ht => ?_, fun hn => ?_⟩,
      fun hd => ⟨fun hr ht hp hl => ?_, fun hr ht hp hl => ?_, fun hn => ?_⟩, fun hd => ⟨fun ht => ?_, fun ht => ?_⟩⟩
    · rw [hdecline hd, State.declineAt_unwinds hr ht hp]
    · rw [hdecline hd, State.declineAt_ignored hn]
    · obtain ⟨ho, hm, hro, hru⟩ := State.rolledAt_initiator (s := s.popArrival sp) (i := i) hr ht
      rw [hrolled hd]
      exact ⟨fun hp => by rw [ho hp], fun hp => by rw [hm hp], fun hp => by rw [hro hp], fun hp => by rw [hru hp]⟩
    · rw [hrolled hd, State.rolledAt_ignored hn]
    · rw [hrelease hd, State.releaseAt_responder hr ht hp, if_neg (by simp [hl])]
    · rw [hrelease hd, State.releaseAt_responder hr ht hp, if_pos hl]
    · rw [hrelease hd, State.releaseAt_ignored hn]
    · rw [habandon hd, State.abandonAt_eq, if_pos ht]
    · rw [habandon hd, State.abandonAt_eq, if_neg ht]

/-- Settles O56. -/
theorem recordAnswers : Obligations.RecordAnswers := by
  unfold Obligations.RecordAnswers
  refine ⟨fun s b kind txn => ⟨State.recordFor_iff, fun hn => ⟨fun hk => ?_, fun hk => ?_⟩,
    fun r => State.answerFromRecord_some⟩, fun sp slot txn rank dir quick reason s h hs hrk he => ?_⟩
  · rw [State.answerFromRecord_none hn, if_pos hk]
  · rw [State.answerFromRecord_none hn, if_neg hk]
  · refine ⟨fun hd => ?_, fun hd => ?_, fun hd => ?_, fun hd => ?_, fun hd => ?_, fun hd => ?_⟩
    · exact exec_effect h (exec_offerArrival sp slot txn rank s dir quick) (State.arrive_record ⟨hs, hrk, hd⟩ he _)
    · exact exec_effect h (exec_acceptArrival sp slot txn rank s) (State.arrive_record ⟨hs, hrk, hd⟩ he _)
    · exact exec_effect h (exec_declineArrival sp slot txn rank reason s) (State.arrive_record ⟨hs, hrk, hd⟩ he _)
    · exact exec_effect h (exec_rolledArrival sp slot txn rank s) (State.arrive_record ⟨hs, hrk, hd⟩ he _)
    · exact exec_effect h (exec_releaseArrival sp slot txn rank s) (State.arrive_record ⟨hs, hrk, hd⟩ he _)
    · exact exec_effect h (exec_abandonArrival sp slot txn rank reason s) (State.arrive_record ⟨hs, hrk, hd⟩ he _)

end Sys2Proof.Machine
end

section
/-! PROOFS. The Notice Engine's postings and row writes (R161, R165 to R168). -/

namespace Sys2Proof.Machine

open Sys2Proof

namespace State

variable {s : State}

/-! ### The pending queue -/

theorem handNotice_joins (b : NoticeBody) (h : s.nte.pending.length < 16) :
    s.handNotice b = s.setNte { s.nte with pending := s.nte.pending ++ [⟨s.counter, b⟩] } := if_pos h

theorem handNotice_lost (b : NoticeBody) (h : 16 ≤ s.nte.pending.length) : s.handNotice b =
    (s.setNte { s.nte with lost := min (s.nte.lost + 1) 65535 }).setAttn (s.attn ||| 0b100000#6) :=
  if_neg (Nat.not_lt.mpr h)

/-! ### Posting -/

theorem postingDue_iff : s.postingDue = true ↔
    s.nte.bases ≠ none ∧ s.nte.credits ≠ 0 ∧ (s.nte.pending ≠ [] ∨ s.nte.lost ≠ 0) := by
  rw [postingDue, Bool.and_eq_true, Bool.and_eq_true, noticeWaits_iff, bne_iff_ne, and_assoc, Option.isSome_iff_ne_none]

/-- The notice that goes out when OVERFLOW does not come first (R167). -/
theorem nextNotice_head {n : Notice} {rest : List Notice} (hl : s.nte.lost = 0) (hp : s.nte.pending = n :: rest) :
    s.nextNotice = some (n, { s.nte with pending := rest }) := by
  rw [nextNotice, if_neg (by simp [hl]), hp]

theorem nextNotice_overflow (hl : s.nte.lost ≠ 0) :
    s.nextNotice = some (⟨s.counter, .overflow s.nte.lost⟩, { s.nte with lost := 0 }) := if_pos (by simpa using hl)

theorem postNotice_eq {b : Bases} {n : Notice} {x : Nte} (hb : s.nte.bases = some b) (hn : s.nextNotice = some (n, x))
    (hr : s.smp.writes.length < 8) : s.postNotice =
      (s.setNte { x with credits := x.credits - 1, position := (x.position + 1) % b.entries }).setSmp { s.smp with
        writes := s.smp.writes ++ [⟨b.noticeBase + BitVec.ofNat 64 (32 * s.nte.position), n.bytes s.cfg.byteOrder,
          .notice⟩] } := by
  rw [postNotice, hb, hn]
  dsimp only
  exact queueWrite_room (s := s.setNte _) _ hr

/-- A NOTICE_POST that is due and finds its place (R161, R167). -/
theorem noticePost_due {b : Bases} (hb : s.nte.bases = some b) (hc : s.smp.claims = []) (hr : s.smp.writes.length < 8)
    (hcr : s.nte.credits ≠ 0) (hw : s.nte.pending ≠ [] ∨ s.nte.lost ≠ 0) :
    (if s.postingDue && s.noticePlace then s.postNotice else s) = s.postNotice := by
  refine if_pos ?_
  rw [Bool.and_eq_true, postingDue_iff, noticePlace, runnerPlace_iff]
  exact ⟨⟨by rw [hb]; exact nofun, hcr, hw⟩, hc, hr⟩

theorem noticePost_idle (h : s.nte.bases = none ∨ s.nte.credits = 0 ∨ (s.nte.lost = 0 ∧ s.nte.pending = [])) :
    (if s.postingDue && s.noticePlace then s.postNotice else s) = s := by
  refine if_neg ?_
  rw [Bool.and_eq_true, postingDue_iff]
  rintro ⟨⟨hb, hc, hw⟩, -⟩
  rcases h with h | h | ⟨hl, hp⟩
  · exact hb h
  · exact hc h
  · exact hw.elim (fun hn => hn hp) (fun hn => hn hl)

/-! ### Status rows -/

theorem rowPlace_iff : s.rowPlace = true ↔
    (s.smp.claims = [] ∧ s.smp.writes.length < 8) ∧ s.postingDue = false ∧ s.smp.waiting = [] := by
  rw [rowPlace, Bool.and_eq_true, Bool.and_eq_true, runnerPlace_iff, Bool.not_eq_true', List.isEmpty_iff, and_assoc]

theorem updateCount_row (r : Fin 276) : s.updateCount r.val = s.nte.updates[r.val] := dif_pos r.isLt

theorem writeRow_eq {b : Bases} {r : Fin 276} {rest : List Nat} (hb : s.nte.bases = some b)
    (hd : s.nte.dirty = r.val :: rest) (hr : s.smp.writes.length < 8) : s.writeRow =
      (s.setNte { s.nte with dirty := rest, updates := s.nte.updates.set r.val (s.nte.updates[r.val] + 1) }).setSmp
        { s.smp with writes := s.smp.writes ++ [⟨b.statusBase + BitVec.ofNat 64 (32 * r.val),
          rowBytes s r.val (s.nte.updates[r.val] + 1), .row r.val⟩] } := by
  rw [writeRow, hb, hd]
  dsimp only
  rw [updateCount_row, dif_pos r.isLt]
  exact queueWrite_room (s := s.setNte _) _ hr

theorem writeRow_withoutBases (hb : s.nte.bases = none) : s.writeRow = s := by rw [writeRow, hb]

theorem statusRowWrite_idle (h : s.smp.waiting ≠ [] ∨ s.nte.bases = none) :
    (if s.rowPlace then s.writeRow else s) = s := by
  rcases h with h | h
  · exact if_neg fun hp => h (rowPlace_iff.mp hp).2.2
  · rw [writeRow_withoutBases h, ite_self]

end State

theorem exec_noticePost (s : State) : exec .noticePost s =
    act s fun s => if s.postingDue && s.noticePlace then s.postNotice else s := rfl

theorem exec_noticeRecheck (s : State) : exec .noticeRecheck s =
    act s fun s => if s.due s.nte.recheck then s.readNotices else s := rfl

theorem exec_statusRowWrite (s : State) : exec .statusRowWrite s =
    act s fun s => if s.rowPlace then s.writeRow else s := rfl

/-- Settles O57. -/
theorem noticeEngine : Obligations.NoticeEngine := by
  unfold Obligations.NoticeEngine
  refine ⟨fun s b => ⟨State.handNotice_joins b, State.handNotice_lost b⟩, fun s h =>
    ⟨fun b hb hc hr => ⟨fun n rest hcr hl hp => ?_, fun hcr hl => ?_, fun r rest hd hpost hw => ?_⟩, fun hn => ?_,
      fun hn => ?_, fun hd => ?_, fun hd => ?_⟩⟩
  · exact exec_effect h (exec_noticePost s) ((State.noticePost_due hb hc hr hcr (.inl (by simp [hp]))).trans
      (State.postNotice_eq hb (State.nextNotice_head hl hp) hr))
  · exact exec_effect h (exec_noticePost s) ((State.noticePost_due hb hc hr hcr (.inr hl)).trans
      (State.postNotice_eq hb (State.nextNotice_overflow hl) hr))
  · exact exec_effect h (exec_statusRowWrite s) ((if_pos (State.rowPlace_iff.mpr ⟨⟨hc, hr⟩, hpost, hw⟩)).trans
      (State.writeRow_eq hb hd hr))
  · exact exec_effect h (exec_noticePost s) (State.noticePost_idle hn)
  · exact exec_effect h (exec_statusRowWrite s) (State.statusRowWrite_idle hn)
  · exact exec_effect h (exec_noticeRecheck s) (if_pos hd)
  · exact exec_effect h (exec_noticeRecheck s) (if_neg (by simp [hd]))

end Sys2Proof.Machine
end

section
/-! PROOFS. The gate and the end of a group (R108 to R111, R114). -/

namespace Sys2Proof.Machine

open Sys2Proof

namespace State

variable {s : State} {g : Fin 4} {x : Group} {m : GroupMember}

/-! ### The members -/

theorem memberOutcome_ended {code : ResultCode} {v : FreedValues} (h : m.ended = some (code, v)) :
    s.memberOutcome m = some code ∧ (s.memberCounts m = true ↔ code = .doneForced) := by
  unfold memberOutcome memberCounts
  rw [h]
  exact ⟨rfl, beq_iff_eq⟩

theorem memberOutcome_inUse {i : BridgeNo} {e : Bridge} (h : m.ended = none) (hi : m.bridge = some i)
    (he : s.bridge i = some e) : s.memberOutcome m = e.outcome ∧ (s.memberCounts m = true ↔
      e.phase = .rolled ∧ (e.peerRolled = true ∨ e.forced = true ∧ e.fromLost = true)) := by
  have hentry : s.memberEntry m = some e := by rw [memberEntry, hi, Option.bind_some, he]
  unfold memberOutcome memberCounts
  rw [h]
  dsimp only
  rw [hentry]
  refine ⟨rfl, ?_⟩
  rw [Option.any_some, Bool.and_eq_true, beq_iff_eq, Bridge.bothRolled, Bool.or_eq_true, Bool.and_eq_true]

theorem memberFailed_iff : s.memberFailed m = true ↔
    ∃ code, s.memberOutcome m = some code ∧ code ≠ .done ∧ code ≠ .doneForced := by
  unfold memberFailed
  rw [Option.any_eq_true]
  refine exists_congr fun code => and_congr_right fun _ => ?_
  rw [Bool.not_eq_true', Bool.eq_false_iff, ne_eq, releasedForm_iff, not_or]

/-! ### The gate -/

theorem runGroup_unwinds {k : Nat} (h : s.group g = some x) (hr : x.state = .running)
    (hk : x.members.findIdx? s.memberFailed = some k) : s.runGroup g =
      (s.setGroup g (some { x with state := .unwinding, cause := some k })).eachMember x
        fun i t => t.unwind i .unwoundByGroup (some .groupUnwind) := by
  have hany : x.members.any s.memberFailed = true := by
    rw [← List.findIdx?_isSome, hk]
    rfl
  unfold runGroup
  rw [h]
  dsimp only
  rw [if_neg (by simp [hr]), if_pos hany, unwindGroup, hk]

/-- A member that meets the gate condition for the first time (R108). -/
def countsNow (s : State) (m : GroupMember) : Bool := !m.counted && s.memberCounts m

/-- A group whose members have been counted (R108). -/
def countedGroup (s : State) (x : Group) : Group :=
  { x with members := x.members.map fun m => if s.countsNow m then { m with counted := true } else m
           count := x.count - (x.members.filter s.countsNow).length }

/-- The deadline of a member's entry is cleared (R108). -/
def clearDeadline (s : State) (m : GroupMember) : State :=
  m.bridge.elim s fun i => s.modBridge i fun e => { e with deadline := none }

theorem countMembers_eq : s.countMembers g x =
    each (x.members.filter s.countsNow) (fun m u => u.clearDeadline m) (s.setGroup g (some (s.countedGroup x))) := by
  have hstep : (fun (m : GroupMember) (u : State) => u.clearDeadline m) = fun m u =>
      match m.bridge with
      | none => u
      | some i => u.modBridge i fun e => { e with deadline := none } := by
    funext m u
    unfold clearDeadline
    cases m.bridge <;> rfl
  rw [hstep]
  rfl

theorem clearDeadline_group (h : Fin 4) : (s.clearDeadline m).group h = s.group h := by
  unfold clearDeadline
  cases m.bridge with
  | none => rfl
  | some i =>
    rw [Option.elim_some, modBridge]
    cases s.bridge i <;> rfl

theorem clearDeadline_bridge {i : BridgeNo} : (s.clearDeadline m).bridge i =
    (s.bridge i).map fun e => if m.bridge = some i then { e with deadline := none } else e := by
  unfold clearDeadline
  cases hb : m.bridge with
  | none => simp
  | some j =>
    rw [Option.elim_some]
    by_cases hj : j = i
    · subst hj
      rw [modBridge_bridge]
      simp
    · rw [modBridge_bridge_ne hj]
      simp [hj]

theorem clearDeadlines_bridge {i : BridgeNo} (l : List GroupMember) {e : Bridge} (h : s.bridge i = some e) :
    (each l (fun m u => u.clearDeadline m) s).bridge i =
      some (if ∃ m ∈ l, m.bridge = some i then { e with deadline := none } else e) := by
  induction l generalizing s e with
  | nil => rw [if_neg (by simp)]; exact h
  | cons m l ih =>
    have hstep := clearDeadline_bridge (s := s) (m := m) (i := i)
    rw [h, Option.map_some] at hstep
    refine (ih hstep).trans ?_
    by_cases hm : m.bridge = some i
    · simp [hm]
    · simp [hm]

theorem countMembers_group : (s.countMembers g x).group g = some (s.countedGroup x) := by
  rw [countMembers_eq]
  exact (each_keeps (fun t => t.group g) _ _ (fun _ _ => clearDeadline_group g) _).trans (group_setGroup_same _ _ _)

theorem countMembers_bridge {i : BridgeNo} {e : Bridge} (h : s.bridge i = some e) : (s.countMembers g x).bridge i =
    some (if ∃ m ∈ x.members, s.countsNow m = true ∧ m.bridge = some i then { e with deadline := none } else e) := by
  have h' : (s.setGroup g (some (s.countedGroup x))).bridge i = some e := h
  rw [countMembers_eq, clearDeadlines_bridge _ h']
  simp only [List.mem_filter, and_assoc]

theorem runGroup_counts (h : s.group g = some x) (hr : x.state = .running)
    (hk : x.members.findIdx? s.memberFailed = none) : s.runGroup g =
      if (s.countedGroup x).count = 0 then (s.countMembers g x).openGate g (s.countedGroup x)
      else s.countMembers g x := by
  have hany : ¬x.members.any s.memberFailed = true := by
    rw [← List.findIdx?_isSome, hk]
    exact nofun
  unfold runGroup
  rw [h]
  dsimp only
  rw [if_neg (by simp [hr]), if_neg hany, countMembers_group]
  simp only [beq_iff_eq]

/-! ### The end of a group -/

theorem endGroup_open (h : s.group g = some x) (hm : m ∈ x.members) (hn : m.ended = none) : s.endGroup g = s := by
  unfold endGroup
  rw [h]
  refine if_neg fun ha => ?_
  have := List.all_eq_true.mp ha m hm
  rw [hn] at this
  cases this

theorem endGroup_settles (h : s.group g = some x) (hn : ∀ m ∈ x.members, m.ended ≠ none) :
    s.endGroup g = s.settleGroup g x := by
  unfold endGroup
  rw [h]
  exact if_pos (List.all_eq_true.mpr fun m hm => Option.isSome_iff_ne_none.mpr (hn m hm))

/-- The members that a settled group counts as done (R114). -/
theorem membersDone_eq : (x.members.filter fun m => (s.memberOutcome m).any releasedForm) =
    x.members.filter fun m => s.memberOutcome m == some .done || s.memberOutcome m == some .doneForced := by
  refine List.filter_congr fun m _ => ?_
  cases s.memberOutcome m with
  | none => rfl
  | some code => cases code <;> rfl

theorem settleGroup_eq : s.settleGroup g x =
    let values : MoveValues :=
      { member := x.cause, group := g.val,
        membersDone := (x.members.filter fun m =>
          s.memberOutcome m == some .done || s.memberOutcome m == some .doneForced).length }
    (s.settleOrder x.ref (((x.members.find? s.memberFailed).bind s.memberOutcome).getD .done)
      (values.bytes s.cfg.byteOrder) (x.members.map s.memberResult)).setGroup g none := by
  rw [← membersDone_eq]
  rfl

theorem settleGroup_settles : (s.settleGroup g x).group g = none ∧ (s.settleGroup g x).settles = s.settles ++
    [⟨s.nextSettle, x.ref, ((x.members.find? s.memberFailed).bind s.memberOutcome).getD .done,
      1 + (x.members.length + 3) / 4⟩] := by
  refine ⟨group_setGroup_same _ _ _, ?_⟩
  rw [settleGroup_eq, setGroup_settles, settleOrder_settles, List.length_map, Nat.add_comm 1]

end State

/-- Settles O60. -/
theorem groupAdvances : Obligations.GroupAdvances := by
  unfold Obligations.GroupAdvances
  refine ⟨fun s g x h hr => ⟨fun k hk => State.runGroup_unwinds h hr hk, fun hk => ?_⟩, fun s m =>
    ⟨fun code v => State.memberOutcome_ended, fun i e => State.memberOutcome_inUse, State.memberFailed_iff⟩,
    fun s g x h => ⟨fun m hm hn => State.endGroup_open h hm hn, fun hn => ?_⟩⟩
  · have hrun := State.runGroup_counts h hr hk
    refine ⟨State.countMembers_group, fun i e => State.countMembers_bridge, fun hlt => hrun.trans (if_neg ?_),
      fun hle => hrun.trans (if_pos ?_)⟩
    · exact Nat.sub_ne_zero_of_lt hlt
    · exact Nat.sub_eq_zero_of_le hle
  · obtain ⟨hg, hs⟩ := s.settleGroup_settles (g := g) (x := x)
    rw [State.endGroup_settles h hn]
    exact ⟨hg, State.settleGroup_eq, hs⟩

end Sys2Proof.Machine
end


section
/-! PROOFS. The warm restart: the orders that wait, the bridge table and the group table (R174 to R178). -/

namespace Sys2Proof.Machine

open Sys2Proof

namespace State

variable {s : State} {i : BridgeNo} {e : Bridge}

/-! ### The orders that wait -/

theorem filterMap_pair {α β : Type} (f : α → Option β) (x y : α) :
    [x, y].filterMap f = (f x).toList ++ (f y).toList := by
  cases hx : f x <;> cases hy : f y <;> simp [hx, hy]

/-- A fold of changes that each settle one order settles them in the fold's order. -/
theorem each_settles {α : Type} (f : α → State → State) (ref : α → OrderRef) (code : ResultCode)
    (h : ∀ x t, ∃ y : Settle, (f x t).settles = t.settles ++ [y] ∧ y.ref = ref x ∧ y.code = code) (l : List α)
    (s : State) : ∃ ys, (each l f s).settles = s.settles ++ ys ∧
      ys.map (fun y => (y.ref, y.code)) = (l.map ref).map fun r => (r, code) := by
  induction l generalizing s with
  | nil => exact ⟨[], (List.append_nil _).symm, rfl⟩
  | cons x l ih =>
    obtain ⟨y, hy, hr, hc⟩ := h x s
    obtain ⟨ys, hys, hmap⟩ := ih (f x s)
    refine ⟨y :: ys, hys.trans (by rw [hy, List.append_assoc, List.singleton_append]), ?_⟩
    rw [List.map_cons, List.map_cons, List.map_cons, hmap, hr, hc]

theorem settleMove_settles (ref : OrderRef) (code : ResultCode) (v : MoveValues) (m : List (Byte × Byte)) :
    (s.settleMove ref code v m).settles = s.settles ++ [⟨s.nextSettle, ref, code, (m.length + 3) / 4 + 1⟩] :=
  settleOrder_settles _ _ _ _ _

theorem restartQueued_settles (q : QueueEntry) (t : State) : ∃ y : Settle,
    (t.restartQueued q).settles = t.settles ++ [y] ∧ y.ref = q.ref ∧ y.code = .restarted := by
  unfold restartQueued
  cases q.body with
  | migrate m => exact ⟨_, settleMove_settles _ _ _ _, rfl, rfl⟩
  | expect m window => exact ⟨_, settleMove_settles _ _ _ _, rfl, rfl⟩
  | group members => exact ⟨_, settleMove_settles _ _ _ _, rfl, rfl⟩

theorem restartQueued_still (q : QueueEntry) (t : State) : (t.restartQueued q).still = t.still := by
  unfold restartQueued
  cases q.body <;> exact still_settleMove _ _ _ _ _

/-- The test of a span settles RESTARTED, and goes on without its order (R130, R175). -/
def restartTest (sp : Span) (t : State) : State :=
  (t.settleProve sp .restarted).modSpan sp fun k => { k with prove := k.prove.map fun p => { p with ref := none } }

theorem restartTest_settles (sp : Span) (t : State) : ∃ ys, (restartTest sp t).settles = t.settles ++ ys ∧
    ys.map (fun y => (y.ref, y.code)) = ((t.span sp).prove.bind ProveRun.ref).toList.map fun r => (r, .restarted) := by
  change ∃ ys, (t.settleProve sp .restarted).settles = _ ∧ _
  unfold settleProve
  dsimp only
  cases (t.span sp).prove.bind ProveRun.ref with
  | none => exact ⟨[], (List.append_nil _).symm, rfl⟩
  | some ref => exact ⟨_, settleOrder_settles _ _ _ _ _, rfl⟩

theorem restartTest_span (t : State) {sp sp' : Span} (h : sp ≠ sp') : (restartTest sp t).span sp' = t.span sp' := by
  rw [restartTest, modSpan_eq, span_setSpan_ne _ _ _ _ h]
  exact congrArg (fun x : PerSpan SpanState => x.get sp') (settleProve_spans t sp .restarted)

/-- The queued orders and the watched circuits of a warm restart, before its tests (R175). -/
def restartWaiting (s : State) : State :=
  each s.watch (fun w t => t.settleMove w.ref .restarted (t.watchValues w.circuit))
    ((each s.queue (fun q t => t.restartQueued q) (s.setQueue [])).setWatch [])

theorem restartOrders_eq : s.restartOrders = restartTest .b (restartTest .a s.restartWaiting) := rfl

theorem restartWaiting_still : s.restartWaiting.still = ((s.setQueue []).setWatch []).still := by
  have hqueue := still_each (s.setQueue []) s.queue (fun q t => t.restartQueued q) fun q t => restartQueued_still q t
  refine (still_each _ _ _ fun w t => still_settleMove _ _ _ _ _).trans ?_
  exact congrArg (fun t : State => t.setWatch []) hqueue

theorem restartWaiting_settles : ∃ ys, s.restartWaiting.settles = s.settles ++ ys ∧
    ys.map (fun y => (y.ref, y.code)) =
      (s.queue.map QueueEntry.ref ++ s.watch.map WatchEntry.ref).map fun r => (r, .restarted) := by
  obtain ⟨ys, hys, hymap⟩ := each_settles (fun q t => t.restartQueued q) QueueEntry.ref .restarted
    restartQueued_settles s.queue (s.setQueue [])
  obtain ⟨zs, hzs, hzmap⟩ := each_settles (fun w t => t.settleMove w.ref .restarted (t.watchValues w.circuit))
    WatchEntry.ref .restarted (fun w t => ⟨_, settleMove_settles _ _ _ _, rfl, rfl⟩) s.watch
    ((each s.queue (fun q t => t.restartQueued q) (s.setQueue [])).setWatch [])
  refine ⟨ys ++ zs, hzs.trans ?_, ?_⟩
  · rw [setWatch_settles, hys, setQueue_settles, List.append_assoc]
  · rw [List.map_append, hymap, hzmap, List.map_append]

theorem restartOrders_settles : ∃ l, s.restartOrders.settles = s.settles ++ l ∧ l.map (fun x => (x.ref, x.code)) =
    (s.queue.map QueueEntry.ref ++ s.watch.map WatchEntry.ref ++
      [Span.a, Span.b].filterMap fun sp => (s.span sp).prove.bind ProveRun.ref).map fun r => (r, .restarted) := by
  obtain ⟨ws, hws, hwmap⟩ := s.restartWaiting_settles
  obtain ⟨as, has, hamap⟩ := restartTest_settles .a s.restartWaiting
  obtain ⟨bs, hbs, hbmap⟩ := restartTest_settles .b (restartTest .a s.restartWaiting)
  have hprove : ∀ sp, (s.restartWaiting.span sp).prove = (s.span sp).prove := fun sp =>
    keeps_of_still (view := fun t => (t.span sp).prove) (fun _ => by cases sp <;> rfl) (u := (s.setQueue []).setWatch [])
      restartWaiting_still
  rw [hprove] at hamap
  rw [restartTest_span _ (by decide), hprove] at hbmap
  refine ⟨ws ++ as ++ bs, ?_, ?_⟩
  · rw [restartOrders_eq, hbs, has, hws, List.append_assoc, List.append_assoc, List.append_assoc]
  · rw [List.map_append, List.map_append, hwmap, hamap, hbmap, filterMap_pair, ← List.map_append, ← List.map_append,
      List.append_assoc]

theorem restartOrders_lists : s.restartOrders.queue = [] ∧ s.restartOrders.watch = [] := by
  have hsame : ∀ (sp : Span) (t : State), (restartTest sp t).queue = t.queue ∧ (restartTest sp t).watch = t.watch :=
    fun sp t => ⟨settleProve_keeps (view := State.queue) t sp .restarted, settleProve_keeps (view := State.watch) t sp .restarted⟩
  rw [restartOrders_eq]
  obtain ⟨hqa, hwa⟩ := hsame .a s.restartWaiting
  obtain ⟨hqb, hwb⟩ := hsame .b (restartTest .a s.restartWaiting)
  have hq : s.restartWaiting.queue = [] :=
    keeps_of_still (view := State.queue) (fun _ => rfl) (u := (s.setQueue []).setWatch []) restartWaiting_still
  have hw : s.restartWaiting.watch = [] :=
    keeps_of_still (view := State.watch) (fun _ => rfl) (u := (s.setQueue []).setWatch []) restartWaiting_still
  exact ⟨hqb.trans (hqa.trans hq), hwb.trans (hwa.trans hw)⟩

/-! ### The bridge table -/

/-- The settle of an entry's order, if it has one. -/
def SettlesRef (s t : State) (e : Bridge) (code : ResultCode) : Prop :=
  (∀ ref, e.ref = some ref → t.settles = s.settles ++ [⟨s.nextSettle, ref, code, 1⟩]) ∧
    (e.ref = none → t.settles = s.settles)

theorem freeAs_settlesRef (h : s.bridge i = some e) (hg : e.group = none) (o : ResultCode) :
    s.SettlesRef (s.freeAs i o) e o := by
  obtain ⟨hset, hsame, -⟩ := freed_keeps h o
  exact ⟨fun ref hr => hset ref hg hr, fun hr => hsame (.inr hr)⟩

theorem detach_eq (h : s.bridge i = some e) : s.detach i =
    (s.setBridge i (some { e with ref := none, group := none })).setCircuit e.circuit
      { s.circuit e.circuit with groupIndex := none } := by
  rw [detach, withBridge_some _ h]
  rfl

theorem detach_bridge (h : s.bridge i = some e) :
    (s.detach i).bridge i = some { e with ref := none, group := none } := by
  rw [detach_eq h, bridge_setCircuit, bridge_setBridge_same]

theorem holdEntry_spec (h : s.bridge i = some e) (code : ResultCode) :
    (s.holdEntry i code).bridge i = some { e with ref := none, group := none } ∧
      s.SettlesRef (s.holdEntry i code) e code := by
  rw [holdEntry, withBridge_some _ h, SettlesRef]
  cases hr : e.ref with
  | none =>
    dsimp only
    rw [detach_bridge h, detach_eq h]
    exact ⟨rfl, nofun, fun _ => rfl⟩
  | some ref =>
    dsimp only
    generalize ({ generation := _, phase := _, txn := _ } : MoveValues) = v
    have h' : (s.settleMove ref code v).bridge i = some e := by rw [settleMove, settleOrder_bridge, h]
    rw [detach_bridge h', detach_eq h', setCircuit_settles, setBridge_settles, settleMove_settles]
    refine ⟨rfl, fun x hx => ?_, nofun⟩
    cases hx
    rfl

theorem completeRelease_eq (h : s.bridge i = some e) : s.completeRelease i = (s.stopFromFeed e).freeEntry i := by
  rw [completeRelease, withBridge_some _ h]

section

variable (h : s.bridge i = some e) (hg : e.group = none)
include h hg

theorem restartEntry_awaiting (hp : e.phase = .awaitingOffer) : s.restartEntry i = s.freeAs i .restarted := by
  rw [restartEntry, withBridge_some _ h, hg, hp]
  rfl

theorem restartEntry_releasing {o : ResultCode} (hp : e.phase = .releasing) (ho : e.outcome = some o) :
    s.restartEntry i = (s.stopFromFeed e).freeAs i o := by
  have h' : (s.stopFromFeed e).bridge i = some e := h
  rw [restartEntry, withBridge_some _ h, hg, hp]
  refine (completeRelease_eq h).trans ?_
  rw [freeEntry, withBridge_some _ h', ho]
  rfl

theorem restartEntry_unwinding {o : ResultCode} (hp : e.phase = .unwinding) (ho : e.outcome = some o) :
    s.restartEntry i = s.holdEntry i o := by
  rw [restartEntry, withBridge_some _ h, hg, hp, ho]
  rfl

theorem restartEntry_held (hp : e.phase = .rolled) (hr : e.role = .responder) :
    s.restartEntry i = s.holdEntry i .held := by
  rw [restartEntry, withBridge_some _ h, hg, hp, hr]
  rfl

theorem restartEntry_unwinds
    (hp : e.phase = .offering ∨ e.phase = .matching ∨ (e.phase = .rolled ∧ e.role = .initiator)) :
    s.restartEntry i = (s.enterUnwinding i .restarted (some .restart) false false).holdEntry i .restarted := by
  rw [restartEntry, withBridge_some _ h, hg]
  rcases hp with hp | hp | ⟨hp, hr⟩
  · rw [hp]
    rfl
  · rw [hp]
    rfl
  · rw [hp, hr]
    rfl

end

theorem restartEntry_grouped (h : s.bridge i = some e) (hg : e.group ≠ none) : s.restartEntry i = s := by
  rw [restartEntry, withBridge_some _ h]
  exact if_pos (Option.isSome_iff_ne_none.mpr hg)

theorem restartMember_spec (h : s.bridge i = some e) :
    (e.phase = .releasing → s.restartMember i = (s.stopFromFeed e).freeEntry i) ∧
    (e.phase = .unwinding → s.restartMember i = s) ∧
    (e.phase ≠ .releasing → e.phase ≠ .unwinding →
      s.restartMember i = s.enterUnwinding i .restarted (some .restart) false false) := by
  rw [restartMember, withBridge_some _ h]
  cases hp : e.phase
  case releasing => exact ⟨fun _ => completeRelease_eq h, nofun, fun hn => absurd rfl hn⟩
  case unwinding => exact ⟨nofun, fun _ => rfl, fun _ hn => absurd rfl hn⟩
  all_goals exact ⟨nofun, nofun, fun _ _ => rfl⟩

theorem restartMessage_eq (h : s.bridge i = some e) :
    s.restartMessage i = if e.phase = .unwinding then s.sendAbandon i else s := by
  rw [restartMessage, withBridge_some _ h]
  simp only [beq_iff_eq]

/-- A move of no group that unwinds at a warm restart, and settles RESTARTED (R176). -/
theorem restartEntry_unwound (h : s.bridge i = some e) (hg : e.group = none)
    (hp : e.phase = .offering ∨ e.phase = .matching ∨ (e.phase = .rolled ∧ e.role = .initiator)) :
    s.SettlesRef (s.restartEntry i) e .restarted ∧ ∃ x, (s.restartEntry i).bridge i = some x ∧ x.phase = .unwinding ∧
      x.outcome = some .restarted ∧ x.unwindReason = some .restart ∧ x.ref = none ∧ x.group = none ∧
      x.circuit = e.circuit ∧ x.txn = e.txn ∧ x.deadline = none ∧ x.retryDue = none ∧ x.rolled = false := by
  rw [restartEntry_unwinds h hg hp, enterUnwinding_eq h]
  dsimp only
  have hold : ∀ a k x, x.ref = e.ref → s.SettlesRef ((s.withMove i e.circuit a k x).holdEntry i .restarted) e
      .restarted ∧ ((s.withMove i e.circuit a k x).holdEntry i .restarted).bridge i =
        some { x with ref := none, group := none } := by
    intro a k x hx
    obtain ⟨hb, hs⟩ := holdEntry_spec (s := s.withMove i e.circuit a k x) withMove_bridge .restarted
    rw [SettlesRef, hx] at hs
    exact ⟨hs, hb⟩
  obtain ⟨hs, hb⟩ := hold _ _ (e.unwound (seamNumbers (s.circuit e.circuit).hold (-(e.offset.getD 0)))
    (s.fromPathLost e) .restarted (some .restart) false false) rfl
  exact ⟨hs, _, hb, rfl, rfl, rfl, rfl, rfl, rfl, rfl, rfl, rfl, rfl⟩

/-! ### The groups -/

/-- An entry that is in use stands without an order reference and outside a group. -/
def Detached (s : State) (i : BridgeNo) : Prop := ∀ e, s.bridge i = some e → e.ref = none ∧ e.group = none

theorem detach_detaches : (s.detach i).Detached i := by
  intro x hx
  cases h : s.bridge i with
  | none =>
    rw [detach, withBridge_none _ h, h] at hx
    cases hx
  | some e =>
    rw [detach_bridge h] at hx
    cases hx
    exact ⟨rfl, rfl⟩

theorem detach_keeps {β : Type} {view : State → β} (hv : ∀ (t : State) j x c k,
    view ((t.setBridge j x).setCircuit c k) = view t) : view (s.detach i) = view s := by
  cases h : s.bridge i with
  | none => rw [detach, withBridge_none _ h]
  | some e => rw [detach_eq h, hv]

theorem Detached.detach (h : s.Detached i) (j : BridgeNo) : (s.detach j).Detached i := by
  by_cases hj : j = i
  · rw [hj]
    exact detach_detaches
  · intro x hx
    refine h x (hx.symm.trans ?_).symm
    cases hb : s.bridge j with
    | none => rw [State.detach, withBridge_none _ hb]
    | some e => rw [detach_eq hb, bridge_setCircuit, bridge_setBridge_ne _ _ _ _ hj]

theorem eachMember_eq (y : Group) (f : BridgeNo → State → State) :
    s.eachMember y f = each y.members (fun m t => m.bridge.elim t fun i => f i t) s := by
  unfold eachMember
  congr 1
  funext m t
  cases m.bridge <;> rfl

/-- Every member in use of a group that has been detached stands alone (R177, R178). -/
theorem eachMember_detached (y : Group) {m : GroupMember} (hm : m ∈ y.members) (hi : m.bridge = some i) :
    (s.eachMember y fun j u => u.detach j).Detached i := by
  have hkeep : ∀ (x : GroupMember) (t : State), t.Detached i →
      (x.bridge.elim t fun j => t.detach j).Detached i := by
    intro x t ht
    cases x.bridge with
    | none => exact ht
    | some j => exact ht.detach j
  rw [eachMember_eq]
  generalize y.members = l at hm
  induction l generalizing s with
  | nil => cases hm
  | cons x l ih =>
    rcases List.mem_cons.mp hm with rfl | hm
    · refine each_induct (fun t => t.Detached i) l _ hkeep _ ?_
      dsimp only
      rw [hi]
      exact detach_detaches
    · exact ih hm

theorem eachMember_keeps {β : Type} {view : State → β} {f : BridgeNo → State → State}
    (hf : ∀ j t, view (f j t) = view t) (y : Group) : view (s.eachMember y f) = view s := by
  rw [eachMember_eq]
  refine each_keeps view _ _ (fun m t => ?_) s
  cases m.bridge with
  | none => rfl
  | some j => exact hf j t

theorem restartGroup_eq {g : Fin 4} {x y : Group} (h : s.group g = some x)
    (hy : (s.eachMember x fun i v => v.restartMember i).group g = some y) : s.restartGroup g =
      ((s.eachMember x fun i v => v.restartMember i).settleGroup g y).eachMember y fun i u => u.detach i := by
  unfold restartGroup
  rw [h]
  dsimp only
  rw [hy]

end State

theorem exec_warmnPulse (s : State) : exec .warmnPulse s = act s fun s => s.warmRestart := rfl

theorem exec_nudgeWarm (s : State) : exec .nudgeWarm s = act s fun s => s.warmRestart := rfl

theorem warmRestart_ready {s : State} (h : s.phase = .ready) : s.warmRestart =
    (s.setPhase .warming).restartMemory.restartOrders.restartBridges.restartNotices := if_pos (by simp [h])

theorem warmRestart_ignored {s : State} (h : s.phase ≠ .ready) : s.warmRestart = s := if_neg (by simpa using h)

/-- Settles O14. -/
theorem warmRestartEntry : Obligations.WarmRestartEntry := by
  unfold Obligations.WarmRestartEntry
  refine ⟨fun s h hp => ⟨?_, ?_⟩, fun s => rfl, fun s => ?_, fun s i e he hg => ⟨fun hp => ?_, fun o hp ho => ?_,
    fun o hp ho => ?_, fun hp hr => ?_, State.restartEntry_unwound he hg⟩, fun s i e he => ?_,
    fun s g x y hx hy => ?_⟩
  · exact exec_effect h (exec_warmnPulse s) (warmRestart_ready hp)
  · exact exec_effect h (exec_nudgeWarm s) (warmRestart_ready hp)
  · obtain ⟨hq, hw⟩ := s.restartOrders_lists
    exact ⟨hq, hw, s.restartOrders_settles⟩
  · rw [State.restartEntry_awaiting he hg hp]
    exact ⟨rfl, State.freeAs_bridge he, State.freeAs_settlesRef he hg .restarted⟩
  · have he' : (s.stopFromFeed e).bridge i = some e := he
    rw [State.restartEntry_releasing he hg hp ho]
    exact ⟨rfl, State.freeAs_bridge he', State.freeAs_settlesRef he' hg o⟩
  · obtain ⟨hb, hs⟩ := State.holdEntry_spec he o
    rw [State.restartEntry_unwinding he hg hp ho, hb, ← hg]
    exact ⟨rfl, hs⟩
  · obtain ⟨hb, hs⟩ := State.holdEntry_spec he .held
    rw [State.restartEntry_held he hg hp hr, hb, ← hg]
    exact ⟨rfl, hs⟩
  · obtain ⟨hrel, hunw, hother⟩ := State.restartMember_spec he
    exact ⟨State.restartEntry_grouped he, hrel, hunw, hother, fun hp => (State.restartMessage_eq he).trans (if_pos hp),
      fun hp => (State.restartMessage_eq he).trans (if_neg hp)⟩
  · have ht := State.restartGroup_eq hx hy
    dsimp only at hy ⊢
    rw [ht]
    obtain ⟨hgroup, hset⟩ := (s.eachMember x fun i v => v.restartMember i).settleGroup_settles (g := g) (x := y)
    refine ⟨?_, ?_, fun m hm i e hi he => State.eachMember_detached y hm hi e he⟩
    · exact (State.eachMember_keeps (view := fun t => t.group g) (fun _ _ => State.detach_keeps (view := fun t => t.group g) fun _ _ _ _ _ => rfl) y).trans
        hgroup
    · exact (State.eachMember_keeps (view := State.settles) (fun _ _ => State.detach_keeps (view := State.settles) fun _ _ _ _ _ => rfl) y).trans
        hset

end Sys2Proof.Machine
end

section
/-! PROOFS. What an accepted request for a warm restart leaves, at the end of its step (R24, R164, R170, R174, R175). -/

namespace Sys2Proof.Machine

open Sys2Proof

namespace State

variable {s : State}

/-! ### The runners and the memory port -/

/-- A runner that a warm restart stops (R175). -/
def stoppedRunner (r : Runner) : Runner :=
  { r with state := .stopped, streak := 0, recheck := none, held := none, reading := none, startPending := false,
           told := false, raced := false }

/-- A tag that a warm restart quarantines (R164). -/
def quarantinedTag (s : State) : Tag → Tag
  | .outstanding .. => .quarantined (s.counter + 64)
  | .free => .free
  | .quarantined d => .quarantined d

/-- The runners are stopped. -/
def stopRunners (s : State) : State := each (List.finRange 4) (fun n t => t.restartRunner n) s

theorem stopRunners_runner (n : Fin 4) : s.stopRunners.runner n = stoppedRunner (s.runner n) :=
  (runner_each_modRunner s (fun _ => stoppedRunner) n _ (List.nodup_finRange 4)).trans (if_pos (List.mem_finRange n))

theorem stopRunners_rest : { s.stopRunners with runners := s.runners } = s :=
  each_keeps (fun t => { t with runners := s.runners }) (List.finRange 4) (fun n t => t.restartRunner n)
    (fun _ _ => rfl) s

theorem restartMemory_eq : s.restartMemory = each (List.finRange 4) (fun n t => t.withdrawTake n)
    (s.stopRunners.setSmp { s.smp with tags := tab 4 fun k => s.quarantinedTag (s.tag k), waiting := [] }) := by
  have hsmp : s.stopRunners.smp = s.smp := by
    have := congrArg State.smp (stopRunners_rest (s := s))
    exact this
  have hcounter : s.stopRunners.counter = s.counter := by
    have := congrArg State.counter (stopRunners_rest (s := s))
    exact this
  have htags : (fun k : Fin 4 => s.quarantinedTag (s.tag k)) = fun k =>
      match s.stopRunners.tag k with
      | .outstanding .. => Tag.quarantined (s.stopRunners.after Config.quarantineFrames)
      | .free => .free
      | .quarantined d => .quarantined d := by
    funext k
    rw [tag, tag, after, hsmp, hcounter]
    cases s.smp.tags[k.val] <;> rfl
  rw [htags, ← hsmp]
  rfl

theorem restartMemory_spec : let m := s.restartMemory
    (∀ n, m.runner n = stoppedRunner (s.runner n)) ∧ (∀ k, m.tag k = s.quarantinedTag (s.tag k)) ∧
      m.smp.waiting = [] ∧ { m with runners := s.runners, smp := s.smp } = s := by
  dsimp only
  rw [restartMemory_eq]
  have hkeep : ∀ {β : Type} (view : State → β) (t : State),
      (∀ (u : State) q h, view (u.setSmp { u.smp with claims := q, held := h }) = view u) →
      view (each (List.finRange 4) (fun n u => u.withdrawTake n) t) = view t := fun view t hv =>
    each_keeps view _ _ (fun n u => by obtain ⟨q, h, e⟩ := u.withdrawTake_form n; rw [e, hv]) t
  refine ⟨fun n => ?_, fun k => ?_, ?_, ?_⟩
  · exact (hkeep (fun t => t.runner n) _ fun _ _ _ => rfl).trans (stopRunners_runner n)
  · refine (hkeep (fun t => t.tag k) _ fun _ _ _ => rfl).trans ?_
    exact tab_getElem ..
  · exact hkeep (fun t => t.smp.waiting) _ fun _ _ _ => rfl
  · refine (hkeep (fun t => { t with runners := s.runners, smp := s.smp }) _ fun _ _ _ => rfl).trans ?_
    exact congrArg (fun t : State => { t with smp := s.smp }) stopRunners_rest

/-! ### What goes on over a warm restart -/

/-- What the settling of the waiting orders and the resolution of the tables leave alone. -/
def carried (s : State) : State :=
  { s.still with
    queue := []
    watch := []
    spans := ⟨{ s.still.spans.a with prove := none }, { s.still.spans.b with prove := none }⟩ }

theorem carried_of_still {t : State} (h : t.still = s.still) : t.carried = s.carried :=
  congrArg (fun u : State => { u with
    queue := []
    watch := []
    spans := ⟨{ u.spans.a with prove := none }, { u.spans.b with prove := none }⟩ }) h

theorem restartTest_carried (sp : Span) (t : State) : (restartTest sp t).carried = t.carried := by
  have hsettle : (t.settleProve sp .restarted).carried = t.carried :=
    settleProve_keeps t sp .restarted fun u ref c v => carried_of_still (still_settleOrder u ref c v [])
  rw [← hsettle]
  cases sp <;> rfl

theorem restartOrders_carried : s.restartOrders.carried = s.carried := by
  rw [restartOrders_eq, restartTest_carried, restartTest_carried, carried_of_still restartWaiting_still]
  rfl

theorem still_detach (i : BridgeNo) : (s.detach i).still = s.still := still_withBridge _ _ _ fun _ => rfl

theorem still_holdEntry (i : BridgeNo) (code : ResultCode) : (s.holdEntry i code).still = s.still := by
  refine still_withBridge _ _ _ fun e => ?_
  dsimp only
  rw [still_detach]
  cases e.ref with
  | none => rfl
  | some ref => exact still_settleMove _ _ _ _ _

theorem still_completeRelease (i : BridgeNo) : (s.completeRelease i).still = s.still :=
  still_withBridge _ _ _ fun _ => (still_freeEntry _ _).trans (still_stopFromFeed _ _)

theorem still_restartEntry (i : BridgeNo) : (s.restartEntry i).still = s.still := by
  refine still_withBridge _ _ _ fun e => ?_
  cases e.group with
  | some p => rfl
  | none =>
    have hunwind : ((s.enterUnwinding i .restarted (some .restart) false false).holdEntry i .restarted).still =
      s.still := (still_holdEntry _ _).trans (still_enterUnwinding ..)
    refine (congrArg still (if_neg (by decide))).trans ?_
    cases e.phase
    case awaitingOffer => exact still_freeAs _ _ _
    case releasing => exact still_completeRelease _
    case unwinding => exact still_holdEntry _ _
    case rolled =>
      cases e.role
      · exact hunwind
      · exact still_holdEntry _ _
    all_goals exact hunwind

theorem still_restartMember (i : BridgeNo) : (s.restartMember i).still = s.still := by
  refine still_withBridge _ _ _ fun e => ?_
  cases e.phase
  case releasing => exact still_completeRelease _
  case unwinding => rfl
  all_goals exact still_enterUnwinding ..

theorem still_restartGroup (g : Fin 4) : (s.restartGroup g).still = s.still := by
  unfold restartGroup
  cases hx : s.group g with
  | none => rfl
  | some x =>
    have hm : (s.eachMember x fun i u => u.restartMember i).still = s.still :=
      still_eachMember _ _ _ fun i t => still_restartMember i
    dsimp only
    cases hy : (s.eachMember x fun i u => u.restartMember i).group g with
    | none => exact hm
    | some y =>
      exact (still_eachMember _ _ _ fun i t => still_detach i).trans ((still_settleGroup _ _ _).trans hm)

theorem still_restartMessage (i : BridgeNo) : (s.restartMessage i).still = s.still := by
  refine still_withBridge _ _ _ fun e => ?_
  cases e.phase == .unwinding
  · rfl
  · exact still_sendAbandon _ _

theorem still_restartBridges : s.restartBridges.still = s.still := by
  unfold restartBridges
  refine (still_each _ _ _ fun i u => still_restartMessage i).trans ?_
  refine (still_each _ _ _ fun g u => still_restartGroup g).trans ?_
  refine (still_each _ _ _ fun i u => still_restartEntry i).trans ?_
  rw [still_emptyTransmit, still_emptyTransmit]

/-! ### The end of the step -/

/-- The part as an accepted request leaves it before the end of its step (R174). -/
def warmed (s : State) : State := (s.setPhase .warming).restartMemory.restartOrders.restartBridges

theorem warmed_carried : s.warmed.carried = (s.setPhase .warming).restartMemory.carried :=
  (carried_of_still still_restartBridges).trans restartOrders_carried

/-- What a view that `carried` keeps shows of the part after an accepted request. -/
theorem warmed_view {β : Type} (view : State → β) (h : ∀ t : State, view t.carried = view t) :
    view s.warmed = view (s.setPhase .warming).restartMemory := by
  rw [← h s.warmed, warmed_carried, h]

/-- What neither the runners nor the memory port have a part in goes on over an accepted request. -/
theorem warmed_goesOn {β : Type} (view : State → β) (h : ∀ t : State, view t.carried = view t)
    (hv : ∀ (t : State) r m, view { t with runners := r, smp := m } = view t) :
    view s.warmed = view (s.setPhase .warming) := by
  obtain ⟨-, -, -, hrest⟩ := (s.setPhase .warming).restartMemory_spec
  rw [warmed_view view h, ← hv _ (s.setPhase .warming).runners (s.setPhase .warming).smp]
  exact congrArg view hrest

theorem warmed_lists : s.warmed.queue = [] ∧ s.warmed.watch = [] := by
  obtain ⟨hq, hw⟩ := (s.setPhase .warming).restartMemory.restartOrders_lists
  exact ⟨(keeps_of_still (view := State.queue) (fun _ => rfl) still_restartBridges).trans hq,
    (keeps_of_still (view := State.watch) (fun _ => rfl) still_restartBridges).trans hw⟩

theorem warmed_runner (n : Fin 4) : s.warmed.runner n = stoppedRunner (s.runner n) := by
  obtain ⟨hrun, -⟩ := (s.setPhase .warming).restartMemory_spec
  exact (warmed_view (fun t => t.runner n) fun _ => rfl).trans (hrun n)

theorem warmed_tag (k : Fin 4) : s.warmed.tag k = s.quarantinedTag (s.tag k) := by
  obtain ⟨-, htag, -⟩ := (s.setPhase .warming).restartMemory_spec
  exact (warmed_view (fun t => t.tag k) fun _ => rfl).trans (htag k)

theorem warmed_waiting : s.warmed.smp.waiting = [] := by
  obtain ⟨-, -, hwait, -⟩ := (s.setPhase .warming).restartMemory_spec
  exact (warmed_view (fun t => t.smp.waiting) fun _ => rfl).trans hwait

/-- The Notice Engine after a warm restart (R170). -/
theorem restartNotices_nte (u : State) : (u.restartNotices).nte.bases = none ∧ u.restartNotices.nte.credits = 0 ∧
    u.restartNotices.nte.reread = false ∧ u.restartNotices.nte.recheck = none ∧
    ∀ r, r < 276 → r ∈ u.restartNotices.nte.dirty := by
  refine ⟨rfl, rfl, rfl, rfl, fun r hr => ?_⟩
  rw [restartNotices, markAllRows, setNte_nte, List.mem_append, List.mem_filter, List.mem_range]
  by_cases hd : r ∈ u.nte.dirty
  · exact .inl hd
  · exact .inr ⟨hr, by simpa using hd⟩

theorem restartNotices_view {β : Type} (view : State → β) (hn : ∀ (t : State) n, view (t.setNte n) = view t)
    (u : State) : view u.restartNotices = view u := (hn _ _).trans (hn _ _)

theorem pollNotices_withoutBases (h : s.nte.bases = none) : s.pollNotices = s := if_neg (by simp [h])

theorem sendHead_nte : s.sendHead.nte = s.nte := by unfold sendHead; split <;> rfl

theorem tellRunners_nte : s.tellRunners.nte = s.nte := by
  unfold tellRunners
  refine each_keeps State.nte _ _ (fun _ _ => ?_) s
  rfl

theorem endWarming_nte : s.endWarming.nte = s.nte := by unfold endWarming; split <;> rfl

theorem endWarming_settles : s.endWarming.settles = s.settles := by unfold endWarming; split <;> rfl

/-- WARMING ends only with no order open (R174). -/
theorem endWarming_warming (h : s.phase = .warming) :
    s.endWarming.phase = .warming ∨ s.endWarming.phase = .ready ∧ s.settles = [] := by
  unfold endWarming
  rw [h]
  cases hs : s.settles with
  | nil => exact .inr ⟨rfl, rfl⟩
  | cons x l => exact .inl h

/-- The end of a step with an empty queue and no bases, field by field where `settledPart` says nothing. -/
theorem finish_withoutBases {u : State} (hq : u.queue = []) (hb : u.nte.bases = none) (s : State) :
    let v := advanceGroups s u
    let t := finish s u
    t.settledPart = v.settledPart ∧ t.smp.waiting = v.smp.waiting ∧ t.nte.recheck = v.nte.recheck ∧
      (∀ r ∈ v.nte.dirty, r ∈ t.nte.dirty) ∧ t.settles = v.settles ∧ t.phase = v.endWarming.phase := by
  dsimp only
  have hstill := still_advanceGroups u s
  have hq' : (advanceGroups s u).queue = [] := (keeps_of_still (view := State.queue) (fun _ => rfl) hstill).trans hq
  have hb' : (advanceGroups s u).nte.bases = none :=
    (keeps_of_still (view := fun t => t.nte.bases) (fun _ => rfl) hstill).trans hb
  have hend : ∀ x : State, x.nte.bases = none → x.endWarming.pollNotices = x.endWarming := fun x hx =>
    pollNotices_withoutBases (by unfold endWarming; split <;> exact hx)
  have hset := finish_settledPart_examined (s := u) (b := s)
  rw [examineHead_empty hq'] at hset
  have hfin : finish s u = markRows s (advanceGroups s u).endWarming.tellRunners.sendHead := by
    rw [finish, examineHead_empty hq', hend _ hb']
  have hnte : (advanceGroups s u).endWarming.tellRunners.sendHead.nte = (advanceGroups s u).nte := by
    rw [sendHead_nte, tellRunners_nte, endWarming_nte]
  refine ⟨hset, ?_, ?_, fun r hr => ?_, ?_, ?_⟩
  · rw [hfin, markRows_smp, sendHead_waiting, tellRunners_smp, endWarming_smp]
  · rw [hfin, ← hnte]
    rfl
  · rw [hfin, markRows, setNte_nte, List.mem_append, hnte]
    exact .inl hr
  · rw [hfin, markRows_settles, sendHead_settles, tellRunners_settles, endWarming_settles]
  · rw [hfin, markRows_phase, sendHead_phase, tellRunners_phase]

/-- The state that an accepted request for a warm restart leaves at the end of its step. -/
def restarted (s : State) : State := finish s s.warmed.restartNotices

theorem restarted_end : let v := advanceGroups s s.warmed.restartNotices
    let t := s.restarted
    t.settledPart = v.settledPart ∧ t.smp.waiting = v.smp.waiting ∧ t.nte.recheck = v.nte.recheck ∧
      (∀ r ∈ v.nte.dirty, r ∈ t.nte.dirty) ∧ t.settles = v.settles ∧ t.phase = v.endWarming.phase := by
  obtain ⟨hb, -⟩ := s.warmed.restartNotices_nte
  have hq : s.warmed.restartNotices.queue = [] :=
    (restartNotices_view State.queue (fun _ _ => rfl) _).trans s.warmed_lists.1
  exact finish_withoutBases hq hb s

/-- What the groups leave of the part that a warm restart has resolved. -/
theorem groups_view {β : Type} (view : State → β) (h : ∀ t : State, view t.still = view t) :
    view (advanceGroups s s.warmed.restartNotices) = view s.warmed.restartNotices :=
  keeps_of_still h (still_advanceGroups s.warmed.restartNotices s)

/-- A view that neither the moving of circuits nor the end of a step has a part in. -/
theorem restarted_view {β : Type} (view : State → β) (hp : ∀ t : State, view t.settledPart = view t)
    (h : ∀ t : State, view t.still = view t) : view s.restarted = view s.warmed.restartNotices := by
  obtain ⟨hset, -⟩ := restarted_end (s := s)
  rw [← hp s.restarted, hset, hp, groups_view view h]

/-- What a warm restart has no part in goes on over it (R174). -/
theorem restarted_goesOn {β : Type} (view : State → β) (hp : ∀ t : State, view t.settledPart = view t)
    (h : ∀ t : State, view t.still = view t) (hc : ∀ t : State, view t.carried = view t)
    (hv : ∀ (t : State) r m, view { t with runners := r, smp := m } = view t)
    (hn : ∀ (t : State) n, view (t.setNte n) = view t) (hw : ∀ (t : State) p, view (t.setPhase p) = view t) :
    view s.restarted = view s :=
  (restarted_view view hp h).trans ((restartNotices_view view hn _).trans ((warmed_goesOn view hc hv).trans (hw s _)))

theorem restarted_phase : s.restarted.phase = .warming ∨ s.restarted.phase = .ready ∧ s.restarted.settles = [] := by
  obtain ⟨-, -, -, -, hsettles, hphase⟩ := restarted_end (s := s)
  have hwarming : (advanceGroups s s.warmed.restartNotices).phase = .warming :=
    (groups_view State.phase fun _ => rfl).trans ((restartNotices_view State.phase (fun _ _ => rfl) _).trans
      (warmed_goesOn State.phase (fun _ => rfl) fun _ _ _ => rfl))
  rw [hphase, hsettles]
  exact endWarming_warming hwarming

theorem restarted_runner (n : Fin 4) : (s.restarted.runner n).state = .stopped ∧
    (s.restarted.runner n).cursor = (s.runner n).cursor ∧ (s.restarted.runner n).fault = (s.runner n).fault ∧
    (s.restarted.runner n).openCount = (s.runner n).openCount ∧ (s.restarted.runner n).streak = 0 ∧
    (s.restarted.runner n).recheck = none ∧ (s.restarted.runner n).held = none := by
  have hrun := s.warmed.restartNotices.finish_runner s n
  rw [restartNotices_view (fun t => t.runner n) (fun _ _ => rfl), warmed_runner] at hrun
  have hview : ∀ {β : Type} (f : Runner → β), (∀ r : Runner, f { r with told := false } = f r) →
      f (s.restarted.runner n) = f (stoppedRunner (s.runner n)) := by
    intro β f hf
    rw [← hf (s.restarted.runner n), ← hf (stoppedRunner _)]
    exact congrArg f hrun
  exact ⟨hview Runner.state fun _ => rfl, hview Runner.cursor fun _ => rfl, hview Runner.fault fun _ => rfl,
    hview Runner.openCount fun _ => rfl, hview Runner.streak fun _ => rfl, hview Runner.recheck fun _ => rfl,
    hview Runner.held fun _ => rfl⟩

theorem restarted_waiting : s.restarted.queue = [] ∧ s.restarted.watch = [] ∧ s.restarted.smp.waiting = [] := by
  obtain ⟨-, hwait, -⟩ := restarted_end (s := s)
  obtain ⟨hq, hw⟩ := s.warmed_lists
  rw [hwait, groups_view (fun t => t.smp.waiting) fun _ => rfl, restarted_view State.queue (fun _ => rfl) fun _ => rfl,
    restarted_view State.watch (fun _ => rfl) fun _ => rfl, restartNotices_view State.queue fun _ _ => rfl,
    restartNotices_view State.watch fun _ _ => rfl, restartNotices_view (fun t => t.smp.waiting) fun _ _ => rfl]
  exact ⟨hq, hw, warmed_waiting⟩

theorem restarted_tag (k : Fin 4) : s.restarted.tag k = s.quarantinedTag (s.tag k) :=
  (finish_tag _ s k).trans ((restartNotices_view (fun t => t.tag k) (fun _ _ => rfl) _).trans (warmed_tag k))

theorem restarted_notices : s.restarted.nte.bases = none ∧ s.restarted.nte.credits = 0 ∧
    s.restarted.nte.reread = false ∧ s.restarted.nte.recheck = none ∧
    ∀ r, r < 276 → r ∈ s.restarted.nte.dirty := by
  obtain ⟨-, -, hrecheck, hdirty, -⟩ := restarted_end (s := s)
  obtain ⟨hb, hc, hr, hre, hd⟩ := s.warmed.restartNotices_nte
  refine ⟨(restarted_view (fun t => t.nte.bases) (fun _ => rfl) fun _ => rfl).trans hb,
    (restarted_view (fun t => t.nte.credits) (fun _ => rfl) fun _ => rfl).trans hc,
    (restarted_view (fun t => t.nte.reread) (fun _ => rfl) fun _ => rfl).trans hr,
    hrecheck.trans ((groups_view (fun t => t.nte.recheck) fun _ => rfl).trans hre), fun r hlt => hdirty r ?_⟩
  rw [groups_view (fun t => t.nte.dirty) fun _ => rfl]
  exact hd r hlt

theorem restarted_span (sp : Span) : (s.restarted.span sp).line = (s.span sp).line ∧
    (s.restarted.span sp).txnCounter = (s.span sp).txnCounter := by
  constructor
  · exact restarted_goesOn (fun t => (t.span sp).line) (fun _ => rfl) (fun _ => by cases sp <;> rfl)
      (fun _ => by cases sp <;> rfl) (fun _ _ _ => rfl) (fun _ _ => rfl) fun _ _ => rfl
  · exact restarted_goesOn (fun t => (t.span sp).txnCounter) (fun _ => rfl) (fun _ => by cases sp <;> rfl)
      (fun _ => by cases sp <;> rfl) (fun _ _ _ => rfl) (fun _ _ => rfl) fun _ _ => rfl

theorem restarted_registers : s.restarted.counter = s.counter ∧ s.restarted.cfg = s.cfg ∧
    s.restarted.blockBase = s.blockBase ∧ s.restarted.attnMask = s.attnMask ∧ s.restarted.ports = s.ports ∧
    s.restarted.monitors = s.monitors ∧ s.restarted.ftu = s.ftu ∧ s.restarted.officeIn = s.officeIn := by
  have h := restarted_goesOn (s := s) (fun t => (t.counter, t.cfg, t.blockBase, t.attnMask, t.ports, t.monitors, t.ftu, t.officeIn))
    (fun _ => rfl) (fun _ => rfl) (fun _ => rfl) (fun _ _ _ => rfl) (fun _ _ => rfl) fun _ _ => rfl
  simpa only [Prod.mk.injEq] using h

end State

/-- Settles O13. -/
theorem warmRestartRequests : Obligations.WarmRestartRequests := by
  unfold Obligations.WarmRestartRequests
  refine ⟨fun s h hp => ⟨exec_effect h (exec_warmnPulse s) (warmRestart_ignored hp),
    exec_effect h (exec_nudgeWarm s) (warmRestart_ignored hp)⟩, fun s h hp => ⟨s.restarted,
      exec_effect h (exec_warmnPulse s) (warmRestart_ready hp), exec_effect h (exec_nudgeWarm s) (warmRestart_ready hp),
      s.restarted_phase, s.restarted_runner, ?_⟩⟩
  obtain ⟨hq, hw, hwait⟩ := s.restarted_waiting
  obtain ⟨hb, hc, hr, hre, hd⟩ := s.restarted_notices
  obtain ⟨hcounter, hcfg, hbase, hmask, hports, hmon, hftu, hoffice⟩ := s.restarted_registers
  refine ⟨hq, hw, hwait, fun k => (State.restarted_tag k).trans ?_, hb, hc, hr, hre, hd, hcounter, hcfg, hbase, hmask, hports,
    hmon, hftu, hoffice, State.restarted_span⟩
  cases s.tag k <;> rfl

end Sys2Proof.Machine
end


section
/-! PROOFS. Octets: what a field of several octets reads as, and the octets of a layout (R163, R179, 13.2, 13.3). -/

namespace Sys2Proof.Machine

open Sys2Proof

/-! ### Fields of several octets -/

theorem littleBytes_length (n x : Nat) : (littleBytes n x).length = n := by
  induction n generalizing x with
  | zero => rfl
  | succ n ih => rw [littleBytes, List.length_cons, ih]

theorem fieldBytes_length (o : ByteOrder) (n x : Nat) : (fieldBytes o n x).length = n := by
  cases o
  · exact littleBytes_length n x
  · exact (List.length_reverse).trans (littleBytes_length n x)

theorem littleNumber_littleBytes (n x : Nat) : littleNumber (littleBytes n x) = x % 256 ^ n := by
  induction n generalizing x with
  | zero => rw [Nat.pow_zero, Nat.mod_one]; rfl
  | succ n ih =>
    rw [littleBytes, littleNumber, ih, BitVec.toNat_ofNat, show 2 ^ 8 = 256 from rfl, Nat.pow_succ', Nat.mod_mul]

/-- A field reads as the number that was written into it. -/
theorem fieldAt_fieldBytes (o : ByteOrder) (n x : Nat) : fieldAt o (fieldBytes o n x) 0 n = x % 256 ^ n := by
  have htake : ((fieldBytes o n x).drop 0).take n = fieldBytes o n x :=
    List.take_of_length_le (Nat.le_of_eq (fieldBytes_length o n x))
  unfold fieldAt
  rw [htake]
  cases o
  · exact littleNumber_littleBytes n x
  · exact (congrArg littleNumber (List.reverse_reverse _)).trans (littleNumber_littleBytes n x)

/-- A part of a record that was written as a field reads as the number written. -/
theorem fieldAt_of_part {o : ByteOrder} {l : List Byte} {x n v : Nat} (h : (l.drop x).take n = fieldBytes o n v) :
    fieldAt o l x n = v % 256 ^ n := by
  rw [← fieldAt_fieldBytes o n v, ← h, fieldAt_part o l x (k := 0) (by omega)]
  rfl

theorem fieldAt_bits {o : ByteOrder} {l : List Byte} {x n w : Nat} {v : BitVec w}
    (h : (l.drop x).take n = fieldBytes o n v.toNat) (hw : 2 ^ w ≤ 256 ^ n) : fieldAt o l x n = v.toNat := by
  rw [fieldAt_of_part h, Nat.mod_eq_of_lt (Nat.lt_of_lt_of_le v.isLt hw)]

/-- Octet k of a field of n octets. -/
def fieldOctet (o : ByteOrder) (n x k : Nat) : Byte := byteAt (fieldBytes o n x) k

theorem fieldBytes_two (o : ByteOrder) (x : Nat) : fieldBytes o 2 x = [fieldOctet o 2 x 0, fieldOctet o 2 x 1] := by
  cases o <;> rfl

theorem fieldBytes_four (o : ByteOrder) (x : Nat) : fieldBytes o 4 x = [fieldOctet o 4 x 0, fieldOctet o 4 x 1,
    fieldOctet o 4 x 2, fieldOctet o 4 x 3] := by cases o <;> rfl

theorem fieldBytes_eight (o : ByteOrder) (x : Nat) : fieldBytes o 8 x = [fieldOctet o 8 x 0, fieldOctet o 8 x 1,
    fieldOctet o 8 x 2, fieldOctet o 8 x 3, fieldOctet o 8 x 4, fieldOctet o 8 x 5, fieldOctet o 8 x 6,
    fieldOctet o 8 x 7] := by cases o <;> rfl

/-- The octets of a part of a record that holds no field are 0. -/
theorem zero_of_part {l : List Byte} {lo n : Nat} (h : (l.drop lo).take n = List.replicate n 0) (x : Nat) (hlo : lo ≤ x)
    (hx : x < lo + n) : byteAt l x = 0 := by
  obtain ⟨k, rfl⟩ := Nat.exists_eq_add_of_le hlo
  rw [← byteAt_part l lo (n := n) (by omega), h]
  unfold byteAt
  rw [List.getD_eq_getElem?_getD, List.getElem?_replicate]
  split <;> rfl

/-! ### Flags -/

theorem getLsbD_bitAt (k n : Nat) (b : Bool) (hk : k < 8) : (bitAt k b).getLsbD n = (n == k && b) := by
  cases b
  · simp [bitAt]
  · rw [bitAt, if_pos rfl, BitVec.getLsbD_ofNat, Nat.testBit_two_pow, Bool.and_true]
    by_cases h : n = k
    · simp [h, hk]
    · simp [h, Ne.symm h]

theorem flags_one (a : Bool) (n : Nat) : (bitAt 0 a).getLsbD n = [a].getD n false := by
  rw [getLsbD_bitAt _ _ _ (by decide)]
  match n with
  | 0 => rfl
  | n + 1 => simp

theorem flags_two (a b : Bool) (n : Nat) : (bitAt 0 a ||| bitAt 1 b).getLsbD n = [a, b].getD n false := by
  rw [BitVec.getLsbD_or, getLsbD_bitAt _ _ _ (by decide), getLsbD_bitAt _ _ _ (by decide)]
  match n with
  | 0 => simp
  | 1 => simp
  | n + 2 => simp

theorem flags_four (a b c d : Bool) (n : Nat) :
    (bitAt 0 a ||| bitAt 1 b ||| bitAt 2 c ||| bitAt 3 d).getLsbD n = [a, b, c, d].getD n false := by
  simp only [BitVec.getLsbD_or, getLsbD_bitAt, Nat.reduceLT]
  match n with
  | 0 => simp
  | 1 => simp
  | 2 => simp
  | 3 => simp
  | n + 4 => simp

theorem flags_eight (a b c d e f g h : Bool) (n : Nat) :
    (bitAt 0 a ||| bitAt 1 b ||| bitAt 2 c ||| bitAt 3 d ||| bitAt 4 e ||| bitAt 5 f ||| bitAt 6 g |||
      bitAt 7 h).getLsbD n = [a, b, c, d, e, f, g, h].getD n false := by
  simp only [BitVec.getLsbD_or, getLsbD_bitAt, Nat.reduceLT]
  match n with
  | 0 => simp
  | 1 => simp
  | 2 => simp
  | 3 => simp
  | 4 => simp
  | 5 => simp
  | 6 => simp
  | 7 => simp
  | n + 8 => simp

/-! ### Lists of four octets -/

theorem four_eq (l : List Byte) : four l = [byteAt l 0, byteAt l 1, byteAt l 2, byteAt l 3] := by
  match l with
  | [] => rfl
  | [_] => rfl
  | [_, _] => rfl
  | [_, _, _] => rfl
  | _ :: _ :: _ :: _ :: _ => rfl

theorem byteAt_map {α : Type} (f : α → Byte) (l : List α) (k : Nat) :
    byteAt (l.map f) k = (l[k]?).elim 0 f := by
  rw [byteAt, List.getD_eq_getElem?_getD, List.getElem?_map]
  cases l[k]? <;> rfl

/-! ### The octets read one at a time -/

/-- A field read from its least significant end: in little-endian records from the first octet, in big-endian ones from
the last (R163). -/
theorem fieldAt_steps (o : ByteOrder) (bytes : List Byte) (x n : Nat) : fieldAt o bytes x 0 = 0 ∧
    (x + n < bytes.length →
      fieldAt .little bytes x (n + 1) = (byteAt bytes x).toNat + 256 * fieldAt .little bytes (x + 1) n ∧
      fieldAt .big bytes x (n + 1) = 256 * fieldAt .big bytes x n + (byteAt bytes (x + n)).toNat) := by
  have hbyte : ∀ y (h : y < bytes.length), byteAt bytes y = bytes[y] := fun y h => by
    rw [byteAt, List.getD_eq_getElem?_getD, List.getElem?_eq_getElem h, Option.getD_some]
  refine ⟨by cases o <;> rfl, fun h => ⟨?_, ?_⟩⟩
  · have hx : x < bytes.length := by omega
    have hpart : (bytes.drop x).take (n + 1) = bytes[x] :: (bytes.drop (x + 1)).take n := by
      rw [List.drop_eq_getElem_cons hx, List.take_succ_cons]
    rw [hbyte x hx]
    unfold fieldAt
    rw [hpart]
    rfl
  · have hpart : ((bytes.drop x).take (n + 1)).reverse = bytes[x + n] :: ((bytes.drop x).take n).reverse := by
      rw [List.take_add_one, List.getElem?_drop, List.getElem?_eq_getElem h, Option.toList_some, List.reverse_append]
      rfl
    rw [hbyte _ h]
    unfold fieldAt
    dsimp only
    rw [hpart, littleNumber, Nat.add_comm]

end Sys2Proof.Machine
end

section
/-! PROOFS. The rows of the site status table, octet by octet (R20, R44, R133, R146, R156, R168, 13.3). -/

namespace Sys2Proof.Machine

open Sys2Proof

theorem optOctet_eq {α : Type} (f : α → Byte) (x : Option α) : optOctet f x = x.elim 0 f := by cases x <;> rfl

/-- Octets lo to hi of a record are 0. -/
def ZeroOctets (l : List Byte) (lo hi : Nat) : Prop := ∀ x, lo ≤ x → x < hi → byteAt l x = 0

/-- The flags of an octet, the first in its lowest bit. -/
def FlagsAt (l : List Byte) (x : Nat) (flags : List Bool) : Prop := ∀ n, (byteAt l x).getLsbD n = flags.getD n false

/-- A row with an update count before its body. -/
def countedRow (o : ByteOrder) (count : Half) (body : RowBody) : List Byte := fieldBytes o 2 count.toNat ++ body

theorem testBit_of_part {o : ByteOrder} {l : List Byte} {x : Nat} {v : Byte}
    (h : (l.drop x).take 2 = fieldBytes o 2 v.toNat) (n : Nat) : (fieldAt o l x 2).testBit n = v.getLsbD n := by
  rw [fieldAt_bits h (by decide), BitVec.testBit_toNat]

/-! ### Circuits and ports -/

theorem circuitRow_octets (s : State) (c : CircuitNo) (count : Half) :
    let o := s.cfg.byteOrder
    let k := s.circuit c
    let e := k.bridgeIndex.bind s.bridge
    let txn := e.bind Bridge.txn
    let offset := e.bind Bridge.offset
    let reason := e.bind Bridge.peerReason
    let row := countedRow o count (circuitRow s c)
    row.length = 32 ∧ fieldAt o row 0 2 = count.toNat ∧ FlagsAt row 0x02 [s.signalling c] ∧
      byteAt row 0x03 = k.pathState.code ∧ byteAt row 0x04 = k.receive.code ∧ FlagsAt row 0x05 [k.lineFeed, k.spanFeed] ∧
      byteAt row 0x06 = k.linePos.elim 0 LinePos.code ∧ byteAt row 0x07 = k.vacated.elim 0 LinePos.code ∧
      byteAt row 0x08 = k.bearer.elim 0 (fun b => Span.code b.span) ∧
      byteAt row 0x09 = k.bearer.elim 0 (fun b => BitVec.ofNat 8 b.slot.val) ∧ byteAt row 0x0A = BitVec.ofNat 8 k.hold ∧
      ZeroOctets row 0x0B 0x0C ∧ fieldAt o row 0x0C 2 = k.generation.toNat ∧ byteAt row 0x0E = (s.activity c).code ∧
      byteAt row 0x0F = k.bridgeIndex.elim 0 (fun i => BitVec.ofNat 8 i.val) ∧
      byteAt row 0x10 = k.groupIndex.elim 0 (fun g => BitVec.ofNat 8 g.val) ∧
      byteAt row 0x11 = e.elim 0 (fun x => x.phase.code) ∧ byteAt row 0x12 = e.elim 0 (fun x => x.role.code) ∧
      byteAt row 0x13 = txn.getD 0 ∧ byteAt row 0x14 = offset.elim 0 (BitVec.ofInt 8) ∧
      byteAt row 0x15 = reason.elim 0 Reason.code ∧
      FlagsAt row 0x16 (e.elim [] fun x => [x.quick, x.peerRolled, x.forced, x.pending]) ∧ ZeroOctets row 0x17 0x18 ∧
      (∀ n, (fieldAt o row 0x18 2).testBit n = [k.linePos.isSome, k.vacated.isSome, k.bearer.isSome, e.isSome,
        k.groupIndex.isSome, txn.isSome, offset.isSome, reason.isSome].getD n false) ∧ ZeroOctets row 0x1A 0x20 := by
  dsimp only
  generalize hrow : countedRow s.cfg.byteOrder count (circuitRow s c) = row
  rw [countedRow, circuitRow] at hrow
  simp only [fieldBytes_two, optOctet_eq, List.cons_append, List.nil_append, List.replicate] at hrow
  subst hrow
  refine ⟨rfl, fieldAt_bits (fieldBytes_two _ _).symm (by decide), flags_one _, rfl, rfl, flags_two _ _, rfl, rfl, rfl, rfl,
    rfl, zero_of_part (n := 1) rfl, fieldAt_bits (fieldBytes_two _ _).symm (by decide), rfl, rfl, rfl, rfl, rfl, rfl, rfl,
    rfl, fun n => ?_, zero_of_part (n := 1) rfl, fun n => ?_, zero_of_part (n := 6) rfl⟩
  · change (((s.circuit c).bridgeIndex.bind s.bridge).elim 0 fun e =>
      bitAt 0 e.quick ||| bitAt 1 e.peerRolled ||| bitAt 2 e.forced ||| bitAt 3 e.pending).getLsbD n = _
    cases (s.circuit c).bridgeIndex.bind s.bridge with
    | none => simp
    | some e => exact flags_four _ _ _ _ n
  · refine Eq.trans ?_ (flags_eight _ _ _ _ _ _ _ _ n)
    refine testBit_of_part ?_ n
    exact (fieldBytes_two _ _).symm

theorem portRow_octets (s : State) (p : PortNo) (count : Half) :
    let o := s.cfg.byteOrder
    let k := s.port p
    let row := countedRow o count (portRow s p)
    row.length = 32 ∧ fieldAt o row 0 2 = count.toNat ∧
      byteAt row 0x02 = BitVec.ofNat 8 (if p.val < 8 then p.val else 120 + p.val) ∧
      FlagsAt row 0x03 [s.clockRole p == .drive, s.syncStyle p == .long] ∧ byteAt row 0x04 = k.presence.code ∧
      byteAt row 0x05 = k.cause.elim 0 PortCause.code ∧ ZeroOctets row 0x06 0x08 ∧
      fieldAt o row 0x08 4 = (k.changeFrame.getD 0).toNat ∧ fieldAt o row 0x0C 2 = k.slips.toNat ∧
      fieldAt o row 0x0E 2 = k.txSlips.toNat ∧ fieldAt o row 0x10 2 = k.invalidReports.toNat ∧
      ZeroOctets row 0x12 0x20 := by
  dsimp only
  have hnumber : (if p.val < 8 then p.val else 128 + (p.val - 8)) = if p.val < 8 then p.val else 120 + p.val := by
    split <;> omega
  have hrole : (s.clockRole p).code = bitAt 0 (s.clockRole p == .drive) := by cases s.clockRole p <;> rfl
  generalize hrow : countedRow s.cfg.byteOrder count (portRow s p) = row
  rw [countedRow, portRow, hnumber, hrole] at hrow
  simp only [fieldBytes_two, fieldBytes_four, optOctet_eq, List.cons_append, List.nil_append, List.replicate] at hrow
  subst hrow
  exact ⟨rfl, fieldAt_bits (fieldBytes_two _ _).symm (by decide), rfl, flags_two _ _, rfl, rfl, zero_of_part (n := 2) rfl,
    fieldAt_bits (fieldBytes_four _ _).symm (by decide), fieldAt_bits (fieldBytes_two _ _).symm (by decide),
    fieldAt_bits (fieldBytes_two _ _).symm (by decide), fieldAt_bits (fieldBytes_two _ _).symm (by decide),
    zero_of_part (n := 14) rfl⟩

/-! ### Spans and timing -/

theorem spanRow_octets (s : State) (sp : Span) (count : Half) :
    let o := s.cfg.byteOrder
    let k := s.span sp
    let row := countedRow o count (spanRow s sp)
    row.length = 32 ∧ fieldAt o row 0 2 = count.toNat ∧
      FlagsAt row 0x02 [s.spanPresent sp] ∧ byteAt row 0x03 = k.line.code ∧ byteAt row 0x04 = k.cause.elim 0 SpanCause.code ∧
      byteAt row 0x05 = k.holdCause.elim 0 HoldCause.code ∧ byteAt row 0x06 = k.peerRank.getD 0 ∧
      FlagsAt row 0x07 [k.peerRank.isSome] ∧ fieldAt o row 0x08 2 = k.erroredFrames.toNat ∧
      fieldAt o row 0x0A 2 = k.slips.toNat ∧ byteAt row 0x0C = BitVec.ofNat 8 k.txQueue.length ∧
      byteAt row 0x0D = k.txnCounter ∧ fieldAt o row 0x0E 2 = k.proveChecked.toNat ∧
      fieldAt o row 0x10 2 = k.proveErrored.toNat ∧ ZeroOctets row 0x12 0x20 := by
  dsimp only
  generalize hrow : countedRow s.cfg.byteOrder count (spanRow s sp) = row
  rw [countedRow, spanRow] at hrow
  simp only [fieldBytes_two, optOctet_eq, List.cons_append, List.nil_append, List.replicate] at hrow
  subst hrow
  exact ⟨rfl, fieldAt_bits (fieldBytes_two _ _).symm (by decide), flags_one _, rfl, rfl, rfl, rfl, flags_one _,
    fieldAt_bits (fieldBytes_two _ _).symm (by decide), fieldAt_bits (fieldBytes_two _ _).symm (by decide), rfl, rfl,
    fieldAt_bits (fieldBytes_two _ _).symm (by decide), fieldAt_bits (fieldBytes_two _ _).symm (by decide),
    zero_of_part (n := 14) rfl⟩

/-- The octets of the reference and its priority (R156, 13.3). -/
theorem reference_octets (f : Ftu) :
    (∀ x, f.mode = .locked x → f.mode.referenceOctet = Source.code x ∧ (f.modePriority f.mode).elim 0xFF octet =
      (f.candidates.findIdx? (· == x)).elim 0xFF (BitVec.ofNat 8)) ∧
    ((∀ x, f.mode ≠ .locked x) → f.mode.referenceOctet = 0xFF ∧ (f.modePriority f.mode).elim 0xFF octet = 0xFF) := by
  refine ⟨fun x hx => by rw [hx]; exact ⟨rfl, rfl⟩, fun hn => ?_⟩
  cases hm : f.mode with
  | freeRun => exact ⟨rfl, rfl⟩
  | locked x => exact absurd hm (hn x)
  | holdover => exact ⟨rfl, rfl⟩

/-- The four octets that a list of candidates gives a field (R151, R156). -/
theorem byteAt_candidates {l : List Source} (f : Source → Byte) (k : Nat) :
    (l.length ≤ k → byteAt (l.map f) k = 0) ∧ ∀ x, l[k]? = some x → byteAt (l.map f) k = f x := by
  rw [byteAt_map]
  refine ⟨fun h => ?_, fun x hx => by rw [hx]; rfl⟩
  rw [List.getElem?_eq_none h]
  rfl

theorem timingRow_octets (s : State) (count : Half) :
    let o := s.cfg.byteOrder
    let f := s.ftu
    let l := f.candidates
    let row := countedRow o count (timingRow s ++ fieldBytes o 4 s.counter.toNat ++ [0, 0, 0, 0])
    row.length = 32 ∧ fieldAt o row 0 2 = count.toNat ∧
      byteAt row 0x02 = f.mode.code ∧ (∀ x, f.mode = .locked x → byteAt row 0x03 = Source.code x ∧
        byteAt row 0x04 = (l.findIdx? (· == x)).elim 0xFF (BitVec.ofNat 8)) ∧
      ((∀ x, f.mode ≠ .locked x) → byteAt row 0x03 = 0xFF ∧ byteAt row 0x04 = 0xFF) ∧
      byteAt row 0x05 = f.lastCause.elim 0 TimingCause.code ∧ ZeroOctets row 0x06 0x08 ∧
      fieldAt o row 0x08 4 = (f.lastChange.getD 0).toNat ∧ FlagsAt row 0x0C [f.revertive] ∧
      byteAt row 0x0D = BitVec.ofNat 8 l.length ∧
      (∀ k, k < 4 → (l.length ≤ k → byteAt row (0x0E + k) = 0 ∧ byteAt row (0x12 + k) = 0) ∧
        ∀ x, l[k]? = some x → byteAt row (0x0E + k) = Source.code x ∧
          FlagsAt row (0x12 + k) [s.healthy x, s.qualified x]) ∧
      ZeroOctets row 0x16 0x18 ∧ fieldAt o row 0x18 4 = s.counter.toNat ∧ ZeroOctets row 0x1C 0x20 := by
  dsimp only
  obtain ⟨hlocked, hnone⟩ := reference_octets s.ftu
  generalize hrow : countedRow s.cfg.byteOrder count (timingRow s ++ fieldBytes s.cfg.byteOrder 4 s.counter.toNat ++
    [0, 0, 0, 0]) = row
  rw [countedRow, timingRow] at hrow
  simp only [fieldBytes_two, fieldBytes_four, four_eq, optOctet_eq, List.cons_append, List.nil_append] at hrow
  subst hrow
  refine ⟨rfl, fieldAt_bits (fieldBytes_two _ _).symm (by decide), rfl, hlocked, hnone, rfl, zero_of_part (n := 2) rfl,
    fieldAt_bits (fieldBytes_four _ _).symm (by decide), flags_one _, rfl, fun k hk => ?_, zero_of_part (n := 2) rfl,
    fieldAt_bits (fieldBytes_four _ _).symm (by decide), zero_of_part (n := 4) rfl⟩
  obtain ⟨hc0, hc⟩ := byteAt_candidates (l := s.ftu.candidates) Source.code k
  obtain ⟨hh0, hh⟩ := byteAt_candidates (l := s.ftu.candidates) s.candidateOctet k
  have hflags : ∀ x, s.ftu.candidates[k]? = some x → ∀ n, (byteAt (s.ftu.candidates.map s.candidateOctet) k).getLsbD n =
      [s.healthy x, s.qualified x].getD n false := fun x hx n => by
    rw [hh x hx]
    exact flags_two _ _ n
  match k, hk with
  | 0, _ => exact ⟨fun h => ⟨hc0 h, hh0 h⟩, fun x hx => ⟨hc x hx, hflags x hx⟩⟩
  | 1, _ => exact ⟨fun h => ⟨hc0 h, hh0 h⟩, fun x hx => ⟨hc x hx, hflags x hx⟩⟩
  | 2, _ => exact ⟨fun h => ⟨hc0 h, hh0 h⟩, fun x hx => ⟨hc x hx, hflags x hx⟩⟩
  | 3, _ => exact ⟨fun h => ⟨hc0 h, hh0 h⟩, fun x hx => ⟨hc x hx, hflags x hx⟩⟩

/-! ### The part row -/

theorem fault_code (f : RunnerFault) : ∃ k : Fin 4, f.code = BitVec.ofNat 8 k.val := by
  cases f
  · exact ⟨0, rfl⟩
  · exact ⟨1, rfl⟩
  · exact ⟨2, rfl⟩
  · exact ⟨3, rfl⟩

theorem runnerState_code_lt (x : RunnerState) : x.code.toNat < 8 := by cases x <;> decide

/-- The fault codes of the runners, two bits to each. -/
def faultOctet (a b c d : Byte) : Byte := a ||| b <<< 2 ||| c <<< 4 ||| d <<< 6

theorem faultOctet_parts : ∀ a b c d : Fin 4,
    let x := faultOctet (BitVec.ofNat 8 a.val) (BitVec.ofNat 8 b.val) (BitVec.ofNat 8 c.val) (BitVec.ofNat 8 d.val)
    x.extractLsb' 0 2 = BitVec.ofNat 2 a.val ∧ x.extractLsb' 2 2 = BitVec.ofNat 2 b.val ∧
      x.extractLsb' 4 2 = BitVec.ofNat 2 c.val ∧ x.extractLsb' 6 2 = BitVec.ofNat 2 d.val := by decide

/-- The states of the runners, three bits to each. -/
theorem states_parts {a b c d : Nat} (ha : a < 8) (hb : b < 8) (hc : c < 8) (hd : d < 8) :
    let x := a + 8 * b + 64 * c + 512 * d
    x < 4096 ∧ x / 8 ^ 0 % 8 = a ∧ x / 8 ^ 1 % 8 = b ∧ x / 8 ^ 2 % 8 = c ∧ x / 8 ^ 3 % 8 = d := by
  dsimp only
  refine ⟨?_, ?_, ?_, ?_, ?_⟩ <;> omega

theorem partRow_octets (s : State) (count : Half) :
    let o := s.cfg.byteOrder
    let row := countedRow o count (partRow s)
    row.length = 32 ∧ fieldAt o row 0 2 = count.toNat ∧
      byteAt row 0x02 = s.phase.code ∧ fieldAt o row 0x06 2 = s.nte.position % 65536 ∧
      fieldAt o row 0x08 2 = s.nte.lost % 65536 ∧ ZeroOctets row 0x0E 0x10 ∧ fieldAt o row 0x04 2 < 4096 ∧
      ∀ n : Fin 4, let q := s.runner n
        ((byteAt row 0x03).extractLsb' (2 * n.val) 2).toNat = q.fault.code.toNat ∧
        fieldAt o row 0x04 2 / 8 ^ n.val % 8 = q.state.code.toNat ∧ byteAt row (0x0A + n.val) = BitVec.ofNat 8 q.openCount ∧
        fieldAt o row (0x10 + 4 * n.val) 4 = q.cursor.toNat % 4294967296 := by
  dsimp only
  obtain ⟨hlt, h0, h1, h2, h3⟩ := states_parts (runnerState_code_lt (s.runner 0).state)
    (runnerState_code_lt (s.runner 1).state) (runnerState_code_lt (s.runner 2).state) (runnerState_code_lt (s.runner 3).state)
  obtain ⟨k0, hk0⟩ := fault_code (s.runner 0).fault
  obtain ⟨k1, hk1⟩ := fault_code (s.runner 1).fault
  obtain ⟨k2, hk2⟩ := fault_code (s.runner 2).fault
  obtain ⟨k3, hk3⟩ := fault_code (s.runner 3).fault
  obtain ⟨f0, f1, f2, f3⟩ := faultOctet_parts k0 k1 k2 k3
  rw [← hk0, ← hk1, ← hk2, ← hk3] at f0 f1 f2 f3
  generalize hrow : countedRow s.cfg.byteOrder count (partRow s) = row
  rw [countedRow, partRow] at hrow
  simp only [fieldBytes_two, fieldBytes_four, List.cons_append, List.nil_append] at hrow
  have hstates : fieldAt s.cfg.byteOrder row 0x04 2 = ((s.runner 0).state.code.toNat +
      8 * (s.runner 1).state.code.toNat + 64 * (s.runner 2).state.code.toNat + 512 * (s.runner 3).state.code.toNat) := by
    subst hrow
    exact Eq.trans (fieldAt_of_part (fieldBytes_two _ _).symm) (Nat.mod_eq_of_lt (by omega))
  rw [hstates]
  subst hrow
  have hfault : ∀ {x : BitVec 2} {k : Fin 4} {y : Byte}, x = BitVec.ofNat 2 k.val → y = BitVec.ofNat 8 k.val →
      x.toNat = y.toNat := by
    intro x k y hx hy
    rw [hx, hy, BitVec.toNat_ofNat, BitVec.toNat_ofNat, Nat.mod_eq_of_lt (by omega), Nat.mod_eq_of_lt (by omega)]
  refine ⟨rfl, fieldAt_bits (fieldBytes_two _ _).symm (by decide), rfl, fieldAt_of_part (fieldBytes_two _ _).symm,
    fieldAt_of_part (fieldBytes_two _ _).symm, zero_of_part (n := 2) rfl, hlt, fun n => ?_⟩
  match n with
  | 0 => exact ⟨hfault f0 hk0, h0, rfl, fieldAt_of_part (fieldBytes_four _ _).symm⟩
  | 1 => exact ⟨hfault f1 hk1, h1, rfl, fieldAt_of_part (fieldBytes_four _ _).symm⟩
  | 2 => exact ⟨hfault f2 hk2, h2, rfl, fieldAt_of_part (fieldBytes_four _ _).symm⟩
  | 3 => exact ⟨hfault f3 hk3, h3, rfl, fieldAt_of_part (fieldBytes_four _ _).symm⟩

/-! ### All rows -/

theorem rowBytes_circuit (s : State) (c : CircuitNo) (count : Half) :
    rowBytes s c.val count = countedRow s.cfg.byteOrder count (circuitRow s c) := by
  rw [rowBytes, if_neg (by omega), rowBody, dif_pos c.isLt]
  rfl

theorem rowBytes_port (s : State) (p : PortNo) (count : Half) :
    rowBytes s (256 + p.val) count = countedRow s.cfg.byteOrder count (portRow s p) := by
  have hp : (⟨256 + p.val - 256, by omega⟩ : PortNo) = p := Fin.ext (by dsimp only; omega)
  rw [rowBytes, if_neg (by omega), rowBody, dif_neg (by omega), dif_pos (by omega), hp]
  rfl

theorem rowBytes_spanA (s : State) (count : Half) :
    rowBytes s 272 count = countedRow s.cfg.byteOrder count (spanRow s .a) := rfl

theorem rowBytes_spanB (s : State) (count : Half) :
    rowBytes s 273 count = countedRow s.cfg.byteOrder count (spanRow s .b) := rfl

theorem rowBytes_timing (s : State) (count : Half) : rowBytes s 274 count = countedRow s.cfg.byteOrder count
    (timingRow s ++ fieldBytes s.cfg.byteOrder 4 s.counter.toNat ++ [0, 0, 0, 0]) := rfl

theorem rowBytes_part (s : State) (count : Half) :
    rowBytes s 275 count = countedRow s.cfg.byteOrder count (partRow s) := rfl

theorem rowBytes_length (s : State) (count : Half) {r : Nat} (h : r < 276) : (rowBytes s r count).length = 32 ∧
    fieldAt s.cfg.byteOrder (rowBytes s r count) 0 2 = count.toNat := by
  by_cases hc : r < 256
  · obtain ⟨hl, hf, -⟩ := circuitRow_octets s ⟨r, hc⟩ count
    rw [← rowBytes_circuit] at hl hf
    exact ⟨hl, hf⟩
  · by_cases hp : r < 272
    · obtain ⟨hl, hf, -⟩ := portRow_octets s ⟨r - 256, by omega⟩ count
      rw [← rowBytes_port] at hl hf
      rw [show r = 256 + (r - 256) by omega]
      exact ⟨hl, hf⟩
    · obtain rfl | rfl | rfl | rfl : r = 272 ∨ r = 273 ∨ r = 274 ∨ r = 275 := by omega
      · obtain ⟨hl, hf, -⟩ := spanRow_octets s .a count
        exact ⟨hl, hf⟩
      · obtain ⟨hl, hf, -⟩ := spanRow_octets s .b count
        exact ⟨hl, hf⟩
      · obtain ⟨hl, hf, -⟩ := timingRow_octets s count
        exact ⟨hl, hf⟩
      · obtain ⟨hl, hf, -⟩ := partRow_octets s count
        exact ⟨hl, hf⟩

/-- Settles O59. -/
theorem rowOctets : Obligations.RowOctets := by
  unfold Obligations.RowOctets
  intro s count r hr
  obtain ⟨hlength, hcount⟩ := rowBytes_length s count hr
  refine ⟨hlength, hcount, fun c hc => ?_, fun p hp => ?_, fun sp hsp => ?_, fun ht => ?_, fun hp => ?_⟩
  · obtain ⟨-, -, hrow⟩ := circuitRow_octets s c count
    rw [hc, rowBytes_circuit]
    exact hrow
  · obtain ⟨-, -, hrow⟩ := portRow_octets s p count
    rw [hp, rowBytes_port]
    exact hrow
  · obtain ⟨-, -, hrow⟩ := spanRow_octets s sp count
    rw [hsp]
    cases sp
    · exact hrow
    · exact hrow
  · obtain ⟨-, -, hrow⟩ := timingRow_octets s count
    rw [ht]
    exact hrow
  · obtain ⟨-, -, hrow⟩ := partRow_octets s count
    rw [hp]
    exact hrow

end Sys2Proof.Machine
end

section
/-! PROOFS. Codes, the words and areas of a record, result values and notice entries, octet by octet (R14, R34, R50, R128,
R130, R151, R163, R165, 13.1 to 13.3). -/

namespace Sys2Proof.Machine

open Sys2Proof

/-! ### Reading parts of a record -/

/-- Every octet of a record past a point is 0, past its end too. -/
theorem zero_from_part {l : List Byte} {lo n : Nat} (h : l.drop lo = List.replicate n 0) (x : Nat) (hx : lo ≤ x) :
    byteAt l x = 0 := by
  obtain ⟨k, rfl⟩ := Nat.exists_eq_add_of_le hx
  rw [byteAt, List.getD_eq_getElem?_getD, ← List.getElem?_drop, h, List.getElem?_replicate]
  split <;> rfl

theorem byteAt_range_map (f : Nat → Byte) {b n : Nat} (h : b < n) : byteAt ((List.range n).map f) b = f b := by
  rw [byteAt, List.getD_eq_getElem?_getD, List.getElem?_map, List.getElem?_range h]
  rfl

/-- The marks of an octet with two flags. -/
theorem marks_two (a b : Bool) (n : Nat) :
    (bitAt 0 a ||| bitAt 1 b).getLsbD n = ((n == 0 && a) || (n == 1 && b)) := by
  rw [BitVec.getLsbD_or, getLsbD_bitAt _ _ _ (by decide), getLsbD_bitAt _ _ _ (by decide)]

theorem marks_four (a b c d : Bool) (n : Nat) : (bitAt 0 a ||| bitAt 1 b ||| bitAt 2 c ||| bitAt 3 d).getLsbD n =
    ((n == 0 && a) || (n == 1 && b) || (n == 2 && c) || (n == 3 && d)) := by
  rw [BitVec.getLsbD_or, BitVec.getLsbD_or, marks_two, getLsbD_bitAt _ _ _ (by decide), getLsbD_bitAt _ _ _ (by decide)]

/-! ### Result values -/

theorem moveValues_octets (o : ByteOrder) (v : MoveValues) : let b := v.bytes o
    b.length = 16 ∧ fieldAt o b 0 2 = v.generation.toNat ∧ byteAt b 2 = v.pathState.elim 0 PathState.code ∧
      byteAt b 3 = v.role.elim 0 Role.code ∧ byteAt b 4 = v.phase.elim 0 BridgePhase.code ∧ byteAt b 5 = v.txn.getD 0 ∧
      byteAt b 6 = v.offset.elim 0 (BitVec.ofInt 8) ∧ byteAt b 7 = BitVec.ofNat 8 v.repeats ∧
      byteAt b 8 = BitVec.ofNat 8 v.skipped ∧ byteAt b 9 = BitVec.ofNat 8 v.hold ∧
      byteAt b 10 = v.peerReason.elim 0 Reason.code ∧ byteAt b 11 = BitVec.ofNat 8 v.dropped ∧
      byteAt b 12 = v.member.elim 0 (BitVec.ofNat 8) ∧ byteAt b 13 = BitVec.ofNat 8 v.group ∧
      byteAt b 14 = BitVec.ofNat 8 v.membersDone ∧
      ∀ n, (byteAt b 15).getLsbD n = ((n == 0 && v.txn.isSome) || (n == 1 && v.offset.isSome) ||
        (n == 2 && v.phase.isSome) || (n == 3 && v.member.isSome)) := by
  dsimp only
  generalize hb : v.bytes o = b
  rw [MoveValues.bytes] at hb
  simp only [fieldBytes_two, optOctet_eq, List.cons_append, List.nil_append] at hb
  subst hb
  exact ⟨rfl, fieldAt_bits (fieldBytes_two _ _).symm (by decide), rfl, rfl, rfl, rfl, rfl, rfl, rfl, rfl, rfl, rfl, rfl,
    rfl, rfl, marks_four _ _ _ _⟩

theorem mapValues_octets (o : ByteOrder) (c : Circuit) (dropped : Nat) : let b := mapValues o c dropped
    b.length = 16 ∧ fieldAt o b 0 2 = c.generation.toNat ∧ byteAt b 2 = c.pathState.code ∧
      byteAt b 3 = c.linePos.elim 0 LinePos.code ∧ byteAt b 4 = c.vacated.elim 0 LinePos.code ∧
      byteAt b 9 = BitVec.ofNat 8 c.hold ∧ byteAt b 11 = BitVec.ofNat 8 dropped ∧
      (∀ x ∈ [5, 6, 7, 8, 10, 12, 13, 14], byteAt b x = 0) ∧
      ∀ n, (byteAt b 15).getLsbD n = ((n == 0 && c.linePos.isSome) || (n == 1 && c.vacated.isSome)) := by
  dsimp only
  generalize hb : mapValues o c dropped = b
  rw [mapValues] at hb
  simp only [fieldBytes_two, optOctet_eq, List.cons_append, List.nil_append] at hb
  subst hb
  refine ⟨rfl, fieldAt_bits (fieldBytes_two _ _).symm (by decide), rfl, rfl, rfl, rfl, rfl, ?_, marks_two _ _⟩
  simp only [List.forall_mem_cons]
  exact ⟨rfl, rfl, rfl, rfl, rfl, rfl, rfl, rfl, nofun⟩

theorem spanValues_octets (o : ByteOrder) (checked errored : Half) (line : LineState) :
    let b := spanValues o checked errored line
    b.length = 16 ∧ fieldAt o b 0 2 = checked.toNat ∧ fieldAt o b 2 2 = errored.toNat ∧ byteAt b 4 = line.code ∧
      ∀ x, 5 ≤ x → byteAt b x = 0 := by
  dsimp only
  generalize hb : spanValues o checked errored line = b
  rw [spanValues] at hb
  simp only [fieldBytes_two, List.cons_append, List.nil_append] at hb
  subst hb
  exact ⟨rfl, fieldAt_bits (fieldBytes_two _ _).symm (by decide), fieldAt_bits (fieldBytes_two _ _).symm (by decide), rfl,
    zero_from_part (n := 11) rfl⟩

theorem timingValues_octets (s : State) : let b := timingValues s
    let l := s.ftu.candidates
    b.length = 16 ∧ byteAt b 0 = s.ftu.mode.code ∧
      (∀ x, s.ftu.mode = .locked x →
        byteAt b 1 = Source.code x ∧ byteAt b 2 = (l.findIdx? (· == x)).elim 0xFF (BitVec.ofNat 8)) ∧
      ((∀ x, s.ftu.mode ≠ .locked x) → byteAt b 1 = 0xFF ∧ byteAt b 2 = 0xFF) ∧
      (∀ k, k < 4 → (l.length ≤ k → byteAt b (3 + k) = 0) ∧ ∀ x, l[k]? = some x → ∀ n, (byteAt b (3 + k)).getLsbD n =
        ((n == 0 && s.healthy x) || (n == 1 && s.qualified x))) ∧
      ∀ x, 7 ≤ x → byteAt b x = 0 := by
  dsimp only
  obtain ⟨hlocked, hnone⟩ := reference_octets s.ftu
  generalize hb : timingValues s = b
  rw [timingValues] at hb
  simp only [four_eq, List.cons_append, List.nil_append] at hb
  subst hb
  refine ⟨rfl, rfl, hlocked, hnone, fun k hk => ?_, zero_from_part (n := 9) rfl⟩
  obtain ⟨hh0, hh⟩ := byteAt_candidates (l := s.ftu.candidates) s.candidateOctet k
  have hmarks : ∀ x, s.ftu.candidates[k]? = some x → ∀ n, (byteAt (s.ftu.candidates.map s.candidateOctet) k).getLsbD n =
      ((n == 0 && s.healthy x) || (n == 1 && s.qualified x)) := fun x hx n => by
    rw [hh x hx]
    exact marks_two _ _ n
  match k, hk with
  | 0, _ => exact ⟨hh0, hmarks⟩
  | 1, _ => exact ⟨hh0, hmarks⟩
  | 2, _ => exact ⟨hh0, hmarks⟩
  | 3, _ => exact ⟨hh0, hmarks⟩

/-! ### The areas of a record -/

/-- The result area of a settled record (R34, 13.2). -/
theorem resultArea_octets (s : State) (code : ResultCode) (values : List Byte) : let data := s.resultArea code values
    byteAt data 0 = code.code ∧ (∀ x, 1 ≤ x → x < 4 → byteAt data x = 0) ∧
      fieldAt s.cfg.byteOrder data 4 4 = s.counter.toNat ∧ data.drop 8 = values := by
  dsimp only
  generalize hd : s.resultArea code values = data
  rw [State.resultArea] at hd
  simp only [fieldBytes_four, List.cons_append, List.nil_append] at hd
  subst hd
  exact ⟨rfl, zero_of_part (n := 3) rfl, fieldAt_bits (fieldBytes_four _ _).symm (by decide), rfl⟩

/-- A part of a member list with its member results (R34, R179). -/
theorem memberPart_octets (list : List Byte) (results : List (Byte × Byte)) (j : Nat) :
    (State.memberPart list results j).length = 32 ∧ ∀ b, b < 32 →
      (∀ x, results[4 * j + b / 8]? = some x → (b % 8 = 5 → byteAt (State.memberPart list results j) b = x.1) ∧
        (b % 8 = 6 → byteAt (State.memberPart list results j) b = x.2)) ∧
      (b % 8 ≠ 5 ∧ b % 8 ≠ 6 ∨ results.length ≤ 4 * j + b / 8 →
        byteAt (State.memberPart list results j) b = byteAt list (32 * j + b)) := by
  unfold State.memberPart
  refine ⟨by rw [List.length_map, List.length_range], fun b hb => ?_⟩
  rw [byteAt_range_map _ hb]
  refine ⟨fun x hx => ⟨fun h5 => ?_, fun h6 => ?_⟩, fun hn => ?_⟩
  · simp only [hx, h5]
    rfl
  · simp only [hx, h6]
    rfl
  · rcases hn with ⟨h5, h6⟩ | hlen
    · cases results[4 * j + b / 8]? with
      | none => rfl
      | some x => exact (if_neg (by simpa using h5)).trans (if_neg (by simpa using h6))
    · rw [List.getElem?_eq_none hlen]

/-- The result writes of a record (R34). -/
theorem resultWrites_octets (s : State) (id : Nat) (ref : OrderRef) (code : ResultCode) (values : List Byte)
    (members : List (Byte × Byte)) : let l := s.resultWrites id ref code values members
    l.length = 1 + (members.length + 3) / 4 ∧
      l[0]? = some ⟨ref.addr + 0x28#64, s.resultArea code values, .result id⟩ ∧
      ∀ (j : Nat) w, l[j + 1]? = some w →
        w = ⟨ref.addr + BitVec.ofNat 64 (64 + 32 * j), State.memberPart ref.memberList members j, .result id⟩ := by
  dsimp only
  unfold State.resultWrites
  refine ⟨by rw [List.length_cons, List.length_map, List.length_range, Nat.add_comm], rfl, fun j w hw => ?_⟩
  rw [List.getElem?_cons_succ, List.getElem?_map, Option.map_eq_some_iff] at hw
  obtain ⟨k, hk, rfl⟩ := hw
  obtain ⟨hlt, rfl⟩ := List.getElem?_eq_some_iff.mp hk
  rw [List.getElem_range]

/-! ### Notice entries -/

theorem portSource_code (p : PortNo) :
    Source.code (portSource p) = BitVec.ofNat 8 (if p.val < 8 then p.val else 56 + p.val) := by
  unfold portSource
  by_cases h : p.val < 8
  · rw [dif_pos h, if_pos h]
    rfl
  · rw [dif_neg h, if_neg h, Source.code]
    exact congrArg (BitVec.ofNat 8) (by dsimp only; omega)

/-- The hand-over word, the stamp and the octets without a field before the fields of a notice (R165). -/
theorem notice_opening (o : ByteOrder) (n : Notice) : let b := n.bytes o
    b.length = 32 ∧ fieldAt o b 0 4 = 1 ∧ fieldAt o b 4 4 = n.stamp.toNat ∧ ZeroOctets b 9 12 := by
  have hfields : (n.body.fields o).length = 20 := by
    cases n.body <;> simp [NoticeBody.fields, fieldBytes_length]
  dsimp only
  generalize hb : n.bytes o = b
  rw [Notice.bytes] at hb
  simp only [fieldBytes_four, List.cons_append, List.nil_append] at hb
  subst hb
  refine ⟨?_, fieldAt_of_part (v := 1) (fieldBytes_four _ _).symm, fieldAt_bits (fieldBytes_four _ _).symm (by decide),
    zero_of_part (n := 3) rfl⟩
  simp only [List.length_cons, hfields]

end Sys2Proof.Machine
end

section
/-! PROOFS. The notice entries by kind, and the written octets as a whole (13.1 to 13.3). -/

namespace Sys2Proof.Machine

open Sys2Proof

/-- Every value has its code (13.1). -/
theorem codes_listed : let codes := fun n k : Nat => (List.range k).map fun i => BitVec.ofNat 8 (n + i)
    [.toFibre, .toCopper].map Direction.code = codes 0 2 ∧ [.a, .b].map Span.code = codes 0 2 ∧
    [.initiator, .responder].map Role.code = codes 0 2 ∧
    [.copper, .bridged, .fibre, .stranded, .unequipped].map PathState.code = codes 0 5 ∧
    [.awaitingOffer, .offering, .matching, .rolled, .releasing, .unwinding].map BridgePhase.code = codes 0 6 ∧
    [.line, .span, .none].map Receive.code = codes 0 3 ∧
    [.idle, .seized, .answered, .blocked, .unknown].map Activity.code = codes 0 5 ∧
    [.disabled, .seek, .answer, .inService, .holdDown, .proving].map LineState.code = codes 0 6 ∧
    [.stopped, .fetching, .parked, .waiting, .faulted].map RunnerState.code = codes 0 5 ∧
    [.none, .fetchError, .badAddress, .nextLoop].map RunnerFault.code = codes 0 4 ∧
    (∀ x, [.freeRun, .locked x, .holdover].map FtuMode.code = codes 0 3) ∧
    [.offer, .accept, .decline, .rolled, .release, .abandon].map MessageKind.code = codes 1 6 ∧
    [.notExpected, .mismatch, .busy, .ordered, .matchTimeout, .noAnswer, .peerStall, .restart, .groupUnwind, .pathLost,
     .concluded].map Reason.code = codes 1 11 ∧
    [.done, .doneForced, .fallback, .abandoned, .forced, .peerAbandoned, .declined, .noAnswer, .matchTimeout, .peerStall,
     .waitExpired, .expired, .busy, .stale, .spanDown, .slotTaken, .badState, .malformed, .tooLate, .nothing, .restarted,
     .held, .unwoundByGroup, .pathLost, .spanBusy, .absent].map ResultCode.code = codes 1 26 ∧
    [.order, .trained, .rankClash, .errors, .peerRestart, .recovered, .proveEnd].map SpanCause.code = codes 0 7 ∧
    [.errors, .rankClash].map HoldCause.code = codes 0 2 ∧ [.repeating, .deleting].map SlipKind.code = codes 0 2 ∧
    [.present, .lost].map Presence.code = codes 0 2 ∧
    [.missingSync, .misplacedSync, .noSignal, .recovered].map PortCause.code = codes 0 4 ∧
    [.order, .referenceLost, .qualified, .reverted].map TimingCause.code = codes 0 4 ∧
    [.reject, .timeout].map MemoryCause.code = codes 0 2 ∧ [.follow, .drive].map ClockRole.code = codes 0 2 ∧
    [.short, .long].map SyncStyle.code = codes 0 2 ∧ [.loading, .ready, .warming, .configFault].map Phase.code = codes 0 4 ∧
    (List.finRange 8).map (fun k => Source.code (.office k)) = codes 0 8 ∧
    (List.finRange 8).map (fun k => Source.code (.line k)) = codes 64 8 ∧
    [.a, .b].map (fun sp => Source.code (.span sp)) = codes 128 2 ∧
    ∀ p : LinePos, p.code = BitVec.ofNat 8 (32 * p.port.val + p.slot.val) :=
  ⟨rfl, rfl, rfl, rfl, rfl, rfl, rfl, rfl, rfl, rfl, fun _ => rfl, rfl, rfl, rfl, rfl, rfl, rfl, rfl, rfl, rfl, rfl, rfl,
    rfl, rfl, rfl, rfl, rfl, fun _ => rfl⟩

/-- The hand-over words (R163). -/
theorem wordWrite_octets (s : State) (addr : Addr) (word : Nat) (x : Claimant) (h : word < 4) :
    let w := s.wordWrite addr word x
    w.addr = addr ∧ w.claimant = x ∧ w.data.length = 4 ∧ fieldAt s.cfg.byteOrder w.data 0 4 = word :=
  ⟨rfl, rfl, fieldBytes_length _ _ _, (fieldAt_fieldBytes _ _ _).trans (Nat.mod_eq_of_lt (by omega))⟩

/-- Settles O58. -/
theorem writtenOctets : Obligations.WrittenOctets := by
  unfold Obligations.WrittenOctets
  refine ⟨fieldAt_steps, codes_listed, ⟨rfl, rfl, wordWrite_octets⟩, fun s id ref code values members => ?_,
    moveValues_octets, mapValues_octets, spanValues_octets, timingValues_octets, fun o n => ?_⟩
  · obtain ⟨hlen, hfirst, hparts⟩ := resultWrites_octets s id ref code values members
    refine ⟨hlen, fun w hw => ?_, fun j w hw => ?_⟩
    · obtain rfl : _ = w := Option.some.inj (hfirst.symm.trans hw)
      obtain ⟨hcode, hzero, hframe, hvalues⟩ := resultArea_octets s code values
      exact ⟨rfl, rfl, hcode, hzero, hframe, hvalues⟩
    · obtain rfl := hparts j w hw
      obtain ⟨hlength, hoctets⟩ := memberPart_octets ref.memberList members j
      exact ⟨rfl, rfl, hlength, hoctets⟩
  · obtain ⟨hlen, hword, hstamp, hzero⟩ := notice_opening o n
    refine ⟨hlen, hword, hstamp, hzero, ?_⟩
    obtain ⟨stamp, body⟩ := n
    clear hlen hword hstamp hzero
    dsimp only
    generalize hb : Notice.bytes o ⟨stamp, body⟩ = b
    rw [Notice.bytes] at hb
    cases body <;>
      simp only [NoticeBody.fields, NoticeBody.kind, fieldBytes_two, fieldBytes_four, fieldBytes_eight, optOctet_eq,
        portSource_code, List.cons_append, List.nil_append, List.replicate] at hb <;> subst hb
    case orderSettled =>
      exact ⟨rfl, rfl, rfl, zero_of_part (n := 2) rfl, fieldAt_bits (fieldBytes_eight _ _).symm (by decide),
        fieldAt_bits (fieldBytes_four _ _).symm (by decide), zero_of_part (n := 4) rfl⟩
    case stranded => exact ⟨rfl, rfl, zero_of_part (n := 19) rfl⟩
    case heldConcluded =>
      exact ⟨rfl, rfl, rfl, rfl, rfl, rfl, rfl, marks_two _ _, zero_of_part (n := 5) rfl,
        fieldAt_bits (fieldBytes_two _ _).symm (by decide), rfl, rfl, rfl, rfl, rfl, zero_of_part (n := 1) rfl⟩
    case spanState => exact ⟨rfl, rfl, rfl, rfl, rfl, rfl, zero_of_part (n := 15) rfl⟩
    case portState => exact ⟨rfl, rfl, rfl, rfl, zero_of_part (n := 17) rfl⟩
    case slip =>
      exact ⟨rfl, rfl, rfl, zero_of_part (n := 10) rfl, fieldAt_bits (fieldBytes_two _ _).symm (by decide),
        zero_of_part (n := 6) rfl⟩
    case timingState left entered priority cause =>
      have hreference : ∀ m : FtuMode, m.referenceOctet = match m with
          | .locked x => Source.code x
          | .freeRun | .holdover => 0xFF := fun m => by cases m <;> rfl
      exact ⟨rfl, rfl, hreference left, rfl, hreference entered, rfl, rfl, zero_of_part (n := 14) rfl⟩
    case runnerFault =>
      exact ⟨rfl, rfl, rfl, zero_of_part (n := 2) rfl, fieldAt_bits (fieldBytes_eight _ _).symm (by decide),
        zero_of_part (n := 8) rfl⟩
    case memoryFault =>
      exact ⟨rfl, rfl, rfl, zero_of_part (n := 2) rfl, fieldAt_bits (fieldBytes_eight _ _).symm (by decide),
        zero_of_part (n := 8) rfl⟩
    case overflow lost =>
      exact ⟨rfl, zero_of_part (n := 12) rfl,
        fun h => Eq.trans (fieldAt_of_part (fieldBytes_two _ _).symm) (Nat.mod_eq_of_lt (by omega)),
        zero_of_part (n := 6) rfl⟩

end Sys2Proof.Machine
end
